-- ==== Sys2Proof/Word.lean ====
section
/-! DEFINITION. The words of the machine and the shape of sparse storage. -/

namespace Sys2Proof

/-- A byte of memory (R122). -/
abbrev Byte := BitVec 8
/-- A full x register (R5, R101). -/
abbrev Word := BitVec 64
/-- A full v register (R5, R101). -/
abbrev VWord := BitVec 128

/-- Sparse storage keyed by numbers: strictly rising keys, one entry a key. -/
abbrev SMap (α : Type) := List (Nat × α)

/-- Memory: one entry for each byte that something has written, addresses strictly rising. -/
abbrev Memory := List Host.Cell

end Sys2Proof
end

