-- ==== Sys2Proof/Config.lean ====
section
/-! DEFINITION. What one implementation fixes, and the free values: constants without a body, of
which nothing can be proved. -/

namespace Sys2Proof.Config

/-- A value that the spec leaves open, drawn with the counter `free` of the state. -/
opaque freeWord : Nat → BitVec 128

/-- What a byte that nothing has written under the key of the read returns (R165, R445):
    the first number is the location, the second the draw. -/
opaque unwritten : Nat → Nat → Byte

/-- Whether an event that may happen in this cycle happens in it, by draw. -/
opaque happens : Nat → Bool

/-- Where the rotation pointer of a core stands after reset or REPART (R28), by draw. -/
opaque pointerPhase : Nat → Nat

/-- How far the CYCLE register of a die runs ahead (R110: dies differ by at most 32 cycles). -/
opaque dieSkew : Nat → Nat

/-- Whether the root complex completes PCIe AtomicOps (R158, R311). -/
opaque atomicCompleter : Bool

/-- The set of a cluster data cache in which a line stands, by the number of its key and address (R156): of
    128 sets. -/
opaque viewSet : Nat → Nat

/-- The set of an instruction cache in which a line stands, by the number of its key and address (R171): of 256
    sets. -/
opaque codeSet : Nat → Nat

/-- Whether the boot image passes its checks, by draw: 1 running, 2 signature, 3 version,
    4 self-test (R313, R316). -/
opaque bootResult : Nat → Nat

/-- The pair of key k that boot loads, by draw and key: key 0 is generated, and the 64 keys are loaded
    (R316, R318). -/
opaque bootKey : Nat → Nat → BitVec 512

/-- Where the firmware's resident dispatcher of a core starts: PC, PTBASE and KEYID, by the core's number (R7, R20,
    R111). -/
opaque supervisorStart : Nat → BitVec 64 × BitVec 64 × BitVec 6

/-- The six measurement registers (R317): the draw of the boot that checked the image, the register, what
    of the state it measures, and the byte. -/
opaque measurement : Nat → Nat → List Nat → Nat → Byte

/-- The ML-KEM-1024 public key of the device (R317), by byte. -/
opaque mlkemKey : Nat → Byte

/-- The RSASSA-PSS and SLH-DSA signatures over a reply (R317), by draw, reply bytes and index. -/
opaque signature : Nat → List Byte → Nat → Byte

/-- Unwrapping of a key pair (R318): the ciphertext, nonce, wrapped pair and tag give the
    512-bit pair, or nothing where the authentication fails. -/
opaque unwrapKey : List Byte → Option (BitVec 512)

end Sys2Proof.Config
end

