-- ==== Sys2Proof/Syntax.lean ====
section
/-! DEFINITION. The instructions of Prihotrum and the events of the device: one constructor for each
row of the opcode table. -/

namespace Sys2Proof

/-- Where a thread stands: package cluster, core, slot (R8). -/
structure Loc where
  clu : Nat
  core : Nat
  slot : Nat
  deriving DecidableEq, Repr

/-- The dependence byte together with the switch marker S (R55, R58). -/
structure Dep where
  s : Bool
  sc : BitVec 3
  sa : BitVec 3
  pd : BitVec 2
  deriving DecidableEq, Repr

/-- An x register as an operand that may not name a port (R73, R74). -/
abbrev XReg := BitVec 6
/-- A v register (R75). -/
abbrev VReg := BitVec 6
/-- A port register q0 to q7 (R73). -/
abbrev PReg := BitVec 3
/-- An operand slot of a matrix unit (R82). -/
abbrev TSlot := BitVec 5

/-- A scalar operand that may name a port (R73, R74). -/
inductive Opr where
  | x (n : XReg)
  | q (n : PReg)
  deriving DecidableEq, Repr

/-- The operand width of the .d and .w forms. -/
inductive Wid where
  | d
  | w
  deriving DecidableEq, Repr

/-- The operand format of the .f32 and .f64 forms. -/
inductive FWid where
  | f32
  | f64
  deriving DecidableEq, Repr

/-- Access sizes (R76). -/
inductive Size where
  | b | h | w | d | q
  deriving DecidableEq, Repr

/-- Access orders (R76). -/
inductive Ord where
  | rlx | acq | rel | ar
  deriving DecidableEq, Repr

/-- Access scopes (R76, R174). -/
inductive Scope where
  | thr | grp | core | clu | die | pkg | pod | hst | sys
  deriving DecidableEq, Repr

/-- Rounding selections (R79); `dyn` is the mode in FPCTL. -/
inductive RM where
  | dyn | rne | rtz | rdn | rup | rs
  deriving DecidableEq, Repr

/-- Formats (R77). -/
inductive Fmt where
  | fp32 | fp64 | fp16 | bf16 | e4m3 | e5m2 | e2m1 | e8m0 | pxf8
  | i8 | i16 | i32 | i64 | n8 | n16 | n32 | n64
  deriving DecidableEq, Repr

/-- Conditions of CMP and CMPI (R78). -/
inductive Cond where
  | eq | ne | lt | ge | ltu | geu | le | gt | leu | gtu | bs | bc
  deriving DecidableEq, Repr

/-- Conditions of FCMP and VCMP (R78). -/
inductive FCond where
  | eq | ne | lt | ge | le | gt | uo | ord
  deriving DecidableEq, Repr

/-- Kinds of FENCE (R85, class 7). -/
inductive FenceKind where
  | full | acq | rel | ww | rr | eng
  deriving DecidableEq, Repr

/-- Shapes of MMA (R227). -/
inductive Shape where
  | m16n16k16 | m16n16k32 | m16n16k64 | m32n32k16 | m32n32k32 | m32n32k64 | m64n32k32 | m64n64k16
  deriving DecidableEq, Repr

/-- Rules for the sign of FSGN (R359). -/
inductive SgnOp where
  | copy | neg | xor
  deriving DecidableEq, Repr

/-- Kinds of TLBI (R402). -/
inductive TlbiKind where
  | page | space | all
  deriving DecidableEq, Repr

/-- The memory operand and codes of FMEM (R82). -/
structure MemArg where
  disp : BitVec 16
  base : XReg
  ord : Ord
  scope : Scope
  deriving DecidableEq, Repr

/-- The size, order, scope and M of AMO and CAS (R85, class 7). -/
structure AmoArg where
  size : Size
  ord : Ord
  scope : Scope
  m : Bool
  deriving DecidableEq, Repr

/-- Who owns a replay window: a port of the thread at a location, or the fault sender of a cluster
    (R266, R297). -/
inductive Sender where
  | port (l : Loc) (q : PReg)
  | fault (clu : Nat)
  deriving DecidableEq, Repr

/-- One instruction of a thread, or one event of the device. Events name what they act on; what they
    carry from outside the package stands in their arguments. -/
inductive Instr where
  -- class 0x0
  | nop (s : Bool)
  | br (d : Dep) (disp : BitVec 19) (idx : BitVec 5)
  | call (d : Dep) (disp : BitVec 19) (idx : BitVec 5)
  | callr (d : Dep) (r : XReg)
  | jr (d : Dep) (r : XReg)
  | ret (s : Bool)
  | trap (d : Dep) (r : XReg)
  | eret (s : Bool)
  | reth (s : Bool)
  | yield (s : Bool)
  | pfi (d : Dep) (disp : BitVec 19)
  | halt (s : Bool)
  | exit (s : Bool)
  | csrr (d : Dep) (csr : BitVec 12) (rd : Opr)
  | csrw (d : Dep) (csr : BitVec 12) (r : XReg)
  | repart (d : Dep) (rd : XReg) (p : Bool)
  | spill (d : Dep) (rd ra : XReg)
  | rstr (d : Dep) (rd ra : XReg)
  | xrd (d : Dep) (rd ra : XReg)
  | xwr (d : Dep) (ra rb : XReg)
  | xres (d : Dep) (r : XReg)
  | tlbi (d : Dep) (ra rb : XReg) (kind : TlbiKind)
  | keyret (d : Dep) (rd ra : XReg)
  | keyretComplete (idx : Nat)
  -- class 0x1
  | add (d : Dep) (wd : Wid) (rd ra rb : Opr)
  | sub (d : Dep) (wd : Wid) (rd ra rb : Opr)
  | mul (d : Dep) (wd : Wid) (rd ra rb : Opr)
  | mulh (d : Dep) (wd : Wid) (rd ra rb : Opr)
  | mulhn (d : Dep) (wd : Wid) (rd ra rb : Opr)
  | div (d : Dep) (wd : Wid) (rd ra rb : XReg)
  | divn (d : Dep) (wd : Wid) (rd ra rb : XReg)
  | rem (d : Dep) (wd : Wid) (rd ra rb : XReg)
  | remn (d : Dep) (wd : Wid) (rd ra rb : XReg)
  | and (d : Dep) (wd : Wid) (rd ra rb : Opr)
  | andn (d : Dep) (wd : Wid) (rd ra rb : Opr)
  | or (d : Dep) (wd : Wid) (rd ra rb : Opr)
  | xor (d : Dep) (wd : Wid) (rd ra rb : Opr)
  | shl (d : Dep) (wd : Wid) (rd ra rb : Opr)
  | shr (d : Dep) (wd : Wid) (rd ra rb : Opr)
  | sra (d : Dep) (wd : Wid) (rd ra rb : Opr)
  | rot (d : Dep) (wd : Wid) (rd ra rb : Opr)
  | min (d : Dep) (wd : Wid) (rd ra rb : Opr)
  | minn (d : Dep) (wd : Wid) (rd ra rb : Opr)
  | max (d : Dep) (wd : Wid) (rd ra rb : Opr)
  | maxn (d : Dep) (wd : Wid) (rd ra rb : Opr)
  | clz (d : Dep) (wd : Wid) (rd ra : Opr)
  | ctz (d : Dep) (wd : Wid) (rd ra : Opr)
  | popc (d : Dep) (wd : Wid) (rd ra : Opr)
  | bfx (d : Dep) (wd : Wid) (rd ra : Opr) (pos len : BitVec 6)
  | bfxR (d : Dep) (wd : Wid) (rd ra rb rc : Opr)
  | bfi (d : Dep) (wd : Wid) (rd : XReg) (ra : Opr) (pos len : BitVec 6)
  | bfiR (d : Dep) (wd : Wid) (rd : XReg) (ra rb rc : Opr)
  | sel (d : Dep) (rd ra rb rc : Opr)
  -- class 0x2
  | addiFrri (d : Dep) (wd : Wid) (rd ra : Opr) (imm : BitVec 10)
  | addiFi32 (d : Dep) (wd : Wid) (rd ra : Opr) (imm : BitVec 32)
  | andiFrri (d : Dep) (wd : Wid) (rd ra : Opr) (imm : BitVec 10)
  | andiFi32 (d : Dep) (wd : Wid) (rd ra : Opr) (imm : BitVec 32)
  | oriFrri (d : Dep) (wd : Wid) (rd ra : Opr) (imm : BitVec 10)
  | oriFi32 (d : Dep) (wd : Wid) (rd ra : Opr) (imm : BitVec 32)
  | xoriFrri (d : Dep) (wd : Wid) (rd ra : Opr) (imm : BitVec 10)
  | xoriFi32 (d : Dep) (wd : Wid) (rd ra : Opr) (imm : BitVec 32)
  | shli (d : Dep) (wd : Wid) (rd ra : Opr) (n : BitVec 6)
  | shri (d : Dep) (wd : Wid) (rd ra : Opr) (n : BitVec 6)
  | srai (d : Dep) (wd : Wid) (rd ra : Opr) (n : BitVec 6)
  | li (d : Dep) (rd : Opr) (imm : BitVec 48)
  | liH (d : Dep) (rd : XReg) (imm : BitVec 16)
  | lea (d : Dep) (rd ra : Opr) (sh : BitVec 3) (imm : BitVec 32)
  | leaPc (d : Dep) (rd : Opr) (imm : BitVec 32)
  | mov (d : Dep) (rd ra : Opr)
  -- class 0x3
  | cmp (d : Dep) (wd : Wid) (c : Cond) (skip : BitVec 2) (rdx : BitVec 4) (ra rb : Opr)
  | cmpi (d : Dep) (wd : Wid) (c : Cond) (skip : BitVec 2) (rd : BitVec 4) (ra : Opr) (imm : BitVec 32)
  | fcmp (d : Dep) (f : FWid) (c : FCond) (skip : BitVec 2) (rdx : BitVec 4) (ra rb : Opr)
  | annulPass (l : Loc)
  -- class 0x4
  | fadd (d : Dep) (f : FWid) (rm : RM) (rd ra rb : Opr)
  | fsub (d : Dep) (f : FWid) (rm : RM) (rd ra rb : Opr)
  | fmul (d : Dep) (f : FWid) (rm : RM) (rd ra rb : Opr)
  | ffma (d : Dep) (f : FWid) (rm : RM) (rd ra rb rc : Opr)
  | ffmai (d : Dep) (f : FWid) (rm : RM) (rd : XReg) (ra : Opr) (imm : BitVec 32)
  | fdiv (d : Dep) (f : FWid) (rm : RM) (rd ra rb : XReg)
  | fsqrt (d : Dep) (f : FWid) (rm : RM) (rd ra : XReg)
  | fmin (d : Dep) (f : FWid) (rd ra rb : Opr)
  | fmax (d : Dep) (f : FWid) (rd ra rb : Opr)
  | fsgn (d : Dep) (f : FWid) (k : SgnOp) (rd ra rb : Opr)
  -- class 0xC
  | exp2 (d : Dep) (rd ra : XReg)
  | log2 (d : Dep) (rd ra : XReg)
  | rcp (d : Dep) (rd ra : XReg)
  | rsq (d : Dep) (rd ra : XReg)
  | tanh (d : Dep) (rd ra : XReg)
  | cvt (d : Dep) (rm : RM) (sat : Bool) (sf tf : Fmt) (rd ra : Opr)
  | cvtV (d : Dep) (rm : RM) (sat : Bool) (sf tf : Fmt) (rd ra : VReg)
  | vqnt (d : Dep) (f : Fmt) (rd ra : VReg) (rb : Opr)
  | vdq (d : Dep) (f : Fmt) (rd ra : VReg) (rb : Opr)
  -- class 0x5
  | vadd (d : Dep) (f : Fmt) (vd va vb : VReg)
  | vsub (d : Dep) (f : Fmt) (vd va vb : VReg)
  | vmul (d : Dep) (f : Fmt) (vd va vb : VReg)
  | vfma (d : Dep) (f : Fmt) (vd va vb : VReg)
  | vmin (d : Dep) (f : Fmt) (vd va vb : VReg)
  | vmax (d : Dep) (f : Fmt) (vd va vb : VReg)
  | vdot (d : Dep) (f : Fmt) (vd va vb : VReg)
  | vredAdd (d : Dep) (f : Fmt) (vd va : VReg)
  | vredMin (d : Dep) (f : Fmt) (vd va : VReg)
  | vredMax (d : Dep) (f : Fmt) (vd va : VReg)
  | vshuf (d : Dep) (f : Fmt) (vd va vb : VReg)
  | vbcast (d : Dep) (size : Size) (vd : VReg) (ra : Opr)
  | vsel (d : Dep) (f : Fmt) (vd va vb : VReg)
  | vins (d : Dep) (size : Size) (lane : BitVec 4) (vd : VReg) (ra : Opr)
  | vext (d : Dep) (size : Size) (lane : BitVec 4) (rd : Opr) (va : VReg)
  | vcmp (d : Dep) (c : FCond) (f : Fmt) (vd va vb : VReg)
  | vld (d : Dep) (vd : VReg) (a : MemArg)
  | vst (d : Dep) (vd : VReg) (a : MemArg)
  -- class 0x6
  | ld (d : Dep) (m : Bool) (size : Size) (rd : XReg) (a : MemArg)
  | ldS (d : Dep) (m : Bool) (size : Size) (rd : XReg) (a : MemArg)
  | st (d : Dep) (m : Bool) (size : Size) (rd : Opr) (a : MemArg)
  | ldc (d : Dep) (size : Size) (rd : XReg) (a : MemArg)
  | lds (d : Dep) (rd : XReg) (a : MemArg)
  | unsub (d : Dep) (r : XReg)
  | take (d : Dep) (rd ra : XReg)
  | takeS (d : Dep) (rd ra rb : XReg)
  | pfd (d : Dep) (a : MemArg)
  | smap (d : Dep) (rd ra rb rc : XReg)
  | sunmap (d : Dep) (rd ra : XReg)
  | wb (d : Dep) (scope : Scope) (ra rb : XReg)
  | inv (d : Dep) (scope : Scope) (ra rb : XReg)
  | wbi (d : Dep) (scope : Scope) (ra rb : XReg)
  | cvta (d : Dep) (rd ra : XReg)
  -- class 0x7
  | amoAdd (d : Dep) (a : AmoArg) (rd ra rb : XReg)
  | amoAnd (d : Dep) (a : AmoArg) (rd ra rb : XReg)
  | amoOr (d : Dep) (a : AmoArg) (rd ra rb : XReg)
  | amoXor (d : Dep) (a : AmoArg) (rd ra rb : XReg)
  | amoMin (d : Dep) (a : AmoArg) (rd ra rb : XReg)
  | amoMinn (d : Dep) (a : AmoArg) (rd ra rb : XReg)
  | amoMax (d : Dep) (a : AmoArg) (rd ra rb : XReg)
  | amoMaxn (d : Dep) (a : AmoArg) (rd ra rb : XReg)
  | amoSwap (d : Dep) (a : AmoArg) (rd ra rb : XReg)
  | amoFadd (d : Dep) (a : AmoArg) (rd ra rb : XReg)
  | cas (d : Dep) (a : AmoArg) (rd ra rb rc : XReg)
  | fence (d : Dep) (kind : FenceKind) (scope : Scope)
  -- class 0x8
  | copy (d : Dep) (rd ra : XReg)
  | copyNb (d : Dep) (rd ra : XReg)
  | copyq (d : Dep) (rd ra : XReg) (q : PReg)
  | copyElementApply (id : Nat)
  | copyCompletion (id : Nat)
  | qbind (d : Dep) (q : PReg) (ra : XReg)
  | qend (d : Dep) (q : PReg) (ra : XReg)
  | qstat (d : Dep) (rd : XReg) (q : PReg)
  | portWordArrival (src : Sender)
  | portReplay (src : Sender)
  -- class 0x9
  | bar (d : Dep) (b : BitVec 3)
  | groupForm (clu gang lnch point : Nat)
  | convene (d : Dep) (rd : XReg) (p : BitVec 3) (n1 : BitVec 6)
  | disband (s : Bool)
  | groupDissolve (clu gid : Nat)
  | spawn (d : Dep) (rd ra rb : XReg)
  | spawnL (d : Dep) (rd ra rb : XReg)
  | waitf (d : Dep) (r : Opr)
  | waitfPark (d : Dep) (r : Opr)
  | sig (d : Dep) (add : Bool) (ra rb : XReg)
  | tq (d : Dep) (rd ra : XReg)
  | migh (s : Bool)
  | migrationAccept (id : Nat)
  | migrationReplay (id : Nat)
  | completionForward (id : Nat)
  -- class 0xA
  | tclaim (d : Dep) (ta : TSlot)
  | trel (d : Dep) (ta : TSlot)
  | tld (d : Dep) (ta : TSlot) (ra rb : XReg)
  | tldR (d : Dep) (ta : TSlot) (ra rb : XReg)
  | tldPx (d : Dep) (ta : TSlot) (ra rb : XReg)
  | tst (d : Dep) (ta : TSlot) (ra rb : XReg)
  | fmtctx (d : Dep) (ra : XReg)
  | mma (d : Dep) (sh : Shape) (ra : XReg) (ta tb tc : TSlot) (zero : Bool)
  | acfg (d : Dep) (hash : Bool) (ra rb : XReg)
  | aclr (d : Dep)
  | drain (d : Dep) (ra : XReg)
  | drainT (d : Dep) (ra : XReg)
  | drainV (d : Dep) (vf : VReg) (ra : XReg)
  | astat (d : Dep) (ra : XReg)
  -- class 0xB
  | join (d : Dep) (ra rb : XReg)
  | ains (d : Dep) (ra rb : XReg)
  | cmpk (d : Dep) (f : Fmt) (rd ra rb rc : XReg)
  | expd (d : Dep) (f : Fmt) (rd ra rb rc : XReg)
  -- events
  | collectiveComplete (clu : Nat)
  | brackenRecheck (clu : Nat)
  | resultLanding (l : Loc) (id : Nat)
  | tokenCompletion (id : Nat)
  | trapDelivery (l : Loc)
  | haltAlone (l : Loc)
  | faultMessageEnter (clu : Nat)
  | lightInterruptDelivery (l : Loc)
  | lineFetch (l : Loc)
  | pageWalk (l : Loc) (va : Nat)
  | sliceExpiry (l : Loc)
  | heathSave (l : Loc)
  | heathRestore (clu off : Nat)
  | subscribeRequest (id : Nat)
  | subscribeAnswer (id : Nat)
  | pushArrival (id : Nat)
  | unsubscribeRequest (id : Nat)
  | finalMarker (id : Nat)
  | spontaneousWriteback (clu key line : Nat)
  | spontaneousDrop (clu key line : Nat)
  | pageMove (src dst size : Nat)
  | redirectReplay (l : Loc) (id : Nat)
  | collapse (id : Nat)
  | hostTakeHalf (half : Nat)
  | hostReleaseHalf (half : Nat) (data : Option (BitVec 512))
  | hostRecall (half : Nat) (data : Option (BitVec 512))
  | hostBar2Access (write : Bool) (off n : Nat) (data : BitVec 512)
  | hostCxlMemAccess (write : Bool) (hpa n : Nat) (data : BitVec 512)
  | hostkeyWrite (v : Word)
  | doorbellWrite (q : Nat) (v : Word)
  | qcfgWrite (q : Nat) (v : Word)
  | launchStart (id : Nat)
  | waitRecheck (id : Nat)
  | packetCompletion (id : Nat)
  | queueHoldRetry (q : Nat)
  | holdlimExpiry (q : Nat)
  | launchEnginePlace (die : Nat)
  | launchSteal (die : Nat)
  | taskRecordArrival (die : Nat)
  | taskRecordReplay (die : Nat)
  | dispatchTaskRecord (clu core : Nat)
  | abortLaunch (lnch : Nat)
  | fmodeWrite (v : Word)
  | hmrdbWrite (v : Word)
  | mailboxEntry (f : Nat) (data : BitVec 512)
  | pwrlimWrite (v : Word)
  | clockChange (mhz : Nat)
  | thermalThrottle (temp : Nat)
  | thermalFatal (temp : Nat)
  | correctedError (unit die clu addr : Nat) (syn : Word)
  | uncorrectableError (unit die clu addr : Nat) (syn : Word)
  | packageLoss (pkg : Nat)
  | linkStateChange (port state peer : Nat)
  | boot (pkgnum : Nat)
  | registerWrite (off : Nat) (v : Word)
  | accessAction (l : Loc) (id : Nat)
  | fixedResultWrite (l : Loc)
  | cxlCacheHostRecall (half : Nat)
  | rtresSet (clu n : Nat)
  | supervisorResume (clu : Nat)
  -- events without arguments
  | arbitrationGrant
  | packetLaunch
  | packetWait
  | packetSignal
  | packetCopy
  | packetMarker
  | packetIndirect
  | attest
  | loadkey
  | clearkey
  | hbmScrub
  | deviceReset
  | rotationPointerMove
  deriving DecidableEq, Repr

end Sys2Proof
end

