-- ==== Sys2Proof/WellFormed.lean ====
section
/-! DEFINITION. Which instructions an encoding may state: the reserved values of R65, R76 to R79, R84
and of the opcode map that the types of the operands do not already exclude. -/

namespace Sys2Proof

/-- The latency kinds of R59; events of the device have none. -/
inductive Kind where
  | fixed | variable | token | blocking | none | event
  deriving DecidableEq, Repr

/-- The kind of each instruction (R59). -/
def Instr.kind : Instr → Kind
  | .nop .. | .br .. | .jr .. | .ret .. | .trap .. | .eret .. | .reth .. | .yield .. | .pfi .. | .halt ..
  | .exit .. | .csrw .. | .xwr .. | .xres .. | .tlbi .. => .none
  | .call .. | .callr .. | .csrr .. => .fixed
  | .repart .. | .spill .. | .rstr .. | .xrd .. => .variable
  | .keyret .. => .token
  | .div .. | .divn .. | .rem .. | .remn .. | .fdiv .. | .fsqrt .. => .variable
  | .add .. | .sub .. | .mul .. | .mulh .. | .mulhn .. | .and .. | .andn .. | .or .. | .xor .. | .shl ..
  | .shr .. | .sra .. | .rot .. | .min .. | .minn .. | .max .. | .maxn .. | .clz .. | .ctz .. | .popc ..
  | .bfx .. | .bfxR .. | .bfi .. | .bfiR .. | .sel .. | .addiFrri .. | .addiFi32 .. | .andiFrri ..
  | .andiFi32 .. | .oriFrri .. | .oriFi32 .. | .xoriFrri .. | .xoriFi32 .. | .shli .. | .shri .. | .srai ..
  | .li .. | .liH .. | .lea .. | .leaPc .. | .mov .. | .cmp .. | .cmpi .. | .fcmp .. | .fadd .. | .fsub ..
  | .fmul .. | .ffma .. | .ffmai .. | .fmin .. | .fmax .. | .fsgn .. => .fixed
  | .exp2 .. | .log2 .. | .rcp .. | .rsq .. | .tanh .. => .variable
  | .cvt .. | .cvtV .. | .vqnt .. | .vdq .. | .vadd .. | .vsub .. | .vmul .. | .vfma .. | .vmin .. | .vmax ..
  | .vdot .. | .vredAdd .. | .vredMin .. | .vredMax .. | .vshuf .. | .vbcast .. | .vsel .. | .vins ..
  | .vext .. | .vcmp .. => .fixed
  | .vld .. | .ld .. | .ldS .. | .ldc .. | .take .. | .takeS .. | .smap .. | .sunmap .. | .cvta .. => .variable
  | .vst .. | .st .. | .pfd .. | .wb .. | .inv .. | .wbi .. | .fence .. => .none
  | .lds .. | .unsub .. => .token
  | .amoAdd .. | .amoAnd .. | .amoOr .. | .amoXor .. | .amoMin .. | .amoMinn .. | .amoMax .. | .amoMaxn ..
  | .amoSwap .. | .amoFadd .. | .cas .. => .variable
  | .copy .. | .copyNb .. | .copyq .. => .token
  | .qbind .. | .qend .. => .none
  | .qstat .. => .variable
  | .bar .. | .disband .. | .waitf .. | .waitfPark .. | .sig .. | .migh .. => .none
  | .convene .. | .spawn .. | .spawnL .. | .tq .. => .variable
  | .tclaim .. | .trel .. | .tld .. | .tldR .. | .tldPx .. | .tst .. | .fmtctx .. | .mma .. | .acfg ..
  | .aclr .. | .drain .. | .drainT .. | .join .. | .ains .. | .expd .. => .none
  | .drainV .. | .astat .. => .variable
  | .cmpk .. => .blocking
  | .keyretComplete .. | .annulPass .. | .copyElementApply .. | .copyCompletion .. | .portWordArrival ..
  | .portReplay .. | .groupForm .. | .groupDissolve .. | .migrationAccept .. | .migrationReplay ..
  | .completionForward .. | .collectiveComplete .. | .brackenRecheck .. | .resultLanding ..
  | .tokenCompletion .. | .trapDelivery .. | .haltAlone .. | .faultMessageEnter ..
  | .lightInterruptDelivery .. | .lineFetch .. | .pageWalk .. | .sliceExpiry .. | .heathSave ..
  | .heathRestore .. | .subscribeRequest .. | .subscribeAnswer .. | .pushArrival ..
  | .unsubscribeRequest .. | .finalMarker .. | .spontaneousWriteback .. | .spontaneousDrop ..
  | .pageMove .. | .redirectReplay .. | .collapse .. | .hostTakeHalf .. | .hostReleaseHalf ..
  | .hostRecall .. | .hostBar2Access .. | .hostCxlMemAccess .. | .hostkeyWrite .. | .doorbellWrite ..
  | .qcfgWrite .. | .arbitrationGrant | .packetLaunch | .launchStart .. | .packetWait | .waitRecheck ..
  | .packetSignal | .packetCopy | .packetMarker | .packetIndirect | .packetCompletion ..
  | .queueHoldRetry .. | .holdlimExpiry .. | .launchEnginePlace .. | .launchSteal ..
  | .taskRecordArrival .. | .taskRecordReplay .. | .dispatchTaskRecord .. | .abortLaunch ..
  | .fmodeWrite .. | .hmrdbWrite .. | .mailboxEntry .. | .attest | .loadkey | .clearkey
  | .pwrlimWrite .. | .clockChange .. | .thermalThrottle .. | .thermalFatal .. | .correctedError ..
  | .uncorrectableError .. | .hbmScrub | .packageLoss .. | .linkStateChange .. | .deviceReset
  | .boot .. | .registerWrite .. | .accessAction .. | .fixedResultWrite .. | .rotationPointerMove
  | .cxlCacheHostRecall .. | .rtresSet .. | .supervisorResume .. => .event

/-- An instruction without a tail: the dependence byte is zero (R58). -/
def Dep.bare (s : Bool) : Dep := ⟨s, 0, 0, 0⟩

/-- The dependence byte and switch marker of an instruction; events have none. -/
def Instr.dep : Instr → Dep
  | .nop s | .ret s | .eret s | .reth s | .yield s | .halt s | .exit s | .disband s | .migh s => Dep.bare s
  | .br d .. | .call d .. | .callr d .. | .jr d .. | .trap d .. | .pfi d .. | .csrr d .. | .csrw d ..
  | .repart d .. | .spill d .. | .rstr d .. | .xrd d .. | .xwr d .. | .xres d .. | .tlbi d .. | .keyret d ..
  | .add d .. | .sub d .. | .mul d .. | .mulh d .. | .mulhn d .. | .div d .. | .divn d .. | .rem d ..
  | .remn d .. | .and d .. | .andn d .. | .or d .. | .xor d .. | .shl d .. | .shr d .. | .sra d .. | .rot d ..
  | .min d .. | .minn d .. | .max d .. | .maxn d .. | .clz d .. | .ctz d .. | .popc d .. | .bfx d .. | .bfxR d ..
  | .bfi d .. | .bfiR d .. | .sel d .. | .addiFrri d .. | .addiFi32 d .. | .andiFrri d .. | .andiFi32 d ..
  | .oriFrri d .. | .oriFi32 d .. | .xoriFrri d .. | .xoriFi32 d .. | .shli d .. | .shri d .. | .srai d ..
  | .li d .. | .liH d .. | .lea d .. | .leaPc d .. | .mov d .. | .cmp d .. | .cmpi d .. | .fcmp d ..
  | .fadd d .. | .fsub d .. | .fmul d .. | .ffma d .. | .ffmai d .. | .fdiv d .. | .fsqrt d .. | .fmin d ..
  | .fmax d .. | .fsgn d .. | .exp2 d .. | .log2 d .. | .rcp d .. | .rsq d .. | .tanh d .. | .cvt d ..
  | .cvtV d .. | .vqnt d .. | .vdq d .. | .vadd d .. | .vsub d .. | .vmul d .. | .vfma d .. | .vmin d ..
  | .vmax d .. | .vdot d .. | .vredAdd d .. | .vredMin d .. | .vredMax d .. | .vshuf d .. | .vbcast d ..
  | .vsel d .. | .vins d .. | .vext d .. | .vcmp d .. | .vld d .. | .vst d .. | .ld d .. | .ldS d .. | .st d ..
  | .ldc d .. | .lds d .. | .unsub d .. | .take d .. | .takeS d .. | .pfd d .. | .smap d .. | .sunmap d ..
  | .wb d .. | .inv d .. | .wbi d .. | .cvta d .. | .amoAdd d .. | .amoAnd d .. | .amoOr d .. | .amoXor d ..
  | .amoMin d .. | .amoMinn d .. | .amoMax d .. | .amoMaxn d .. | .amoSwap d .. | .amoFadd d .. | .cas d ..
  | .fence d .. | .copy d .. | .copyNb d .. | .copyq d .. | .qbind d .. | .qend d .. | .qstat d .. | .bar d ..
  | .convene d .. | .spawn d .. | .spawnL d .. | .waitf d .. | .waitfPark d .. | .sig d .. | .tq d ..
  | .tclaim d .. | .trel d .. | .tld d .. | .tldR d .. | .tldPx d .. | .tst d .. | .fmtctx d .. | .mma d ..
  | .acfg d .. | .aclr d | .drain d .. | .drainT d .. | .drainV d .. | .astat d .. | .join d .. | .ains d ..
  | .cmpk d .. | .expd d .. => d
  | _ => Dep.bare false

/-- Events of the device are no instructions of a program. -/
def Instr.isEvent (i : Instr) : Bool := i.kind = .event

/-- Element formats of VADD and its family (R85, class 5). -/
def Fmt.vecArith : Fmt → Bool
  | .fp32 | .fp64 | .fp16 | .bf16 | .i8 | .i16 | .i32 | .i64 | .n8 | .n16 | .n32 | .n64 => true
  | _ => false

/-- The IEEE formats of vector arithmetic (R123). -/
def Fmt.vecFloat : Fmt → Bool
  | .fp32 | .fp64 | .fp16 | .bf16 => true
  | _ => false

/-- Integer formats (R121). -/
def Fmt.isInt : Fmt → Bool
  | .i8 | .i16 | .i32 | .i64 | .n8 | .n16 | .n32 | .n64 => true
  | _ => false

/-- Input formats of VDOT (R85). -/
def Fmt.dotInput : Fmt → Bool
  | .fp16 | .bf16 | .e4m3 | .e5m2 | .i8 => true
  | _ => false

/-- Formats of CVT: every assigned code but PXF8. -/
def Fmt.cvt : Fmt → Bool
  | .pxf8 => false
  | _ => true

/-- Element formats of VQNT and VDQ (R417). -/
def Fmt.block : Fmt → Bool
  | .e4m3 | .e5m2 | .e2m1 => true
  | _ => false

/-- Formats of stream elements (R234). -/
def Fmt.stream : Fmt → Bool
  | .fp32 | .fp16 | .bf16 | .e4m3 | .e5m2 | .i32 => true
  | _ => false

/-- Scopes die to sys (R157). -/
def Scope.wide : Scope → Bool
  | .die | .pkg | .pod | .hst | .sys => true
  | _ => false

/-- Sizes B to D. -/
def Size.upToD : Size → Bool
  | .q => false
  | _ => true

/-- Sizes W and D. -/
def Size.wOrD : Size → Bool
  | .w | .d => true
  | _ => false

/-- Orders of a load (R76). -/
def Ord.forLoad : Ord → Bool
  | .rlx | .acq => true
  | _ => false

/-- Orders of a store (R76). -/
def Ord.forStore : Ord → Bool
  | .rlx | .rel => true
  | _ => false

/-- An even register number, for a pair (R339, R366, R397). -/
def XReg.even (r : XReg) : Bool := !r.getLsbD 0

/-- The data operand of a store of 16 bytes: an even register (R397). -/
def Opr.pair : Opr → Bool
  | .x n => XReg.even n
  | .q _ => false

/-- A shift count that a .w form may state (R392). -/
def Wid.fits : Wid → BitVec 6 → Bool
  | .d, _ => true
  | .w, n => n < 32

/-- Elements of each size in a v register (R122). -/
def Size.lanes : Size → Nat
  | .b => 16
  | .h => 8
  | .w => 4
  | .d => 2
  | .q => 1

/-- The fields of an instruction hold no reserved value that its operands' types leave possible. -/
def Instr.fieldsOk : Instr → Bool
  | .br _ _ idx | .call _ _ idx => idx ≠ 31
  | .bfx _ wd _ _ pos len | .bfi _ wd _ _ pos len => wd.fits pos && wd.fits len
  | .shli _ wd _ _ n | .shri _ wd _ _ n | .srai _ wd _ _ n => wd.fits n
  | .cvt _ _ _ sf tf _ _ | .cvtV _ _ _ sf tf _ _ => sf.cvt && tf.cvt
  | .vqnt _ f .. | .vdq _ f .. => f.block
  | .vadd _ f .. | .vsub _ f .. | .vmul _ f .. | .vmin _ f .. | .vmax _ f .. => f.vecArith
  | .vfma _ f .. => f.vecFloat
  | .vdot _ f .. => f.dotInput
  | .vredAdd _ f .. | .vredMin _ f .. | .vredMax _ f .. => f.vecArith
  | .vshuf _ f .. | .vsel _ f .. => f.isInt
  | .vbcast _ size .. => size.upToD
  | .vins _ size lane .. | .vext _ size lane .. => size.upToD && lane.toNat < size.lanes
  | .vcmp _ c f .. => f.vecArith && (f.vecFloat || (c ≠ .uo && c ≠ .ord))
  | .vld _ _ a => a.ord.forLoad
  | .vst _ _ a => a.ord.forStore
  | .ld _ _ size rd a => a.ord.forLoad && (size ≠ .q || XReg.even rd)
  | .ldS _ _ size _ a => a.ord.forLoad && size.upToD
  | .st _ _ size rd a => a.ord.forStore && (size ≠ .q || rd.pair)
  | .ldc _ size _ a => a.ord.forLoad && size.wOrD
  | .lds _ _ a => a.ord.forLoad && a.scope.wide
  | .pfd _ a => a.ord = .rlx
  | .amoAdd _ a .. | .amoAnd _ a .. | .amoOr _ a .. | .amoXor _ a .. | .amoMin _ a .. | .amoMinn _ a ..
  | .amoMax _ a .. | .amoMaxn _ a .. | .amoSwap _ a .. | .amoFadd _ a .. => a.size.wOrD
  | .cas _ a rd _ rb rc =>
    a.size.wOrD || (a.size = .q && XReg.even rd && XReg.even rb && XReg.even rc)
  | .cmpk _ f .. | .expd _ f .. => f.stream
  | _ => true

/-- A well-formed instruction: one that some encoding states. SA stands only in Variable instructions
    (R65), and events have no encoding. -/
def Instr.wellFormed (i : Instr) : Bool :=
  !i.isEvent && (i.dep.sa = 0 || i.kind = .variable) && i.fieldsOk

end Sys2Proof
end

