-- ==== Sys2Proof/Decode.lean ====
section
/-! DEFINITION. Code lines, formats, the decoder and the encoder. A logical word is a number: the head
in its low 16 bits, the tail above (R57). -/

namespace Sys2Proof

/-- Why a word or a line is refused. -/
inductive Reject where
  /-- the line is malformed (R54) -/
  | line
  /-- the index is not below the N of the line (R72) -/
  | index
  /-- the OPC is not listed in R85 -/
  | opcode
  /-- the TL is not that of the OPC (R56) -/
  | tail
  /-- a field holds a reserved value (R86) -/
  | field
  deriving DecidableEq, Repr

/-- The formats of R80 to R83. -/
inductive Format where
  | f0 | fq | frrr | frri | fcmp | fbr | fsys | fv | fmem | frrrr | ft | fi32 | fi48
  deriving DecidableEq, Repr

/-- Tail length in halfwords (R80 to R83). -/
def Format.tl : Format → Nat
  | .f0 => 0
  | .fq => 1
  | .frrr | .frri | .fcmp | .fbr | .fsys | .fv => 2
  | .fmem | .frrrr | .ft => 3
  | .fi32 | .fi48 => 4

/-- Widths of the fields of a tail, lowest first: PD, SA, SC, then the fields of R80 to R83. -/
def Format.widths : Format → List Nat
  | .f0 => []
  | .fq => [2, 3, 3, 7, 1]
  | .frrr => [2, 3, 3, 7, 7, 7, 3]
  | .frri => [2, 3, 3, 7, 7, 10]
  | .fcmp => [2, 3, 3, 7, 7, 4, 2, 4]
  | .fbr => [2, 3, 3, 5, 19]
  | .fsys => [2, 3, 3, 7, 12, 5]
  | .fv => [2, 3, 3, 6, 6, 6, 6]
  | .fmem => [2, 3, 3, 7, 7, 16, 3, 2, 4, 1]
  | .frrrr => [2, 3, 3, 7, 7, 7, 7, 12]
  | .ft => [2, 3, 3, 7, 7, 5, 5, 5, 3, 8]
  | .fi32 => [2, 3, 3, 7, 7, 10, 32]
  | .fi48 => [2, 3, 3, 7, 1, 48]

/-- The fields of a number, lowest first. -/
def unpack : List Nat → Nat → List Nat
  | [], _ => []
  | k :: ks, n => n % 2 ^ k :: unpack ks (n / 2 ^ k)

/-- The number of some fields, lowest first. -/
def pack : List Nat → List Nat → Nat
  | k :: ks, f :: fs => f + 2 ^ k * pack ks fs
  | _, _ => 0

/-- The code of a scalar operand field (R73). -/
def Opr.code : Opr → Nat
  | .x n => n.toNat
  | .q n => 64 + n.toNat

/-- A scalar operand field that may name a port (R73, R74). -/
def oprOf (k : Nat) : Option Opr :=
  if k < 64 then some (.x (BitVec.ofNat 6 k))
  else if k < 72 then some (.q (BitVec.ofNat 3 (k - 64)))
  else none

/-- A scalar operand field that names an x register, or a 7-bit field that names a v register
    (R73 to R75). -/
def xregOf (k : Nat) : Option XReg := if k < 64 then some (BitVec.ofNat 6 k) else none

/-- A field that must name a port (R256, R264). -/
def pregOf (k : Nat) : Option PReg := if 64 ≤ k ∧ k < 72 then some (BitVec.ofNat 3 (k - 64)) else none

/-- Form of the .d and .w forms (R85). -/
def Wid.code : Wid → Nat
  | .d => 0
  | .w => 1

/-- Form of the .d and .w forms (R85). -/
def widOf : Nat → Option Wid
  | 0 => some .d
  | 1 => some .w
  | _ => none

/-- Form of the .f32 and .f64 forms (R85). -/
def FWid.code : FWid → Nat
  | .f32 => 0
  | .f64 => 1

/-- Form of the .f32 and .f64 forms (R85). -/
def fwidOf : Nat → Option FWid
  | 0 => some .f32
  | 1 => some .f64
  | _ => none

/-- SIZE codes (R76). -/
def Size.code : Size → Nat
  | .b => 0
  | .h => 1
  | .w => 2
  | .d => 3
  | .q => 4

/-- SIZE codes (R76). -/
def sizeOf : Nat → Option Size
  | 0 => some .b
  | 1 => some .h
  | 2 => some .w
  | 3 => some .d
  | 4 => some .q
  | _ => none

/-- ORD codes (R76). -/
def Ord.code : Ord → Nat
  | .rlx => 0
  | .acq => 1
  | .rel => 2
  | .ar => 3

/-- ORD codes (R76). -/
def ordOf : Nat → Option Ord
  | 0 => some .rlx
  | 1 => some .acq
  | 2 => some .rel
  | 3 => some .ar
  | _ => none

/-- SCOPE codes (R76). -/
def Scope.code : Scope → Nat
  | .thr => 0
  | .grp => 1
  | .core => 2
  | .clu => 3
  | .die => 4
  | .pkg => 5
  | .pod => 6
  | .hst => 7
  | .sys => 8

/-- SCOPE codes (R76). -/
def scopeOf : Nat → Option Scope
  | 0 => some .thr
  | 1 => some .grp
  | 2 => some .core
  | 3 => some .clu
  | 4 => some .die
  | 5 => some .pkg
  | 6 => some .pod
  | 7 => some .hst
  | 8 => some .sys
  | _ => none

/-- RM codes (R79). -/
def RM.code : RM → Nat
  | .dyn => 0
  | .rne => 1
  | .rtz => 2
  | .rdn => 3
  | .rup => 4
  | .rs => 5

/-- RM codes (R79). -/
def rmOf : Nat → Option RM
  | 0 => some .dyn
  | 1 => some .rne
  | 2 => some .rtz
  | 3 => some .rdn
  | 4 => some .rup
  | 5 => some .rs
  | _ => none

/-- Format codes (R77). -/
def Fmt.code : Fmt → Nat
  | .fp32 => 0
  | .fp64 => 1
  | .fp16 => 2
  | .bf16 => 3
  | .e4m3 => 4
  | .e5m2 => 5
  | .e2m1 => 6
  | .e8m0 => 7
  | .pxf8 => 8
  | .i8 => 16
  | .i16 => 17
  | .i32 => 18
  | .i64 => 19
  | .n8 => 20
  | .n16 => 21
  | .n32 => 22
  | .n64 => 23

/-- Format codes (R77). -/
def fmtCode : Nat → Option Fmt
  | 0 => some .fp32
  | 1 => some .fp64
  | 2 => some .fp16
  | 3 => some .bf16
  | 4 => some .e4m3
  | 5 => some .e5m2
  | 6 => some .e2m1
  | 7 => some .e8m0
  | 8 => some .pxf8
  | 16 => some .i8
  | 17 => some .i16
  | 18 => some .i32
  | 19 => some .i64
  | 20 => some .n8
  | 21 => some .n16
  | 22 => some .n32
  | 23 => some .n64
  | _ => none

/-- COND codes of CMP and CMPI (R78). -/
def Cond.code : Cond → Nat
  | .eq => 0
  | .ne => 1
  | .lt => 2
  | .ge => 3
  | .ltu => 4
  | .geu => 5
  | .le => 6
  | .gt => 7
  | .leu => 8
  | .gtu => 9
  | .bs => 10
  | .bc => 11

/-- COND codes of CMP and CMPI (R78). -/
def condOf : Nat → Option Cond
  | 0 => some .eq
  | 1 => some .ne
  | 2 => some .lt
  | 3 => some .ge
  | 4 => some .ltu
  | 5 => some .geu
  | 6 => some .le
  | 7 => some .gt
  | 8 => some .leu
  | 9 => some .gtu
  | 10 => some .bs
  | 11 => some .bc
  | _ => none

/-- COND codes of FCMP and VCMP (R78). -/
def FCond.code : FCond → Nat
  | .eq => 0
  | .ne => 1
  | .lt => 2
  | .ge => 3
  | .le => 4
  | .gt => 5
  | .uo => 6
  | .ord => 7

/-- COND codes of FCMP and VCMP (R78). -/
def fcondOf : Nat → Option FCond
  | 0 => some .eq
  | 1 => some .ne
  | 2 => some .lt
  | 3 => some .ge
  | 4 => some .le
  | 5 => some .gt
  | 6 => some .uo
  | 7 => some .ord
  | _ => none

/-- Kinds of FENCE (R85). -/
def FenceKind.code : FenceKind → Nat
  | .full => 0
  | .acq => 1
  | .rel => 2
  | .ww => 3
  | .rr => 4
  | .eng => 5

/-- Kinds of FENCE (R85). -/
def fenceOf : Nat → Option FenceKind
  | 0 => some .full
  | 1 => some .acq
  | 2 => some .rel
  | 3 => some .ww
  | 4 => some .rr
  | 5 => some .eng
  | _ => none

/-- Forms of MMA (R85). -/
def Shape.code : Shape → Nat
  | .m16n16k16 => 0
  | .m16n16k32 => 1
  | .m16n16k64 => 2
  | .m32n32k16 => 3
  | .m32n32k32 => 4
  | .m32n32k64 => 5
  | .m64n32k32 => 6
  | .m64n64k16 => 7

/-- Forms of MMA (R85). -/
def shapeOf : Nat → Option Shape
  | 0 => some .m16n16k16
  | 1 => some .m16n16k32
  | 2 => some .m16n16k64
  | 3 => some .m32n32k16
  | 4 => some .m32n32k32
  | 5 => some .m32n32k64
  | 6 => some .m64n32k32
  | 7 => some .m64n64k16
  | _ => none

/-- MOD of FSGN (R85). -/
def SgnOp.code : SgnOp → Nat
  | .copy => 0
  | .neg => 1
  | .xor => 2

/-- MOD of FSGN (R85). -/
def sgnOf : Nat → Option SgnOp
  | 0 => some .copy
  | 1 => some .neg
  | 2 => some .xor
  | _ => none

/-- MOD of TLBI (R402). -/
def TlbiKind.code : TlbiKind → Nat
  | .page => 0
  | .space => 1
  | .all => 2

/-- MOD of TLBI (R402). -/
def tlbiOf : Nat → Option TlbiKind
  | 0 => some .page
  | 1 => some .space
  | 2 => some .all
  | _ => none

/-- A flag of one bit. -/
def bitOf (b : Bool) : Nat := if b then 1 else 0

/-- The flag of a one-bit field. -/
def flagOf : Nat → Option Bool
  | 0 => some false
  | 1 => some true
  | _ => none

/-- What an encoding states: OPC, format, S and the fields lowest first. -/
structure Enc where
  opc : Nat
  fmt : Format
  s : Bool
  fields : List Nat
  deriving DecidableEq, Repr

/-- The logical word of an encoding (R55, R57). -/
def Enc.word (e : Enc) : Nat :=
  e.opc + 2 ^ 12 * e.fmt.tl + 2 ^ 15 * bitOf e.s + 2 ^ 16 * pack e.fmt.widths e.fields

/-- The encoding with a dependence byte. -/
def encOf (opc : Nat) (fmt : Format) (d : Dep) (rest : List Nat) : Enc :=
  ⟨opc, fmt, d.s, d.pd.toNat :: d.sa.toNat :: d.sc.toNat :: rest⟩

/-- The fields of FMEM above RD (R82). -/
def MemArg.fields (a : MemArg) (size : Nat) (m : Bool) : List Nat :=
  [a.base.toNat, a.disp.toNat, size, a.ord.code, a.scope.code, bitOf m]

/-- MOD of AMO and CAS (R330). -/
def AmoArg.code (a : AmoArg) : Nat :=
  a.size.code + 8 * a.ord.code + 32 * a.scope.code + 512 * bitOf a.m

/-- MOD of AMO and CAS (R330). -/
def amoArgOf (n : Nat) : Option AmoArg := do
  let size ← sizeOf (n % 8)
  let ord ← ordOf (n / 8 % 4)
  let scope ← scopeOf (n / 32 % 16)
  let m ← flagOf (n / 512)
  some ⟨size, ord, scope, m⟩

/-- The memory operand of FMEM (R82). -/
def memArgOf (base disp ord scope : Nat) : Option MemArg := do
  let b ← xregOf base
  let o ← ordOf ord
  let sc ← scopeOf scope
  some ⟨BitVec.ofNat 16 disp, b, o, sc⟩

/-- The encoding of each instruction (R85); events have none. -/
def encode : Instr → Option Enc
  | .nop s => some ⟨0x000, .f0, s, []⟩
  | .ret s => some ⟨0x028, .f0, s, []⟩
  | .eret s => some ⟨0x038, .f0, s, []⟩
  | .reth s => some ⟨0x040, .f0, s, []⟩
  | .yield s => some ⟨0x048, .f0, s, []⟩
  | .halt s => some ⟨0x058, .f0, s, []⟩
  | .exit s => some ⟨0x060, .f0, s, []⟩
  | .disband s => some ⟨0x910, .f0, s, []⟩
  | .migh s => some ⟨0x938, .f0, s, []⟩
  | .br d disp idx => some (encOf 0x008 .fbr d [idx.toNat, disp.toNat])
  | .call d disp idx => some (encOf 0x010 .fbr d [idx.toNat, disp.toNat])
  | .callr d r => some (encOf 0x018 .fq d [r.toNat, 0])
  | .jr d r => some (encOf 0x020 .fq d [r.toNat, 0])
  | .trap d r => some (encOf 0x030 .fq d [r.toNat, 0])
  | .pfi d disp => some (encOf 0x050 .fbr d [0, disp.toNat])
  | .csrr d csr rd => some (encOf 0x080 .fsys d [rd.code, csr.toNat, 0])
  | .csrw d csr r => some (encOf 0x088 .fsys d [r.toNat, csr.toNat, 0])
  | .repart d rd p => some (encOf 0x090 .frri d [rd.toNat, 0, bitOf p])
  | .spill d rd ra => some (encOf 0x098 .frrr d [rd.toNat, ra.toNat, 0, 0])
  | .rstr d rd ra => some (encOf 0x0A0 .frrr d [rd.toNat, ra.toNat, 0, 0])
  | .xrd d rd ra => some (encOf 0x0A8 .frrr d [rd.toNat, ra.toNat, 0, 0])
  | .xwr d ra rb => some (encOf 0x0B0 .frrr d [0, ra.toNat, rb.toNat, 0])
  | .xres d r => some (encOf 0x0B8 .fq d [r.toNat, 0])
  | .tlbi d ra rb kind => some (encOf 0x0C0 .frrr d [0, ra.toNat, rb.toNat, kind.code])
  | .keyret d rd ra => some (encOf 0x0C8 .frrr d [rd.toNat, ra.toNat, 0, 0])
  | .add d wd rd ra rb => some (encOf (0x100 + wd.code) .frrr d [rd.code, ra.code, rb.code, 0])
  | .sub d wd rd ra rb => some (encOf (0x108 + wd.code) .frrr d [rd.code, ra.code, rb.code, 0])
  | .mul d wd rd ra rb => some (encOf (0x110 + wd.code) .frrr d [rd.code, ra.code, rb.code, 0])
  | .mulh d wd rd ra rb => some (encOf (0x118 + wd.code) .frrr d [rd.code, ra.code, rb.code, 0])
  | .mulhn d wd rd ra rb => some (encOf (0x120 + wd.code) .frrr d [rd.code, ra.code, rb.code, 0])
  | .and d wd rd ra rb => some (encOf (0x148 + wd.code) .frrr d [rd.code, ra.code, rb.code, 0])
  | .or d wd rd ra rb => some (encOf (0x150 + wd.code) .frrr d [rd.code, ra.code, rb.code, 0])
  | .xor d wd rd ra rb => some (encOf (0x158 + wd.code) .frrr d [rd.code, ra.code, rb.code, 0])
  | .andn d wd rd ra rb => some (encOf (0x160 + wd.code) .frrr d [rd.code, ra.code, rb.code, 0])
  | .shl d wd rd ra rb => some (encOf (0x168 + wd.code) .frrr d [rd.code, ra.code, rb.code, 0])
  | .shr d wd rd ra rb => some (encOf (0x170 + wd.code) .frrr d [rd.code, ra.code, rb.code, 0])
  | .sra d wd rd ra rb => some (encOf (0x178 + wd.code) .frrr d [rd.code, ra.code, rb.code, 0])
  | .rot d wd rd ra rb => some (encOf (0x180 + wd.code) .frrr d [rd.code, ra.code, rb.code, 0])
  | .min d wd rd ra rb => some (encOf (0x188 + wd.code) .frrr d [rd.code, ra.code, rb.code, 0])
  | .minn d wd rd ra rb => some (encOf (0x190 + wd.code) .frrr d [rd.code, ra.code, rb.code, 0])
  | .max d wd rd ra rb => some (encOf (0x198 + wd.code) .frrr d [rd.code, ra.code, rb.code, 0])
  | .maxn d wd rd ra rb => some (encOf (0x1A0 + wd.code) .frrr d [rd.code, ra.code, rb.code, 0])
  | .div d wd rd ra rb => some (encOf (0x128 + wd.code) .frrr d [rd.toNat, ra.toNat, rb.toNat, 0])
  | .divn d wd rd ra rb => some (encOf (0x130 + wd.code) .frrr d [rd.toNat, ra.toNat, rb.toNat, 0])
  | .rem d wd rd ra rb => some (encOf (0x138 + wd.code) .frrr d [rd.toNat, ra.toNat, rb.toNat, 0])
  | .remn d wd rd ra rb => some (encOf (0x140 + wd.code) .frrr d [rd.toNat, ra.toNat, rb.toNat, 0])
  | .clz d wd rd ra => some (encOf (0x1A8 + wd.code) .frrr d [rd.code, ra.code, 0, 0])
  | .ctz d wd rd ra => some (encOf (0x1B0 + wd.code) .frrr d [rd.code, ra.code, 0, 0])
  | .popc d wd rd ra => some (encOf (0x1B8 + wd.code) .frrr d [rd.code, ra.code, 0, 0])
  | .bfx d wd rd ra pos len => some (encOf (0x1C0 + wd.code) .frrrr d [rd.code, ra.code, 0, 0, pos.toNat + 64 * len.toNat])
  | .bfxR d wd rd ra rb rc => some (encOf (0x1C2 + wd.code) .frrrr d [rd.code, ra.code, rb.code, rc.code, 0])
  | .bfi d wd rd ra pos len => some (encOf (0x1C8 + wd.code) .frrrr d [rd.toNat, ra.code, 0, 0, pos.toNat + 64 * len.toNat])
  | .bfiR d wd rd ra rb rc => some (encOf (0x1CA + wd.code) .frrrr d [rd.toNat, ra.code, rb.code, rc.code, 0])
  | .sel d rd ra rb rc => some (encOf 0x1D0 .frrrr d [rd.code, ra.code, rb.code, rc.code, 0])
  | .addiFrri d wd rd ra imm => some (encOf (0x200 + wd.code) .frri d [rd.code, ra.code, imm.toNat])
  | .addiFi32 d wd rd ra imm => some (encOf (0x202 + wd.code) .fi32 d [rd.code, ra.code, 0, imm.toNat])
  | .andiFrri d wd rd ra imm => some (encOf (0x208 + wd.code) .frri d [rd.code, ra.code, imm.toNat])
  | .andiFi32 d wd rd ra imm => some (encOf (0x20A + wd.code) .fi32 d [rd.code, ra.code, 0, imm.toNat])
  | .oriFrri d wd rd ra imm => some (encOf (0x210 + wd.code) .frri d [rd.code, ra.code, imm.toNat])
  | .oriFi32 d wd rd ra imm => some (encOf (0x212 + wd.code) .fi32 d [rd.code, ra.code, 0, imm.toNat])
  | .xoriFrri d wd rd ra imm => some (encOf (0x218 + wd.code) .frri d [rd.code, ra.code, imm.toNat])
  | .xoriFi32 d wd rd ra imm => some (encOf (0x21A + wd.code) .fi32 d [rd.code, ra.code, 0, imm.toNat])
  | .shli d wd rd ra n => some (encOf (0x220 + wd.code) .frri d [rd.code, ra.code, n.toNat])
  | .shri d wd rd ra n => some (encOf (0x228 + wd.code) .frri d [rd.code, ra.code, n.toNat])
  | .srai d wd rd ra n => some (encOf (0x230 + wd.code) .frri d [rd.code, ra.code, n.toNat])
  | .li d rd imm => some (encOf 0x238 .fi48 d [rd.code, 0, imm.toNat])
  | .liH d rd imm => some (encOf 0x239 .fi32 d [rd.toNat, 0, 0, imm.toNat])
  | .lea d rd ra sh imm => some (encOf 0x240 .fi32 d [rd.code, ra.code, sh.toNat, imm.toNat])
  | .leaPc d rd imm => some (encOf 0x241 .fi32 d [rd.code, 0, 0, imm.toNat])
  | .mov d rd ra => some (encOf 0x248 .frrr d [rd.code, ra.code, 0, 0])
  | .cmp d wd c skip rdx ra rb => some (encOf (0x300 + wd.code) .fcmp d [ra.code, rb.code, c.code, skip.toNat, rdx.toNat])
  | .cmpi d wd c skip rd ra imm => some (encOf (0x308 + wd.code) .fi32 d [rd.toNat, ra.code, c.code + 16 * skip.toNat, imm.toNat])
  | .fcmp d f c skip rdx ra rb => some (encOf (0x310 + f.code) .fcmp d [ra.code, rb.code, c.code, skip.toNat, rdx.toNat])
  | .fadd d f rm rd ra rb => some (encOf (0x400 + f.code) .frrr d [rd.code, ra.code, rb.code, rm.code])
  | .fsub d f rm rd ra rb => some (encOf (0x408 + f.code) .frrr d [rd.code, ra.code, rb.code, rm.code])
  | .fmul d f rm rd ra rb => some (encOf (0x410 + f.code) .frrr d [rd.code, ra.code, rb.code, rm.code])
  | .ffma d f rm rd ra rb rc => some (encOf (0x418 + f.code) .frrrr d [rd.code, ra.code, rb.code, rc.code, rm.code])
  | .ffmai d f rm rd ra imm => some (encOf (0x420 + f.code) .fi32 d [rd.toNat, ra.code, rm.code, imm.toNat])
  | .fmin d f rd ra rb => some (encOf (0x428 + f.code) .frrr d [rd.code, ra.code, rb.code, 0])
  | .fmax d f rd ra rb => some (encOf (0x430 + f.code) .frrr d [rd.code, ra.code, rb.code, 0])
  | .fsgn d f k rd ra rb => some (encOf (0x438 + f.code) .frrr d [rd.code, ra.code, rb.code, k.code])
  | .fdiv d f rm rd ra rb => some (encOf (0x440 + f.code) .frrr d [rd.toNat, ra.toNat, rb.toNat, rm.code])
  | .fsqrt d f rm rd ra => some (encOf (0x448 + f.code) .frrr d [rd.toNat, ra.toNat, 0, rm.code])
  | .exp2 d rd ra => some (encOf 0xC18 .frrr d [rd.toNat, ra.toNat, 0, 0])
  | .log2 d rd ra => some (encOf 0xC20 .frrr d [rd.toNat, ra.toNat, 0, 0])
  | .rcp d rd ra => some (encOf 0xC28 .frrr d [rd.toNat, ra.toNat, 0, 0])
  | .rsq d rd ra => some (encOf 0xC30 .frrr d [rd.toNat, ra.toNat, 0, 0])
  | .tanh d rd ra => some (encOf 0xC38 .frrr d [rd.toNat, ra.toNat, 0, 0])
  | .cvt d rm sat sf tf rd ra => some (encOf 0xC00 .fi32 d [rd.code, ra.code, rm.code + 8 * bitOf sat, sf.code + 256 * tf.code])
  | .cvtV d rm sat sf tf rd ra => some (encOf 0xC01 .fi32 d [rd.toNat, ra.toNat, rm.code + 8 * bitOf sat, sf.code + 256 * tf.code])
  | .vqnt d f rd ra rb => some (encOf 0xC08 .frrrr d [rd.toNat, ra.toNat, rb.code, 0, f.code])
  | .vdq d f rd ra rb => some (encOf 0xC10 .frrrr d [rd.toNat, ra.toNat, rb.code, 0, f.code])
  | .vadd d f vd va vb => some (encOf 0x500 .fv d [vd.toNat, va.toNat, vb.toNat, f.code])
  | .vsub d f vd va vb => some (encOf 0x508 .fv d [vd.toNat, va.toNat, vb.toNat, f.code])
  | .vmul d f vd va vb => some (encOf 0x510 .fv d [vd.toNat, va.toNat, vb.toNat, f.code])
  | .vfma d f vd va vb => some (encOf 0x518 .fv d [vd.toNat, va.toNat, vb.toNat, f.code])
  | .vmin d f vd va vb => some (encOf 0x520 .fv d [vd.toNat, va.toNat, vb.toNat, f.code])
  | .vmax d f vd va vb => some (encOf 0x528 .fv d [vd.toNat, va.toNat, vb.toNat, f.code])
  | .vdot d f vd va vb => some (encOf 0x530 .fv d [vd.toNat, va.toNat, vb.toNat, f.code])
  | .vshuf d f vd va vb => some (encOf 0x540 .fv d [vd.toNat, va.toNat, vb.toNat, f.code])
  | .vsel d f vd va vb => some (encOf 0x550 .fv d [vd.toNat, va.toNat, vb.toNat, f.code])
  | .vredAdd d f vd va => some (encOf 0x538 .fv d [vd.toNat, va.toNat, 0, f.code])
  | .vredMin d f vd va => some (encOf 0x539 .fv d [vd.toNat, va.toNat, 0, f.code])
  | .vredMax d f vd va => some (encOf 0x53A .fv d [vd.toNat, va.toNat, 0, f.code])
  | .vbcast d size vd ra => some (encOf 0x548 .frri d [vd.toNat, ra.code, size.code])
  | .vins d size lane vd ra => some (encOf 0x558 .frri d [vd.toNat, ra.code, size.code + 8 * lane.toNat])
  | .vext d size lane rd va => some (encOf 0x560 .frri d [rd.code, va.toNat, size.code + 8 * lane.toNat])
  | .vcmp d c f vd va vb => some (encOf (0x568 + c.code) .fv d [vd.toNat, va.toNat, vb.toNat, f.code])
  | .vld d vd a => some (encOf 0x570 .fmem d (vd.toNat :: a.fields 4 false))
  | .vst d vd a => some (encOf 0x578 .fmem d (vd.toNat :: a.fields 4 false))
  | .ld d m size rd a => some (encOf 0x600 .fmem d (rd.toNat :: a.fields size.code m))
  | .ldS d m size rd a => some (encOf 0x601 .fmem d (rd.toNat :: a.fields size.code m))
  | .st d m size rd a => some (encOf 0x608 .fmem d (rd.code :: a.fields size.code m))
  | .ldc d size rd a => some (encOf 0x610 .fmem d (rd.toNat :: a.fields size.code false))
  | .lds d rd a => some (encOf 0x618 .fmem d (rd.toNat :: a.fields 3 false))
  | .unsub d r => some (encOf 0x620 .fq d [r.toNat, 0])
  | .take d rd ra => some (encOf 0x628 .frrr d [rd.toNat, ra.toNat, 0, 0])
  | .takeS d rd ra rb => some (encOf 0x629 .frrr d [rd.toNat, ra.toNat, rb.toNat, 0])
  | .pfd d a => some (encOf 0x630 .fmem d (0 :: a.fields 0 false))
  | .smap d rd ra rb rc => some (encOf 0x638 .frrrr d [rd.toNat, ra.toNat, rb.toNat, rc.toNat, 0])
  | .sunmap d rd ra => some (encOf 0x640 .frrr d [rd.toNat, ra.toNat, 0, 0])
  | .wb d scope ra rb => some (encOf 0x648 .frrrr d [0, ra.toNat, rb.toNat, 0, scope.code])
  | .inv d scope ra rb => some (encOf 0x650 .frrrr d [0, ra.toNat, rb.toNat, 0, scope.code])
  | .wbi d scope ra rb => some (encOf 0x658 .frrrr d [0, ra.toNat, rb.toNat, 0, scope.code])
  | .cvta d rd ra => some (encOf 0x660 .frrr d [rd.toNat, ra.toNat, 0, 0])
  | .amoAdd d a rd ra rb => some (encOf 0x700 .frrrr d [rd.toNat, ra.toNat, rb.toNat, 0, a.code])
  | .amoAnd d a rd ra rb => some (encOf 0x708 .frrrr d [rd.toNat, ra.toNat, rb.toNat, 0, a.code])
  | .amoOr d a rd ra rb => some (encOf 0x710 .frrrr d [rd.toNat, ra.toNat, rb.toNat, 0, a.code])
  | .amoXor d a rd ra rb => some (encOf 0x718 .frrrr d [rd.toNat, ra.toNat, rb.toNat, 0, a.code])
  | .amoMin d a rd ra rb => some (encOf 0x720 .frrrr d [rd.toNat, ra.toNat, rb.toNat, 0, a.code])
  | .amoMinn d a rd ra rb => some (encOf 0x728 .frrrr d [rd.toNat, ra.toNat, rb.toNat, 0, a.code])
  | .amoMax d a rd ra rb => some (encOf 0x730 .frrrr d [rd.toNat, ra.toNat, rb.toNat, 0, a.code])
  | .amoMaxn d a rd ra rb => some (encOf 0x738 .frrrr d [rd.toNat, ra.toNat, rb.toNat, 0, a.code])
  | .amoSwap d a rd ra rb => some (encOf 0x740 .frrrr d [rd.toNat, ra.toNat, rb.toNat, 0, a.code])
  | .amoFadd d a rd ra rb => some (encOf 0x748 .frrrr d [rd.toNat, ra.toNat, rb.toNat, 0, a.code])
  | .cas d a rd ra rb rc => some (encOf 0x750 .frrrr d [rd.toNat, ra.toNat, rb.toNat, rc.toNat, a.code])
  | .fence d kind scope => some (encOf 0x758 .frri d [0, 0, scope.code + 16 * kind.code])
  | .copy d rd ra => some (encOf 0x800 .frrr d [rd.toNat, ra.toNat, 0, 0])
  | .copyNb d rd ra => some (encOf 0x801 .frrr d [rd.toNat, ra.toNat, 0, 0])
  | .copyq d rd ra q => some (encOf 0x808 .frrr d [rd.toNat, ra.toNat, 64 + q.toNat, 0])
  | .qbind d q ra => some (encOf 0x810 .frrr d [64 + q.toNat, ra.toNat, 0, 0])
  | .qend d q ra => some (encOf 0x818 .frrr d [64 + q.toNat, ra.toNat, 0, 0])
  | .qstat d rd q => some (encOf 0x820 .frrr d [rd.toNat, 64 + q.toNat, 0, 0])
  | .bar d b => some (encOf 0x900 .frri d [0, 0, b.toNat])
  | .convene d rd p n1 => some (encOf 0x908 .frri d [rd.toNat, 0, p.toNat + 8 * n1.toNat])
  | .spawn d rd ra rb => some (encOf 0x918 .frrr d [rd.toNat, ra.toNat, rb.toNat, 0])
  | .spawnL d rd ra rb => some (encOf 0x919 .frrr d [rd.toNat, ra.toNat, rb.toNat, 0])
  | .waitf d r => some (encOf 0x920 .fq d [r.code, 0])
  | .waitfPark d r => some (encOf 0x921 .fq d [r.code, 0])
  | .sig d add ra rb => some (encOf 0x928 .frrr d [0, ra.toNat, rb.toNat, bitOf add])
  | .tq d rd ra => some (encOf 0x930 .frrr d [rd.toNat, ra.toNat, 0, 0])
  | .tclaim d ta => some (encOf 0xA00 .ft d [0, 0, ta.toNat, 0, 0, 0, 0])
  | .trel d ta => some (encOf 0xA08 .ft d [0, 0, ta.toNat, 0, 0, 0, 0])
  | .tld d ta ra rb => some (encOf 0xA10 .ft d [ra.toNat, rb.toNat, ta.toNat, 0, 0, 0, 0])
  | .tldR d ta ra rb => some (encOf 0xA11 .ft d [ra.toNat, rb.toNat, ta.toNat, 0, 0, 0, 0])
  | .tldPx d ta ra rb => some (encOf 0xA12 .ft d [ra.toNat, rb.toNat, ta.toNat, 0, 0, 0, 0])
  | .tst d ta ra rb => some (encOf 0xA18 .ft d [ra.toNat, rb.toNat, ta.toNat, 0, 0, 0, 0])
  | .fmtctx d ra => some (encOf 0xA20 .ft d [ra.toNat, 0, 0, 0, 0, 0, 0])
  | .mma d sh ra ta tb tc zero => some (encOf (0xA28 + sh.code) .ft d [ra.toNat, 0, ta.toNat, tb.toNat, tc.toNat, 0, bitOf zero])
  | .acfg d hash ra rb => some (encOf 0xA30 .ft d [ra.toNat, rb.toNat, 0, 0, 0, 0, bitOf hash])
  | .aclr d => some (encOf 0xA38 .ft d [0, 0, 0, 0, 0, 0, 0])
  | .drain d ra => some (encOf 0xA40 .ft d [ra.toNat, 0, 0, 0, 0, 0, 0])
  | .drainT d ra => some (encOf 0xA41 .ft d [ra.toNat, 0, 0, 0, 0, 0, 0])
  | .drainV d vf ra => some (encOf 0xA42 .ft d [ra.toNat, 0, 0, 0, 0, 0, vf.toNat])
  | .astat d ra => some (encOf 0xA48 .ft d [ra.toNat, 0, 0, 0, 0, 0, 0])
  | .join d ra rb => some (encOf 0xB00 .ft d [ra.toNat, rb.toNat, 0, 0, 0, 0, 0])
  | .ains d ra rb => some (encOf 0xB08 .ft d [ra.toNat, rb.toNat, 0, 0, 0, 0, 0])
  | .cmpk d f rd ra rb rc => some (encOf 0xB10 .frrrr d [rd.toNat, ra.toNat, rb.toNat, rc.toNat, f.code])
  | .expd d f rd ra rb rc => some (encOf 0xB18 .frrrr d [rd.toNat, ra.toNat, rb.toNat, rc.toNat, f.code])
  | _ => none

/-- Formats of class 0x0, by OP and FORM (R85). -/
def format0 : Nat → Option Format
  | 0x00 | 0x28 | 0x38 | 0x40 | 0x48 | 0x58 | 0x60 => some .f0
  | 0x08 | 0x10 | 0x50 => some .fbr
  | 0x18 | 0x20 | 0x30 | 0xB8 => some .fq
  | 0x80 | 0x88 => some .fsys
  | 0x90 => some .frri
  | 0x98 | 0xA0 | 0xA8 | 0xB0 | 0xC0 | 0xC8 => some .frrr
  | _ => none

/-- Formats of class 0x1, by OP and FORM (R85). -/
def format1 : Nat → Option Format
  | 0x00 | 0x01 | 0x08 | 0x09 | 0x10 | 0x11 | 0x18 | 0x19 | 0x20 | 0x21 | 0x28 | 0x29 | 0x30
  | 0x31 | 0x38 | 0x39 | 0x40 | 0x41 | 0x48 | 0x49 | 0x50 | 0x51 | 0x58 | 0x59 | 0x60 | 0x61
  | 0x68 | 0x69 | 0x70 | 0x71 | 0x78 | 0x79 | 0x80 | 0x81 | 0x88 | 0x89 | 0x90 | 0x91 | 0x98
  | 0x99 | 0xA0 | 0xA1 | 0xA8 | 0xA9 | 0xB0 | 0xB1 | 0xB8 | 0xB9 => some .frrr
  | 0xC0 | 0xC1 | 0xC2 | 0xC3 | 0xC8 | 0xC9 | 0xCA | 0xCB | 0xD0 => some .frrrr
  | _ => none

/-- Formats of class 0x2, by OP and FORM (R85). -/
def format2 : Nat → Option Format
  | 0x00 | 0x01 | 0x08 | 0x09 | 0x10 | 0x11 | 0x18 | 0x19 | 0x20 | 0x21 | 0x28 | 0x29 | 0x30
  | 0x31 => some .frri
  | 0x02 | 0x03 | 0x0A | 0x0B | 0x12 | 0x13 | 0x1A | 0x1B | 0x39 | 0x40 | 0x41 => some .fi32
  | 0x38 => some .fi48
  | 0x48 => some .frrr
  | _ => none

/-- Formats of class 0x3, by OP and FORM (R85). -/
def format3 : Nat → Option Format
  | 0x00 | 0x01 | 0x10 | 0x11 => some .fcmp
  | 0x08 | 0x09 => some .fi32
  | _ => none

/-- Formats of class 0x4, by OP and FORM (R85). -/
def format4 : Nat → Option Format
  | 0x00 | 0x01 | 0x08 | 0x09 | 0x10 | 0x11 | 0x28 | 0x29 | 0x30 | 0x31 | 0x38 | 0x39 | 0x40
  | 0x41 | 0x48 | 0x49 => some .frrr
  | 0x18 | 0x19 => some .frrrr
  | 0x20 | 0x21 => some .fi32
  | _ => none

/-- Formats of class 0x5, by OP and FORM (R85). -/
def format5 : Nat → Option Format
  | 0x00 | 0x08 | 0x10 | 0x18 | 0x20 | 0x28 | 0x30 | 0x38 | 0x39 | 0x3A | 0x40 | 0x50 | 0x68
  | 0x69 | 0x6A | 0x6B | 0x6C | 0x6D | 0x6E | 0x6F => some .fv
  | 0x48 | 0x58 | 0x60 => some .frri
  | 0x70 | 0x78 => some .fmem
  | _ => none

/-- Formats of class 0x6, by OP and FORM (R85). -/
def format6 : Nat → Option Format
  | 0x00 | 0x01 | 0x08 | 0x10 | 0x18 | 0x30 => some .fmem
  | 0x20 => some .fq
  | 0x28 | 0x29 | 0x40 | 0x60 => some .frrr
  | 0x38 | 0x48 | 0x50 | 0x58 => some .frrrr
  | _ => none

/-- Formats of class 0x7, by OP and FORM (R85). -/
def format7 : Nat → Option Format
  | 0x00 | 0x08 | 0x10 | 0x18 | 0x20 | 0x28 | 0x30 | 0x38 | 0x40 | 0x48 | 0x50 => some .frrrr
  | 0x58 => some .frri
  | _ => none

/-- Formats of class 0x8, by OP and FORM (R85). -/
def format8 : Nat → Option Format
  | 0x00 | 0x01 | 0x08 | 0x10 | 0x18 | 0x20 => some .frrr
  | _ => none

/-- Formats of class 0x9, by OP and FORM (R85). -/
def format9 : Nat → Option Format
  | 0x00 | 0x08 => some .frri
  | 0x10 | 0x38 => some .f0
  | 0x18 | 0x19 | 0x28 | 0x30 => some .frrr
  | 0x20 | 0x21 => some .fq
  | _ => none

/-- Formats of class 0xA, by OP and FORM (R85). -/
def formatA : Nat → Option Format
  | 0x00 | 0x08 | 0x10 | 0x11 | 0x12 | 0x18 | 0x20 | 0x28 | 0x29 | 0x2A | 0x2B | 0x2C | 0x2D
  | 0x2E | 0x2F | 0x30 | 0x38 | 0x40 | 0x41 | 0x42 | 0x48 => some .ft
  | _ => none

/-- Formats of class 0xB, by OP and FORM (R85). -/
def formatB : Nat → Option Format
  | 0x00 | 0x08 => some .ft
  | 0x10 | 0x18 => some .frrrr
  | _ => none

/-- Formats of class 0xC, by OP and FORM (R85). -/
def formatC : Nat → Option Format
  | 0x00 | 0x01 => some .fi32
  | 0x08 | 0x10 => some .frrrr
  | 0x18 | 0x20 | 0x28 | 0x30 | 0x38 => some .frrr
  | _ => none

/-- The format of each listed OPC (R85). -/
def formatOf (opc : Nat) : Option Format :=
  match opc / 256 with
  | 0x0 => format0 (opc % 256)
  | 0x1 => format1 (opc % 256)
  | 0x2 => format2 (opc % 256)
  | 0x3 => format3 (opc % 256)
  | 0x4 => format4 (opc % 256)
  | 0x5 => format5 (opc % 256)
  | 0x6 => format6 (opc % 256)
  | 0x7 => format7 (opc % 256)
  | 0x8 => format8 (opc % 256)
  | 0x9 => format9 (opc % 256)
  | 0xA => formatA (opc % 256)
  | 0xB => formatB (opc % 256)
  | 0xC => formatC (opc % 256)
  | _ => none

/-- The instructions of class 0x0: OP and FORM, S, the dependence byte and the fields above it (R85). -/
def build0 (k : Nat) (d : Dep) (fs : List Nat) : Option Instr :=
  match k, fs with
  | 0x00, [] => some (.nop d.s)
  | 0x28, [] => some (.ret d.s)
  | 0x38, [] => some (.eret d.s)
  | 0x40, [] => some (.reth d.s)
  | 0x48, [] => some (.yield d.s)
  | 0x58, [] => some (.halt d.s)
  | 0x60, [] => some (.exit d.s)
  | 0x08, [f0, f1] => some (.br d (BitVec.ofNat 19 f1) (BitVec.ofNat 5 f0))
  | 0x10, [f0, f1] => some (.call d (BitVec.ofNat 19 f1) (BitVec.ofNat 5 f0))
  | 0x18, [f0, 0] => do
    let r ← xregOf f0
    some (.callr d r)
  | 0x20, [f0, 0] => do
    let r ← xregOf f0
    some (.jr d r)
  | 0x30, [f0, 0] => do
    let r ← xregOf f0
    some (.trap d r)
  | 0x50, [0, f1] => some (.pfi d (BitVec.ofNat 19 f1))
  | 0x80, [f0, f1, 0] => do
    let rd ← oprOf f0
    some (.csrr d (BitVec.ofNat 12 f1) rd)
  | 0x88, [f0, f1, 0] => do
    let r ← xregOf f0
    some (.csrw d (BitVec.ofNat 12 f1) r)
  | 0x90, [f0, 0, f2] => do
    let rd ← xregOf f0
    let p ← flagOf f2
    some (.repart d rd p)
  | 0x98, [f0, f1, 0, 0] => do
    let rd ← xregOf f0
    let ra ← xregOf f1
    some (.spill d rd ra)
  | 0xA0, [f0, f1, 0, 0] => do
    let rd ← xregOf f0
    let ra ← xregOf f1
    some (.rstr d rd ra)
  | 0xA8, [f0, f1, 0, 0] => do
    let rd ← xregOf f0
    let ra ← xregOf f1
    some (.xrd d rd ra)
  | 0xB0, [0, f1, f2, 0] => do
    let ra ← xregOf f1
    let rb ← xregOf f2
    some (.xwr d ra rb)
  | 0xB8, [f0, 0] => do
    let r ← xregOf f0
    some (.xres d r)
  | 0xC0, [0, f1, f2, f3] => do
    let ra ← xregOf f1
    let rb ← xregOf f2
    let kind ← tlbiOf f3
    some (.tlbi d ra rb kind)
  | 0xC8, [f0, f1, 0, 0] => do
    let rd ← xregOf f0
    let ra ← xregOf f1
    some (.keyret d rd ra)
  | _, _ => none

/-- The instructions of class 0x1: OP and FORM, S, the dependence byte and the fields above it (R85). -/
def build1 (k : Nat) (d : Dep) (fs : List Nat) : Option Instr :=
  match k, fs with
  | 0x00, [f0, f1, f2, 0] => do
    let rd ← oprOf f0
    let ra ← oprOf f1
    let rb ← oprOf f2
    some (.add d .d rd ra rb)
  | 0x01, [f0, f1, f2, 0] => do
    let rd ← oprOf f0
    let ra ← oprOf f1
    let rb ← oprOf f2
    some (.add d .w rd ra rb)
  | 0x08, [f0, f1, f2, 0] => do
    let rd ← oprOf f0
    let ra ← oprOf f1
    let rb ← oprOf f2
    some (.sub d .d rd ra rb)
  | 0x09, [f0, f1, f2, 0] => do
    let rd ← oprOf f0
    let ra ← oprOf f1
    let rb ← oprOf f2
    some (.sub d .w rd ra rb)
  | 0x10, [f0, f1, f2, 0] => do
    let rd ← oprOf f0
    let ra ← oprOf f1
    let rb ← oprOf f2
    some (.mul d .d rd ra rb)
  | 0x11, [f0, f1, f2, 0] => do
    let rd ← oprOf f0
    let ra ← oprOf f1
    let rb ← oprOf f2
    some (.mul d .w rd ra rb)
  | 0x18, [f0, f1, f2, 0] => do
    let rd ← oprOf f0
    let ra ← oprOf f1
    let rb ← oprOf f2
    some (.mulh d .d rd ra rb)
  | 0x19, [f0, f1, f2, 0] => do
    let rd ← oprOf f0
    let ra ← oprOf f1
    let rb ← oprOf f2
    some (.mulh d .w rd ra rb)
  | 0x20, [f0, f1, f2, 0] => do
    let rd ← oprOf f0
    let ra ← oprOf f1
    let rb ← oprOf f2
    some (.mulhn d .d rd ra rb)
  | 0x21, [f0, f1, f2, 0] => do
    let rd ← oprOf f0
    let ra ← oprOf f1
    let rb ← oprOf f2
    some (.mulhn d .w rd ra rb)
  | 0x48, [f0, f1, f2, 0] => do
    let rd ← oprOf f0
    let ra ← oprOf f1
    let rb ← oprOf f2
    some (.and d .d rd ra rb)
  | 0x49, [f0, f1, f2, 0] => do
    let rd ← oprOf f0
    let ra ← oprOf f1
    let rb ← oprOf f2
    some (.and d .w rd ra rb)
  | 0x50, [f0, f1, f2, 0] => do
    let rd ← oprOf f0
    let ra ← oprOf f1
    let rb ← oprOf f2
    some (.or d .d rd ra rb)
  | 0x51, [f0, f1, f2, 0] => do
    let rd ← oprOf f0
    let ra ← oprOf f1
    let rb ← oprOf f2
    some (.or d .w rd ra rb)
  | 0x58, [f0, f1, f2, 0] => do
    let rd ← oprOf f0
    let ra ← oprOf f1
    let rb ← oprOf f2
    some (.xor d .d rd ra rb)
  | 0x59, [f0, f1, f2, 0] => do
    let rd ← oprOf f0
    let ra ← oprOf f1
    let rb ← oprOf f2
    some (.xor d .w rd ra rb)
  | 0x60, [f0, f1, f2, 0] => do
    let rd ← oprOf f0
    let ra ← oprOf f1
    let rb ← oprOf f2
    some (.andn d .d rd ra rb)
  | 0x61, [f0, f1, f2, 0] => do
    let rd ← oprOf f0
    let ra ← oprOf f1
    let rb ← oprOf f2
    some (.andn d .w rd ra rb)
  | 0x68, [f0, f1, f2, 0] => do
    let rd ← oprOf f0
    let ra ← oprOf f1
    let rb ← oprOf f2
    some (.shl d .d rd ra rb)
  | 0x69, [f0, f1, f2, 0] => do
    let rd ← oprOf f0
    let ra ← oprOf f1
    let rb ← oprOf f2
    some (.shl d .w rd ra rb)
  | 0x70, [f0, f1, f2, 0] => do
    let rd ← oprOf f0
    let ra ← oprOf f1
    let rb ← oprOf f2
    some (.shr d .d rd ra rb)
  | 0x71, [f0, f1, f2, 0] => do
    let rd ← oprOf f0
    let ra ← oprOf f1
    let rb ← oprOf f2
    some (.shr d .w rd ra rb)
  | 0x78, [f0, f1, f2, 0] => do
    let rd ← oprOf f0
    let ra ← oprOf f1
    let rb ← oprOf f2
    some (.sra d .d rd ra rb)
  | 0x79, [f0, f1, f2, 0] => do
    let rd ← oprOf f0
    let ra ← oprOf f1
    let rb ← oprOf f2
    some (.sra d .w rd ra rb)
  | 0x80, [f0, f1, f2, 0] => do
    let rd ← oprOf f0
    let ra ← oprOf f1
    let rb ← oprOf f2
    some (.rot d .d rd ra rb)
  | 0x81, [f0, f1, f2, 0] => do
    let rd ← oprOf f0
    let ra ← oprOf f1
    let rb ← oprOf f2
    some (.rot d .w rd ra rb)
  | 0x88, [f0, f1, f2, 0] => do
    let rd ← oprOf f0
    let ra ← oprOf f1
    let rb ← oprOf f2
    some (.min d .d rd ra rb)
  | 0x89, [f0, f1, f2, 0] => do
    let rd ← oprOf f0
    let ra ← oprOf f1
    let rb ← oprOf f2
    some (.min d .w rd ra rb)
  | 0x90, [f0, f1, f2, 0] => do
    let rd ← oprOf f0
    let ra ← oprOf f1
    let rb ← oprOf f2
    some (.minn d .d rd ra rb)
  | 0x91, [f0, f1, f2, 0] => do
    let rd ← oprOf f0
    let ra ← oprOf f1
    let rb ← oprOf f2
    some (.minn d .w rd ra rb)
  | 0x98, [f0, f1, f2, 0] => do
    let rd ← oprOf f0
    let ra ← oprOf f1
    let rb ← oprOf f2
    some (.max d .d rd ra rb)
  | 0x99, [f0, f1, f2, 0] => do
    let rd ← oprOf f0
    let ra ← oprOf f1
    let rb ← oprOf f2
    some (.max d .w rd ra rb)
  | 0xA0, [f0, f1, f2, 0] => do
    let rd ← oprOf f0
    let ra ← oprOf f1
    let rb ← oprOf f2
    some (.maxn d .d rd ra rb)
  | 0xA1, [f0, f1, f2, 0] => do
    let rd ← oprOf f0
    let ra ← oprOf f1
    let rb ← oprOf f2
    some (.maxn d .w rd ra rb)
  | 0x28, [f0, f1, f2, 0] => do
    let rd ← xregOf f0
    let ra ← xregOf f1
    let rb ← xregOf f2
    some (.div d .d rd ra rb)
  | 0x29, [f0, f1, f2, 0] => do
    let rd ← xregOf f0
    let ra ← xregOf f1
    let rb ← xregOf f2
    some (.div d .w rd ra rb)
  | 0x30, [f0, f1, f2, 0] => do
    let rd ← xregOf f0
    let ra ← xregOf f1
    let rb ← xregOf f2
    some (.divn d .d rd ra rb)
  | 0x31, [f0, f1, f2, 0] => do
    let rd ← xregOf f0
    let ra ← xregOf f1
    let rb ← xregOf f2
    some (.divn d .w rd ra rb)
  | 0x38, [f0, f1, f2, 0] => do
    let rd ← xregOf f0
    let ra ← xregOf f1
    let rb ← xregOf f2
    some (.rem d .d rd ra rb)
  | 0x39, [f0, f1, f2, 0] => do
    let rd ← xregOf f0
    let ra ← xregOf f1
    let rb ← xregOf f2
    some (.rem d .w rd ra rb)
  | 0x40, [f0, f1, f2, 0] => do
    let rd ← xregOf f0
    let ra ← xregOf f1
    let rb ← xregOf f2
    some (.remn d .d rd ra rb)
  | 0x41, [f0, f1, f2, 0] => do
    let rd ← xregOf f0
    let ra ← xregOf f1
    let rb ← xregOf f2
    some (.remn d .w rd ra rb)
  | 0xA8, [f0, f1, 0, 0] => do
    let rd ← oprOf f0
    let ra ← oprOf f1
    some (.clz d .d rd ra)
  | 0xA9, [f0, f1, 0, 0] => do
    let rd ← oprOf f0
    let ra ← oprOf f1
    some (.clz d .w rd ra)
  | 0xB0, [f0, f1, 0, 0] => do
    let rd ← oprOf f0
    let ra ← oprOf f1
    some (.ctz d .d rd ra)
  | 0xB1, [f0, f1, 0, 0] => do
    let rd ← oprOf f0
    let ra ← oprOf f1
    some (.ctz d .w rd ra)
  | 0xB8, [f0, f1, 0, 0] => do
    let rd ← oprOf f0
    let ra ← oprOf f1
    some (.popc d .d rd ra)
  | 0xB9, [f0, f1, 0, 0] => do
    let rd ← oprOf f0
    let ra ← oprOf f1
    some (.popc d .w rd ra)
  | 0xC0, [f0, f1, 0, 0, f4] => do
    let rd ← oprOf f0
    let ra ← oprOf f1
    if f4 < 4096 then some (.bfx d .d rd ra (BitVec.ofNat 6 (f4 % 64)) (BitVec.ofNat 6 (f4 / 64))) else none
  | 0xC1, [f0, f1, 0, 0, f4] => do
    let rd ← oprOf f0
    let ra ← oprOf f1
    if f4 < 4096 then some (.bfx d .w rd ra (BitVec.ofNat 6 (f4 % 64)) (BitVec.ofNat 6 (f4 / 64))) else none
  | 0xC2, [f0, f1, f2, f3, 0] => do
    let rd ← oprOf f0
    let ra ← oprOf f1
    let rb ← oprOf f2
    let rc ← oprOf f3
    some (.bfxR d .d rd ra rb rc)
  | 0xC3, [f0, f1, f2, f3, 0] => do
    let rd ← oprOf f0
    let ra ← oprOf f1
    let rb ← oprOf f2
    let rc ← oprOf f3
    some (.bfxR d .w rd ra rb rc)
  | 0xC8, [f0, f1, 0, 0, f4] => do
    let rd ← xregOf f0
    let ra ← oprOf f1
    if f4 < 4096 then some (.bfi d .d rd ra (BitVec.ofNat 6 (f4 % 64)) (BitVec.ofNat 6 (f4 / 64))) else none
  | 0xC9, [f0, f1, 0, 0, f4] => do
    let rd ← xregOf f0
    let ra ← oprOf f1
    if f4 < 4096 then some (.bfi d .w rd ra (BitVec.ofNat 6 (f4 % 64)) (BitVec.ofNat 6 (f4 / 64))) else none
  | 0xCA, [f0, f1, f2, f3, 0] => do
    let rd ← xregOf f0
    let ra ← oprOf f1
    let rb ← oprOf f2
    let rc ← oprOf f3
    some (.bfiR d .d rd ra rb rc)
  | 0xCB, [f0, f1, f2, f3, 0] => do
    let rd ← xregOf f0
    let ra ← oprOf f1
    let rb ← oprOf f2
    let rc ← oprOf f3
    some (.bfiR d .w rd ra rb rc)
  | 0xD0, [f0, f1, f2, f3, 0] => do
    let rd ← oprOf f0
    let ra ← oprOf f1
    let rb ← oprOf f2
    let rc ← oprOf f3
    some (.sel d rd ra rb rc)
  | _, _ => none

/-- The instructions of class 0x2: OP and FORM, S, the dependence byte and the fields above it (R85). -/
def build2 (k : Nat) (d : Dep) (fs : List Nat) : Option Instr :=
  match k, fs with
  | 0x00, [f0, f1, f2] => do
    let rd ← oprOf f0
    let ra ← oprOf f1
    some (.addiFrri d .d rd ra (BitVec.ofNat 10 f2))
  | 0x01, [f0, f1, f2] => do
    let rd ← oprOf f0
    let ra ← oprOf f1
    some (.addiFrri d .w rd ra (BitVec.ofNat 10 f2))
  | 0x02, [f0, f1, 0, f3] => do
    let rd ← oprOf f0
    let ra ← oprOf f1
    some (.addiFi32 d .d rd ra (BitVec.ofNat 32 f3))
  | 0x03, [f0, f1, 0, f3] => do
    let rd ← oprOf f0
    let ra ← oprOf f1
    some (.addiFi32 d .w rd ra (BitVec.ofNat 32 f3))
  | 0x08, [f0, f1, f2] => do
    let rd ← oprOf f0
    let ra ← oprOf f1
    some (.andiFrri d .d rd ra (BitVec.ofNat 10 f2))
  | 0x09, [f0, f1, f2] => do
    let rd ← oprOf f0
    let ra ← oprOf f1
    some (.andiFrri d .w rd ra (BitVec.ofNat 10 f2))
  | 0x0A, [f0, f1, 0, f3] => do
    let rd ← oprOf f0
    let ra ← oprOf f1
    some (.andiFi32 d .d rd ra (BitVec.ofNat 32 f3))
  | 0x0B, [f0, f1, 0, f3] => do
    let rd ← oprOf f0
    let ra ← oprOf f1
    some (.andiFi32 d .w rd ra (BitVec.ofNat 32 f3))
  | 0x10, [f0, f1, f2] => do
    let rd ← oprOf f0
    let ra ← oprOf f1
    some (.oriFrri d .d rd ra (BitVec.ofNat 10 f2))
  | 0x11, [f0, f1, f2] => do
    let rd ← oprOf f0
    let ra ← oprOf f1
    some (.oriFrri d .w rd ra (BitVec.ofNat 10 f2))
  | 0x12, [f0, f1, 0, f3] => do
    let rd ← oprOf f0
    let ra ← oprOf f1
    some (.oriFi32 d .d rd ra (BitVec.ofNat 32 f3))
  | 0x13, [f0, f1, 0, f3] => do
    let rd ← oprOf f0
    let ra ← oprOf f1
    some (.oriFi32 d .w rd ra (BitVec.ofNat 32 f3))
  | 0x18, [f0, f1, f2] => do
    let rd ← oprOf f0
    let ra ← oprOf f1
    some (.xoriFrri d .d rd ra (BitVec.ofNat 10 f2))
  | 0x19, [f0, f1, f2] => do
    let rd ← oprOf f0
    let ra ← oprOf f1
    some (.xoriFrri d .w rd ra (BitVec.ofNat 10 f2))
  | 0x1A, [f0, f1, 0, f3] => do
    let rd ← oprOf f0
    let ra ← oprOf f1
    some (.xoriFi32 d .d rd ra (BitVec.ofNat 32 f3))
  | 0x1B, [f0, f1, 0, f3] => do
    let rd ← oprOf f0
    let ra ← oprOf f1
    some (.xoriFi32 d .w rd ra (BitVec.ofNat 32 f3))
  | 0x20, [f0, f1, f2] => do
    let rd ← oprOf f0
    let ra ← oprOf f1
    if f2 < 64 then some (.shli d .d rd ra (BitVec.ofNat 6 f2)) else none
  | 0x21, [f0, f1, f2] => do
    let rd ← oprOf f0
    let ra ← oprOf f1
    if f2 < 64 then some (.shli d .w rd ra (BitVec.ofNat 6 f2)) else none
  | 0x28, [f0, f1, f2] => do
    let rd ← oprOf f0
    let ra ← oprOf f1
    if f2 < 64 then some (.shri d .d rd ra (BitVec.ofNat 6 f2)) else none
  | 0x29, [f0, f1, f2] => do
    let rd ← oprOf f0
    let ra ← oprOf f1
    if f2 < 64 then some (.shri d .w rd ra (BitVec.ofNat 6 f2)) else none
  | 0x30, [f0, f1, f2] => do
    let rd ← oprOf f0
    let ra ← oprOf f1
    if f2 < 64 then some (.srai d .d rd ra (BitVec.ofNat 6 f2)) else none
  | 0x31, [f0, f1, f2] => do
    let rd ← oprOf f0
    let ra ← oprOf f1
    if f2 < 64 then some (.srai d .w rd ra (BitVec.ofNat 6 f2)) else none
  | 0x38, [f0, 0, f2] => do
    let rd ← oprOf f0
    some (.li d rd (BitVec.ofNat 48 f2))
  | 0x39, [f0, 0, 0, f3] => do
    let rd ← xregOf f0
    if f3 < 65536 then some (.liH d rd (BitVec.ofNat 16 f3)) else none
  | 0x40, [f0, f1, f2, f3] => do
    let rd ← oprOf f0
    let ra ← oprOf f1
    if f2 < 8 then some (.lea d rd ra (BitVec.ofNat 3 f2) (BitVec.ofNat 32 f3)) else none
  | 0x41, [f0, 0, 0, f3] => do
    let rd ← oprOf f0
    some (.leaPc d rd (BitVec.ofNat 32 f3))
  | 0x48, [f0, f1, 0, 0] => do
    let rd ← oprOf f0
    let ra ← oprOf f1
    some (.mov d rd ra)
  | _, _ => none

/-- The instructions of class 0x3: OP and FORM, S, the dependence byte and the fields above it (R85). -/
def build3 (k : Nat) (d : Dep) (fs : List Nat) : Option Instr :=
  match k, fs with
  | 0x00, [f0, f1, f2, f3, f4] => do
    let ra ← oprOf f0
    let rb ← oprOf f1
    let c ← condOf f2
    some (.cmp d .d c (BitVec.ofNat 2 f3) (BitVec.ofNat 4 f4) ra rb)
  | 0x01, [f0, f1, f2, f3, f4] => do
    let ra ← oprOf f0
    let rb ← oprOf f1
    let c ← condOf f2
    some (.cmp d .w c (BitVec.ofNat 2 f3) (BitVec.ofNat 4 f4) ra rb)
  | 0x08, [f0, f1, f2, f3] => do
    let ra ← oprOf f1
    let c ← condOf (f2 % 16)
    if f0 < 16 ∧ f2 < 64 then some (.cmpi d .d c (BitVec.ofNat 2 (f2 / 16)) (BitVec.ofNat 4 f0) ra (BitVec.ofNat 32 f3)) else none
  | 0x09, [f0, f1, f2, f3] => do
    let ra ← oprOf f1
    let c ← condOf (f2 % 16)
    if f0 < 16 ∧ f2 < 64 then some (.cmpi d .w c (BitVec.ofNat 2 (f2 / 16)) (BitVec.ofNat 4 f0) ra (BitVec.ofNat 32 f3)) else none
  | 0x10, [f0, f1, f2, f3, f4] => do
    let ra ← oprOf f0
    let rb ← oprOf f1
    let c ← fcondOf f2
    some (.fcmp d .f32 c (BitVec.ofNat 2 f3) (BitVec.ofNat 4 f4) ra rb)
  | 0x11, [f0, f1, f2, f3, f4] => do
    let ra ← oprOf f0
    let rb ← oprOf f1
    let c ← fcondOf f2
    some (.fcmp d .f64 c (BitVec.ofNat 2 f3) (BitVec.ofNat 4 f4) ra rb)
  | _, _ => none

/-- The instructions of class 0x4: OP and FORM, S, the dependence byte and the fields above it (R85). -/
def build4 (k : Nat) (d : Dep) (fs : List Nat) : Option Instr :=
  match k, fs with
  | 0x00, [f0, f1, f2, f3] => do
    let rd ← oprOf f0
    let ra ← oprOf f1
    let rb ← oprOf f2
    let rm ← rmOf f3
    some (.fadd d .f32 rm rd ra rb)
  | 0x01, [f0, f1, f2, f3] => do
    let rd ← oprOf f0
    let ra ← oprOf f1
    let rb ← oprOf f2
    let rm ← rmOf f3
    some (.fadd d .f64 rm rd ra rb)
  | 0x08, [f0, f1, f2, f3] => do
    let rd ← oprOf f0
    let ra ← oprOf f1
    let rb ← oprOf f2
    let rm ← rmOf f3
    some (.fsub d .f32 rm rd ra rb)
  | 0x09, [f0, f1, f2, f3] => do
    let rd ← oprOf f0
    let ra ← oprOf f1
    let rb ← oprOf f2
    let rm ← rmOf f3
    some (.fsub d .f64 rm rd ra rb)
  | 0x10, [f0, f1, f2, f3] => do
    let rd ← oprOf f0
    let ra ← oprOf f1
    let rb ← oprOf f2
    let rm ← rmOf f3
    some (.fmul d .f32 rm rd ra rb)
  | 0x11, [f0, f1, f2, f3] => do
    let rd ← oprOf f0
    let ra ← oprOf f1
    let rb ← oprOf f2
    let rm ← rmOf f3
    some (.fmul d .f64 rm rd ra rb)
  | 0x18, [f0, f1, f2, f3, f4] => do
    let rd ← oprOf f0
    let ra ← oprOf f1
    let rb ← oprOf f2
    let rc ← oprOf f3
    let rm ← rmOf f4
    some (.ffma d .f32 rm rd ra rb rc)
  | 0x19, [f0, f1, f2, f3, f4] => do
    let rd ← oprOf f0
    let ra ← oprOf f1
    let rb ← oprOf f2
    let rc ← oprOf f3
    let rm ← rmOf f4
    some (.ffma d .f64 rm rd ra rb rc)
  | 0x20, [f0, f1, f2, f3] => do
    let rd ← xregOf f0
    let ra ← oprOf f1
    let rm ← rmOf f2
    some (.ffmai d .f32 rm rd ra (BitVec.ofNat 32 f3))
  | 0x21, [f0, f1, f2, f3] => do
    let rd ← xregOf f0
    let ra ← oprOf f1
    let rm ← rmOf f2
    some (.ffmai d .f64 rm rd ra (BitVec.ofNat 32 f3))
  | 0x28, [f0, f1, f2, 0] => do
    let rd ← oprOf f0
    let ra ← oprOf f1
    let rb ← oprOf f2
    some (.fmin d .f32 rd ra rb)
  | 0x29, [f0, f1, f2, 0] => do
    let rd ← oprOf f0
    let ra ← oprOf f1
    let rb ← oprOf f2
    some (.fmin d .f64 rd ra rb)
  | 0x30, [f0, f1, f2, 0] => do
    let rd ← oprOf f0
    let ra ← oprOf f1
    let rb ← oprOf f2
    some (.fmax d .f32 rd ra rb)
  | 0x31, [f0, f1, f2, 0] => do
    let rd ← oprOf f0
    let ra ← oprOf f1
    let rb ← oprOf f2
    some (.fmax d .f64 rd ra rb)
  | 0x38, [f0, f1, f2, f3] => do
    let rd ← oprOf f0
    let ra ← oprOf f1
    let rb ← oprOf f2
    let k ← sgnOf f3
    some (.fsgn d .f32 k rd ra rb)
  | 0x39, [f0, f1, f2, f3] => do
    let rd ← oprOf f0
    let ra ← oprOf f1
    let rb ← oprOf f2
    let k ← sgnOf f3
    some (.fsgn d .f64 k rd ra rb)
  | 0x40, [f0, f1, f2, f3] => do
    let rd ← xregOf f0
    let ra ← xregOf f1
    let rb ← xregOf f2
    let rm ← rmOf f3
    some (.fdiv d .f32 rm rd ra rb)
  | 0x41, [f0, f1, f2, f3] => do
    let rd ← xregOf f0
    let ra ← xregOf f1
    let rb ← xregOf f2
    let rm ← rmOf f3
    some (.fdiv d .f64 rm rd ra rb)
  | 0x48, [f0, f1, 0, f3] => do
    let rd ← xregOf f0
    let ra ← xregOf f1
    let rm ← rmOf f3
    some (.fsqrt d .f32 rm rd ra)
  | 0x49, [f0, f1, 0, f3] => do
    let rd ← xregOf f0
    let ra ← xregOf f1
    let rm ← rmOf f3
    some (.fsqrt d .f64 rm rd ra)
  | _, _ => none

/-- The instructions of class 0x5: OP and FORM, S, the dependence byte and the fields above it (R85). -/
def build5 (k : Nat) (d : Dep) (fs : List Nat) : Option Instr :=
  match k, fs with
  | 0x00, [f0, f1, f2, f3] => do
    let f ← fmtCode f3
    some (.vadd d f (BitVec.ofNat 6 f0) (BitVec.ofNat 6 f1) (BitVec.ofNat 6 f2))
  | 0x08, [f0, f1, f2, f3] => do
    let f ← fmtCode f3
    some (.vsub d f (BitVec.ofNat 6 f0) (BitVec.ofNat 6 f1) (BitVec.ofNat 6 f2))
  | 0x10, [f0, f1, f2, f3] => do
    let f ← fmtCode f3
    some (.vmul d f (BitVec.ofNat 6 f0) (BitVec.ofNat 6 f1) (BitVec.ofNat 6 f2))
  | 0x18, [f0, f1, f2, f3] => do
    let f ← fmtCode f3
    some (.vfma d f (BitVec.ofNat 6 f0) (BitVec.ofNat 6 f1) (BitVec.ofNat 6 f2))
  | 0x20, [f0, f1, f2, f3] => do
    let f ← fmtCode f3
    some (.vmin d f (BitVec.ofNat 6 f0) (BitVec.ofNat 6 f1) (BitVec.ofNat 6 f2))
  | 0x28, [f0, f1, f2, f3] => do
    let f ← fmtCode f3
    some (.vmax d f (BitVec.ofNat 6 f0) (BitVec.ofNat 6 f1) (BitVec.ofNat 6 f2))
  | 0x30, [f0, f1, f2, f3] => do
    let f ← fmtCode f3
    some (.vdot d f (BitVec.ofNat 6 f0) (BitVec.ofNat 6 f1) (BitVec.ofNat 6 f2))
  | 0x40, [f0, f1, f2, f3] => do
    let f ← fmtCode f3
    some (.vshuf d f (BitVec.ofNat 6 f0) (BitVec.ofNat 6 f1) (BitVec.ofNat 6 f2))
  | 0x50, [f0, f1, f2, f3] => do
    let f ← fmtCode f3
    some (.vsel d f (BitVec.ofNat 6 f0) (BitVec.ofNat 6 f1) (BitVec.ofNat 6 f2))
  | 0x38, [f0, f1, 0, f3] => do
    let f ← fmtCode f3
    some (.vredAdd d f (BitVec.ofNat 6 f0) (BitVec.ofNat 6 f1))
  | 0x39, [f0, f1, 0, f3] => do
    let f ← fmtCode f3
    some (.vredMin d f (BitVec.ofNat 6 f0) (BitVec.ofNat 6 f1))
  | 0x3A, [f0, f1, 0, f3] => do
    let f ← fmtCode f3
    some (.vredMax d f (BitVec.ofNat 6 f0) (BitVec.ofNat 6 f1))
  | 0x48, [f0, f1, f2] => do
    let vd ← xregOf f0
    let ra ← oprOf f1
    let size ← sizeOf f2
    some (.vbcast d size vd ra)
  | 0x58, [f0, f1, f2] => do
    let vd ← xregOf f0
    let ra ← oprOf f1
    let size ← sizeOf (f2 % 8)
    if f2 < 128 then some (.vins d size (BitVec.ofNat 4 (f2 / 8)) vd ra) else none
  | 0x60, [f0, f1, f2] => do
    let rd ← oprOf f0
    let va ← xregOf f1
    let size ← sizeOf (f2 % 8)
    if f2 < 128 then some (.vext d size (BitVec.ofNat 4 (f2 / 8)) rd va) else none
  | 0x68, [f0, f1, f2, f3] => do
    let f ← fmtCode f3
    some (.vcmp d .eq f (BitVec.ofNat 6 f0) (BitVec.ofNat 6 f1) (BitVec.ofNat 6 f2))
  | 0x69, [f0, f1, f2, f3] => do
    let f ← fmtCode f3
    some (.vcmp d .ne f (BitVec.ofNat 6 f0) (BitVec.ofNat 6 f1) (BitVec.ofNat 6 f2))
  | 0x6A, [f0, f1, f2, f3] => do
    let f ← fmtCode f3
    some (.vcmp d .lt f (BitVec.ofNat 6 f0) (BitVec.ofNat 6 f1) (BitVec.ofNat 6 f2))
  | 0x6B, [f0, f1, f2, f3] => do
    let f ← fmtCode f3
    some (.vcmp d .ge f (BitVec.ofNat 6 f0) (BitVec.ofNat 6 f1) (BitVec.ofNat 6 f2))
  | 0x6C, [f0, f1, f2, f3] => do
    let f ← fmtCode f3
    some (.vcmp d .le f (BitVec.ofNat 6 f0) (BitVec.ofNat 6 f1) (BitVec.ofNat 6 f2))
  | 0x6D, [f0, f1, f2, f3] => do
    let f ← fmtCode f3
    some (.vcmp d .gt f (BitVec.ofNat 6 f0) (BitVec.ofNat 6 f1) (BitVec.ofNat 6 f2))
  | 0x6E, [f0, f1, f2, f3] => do
    let f ← fmtCode f3
    some (.vcmp d .uo f (BitVec.ofNat 6 f0) (BitVec.ofNat 6 f1) (BitVec.ofNat 6 f2))
  | 0x6F, [f0, f1, f2, f3] => do
    let f ← fmtCode f3
    some (.vcmp d .ord f (BitVec.ofNat 6 f0) (BitVec.ofNat 6 f1) (BitVec.ofNat 6 f2))
  | 0x70, [rd_, b_, disp_, 4, ord_, scope_, 0] => do
    let vd ← xregOf rd_
    let a ← memArgOf b_ disp_ ord_ scope_
    some (.vld d vd a)
  | 0x78, [rd_, b_, disp_, 4, ord_, scope_, 0] => do
    let vd ← xregOf rd_
    let a ← memArgOf b_ disp_ ord_ scope_
    some (.vst d vd a)
  | _, _ => none

/-- The instructions of class 0x6: OP and FORM, S, the dependence byte and the fields above it (R85). -/
def build6 (k : Nat) (d : Dep) (fs : List Nat) : Option Instr :=
  match k, fs with
  | 0x00, [rd_, b_, disp_, size_, ord_, scope_, m_] => do
    let rd ← xregOf rd_
    let size ← sizeOf size_
    let m ← flagOf m_
    let a ← memArgOf b_ disp_ ord_ scope_
    some (.ld d m size rd a)
  | 0x01, [rd_, b_, disp_, size_, ord_, scope_, m_] => do
    let rd ← xregOf rd_
    let size ← sizeOf size_
    let m ← flagOf m_
    let a ← memArgOf b_ disp_ ord_ scope_
    some (.ldS d m size rd a)
  | 0x08, [rd_, b_, disp_, size_, ord_, scope_, m_] => do
    let rd ← oprOf rd_
    let size ← sizeOf size_
    let m ← flagOf m_
    let a ← memArgOf b_ disp_ ord_ scope_
    some (.st d m size rd a)
  | 0x10, [rd_, b_, disp_, size_, ord_, scope_, 0] => do
    let rd ← xregOf rd_
    let size ← sizeOf size_
    let a ← memArgOf b_ disp_ ord_ scope_
    some (.ldc d size rd a)
  | 0x18, [rd_, b_, disp_, 3, ord_, scope_, 0] => do
    let rd ← xregOf rd_
    let a ← memArgOf b_ disp_ ord_ scope_
    some (.lds d rd a)
  | 0x20, [f0, 0] => do
    let r ← xregOf f0
    some (.unsub d r)
  | 0x28, [f0, f1, 0, 0] => do
    let rd ← xregOf f0
    let ra ← xregOf f1
    some (.take d rd ra)
  | 0x29, [f0, f1, f2, 0] => do
    let rd ← xregOf f0
    let ra ← xregOf f1
    let rb ← xregOf f2
    some (.takeS d rd ra rb)
  | 0x30, [0, b_, disp_, 0, ord_, scope_, 0] => do
    let a ← memArgOf b_ disp_ ord_ scope_
    some (.pfd d a)
  | 0x38, [f0, f1, f2, f3, 0] => do
    let rd ← xregOf f0
    let ra ← xregOf f1
    let rb ← xregOf f2
    let rc ← xregOf f3
    some (.smap d rd ra rb rc)
  | 0x40, [f0, f1, 0, 0] => do
    let rd ← xregOf f0
    let ra ← xregOf f1
    some (.sunmap d rd ra)
  | 0x48, [0, f1, f2, 0, f4] => do
    let ra ← xregOf f1
    let rb ← xregOf f2
    let scope ← scopeOf f4
    some (.wb d scope ra rb)
  | 0x50, [0, f1, f2, 0, f4] => do
    let ra ← xregOf f1
    let rb ← xregOf f2
    let scope ← scopeOf f4
    some (.inv d scope ra rb)
  | 0x58, [0, f1, f2, 0, f4] => do
    let ra ← xregOf f1
    let rb ← xregOf f2
    let scope ← scopeOf f4
    some (.wbi d scope ra rb)
  | 0x60, [f0, f1, 0, 0] => do
    let rd ← xregOf f0
    let ra ← xregOf f1
    some (.cvta d rd ra)
  | _, _ => none

/-- The instructions of class 0x7: OP and FORM, S, the dependence byte and the fields above it (R85). -/
def build7 (k : Nat) (d : Dep) (fs : List Nat) : Option Instr :=
  match k, fs with
  | 0x00, [f0, f1, f2, 0, f4] => do
    let rd ← xregOf f0
    let ra ← xregOf f1
    let rb ← xregOf f2
    let a ← amoArgOf f4
    some (.amoAdd d a rd ra rb)
  | 0x08, [f0, f1, f2, 0, f4] => do
    let rd ← xregOf f0
    let ra ← xregOf f1
    let rb ← xregOf f2
    let a ← amoArgOf f4
    some (.amoAnd d a rd ra rb)
  | 0x10, [f0, f1, f2, 0, f4] => do
    let rd ← xregOf f0
    let ra ← xregOf f1
    let rb ← xregOf f2
    let a ← amoArgOf f4
    some (.amoOr d a rd ra rb)
  | 0x18, [f0, f1, f2, 0, f4] => do
    let rd ← xregOf f0
    let ra ← xregOf f1
    let rb ← xregOf f2
    let a ← amoArgOf f4
    some (.amoXor d a rd ra rb)
  | 0x20, [f0, f1, f2, 0, f4] => do
    let rd ← xregOf f0
    let ra ← xregOf f1
    let rb ← xregOf f2
    let a ← amoArgOf f4
    some (.amoMin d a rd ra rb)
  | 0x28, [f0, f1, f2, 0, f4] => do
    let rd ← xregOf f0
    let ra ← xregOf f1
    let rb ← xregOf f2
    let a ← amoArgOf f4
    some (.amoMinn d a rd ra rb)
  | 0x30, [f0, f1, f2, 0, f4] => do
    let rd ← xregOf f0
    let ra ← xregOf f1
    let rb ← xregOf f2
    let a ← amoArgOf f4
    some (.amoMax d a rd ra rb)
  | 0x38, [f0, f1, f2, 0, f4] => do
    let rd ← xregOf f0
    let ra ← xregOf f1
    let rb ← xregOf f2
    let a ← amoArgOf f4
    some (.amoMaxn d a rd ra rb)
  | 0x40, [f0, f1, f2, 0, f4] => do
    let rd ← xregOf f0
    let ra ← xregOf f1
    let rb ← xregOf f2
    let a ← amoArgOf f4
    some (.amoSwap d a rd ra rb)
  | 0x48, [f0, f1, f2, 0, f4] => do
    let rd ← xregOf f0
    let ra ← xregOf f1
    let rb ← xregOf f2
    let a ← amoArgOf f4
    some (.amoFadd d a rd ra rb)
  | 0x50, [f0, f1, f2, f3, f4] => do
    let rd ← xregOf f0
    let ra ← xregOf f1
    let rb ← xregOf f2
    let rc ← xregOf f3
    let a ← amoArgOf f4
    some (.cas d a rd ra rb rc)
  | 0x58, [0, 0, f2] => do
    let scope ← scopeOf (f2 % 16)
    let kind ← fenceOf (f2 / 16)
    some (.fence d kind scope)
  | _, _ => none

/-- The instructions of class 0x8: OP and FORM, S, the dependence byte and the fields above it (R85). -/
def build8 (k : Nat) (d : Dep) (fs : List Nat) : Option Instr :=
  match k, fs with
  | 0x00, [f0, f1, 0, 0] => do
    let rd ← xregOf f0
    let ra ← xregOf f1
    some (.copy d rd ra)
  | 0x01, [f0, f1, 0, 0] => do
    let rd ← xregOf f0
    let ra ← xregOf f1
    some (.copyNb d rd ra)
  | 0x08, [f0, f1, f2, 0] => do
    let rd ← xregOf f0
    let ra ← xregOf f1
    let q ← pregOf f2
    some (.copyq d rd ra q)
  | 0x10, [f0, f1, 0, 0] => do
    let q ← pregOf f0
    let ra ← xregOf f1
    some (.qbind d q ra)
  | 0x18, [f0, f1, 0, 0] => do
    let q ← pregOf f0
    let ra ← xregOf f1
    some (.qend d q ra)
  | 0x20, [f0, f1, 0, 0] => do
    let rd ← xregOf f0
    let q ← pregOf f1
    some (.qstat d rd q)
  | _, _ => none

/-- The instructions of class 0x9: OP and FORM, S, the dependence byte and the fields above it (R85). -/
def build9 (k : Nat) (d : Dep) (fs : List Nat) : Option Instr :=
  match k, fs with
  | 0x10, [] => some (.disband d.s)
  | 0x38, [] => some (.migh d.s)
  | 0x00, [0, 0, f2] => if f2 < 8 then some (.bar d (BitVec.ofNat 3 f2)) else none
  | 0x08, [f0, 0, f2] => do
    let rd ← xregOf f0
    if f2 < 512 then some (.convene d rd (BitVec.ofNat 3 (f2 % 8)) (BitVec.ofNat 6 (f2 / 8))) else none
  | 0x18, [f0, f1, f2, 0] => do
    let rd ← xregOf f0
    let ra ← xregOf f1
    let rb ← xregOf f2
    some (.spawn d rd ra rb)
  | 0x19, [f0, f1, f2, 0] => do
    let rd ← xregOf f0
    let ra ← xregOf f1
    let rb ← xregOf f2
    some (.spawnL d rd ra rb)
  | 0x20, [f0, 0] => do
    let r ← oprOf f0
    some (.waitf d r)
  | 0x21, [f0, 0] => do
    let r ← oprOf f0
    some (.waitfPark d r)
  | 0x28, [0, f1, f2, f3] => do
    let ra ← xregOf f1
    let rb ← xregOf f2
    let add ← flagOf f3
    some (.sig d add ra rb)
  | 0x30, [f0, f1, 0, 0] => do
    let rd ← xregOf f0
    let ra ← xregOf f1
    some (.tq d rd ra)
  | _, _ => none

/-- The instructions of class 0xA: OP and FORM, S, the dependence byte and the fields above it (R85). -/
def buildA (k : Nat) (d : Dep) (fs : List Nat) : Option Instr :=
  match k, fs with
  | 0x00, [0, 0, f2, 0, 0, 0, 0] => some (.tclaim d (BitVec.ofNat 5 f2))
  | 0x08, [0, 0, f2, 0, 0, 0, 0] => some (.trel d (BitVec.ofNat 5 f2))
  | 0x10, [f0, f1, f2, 0, 0, 0, 0] => do
    let ra ← xregOf f0
    let rb ← xregOf f1
    some (.tld d (BitVec.ofNat 5 f2) ra rb)
  | 0x11, [f0, f1, f2, 0, 0, 0, 0] => do
    let ra ← xregOf f0
    let rb ← xregOf f1
    some (.tldR d (BitVec.ofNat 5 f2) ra rb)
  | 0x12, [f0, f1, f2, 0, 0, 0, 0] => do
    let ra ← xregOf f0
    let rb ← xregOf f1
    some (.tldPx d (BitVec.ofNat 5 f2) ra rb)
  | 0x18, [f0, f1, f2, 0, 0, 0, 0] => do
    let ra ← xregOf f0
    let rb ← xregOf f1
    some (.tst d (BitVec.ofNat 5 f2) ra rb)
  | 0x20, [f0, 0, 0, 0, 0, 0, 0] => do
    let ra ← xregOf f0
    some (.fmtctx d ra)
  | 0x28, [f0, 0, f2, f3, f4, 0, f6] => do
    let ra ← xregOf f0
    let zero ← flagOf f6
    some (.mma d .m16n16k16 ra (BitVec.ofNat 5 f2) (BitVec.ofNat 5 f3) (BitVec.ofNat 5 f4) zero)
  | 0x29, [f0, 0, f2, f3, f4, 0, f6] => do
    let ra ← xregOf f0
    let zero ← flagOf f6
    some (.mma d .m16n16k32 ra (BitVec.ofNat 5 f2) (BitVec.ofNat 5 f3) (BitVec.ofNat 5 f4) zero)
  | 0x2A, [f0, 0, f2, f3, f4, 0, f6] => do
    let ra ← xregOf f0
    let zero ← flagOf f6
    some (.mma d .m16n16k64 ra (BitVec.ofNat 5 f2) (BitVec.ofNat 5 f3) (BitVec.ofNat 5 f4) zero)
  | 0x2B, [f0, 0, f2, f3, f4, 0, f6] => do
    let ra ← xregOf f0
    let zero ← flagOf f6
    some (.mma d .m32n32k16 ra (BitVec.ofNat 5 f2) (BitVec.ofNat 5 f3) (BitVec.ofNat 5 f4) zero)
  | 0x2C, [f0, 0, f2, f3, f4, 0, f6] => do
    let ra ← xregOf f0
    let zero ← flagOf f6
    some (.mma d .m32n32k32 ra (BitVec.ofNat 5 f2) (BitVec.ofNat 5 f3) (BitVec.ofNat 5 f4) zero)
  | 0x2D, [f0, 0, f2, f3, f4, 0, f6] => do
    let ra ← xregOf f0
    let zero ← flagOf f6
    some (.mma d .m32n32k64 ra (BitVec.ofNat 5 f2) (BitVec.ofNat 5 f3) (BitVec.ofNat 5 f4) zero)
  | 0x2E, [f0, 0, f2, f3, f4, 0, f6] => do
    let ra ← xregOf f0
    let zero ← flagOf f6
    some (.mma d .m64n32k32 ra (BitVec.ofNat 5 f2) (BitVec.ofNat 5 f3) (BitVec.ofNat 5 f4) zero)
  | 0x2F, [f0, 0, f2, f3, f4, 0, f6] => do
    let ra ← xregOf f0
    let zero ← flagOf f6
    some (.mma d .m64n64k16 ra (BitVec.ofNat 5 f2) (BitVec.ofNat 5 f3) (BitVec.ofNat 5 f4) zero)
  | 0x30, [f0, f1, 0, 0, 0, 0, f6] => do
    let ra ← xregOf f0
    let rb ← xregOf f1
    let hash ← flagOf f6
    some (.acfg d hash ra rb)
  | 0x38, [0, 0, 0, 0, 0, 0, 0] => some (.aclr d)
  | 0x40, [f0, 0, 0, 0, 0, 0, 0] => do
    let ra ← xregOf f0
    some (.drain d ra)
  | 0x41, [f0, 0, 0, 0, 0, 0, 0] => do
    let ra ← xregOf f0
    some (.drainT d ra)
  | 0x42, [f0, 0, 0, 0, 0, 0, f6] => do
    let ra ← xregOf f0
    if f6 < 64 then some (.drainV d (BitVec.ofNat 6 f6) ra) else none
  | 0x48, [f0, 0, 0, 0, 0, 0, 0] => do
    let ra ← xregOf f0
    some (.astat d ra)
  | _, _ => none

/-- The instructions of class 0xB: OP and FORM, S, the dependence byte and the fields above it (R85). -/
def buildB (k : Nat) (d : Dep) (fs : List Nat) : Option Instr :=
  match k, fs with
  | 0x00, [f0, f1, 0, 0, 0, 0, 0] => do
    let ra ← xregOf f0
    let rb ← xregOf f1
    some (.join d ra rb)
  | 0x08, [f0, f1, 0, 0, 0, 0, 0] => do
    let ra ← xregOf f0
    let rb ← xregOf f1
    some (.ains d ra rb)
  | 0x10, [f0, f1, f2, f3, f4] => do
    let rd ← xregOf f0
    let ra ← xregOf f1
    let rb ← xregOf f2
    let rc ← xregOf f3
    let f ← fmtCode f4
    some (.cmpk d f rd ra rb rc)
  | 0x18, [f0, f1, f2, f3, f4] => do
    let rd ← xregOf f0
    let ra ← xregOf f1
    let rb ← xregOf f2
    let rc ← xregOf f3
    let f ← fmtCode f4
    some (.expd d f rd ra rb rc)
  | _, _ => none

/-- The instructions of class 0xC: OP and FORM, S, the dependence byte and the fields above it (R85). -/
def buildC (k : Nat) (d : Dep) (fs : List Nat) : Option Instr :=
  match k, fs with
  | 0x18, [f0, f1, 0, 0] => do
    let rd ← xregOf f0
    let ra ← xregOf f1
    some (.exp2 d rd ra)
  | 0x20, [f0, f1, 0, 0] => do
    let rd ← xregOf f0
    let ra ← xregOf f1
    some (.log2 d rd ra)
  | 0x28, [f0, f1, 0, 0] => do
    let rd ← xregOf f0
    let ra ← xregOf f1
    some (.rcp d rd ra)
  | 0x30, [f0, f1, 0, 0] => do
    let rd ← xregOf f0
    let ra ← xregOf f1
    some (.rsq d rd ra)
  | 0x38, [f0, f1, 0, 0] => do
    let rd ← xregOf f0
    let ra ← xregOf f1
    some (.tanh d rd ra)
  | 0x00, [f0, f1, f2, f3] => do
    let rd ← oprOf f0
    let ra ← oprOf f1
    let rm ← rmOf (f2 % 8)
    let sat ← flagOf (f2 / 8)
    let sf ← fmtCode (f3 % 256)
    let tf ← fmtCode (f3 / 256)
    some (.cvt d rm sat sf tf rd ra)
  | 0x01, [f0, f1, f2, f3] => do
    let rd ← xregOf f0
    let ra ← xregOf f1
    let rm ← rmOf (f2 % 8)
    let sat ← flagOf (f2 / 8)
    let sf ← fmtCode (f3 % 256)
    let tf ← fmtCode (f3 / 256)
    some (.cvtV d rm sat sf tf rd ra)
  | 0x08, [f0, f1, f2, 0, f4] => do
    let rd ← xregOf f0
    let ra ← xregOf f1
    let rb ← oprOf f2
    let f ← fmtCode f4
    some (.vqnt d f rd ra rb)
  | 0x10, [f0, f1, f2, 0, f4] => do
    let rd ← xregOf f0
    let ra ← xregOf f1
    let rb ← oprOf f2
    let f ← fmtCode f4
    some (.vdq d f rd ra rb)
  | _, _ => none

/-- The instruction of an OPC with its fields. -/
def build (opc : Nat) (d : Dep) (fs : List Nat) : Option Instr :=
  match opc / 256 with
  | 0x0 => build0 (opc % 256) d fs
  | 0x1 => build1 (opc % 256) d fs
  | 0x2 => build2 (opc % 256) d fs
  | 0x3 => build3 (opc % 256) d fs
  | 0x4 => build4 (opc % 256) d fs
  | 0x5 => build5 (opc % 256) d fs
  | 0x6 => build6 (opc % 256) d fs
  | 0x7 => build7 (opc % 256) d fs
  | 0x8 => build8 (opc % 256) d fs
  | 0x9 => build9 (opc % 256) d fs
  | 0xA => buildA (opc % 256) d fs
  | 0xB => buildB (opc % 256) d fs
  | 0xC => buildC (opc % 256) d fs
  | _ => none

/-- The dependence byte of the first three fields, and the fields above it (R58). -/
def depOf (s : Bool) : List Nat → Dep × List Nat
  | pd :: sa :: sc :: rest => (⟨s, BitVec.ofNat 3 sc, BitVec.ofNat 3 sa, BitVec.ofNat 2 pd⟩, rest)
  | fs => (Dep.bare s, fs)

/-- The instruction of a logical word, or why it is illegal (R86). -/
def decodeWord (w : Nat) : Except Reject Instr :=
  match formatOf (w % 2 ^ 12) with
  | none => .error .opcode
  | some f =>
    if w / 2 ^ 12 % 8 ≠ f.tl then .error .tail
    else
      let p := depOf (w / 2 ^ 15 % 2 == 1) (unpack f.widths (w / 2 ^ 16))
      match build (w % 2 ^ 12) p.1 p.2 with
      | some i => if i.wellFormed then .ok i else .error .field
      | none => .error .field

/-- The TL that a head states (R55). -/
def headTl (h : Nat) : Nat := h / 2 ^ 12 % 8

/-- The number that halfwords form, lowest first (R57). -/
def halfwords : List Nat → Nat
  | [] => 0
  | h :: hs => h + 2 ^ 16 * halfwords hs

/-- The logical words of the instructions whose heads are given; `t` is the tail length of those
    before them (R53). -/
def lineWords (hws : List Nat) : List Nat → Nat → List Nat
  | [], _ => []
  | h :: hs, t =>
    (h + 2 ^ 16 * halfwords ((hws.drop (32 - (t + headTl h))).take (headTl h)))
      :: lineWords hws hs (t + headTl h)

/-- The tail length of some heads together. -/
def tailSum : List Nat → Nat
  | [] => 0
  | h :: hs => headTl h + tailSum hs

/-- The logical words of a code line given as 32 halfwords, or none where it is malformed
    (R51 to R54). -/
def parseLine (hws : List Nat) : Option (List Nat) :=
  let n := hws.headD 0 % 32
  let heads := (hws.drop 1).take n
  let t := tailSum heads
  if n = 0 ∨ hws.headD 0 / 32 ≠ 0 ∨ heads.any (fun h => 5 ≤ headTl h) ∨ n + t > 31
      ∨ ((hws.drop (n + 1)).take (31 - n - t)).any (fun h => h ≠ 0) then none
  else some (lineWords hws heads 0)

/-- The halfwords of a line's bytes (R51). -/
def lineHalfwords : List Byte → List Nat
  | a :: b :: rest => (a.toNat + 256 * b.toNat) :: lineHalfwords rest
  | _ => []

/-- The logical word at an index of a line, and the line's N. -/
def lineAt (bytes : List Byte) (idx : Nat) : Except Reject (Nat × Nat) :=
  match parseLine (lineHalfwords bytes) with
  | none => .error .line
  | some ws =>
    match ws[idx]? with
    | none => .error .index
    | some w => .ok (w, ws.length)

/-- The instruction at an index of a line of 64 bytes, and the line's N. -/
def decodeLine (bytes : List Byte) (idx : Nat) : Except Reject (Instr × Nat) :=
  match lineAt bytes idx with
  | .error r => .error r
  | .ok (w, n) =>
    match decodeWord w with
    | .error r => .error r
    | .ok i => .ok (i, n)

/-- The logical word of an instruction (R57). -/
def Instr.word (i : Instr) : Nat :=
  match encode i with
  | some e => e.word
  | none => 0

/-- The two bytes of a halfword, low first. -/
def halfwordBytes (h : Nat) : List Byte := [BitVec.ofNat 8 h, BitVec.ofNat 8 (h / 256)]

/-- The low `k` halfwords of a number, lowest first. -/
def halfwordsOf : Nat → Nat → List Nat
  | 0, _ => []
  | k + 1, n => n % 2 ^ 16 :: halfwordsOf k (n / 2 ^ 16)

/-- The bytes of some halfwords. -/
def halfwordsBytes : List Nat → List Byte
  | [] => []
  | h :: hs => halfwordBytes h ++ halfwordsBytes hs

/-- A code line that holds one logical word (R51): header, head, padding, tail. -/
def singleLine (w : Nat) : List Byte :=
  let tl := headTl (w % 2 ^ 16)
  halfwordsBytes ([1, w % 2 ^ 16] ++ List.replicate (30 - tl) 0 ++ halfwordsOf tl (w / 2 ^ 16))

/-- The instruction that the decoder reads from an instruction whose low bits are given, laid out in a
    line of its own. -/
def decodeTableWord (nbits w : Nat) : Option Instr :=
  match decodeLine (singleLine (w % 2 ^ nbits)) 0 with
  | .ok (i, _) => some i
  | .error _ => none

end Sys2Proof
end

