-- ==== Sys2Proof/Machine/State.lean ====
section
/-! DEFINITION. The state of the package, its fields named as the spec names them, and the state after
reset. -/

namespace Sys2Proof.Machine

/-- What stops the machine. -/
inductive Fault where
  /-- An instruction was executed with no thread at `cur`: raised by the meanings of instructions, and by
      no step (a step executes an instruction for a thread it has found). Safe. -/
  | noThread
  deriving DecidableEq, Repr

/-- What the model refuses. -/
inductive Refusal where
  /-- The instruction has no meaning yet: raised by the arms of `exec`. Safe. -/
  | notModelled (mnemonic : String)
  deriving DecidableEq, Repr

/-- The register files and the bits that go with them (R101, R102, R183, R303). -/
structure Regs where
  x : Vector Word 64
  v : Vector VWord 64
  full : BitVec 64
  taint : BitVec 64
  xpoison : BitVec 64
  vpoison : BitVec 64
  deriving DecidableEq, Repr

/-- The control registers that belong to the thread (R109). -/
structure Csrs where
  tid : BitVec 32
  gsz : BitVec 32
  gang : BitVec 32
  lnch : BitVec 32
  rand : BitVec 32
  fpctl : BitVec 8
  tvec : Word
  tepc : Word
  tcause : Word
  tval : Word
  uepc : Word
  xferid : Word
  qhnd : Word
  qctlv : Word
  wpriv : Word
  nakbo : BitVec 20
  grank : Word
  light : Bool
  prio : BitVec 2
  slice : BitVec 32
  ptbase : Word
  keyid : BitVec 6
  xwin : Word
  deriving DecidableEq, Repr

/-- A register that a result writes. -/
inductive Dest where
  | x (n : XReg)
  | v (n : VReg)
  deriving DecidableEq, Repr

/-- One register write, with the taint and poison that go with the value (R183, R303). -/
structure Wr where
  dest : Dest
  val : VWord
  taint : Bool
  poison : Bool
  deriving DecidableEq, Repr

/-- A fixed-latency result not yet written: 4 cycles after issue (R59). -/
structure FixedWrite where
  due : Nat
  writes : List Wr
  flags : BitVec 5
  deriving DecidableEq, Repr

/-- The outstanding results of one variable-latency instruction (R59, R64); `ready` once their values
    are known. Tag 0 is untracked. -/
structure Result where
  id : Nat
  tag : BitVec 3
  writes : List Wr
  flags : BitVec 5
  ready : Bool
  deriving DecidableEq, Repr

/-- States of a scoreboard tag (R64). -/
inductive TagState where
  | free | pending | landed
  deriving DecidableEq, Repr

/-- Where an access acts: a byte of a cluster's stash, of home memory, of host memory of space 0b11
    (R172), or nowhere. -/
inductive Place where
  | stash (clu off : Nat)
  | mem (pa : Nat)
  | host (pa : Nat)
  | nowhere
  deriving DecidableEq, Repr

/-- A translation held in a TLB: the page, its permissions and the entry that gave it (R168, R170). -/
structure TlbEntry where
  asid : Nat
  va : Nat
  size : Nat
  pa : Nat
  user : Bool
  x : Bool
  w : Bool
  r : Bool
  repl : Bool
  pte : Nat
  key : Nat
  deriving DecidableEq, Repr

/-- What an atomic computes (R330, R339, R393). -/
inductive RmwOp where
  | add | and | or | xor | min | minn | max | maxn | swap | fadd | cas
  deriving DecidableEq, Repr

/-- Kinds of range operation (R159). -/
inductive RangeOp where
  | wb | inv | wbi
  deriving DecidableEq, Repr

/-- One action that an access still takes (R177, R178); offsets and lengths count bytes of the
    access. -/
inductive Act where
  | localRead (off len : Nat)
  | localWrite (off len : Nat)
  | localRmw
  | homeRead (off len : Nat)
  | homeWrite (off len : Nat)
  | homeRmw
  | stashRead (off len : Nat)
  | stashWrite (off len : Nat)
  | stashRmw
  | hostRead (off len : Nat)
  | hostWrite (off len : Nat)
  | hostRmw
  | wbStart
  | wbLines (lines : List (Nat × Nat))
  | lineOut
  | invalidate
  | fill
  | rangeLine (line : Nat)
  | unmapLine (line : Nat)
  | arrive
  deriving DecidableEq, Repr

/-- Kinds of access (R178, R182): a port send is a release (R190), a pop and a TAKE an acquire (R190,
    R205). -/
inductive AccKind where
  | load
  | store
  | rmw (op : RmwOp)
  | fence (k : FenceKind)
  | range (op : RangeOp)
  | unmap
  | prefetch
  | lds
  | coll
  | send
  | take
  deriving DecidableEq, Repr

/-- An issued access whose actions have not all been taken (R180). `after` names the accesses of earlier members
    of the same issue group that it must follow (R32), `team` the atomics of earlier members on its bytes, with
    the first of which it is performed (R32, R438), `page` the translation it uses, `stalled` the collapse it
    waits for; `tainted` is the taint of its address, `afterLdc` that of its data (R182, R184). A SUNMAP has its
    stash offset in `va`, and the virtual range that was mapped in `data` and `n` (R395). -/
structure Access where
  id : Nat
  kind : AccKind
  place : Place
  n : Nat
  ord : Ord
  scope : Scope
  key : Nat
  page : Option TlbEntry
  va : Nat
  signed : Bool
  ldc : Bool
  tainted : Bool
  afterLdc : Bool
  data : VWord
  expd : VWord
  got : VWord
  gotPoison : Bool
  replica : Option Nat
  stalled : Option Nat
  after : List (Nat × Nat)
  team : List (Nat × Nat)
  todo : List Act
  deriving DecidableEq, Repr

/-- What holds back a thread after TLBI (the accesses, by thread and id, that are still to be performed; R403)
    or a range operation (its own accesses; R159); after EXPD, the cycle of completion (R240, R355); before the
    first instruction of a thread that SPAWN started, the result of the SPAWN, by thread and id (R396). -/
inductive Block where
  | all (accs : List (Nat × Nat))
  | memory (ids : List Nat)
  | until (cycle : Nat)
  | landing (uid id : Nat)
  deriving DecidableEq, Repr

/-- A stretch of a checked range within one page: offset from the start, length, place, page. -/
structure Piece where
  off : Nat
  len : Nat
  place : Place
  entry : Option TlbEntry
  deriving DecidableEq, Repr

/-- A CMPK or EXPD that has issued and not finished its reads and checks, or a CMPK that has not completed (R238
    to R240, R355). `id` names it as an access of its thread. The operands of RD, RA, RB and RC; when it issued
    and what its memory takes beyond the stash; what CMPK has still to read, and where EXPD reads its next
    record, or that its stream has ended; what has been read, and from where; and once CMPK has been checked,
    its last store with the count that RD takes. `before` names the operations of earlier members of its group
    and the stores that they have made, and `out` the bytes that it may write, as far as they had a translation
    at its issue (R32). -/
structure Packing where
  id : Nat
  instr : Instr
  pc : Word
  rd : Nat
  ra : Nat
  rb : Nat
  rc : Nat
  tainted : Bool
  afterLdc : Bool
  start : Nat
  mem : Nat
  todo : List Piece
  addr : Nat
  got : List Byte
  elems : List (Nat × Nat)
  n : Nat
  bad : Bool
  used : List Piece
  count : Option (Nat × Nat)
  ended : Bool
  before : List (Nat × Nat)
  out : List Piece
  deriving DecidableEq, Repr

/-- The issue state of a thread (R38, R60 to R67, R180). -/
structure Pipe where
  annul : Nat
  hist : List Nat
  fixed : List FixedWrite
  results : List Result
  tags : Vector TagState 8
  sWait : Bool
  acc : List Access
  block : Option Block
  pack : Option Packing
  deriving DecidableEq, Repr

/-- A word of a port with its control bit and the scope of the port it was sent through (R190, R266). -/
structure PWord where
  ctl : Bool
  word : Word
  scope : Scope
  deriving DecidableEq, Repr

/-- A word of a replay window: the descriptor in force when it entered, the access that is its release,
    whether it is on the way, the cycle from which it may be sent again, and how often it has been sent
    (R190, R266 to R268). -/
structure SentWord where
  w : PWord
  desc : BitVec 32
  rel : Nat
  flying : Bool
  due : Nat
  tries : Nat
  deriving DecidableEq, Repr

/-- A port register with its buffers (R101, R266, R267). -/
structure Port where
  desc : BitVec 32
  inb : List PWord
  win : List SentWord
  drop : Bool
  deriving DecidableEq, Repr

/-- Modes of a thread: running, or halted alone with bits [79:64] of the logical word (R87, R296). -/
inductive Mode where
  | running
  | halted (hi : BitVec 16)
  deriving DecidableEq, Repr

/-- A synchronous trap that has been raised and not yet delivered (R112). `alone` halts without TVEC
    (R87). -/
structure TrapReq where
  cause : BitVec 8
  tval : Word
  pc : Word
  skp : BitVec 2
  alone : Bool
  hi : BitVec 16
  deriving DecidableEq, Repr

/-- A held light interrupt (R114). -/
inductive Irq where
  | copy (hnd xferid : Word)
  | ctl (value : Word)
  deriving DecidableEq, Repr

/-- A presented BAR, CONVENE or collective: the instruction, the cycle, the order of arrival
    (R210, R335). -/
structure Presented where
  instr : Instr
  lineN : Nat
  cycle : Nat
  order : Nat
  deriving DecidableEq, Repr

/-- A thread. `uid` names it for messages and is the model's own. -/
structure Thread where
  uid : Nat
  pc : Word
  mode : Mode
  regs : Regs
  csr : Csrs
  pipe : Pipe
  ports : Vector Port 8
  trap : Option TrapReq
  gfault : Option Nat
  irqs : List Irq
  present : Option Presented
  grp : Option Nat
  origin : Loc
  ret : Option Loc
  sliceCount : Nat
  expired : Option Nat
  waitSince : Option Nat
  deriving DecidableEq, Repr

/-- What a saved thread waits for (R291, R292). -/
inductive Wait where
  | none
  | reg (n : XReg)
  | port (q : PReg)
  | take (slot : Nat)
  deriving DecidableEq, Repr

/-- A saved thread: its record of 192 + C + 16k bytes at an offset of the Heath (R291), and the core and slot
    that it was saved from (R20, R50); `busy` while the engine restores it (R390). -/
structure HeathRec where
  thread : Thread
  core : Nat
  slot : Nat
  wait : Wait
  size : Nat
  held : Bool
  busy : Bool
  readyAt : Option Nat
  broken : Bool
  deriving DecidableEq, Repr

/-- A byte of a cluster's view: its value, and dirty or clean (R176). -/
structure VByte where
  val : Byte
  dirty : Bool
  deriving DecidableEq, Repr

/-- A stash mapping (R154) with the physical ranges behind it: stash offset, address, length. -/
structure Mapping where
  off : Nat
  va : Nat
  len : Nat
  segs : List (Nat × Nat × Nat)
  deriving DecidableEq, Repr

/-- A subscription slot (R196), with the poison of the value pushed (R303). -/
structure SubSlot where
  sub : Bool
  pend : Bool
  full : Bool
  ovr : Bool
  scope : BitVec 4
  key : BitVec 6
  hdie : BitVec 3
  hslice : BitVec 8
  hent : BitVec 8
  seq : BitVec 16
  value : Word
  poison : Bool
  deriving DecidableEq, Repr

/-- A subscriber of a word at its home (R200). -/
structure Subscriber where
  clu : Nat
  slot : Nat
  key : Nat
  scope : BitVec 4
  deriving DecidableEq, Repr

/-- A subscription entry of an L2 slice: the word by PA [51:3] (R200). -/
structure SubEntry where
  index : Nat
  word : Nat
  subs : List Subscriber
  deriving DecidableEq, Repr

/-- Messages between a home slice and a slot (R198, R202, R207). -/
inductive SubBody where
  | request (pa : Nat) (scope : BitVec 4) (key : Nat) (uid : Nat) (reg : XReg) (acc : Nat)
  | answer (ok : Bool) (hent : Nat) (uid : Nat) (reg : XReg)
  | push (value : Word) (bad : Bool)
  | remove (uid : Nat) (reg : XReg)
  | marker (uid : Nat) (reg : XReg)
  deriving DecidableEq, Repr

/-- A message between home slice `slice` (die × 256 + s) and a slot of a cluster. -/
structure SubMsg where
  id : Nat
  slice : Nat
  clu : Nat
  slot : Nat
  body : SubBody
  deriving DecidableEq, Repr

/-- A convened group (R213): the format context it is bound to and its word, its members by uid in the
    order of their ranks, and the collectives issued and not completed. -/
structure Group where
  gid : Nat
  gang : Nat
  lnch : Nat
  ctx : Nat
  word : Word
  members : List (Nat × Nat)
  dissolving : Bool
  deriving DecidableEq, Repr

/-- A group that has formed and waits for a context: its members by uid, each with the number of the presentation
    that was counted (R213). -/
structure Forming where
  gang : Nat
  lnch : Nat
  point : Nat
  members : List (Nat × Nat)
  deriving DecidableEq, Repr

/-- An entry of the accumulator in hash mode (R242). -/
structure HashEntry where
  key : Nat
  val : BitVec 32
  deriving DecidableEq, Repr

/-- The accumulator file of a matrix unit (R231, R232, R241, R242): `poison` as a whole (R303), `badWords` the words
    of two entries that are poisoned by themselves (R302). -/
structure Accum where
  owner : Option Nat
  hash : Bool
  row0 : Nat
  col0 : Nat
  direct : SMap (BitVec 32)
  table : SMap HashEntry
  lb : Nat
  ways : Nat
  bcap : Nat
  bbase : Nat
  spill : Nat
  poison : Bool
  badWords : List Nat
  deriving DecidableEq, Repr

/-- One memory action that a collective still takes (R191). -/
inductive Micro where
  | read (p : Piece)
  | write (p : Piece) (bytes : List Byte)
  deriving DecidableEq, Repr

/-- An append to the Bracken in progress (R246): the value, COUNT as the unit has read it, and whether the
    record is written. -/
structure Append where
  key : Nat
  val : BitVec 32
  count : Option Nat
  written : Bool
  deriving DecidableEq, Repr

/-- A collective that has issued and not completed (R220): its operands, its members with the access that
    holds their later accesses back, and their ranks, the checked ranges it acts on, the memory actions it has
    still to take and the bytes it has read, the collapse it waits for (R164), the values it has still to add,
    the append in progress, how many records it has read and spilled and whether one was poisoned, whether it
    waits on a full Bracken, since when, and when it last read COUNT (R246). -/
structure Coll where
  gid : Nat
  instr : Instr
  xa : Word
  xb : Word
  key : Nat
  members : List (Nat × Nat)
  ranks : List Nat
  rows : List (List Piece)
  due : Nat
  todo : List Micro
  got : List Byte
  waits : Option Nat
  adds : List (Nat × BitVec 32)
  app : Option Append
  pos : Nat
  spilled : Nat
  bad : Bool
  stalled : Bool
  since : Nat
  checked : Nat
  deriving DecidableEq, Repr

/-- The matrix unit of a cluster: `slotPoison` names slots poisoned as a whole (R303), `badWords` words of slots that
    are poisoned by themselves, 512 to a slot (R302). -/
structure Matrix where
  groups : List Group
  owners : SMap Nat
  slots : SMap Byte
  slotPoison : List Nat
  badWords : List Nat
  acc : Accum
  cur : Option Coll
  deriving DecidableEq, Repr

/-- The record of a gang on its cluster (R287): `visited` names the clusters in which members have left
    migration slots, and `ended` says that no member is left (R24). -/
structure GangRec where
  gang : Nat
  lnch : Nat
  g : Nat
  privbase : Nat
  plog : Nat
  prog : Nat
  ngang : Nat
  ptbase : Word
  keyid : Nat
  slots : List Loc
  visited : List Nat
  ended : Bool
  deriving DecidableEq, Repr

/-- A save that the spill engine has been given or has begun: the thread, the SPILL that asked for it by
    thread and result (R290, R390). -/
structure SaveReq where
  uid : Nat
  asker : Option (Nat × Nat)
  deriving DecidableEq, Repr

/-- A cluster (R6): `mapped` names the bytes of mapped stash lines that its view holds, with their dirty bits,
    and `mapKey` the key of the access that filled a mapped line (R155, R176, R394). -/
structure Cluster where
  view : SMap VByte
  viewPoison : List Nat
  stash : SMap Byte
  stashPoison : List Nat
  maps : List Mapping
  mapped : SMap Bool
  mapKey : SMap Nat
  tlb : List TlbEntry
  subs : SMap SubSlot
  heath : SMap HeathRec
  saves : List SaveReq
  gangs : List GangRec
  forming : List Forming
  mx : Matrix
  evc : Vector Word 8
  evsel : Vector (BitVec 18) 8
  rtres : Nat
  faults : List (List Word)
  faultWin : List SentWord
  closed : Bool
  deriving DecidableEq, Repr

/-- A task record (R286). -/
structure TaskRec where
  entry : Word
  arg : Word
  ptbase : Word
  privbase : Nat
  plog : Nat
  prog : Nat
  lnch : Nat
  gang : Nat
  keyid : Nat
  prio : Nat
  light : Bool
  part : Bool
  s : Nat
  g : Nat
  slice : Nat
  deriving DecidableEq, Repr

/-- A code line in an instruction cache: key and physical address are its index (R171). -/
structure CodeLine where
  bytes : List Byte
  poison : Bool
  deriving DecidableEq, Repr

/-- A core: its partition, the draw that places its rotation pointer, which thread lost the last contest
    of each shared position, its instruction cache, inbox, copy count and copy FIFO (R28, R49, R171,
    R260, R285). -/
structure Core where
  p64 : Bool
  phase : Nat
  contest : SMap Bool
  icache : SMap CodeLine
  inbox : List TaskRec
  xseq : BitVec 16
  fifo : List Nat
  deriving DecidableEq, Repr

/-- A copy that has been accepted and not completed (R257, R261): the parts still to be read, those read and
    still to be written, the status and the end of the prefix that it will report, the port that takes its token
    (COPYQ) or the packet that asked for it, the taint of its addresses (R182), where the bytes of its two ranges
    lie, as far as they had a translation at its issue, whether its write-back of issue is still to be made (R180,
    R189), and whether its token has been deposited. -/
structure CopyOp where
  id : Nat
  uid : Nat
  clu : Nat
  core : Nat
  reg : XReg
  xseq : BitVec 16
  src : Word
  dst : Word
  w2 : Word
  hnd : Word
  key : Nat
  ptbase : Word
  wpriv : Word
  user : Bool
  chunks : List (Nat × Nat)
  got : List (Nat × List Byte)
  status : Nat
  stop : Nat
  send : Option (PReg × BitVec 32 × Scope)
  packet : Option Nat
  srcTaint : Bool
  dstTaint : Bool
  srcAt : List Piece
  dstAt : List Piece
  wb : Bool
  ready : Bool
  deposited : Bool
  deriving DecidableEq, Repr

/-- Where a token completion stands on its way (R105, R106): bound for the thread, or forwarded to a
    location. -/
inductive Stage where
  | bound
  | forwarded (l : Loc)
  deriving DecidableEq, Repr

/-- A token completion on its way to a thread, with the light interrupt it raises (R105, R261). -/
structure TokenMsg where
  id : Nat
  uid : Nat
  reg : XReg
  value : Word
  irq : Option Irq
  copy : Option Nat
  stage : Stage
  deriving DecidableEq, Repr

/-- A migration message: the thread, its destination cluster, and its place on the refuse-and-replay
    path (R43, R44, R271). -/
structure MigMsg where
  id : Nat
  thread : Thread
  dest : Nat
  flying : Bool
  due : Nat
  tries : Nat
  deriving DecidableEq, Repr

/-- A KEYRET in progress, with the access that orders it after its issuer's earlier ones (R166, R365). -/
structure KeyRet where
  uid : Nat
  reg : XReg
  key : Nat
  acc : Nat
  deriving DecidableEq, Repr

/-- Phases of a packet taken by the parser (R277, R307). -/
inductive Phase where
  | accepted | started | done
  deriving DecidableEq, Repr

/-- A packet that a queue has taken and that has not completed (R277): its eight words, journal entry,
    ring index, the packets of an indirect buffer still to run; `extra` are the journal entries that HOLDLIM has
    written for it, and `faulted` says that it ends as faulted (R279, R306, R307). -/
structure Packet where
  id : Nat
  queue : Nat
  words : List Word
  rdidx : Nat
  jseq : Nat
  indir : Bool
  parent : Option Nat
  phase : Phase
  next : Nat
  recheck : Nat
  extra : List Nat
  faulted : Bool
  deriving DecidableEq, Repr

/-- A hardware queue (R273, R276, R279); `heldVa` is the address that it is held for, `heldPkt` the packet. -/
structure Queue where
  qbase : Nat
  en : Bool
  dev : Bool
  prio : Nat
  logn : Nat
  qptb : Word
  qkey : Nat
  doorbell : BitVec 32
  rdidx : BitVec 32
  holdlim : Nat
  qstate : Nat
  heldAt : Nat
  heldVa : Nat
  heldPkt : Nat
  reported : Bool
  deriving DecidableEq, Repr

/-- A launch that has been accepted (R282, R284): its ranges by die once started, and how many gangs
    have retired. -/
structure Launch where
  packet : Nat
  lnch : Nat
  started : Bool
  words : List Word
  ptbase : Word
  key : Nat
  ranges : List (Nat × Nat)
  retired : Nat
  aborted : Bool
  deriving DecidableEq, Repr

/-- A task record on its way from a die's launch engine to a core inbox (R285). -/
structure TaskMsg where
  task : TaskRec
  clu : Nat
  core : Nat
  flying : Bool
  due : Nat
  tries : Nat
  deriving DecidableEq, Repr

/-- A die: its last-level TLB, its event counters with their selects, the task record its launch engine
    has under way, and those that dispatchers have returned to it (R170, R285, R287, R320). -/
structure Die where
  tlb : List TlbEntry
  ctr : SMap Word
  sel : SMap (BitVec 18)
  task : Option TaskMsg
  back : List TaskRec
  deriving DecidableEq, Repr

/-- The control registers of BAR0 (R273, R307, R308, R313, R315, R319, R322), and what the host sets by
    configuration: the size of BAR2 (R312) and the base of the HDM decoder (R310). `image` is the draw of the
    boot that checked the firmware, on which the measurements of R317 depend. -/
structure Bar0 where
  bootstat : Nat
  image : Nat
  pkgnum : Nat
  bar2win : Nat
  bar2size : Nat
  hdmBase : Nat
  hostkey : Nat
  jbase : Nat
  jlog : Nat
  jwr : Nat
  fmode : BitVec 8
  hmbase : Nat
  hmlog : Nat
  hmwr : Nat
  hmrd : Nat
  hmreply : Vector Word 8
  links : Vector (Nat × Nat) 16
  sreq : SMap Word
  sstate : Nat
  sreason : Nat
  scmd : Nat
  srlen : Nat
  sreply : List Byte
  pwrlim : Nat
  clkcur : Nat
  tmax : Nat
  lowcyc : Word
  deriving DecidableEq, Repr

/-- A page that the memory-management function has moved (R161). -/
structure Redirect where
  src : Nat
  dst : Nat
  size : Nat
  deriving DecidableEq, Repr

/-- A collapse of a replicated page that a stalled write has called for (R164). -/
structure Collapse where
  id : Nat
  asid : Nat
  va : Nat
  size : Nat
  pa : Nat
  pte : Nat
  key : Nat
  deriving DecidableEq, Repr

/-- What the outside world does next: an event of the table; a store of the host to its own memory of space
    0b11 (R194); a read of BAR0 (R313); the configuration of BAR2's size or of the HDM decoder (R310, R312); a
    Novyada function that takes the oldest entry of its mailbox (R308); a lost package that has been reset and
    booted and rejoins the pod (R309). -/
inductive Input where
  | event (i : Instr)
  | hostStore (pa : Nat) (bytes : List Byte)
  | bar0Read (off n : Nat)
  | bar2Size (n : Nat)
  | hdmBase (a : Nat)
  | mailTake (f : Nat)
  | rejoin (pkg : Nat)
  deriving DecidableEq, Repr

/-- A 64-byte half that the host holds, and the key under which it does; without a key, a half that answers to
    any (R162, R165). -/
structure HeldHalf where
  half : Nat
  key : Option Nat
  deriving DecidableEq, Repr

/-- The memories of the package outside the clusters (R172, R176). `home` is home memory as a read of it finds it;
    `l2` names for each slice the lines that it holds, by key and line, with a dirty bit (R9, R302). `homePoison`
    are the poisoned words of home memory, `hbmPoison` those in HBM under a line that its home slice holds.
    `repl` are the replicated pages that walks have found (R163, R164). -/
structure Store where
  home : Memory
  homeKey : SMap Nat
  homePoison : List Nat
  hbmPoison : List Nat
  hostMem : Memory
  l2 : SMap (SMap Bool)
  repl : List TlbEntry
  hostHeld : List HeldHalf
  redirects : List Redirect
  collapses : List Collapse
  subTable : SMap (List SubEntry)
  deriving DecidableEq, Repr

/-- The launch path and the Novyada functions (13, 14, 15): `outbox` holds the entries on their way to the
    mailboxes, `replies` what the host has sent in the place of a function (R308), `taken` what the functions
    have taken from their mailboxes, and `hostData` what the host's last read returned (R313, R314). -/
structure Control where
  bar : Bar0
  queues : SMap Queue
  packets : List Packet
  launches : List Launch
  lnchCount : Nat
  round : List Nat
  lastq : List Nat
  mailboxes : SMap (List (BitVec 512))
  outbox : List (Nat × BitVec 512)
  replies : List (Nat × BitVec 512)
  taken : List (Nat × BitVec 512)
  hostData : List Byte
  keys : SMap (BitVec 512)
  fenced : List Nat
  fatal : Bool
  deriving DecidableEq, Repr

/-- What is on its way between parts of the package; `ghosts` are threads that have left their slots while
    accesses of theirs were not performed (R23). -/
structure Flight where
  subMsgs : List SubMsg
  copies : List CopyOp
  tokens : List TokenMsg
  migs : List MigMsg
  keyrets : List KeyRet
  ghosts : List (Loc × Thread)
  deriving DecidableEq, Repr

/-- The state of the package. `cur` is the thread whose instruction runs and `curN` the N of its line;
    `issueQ` (each thread marked where
    it leads its group), `grpAcc` (accesses of the group that issues, by thread and id) and `agenda` hold
    what is left of the cycle; `inputs` is what the outside world will do;
    `free` counts the free values drawn; `nextId` and `nextUid` name accesses, messages and threads. -/
structure State where
  threads : SMap Thread
  cores : SMap Core
  clusters : SMap Cluster
  dies : SMap Die
  store : Store
  flight : Flight
  ctl : Control
  cycle : Nat
  cur : Loc
  curN : Nat
  issueQ : List (Bool × Loc)
  grpAcc : List (Nat × Nat)
  agenda : List Instr
  inputs : List Input
  free : Nat
  nextId : Nat
  nextUid : Nat
  deriving DecidableEq, Repr

/-- BAR0 after reset: BOOTSTAT reads booting; no reset value is given for the others (log 2). -/
def Bar0.reset : Bar0 where
  bootstat := 0
  image := 0
  pkgnum := 0
  bar2win := 0
  bar2size := 2 ^ 28
  hdmBase := 0
  hostkey := 0
  jbase := 0
  jlog := 0
  jwr := 0
  fmode := 0
  hmbase := 0
  hmlog := 0
  hmwr := 0
  hmrd := 0
  hmreply := Vector.replicate 8 0
  links := Vector.replicate 16 (0, 0)
  sreq := []
  sstate := 0
  sreason := 0
  scmd := 0
  srlen := 0
  sreply := []
  pwrlim := 3600
  clkcur := 1500
  tmax := 0
  lowcyc := 0

/-- The package right after reset (R196, R313, R445): no thread stands in a slot, no cache or TLB holds
    anything, nothing is on its way, and BOOTSTAT reads 0. Parts without an entry are as `Ops` gives
    them when nothing has changed them. -/
def State.reset : State where
  threads := []
  cores := []
  clusters := []
  dies := []
  store :=
    { home := [], homeKey := [], homePoison := [], hbmPoison := [], l2 := [], repl := [], hostMem := [], hostHeld := [], redirects := []
      collapses := [], subTable := [] }
  flight := { subMsgs := [], copies := [], tokens := [], migs := [], keyrets := [], ghosts := [] }
  ctl :=
    { bar := Bar0.reset, queues := [], packets := [], launches := [], lnchCount := 0, round := [8, 4, 2, 1]
      lastq := [127, 127, 127, 127], mailboxes := [], outbox := [], replies := [], taken := [], hostData := [], keys := [], fenced := []
      fatal := false }
  cycle := 0
  cur := ⟨0, 0, 0⟩
  curN := 1
  issueQ := []
  grpAcc := []
  agenda := []
  inputs := []
  free := 0
  nextId := 0
  nextUid := 0

end Sys2Proof.Machine
end

