-- ==== Sys2Proof/Machine/Ops.lean ====
section
/-! DEFINITION. Operations on the parts of the state: sparse storage, threads and their registers, draws
of free values, bytes and words, and the taking of a trap with the return from it. -/

namespace Sys2Proof

/-- The number of a location in the map of threads. -/
def Loc.key (l : Loc) : Nat := (l.clu * 4 + l.core) * 256 + l.slot

/-- The location of a number. -/
def Loc.ofKey (k : Nat) : Loc := ⟨k / 1024, k / 256 % 4, k % 256⟩

/-- The number of the core of a location. -/
def Loc.coreIdx (l : Loc) : Nat := l.clu * 4 + l.core

/-- Slots 128 to 131 are migration slots (R8). -/
def Loc.migration (l : Loc) : Bool := 128 ≤ l.slot

/-- Slot 0 of every core runs at supervisor level (R111). -/
def Loc.supervisor (l : Loc) : Bool := l.slot = 0

/-- The cluster supervisor: slot 0 of core 0 (R111). -/
def Loc.clusterSup (l : Loc) : Bool := l.slot = 0 && l.core = 0

end Sys2Proof

namespace Sys2Proof.Machine

/-! Sparse storage. -/

/-- The entry at a key. -/
def mget {α : Type} : SMap α → Nat → Option α
  | [], _ => none
  | (k, v) :: m, n => if n = k then some v else mget m n

/-- The storage with an entry set; keys stay strictly rising. What stood at the key is gone. -/
def mset {α : Type} : SMap α → Nat → α → SMap α
  | [], n, a => [(n, a)]
  | e :: m, n, a => if e.1 < n then e :: mset m n a else (n, a) :: if e.1 = n then m else e :: m

/-- The storage without an entry. -/
def mdel {α : Type} : SMap α → Nat → SMap α
  | [], _ => []
  | (k, v) :: m, n => if n = k then m else (k, v) :: mdel m n

/-- Keys rise strictly. -/
def mwf {α : Type} : SMap α → Bool
  | [] => true
  | [_] => true
  | (k, _) :: (k', v) :: m => decide (k < k') && mwf ((k', v) :: m)

/-- The canonical form of memory: addresses rise strictly. -/
def Memory.wf (m : Memory) : Bool := mwf m

/-- Entries that a predicate keeps. -/
def mfilter {α : Type} (p : Nat → α → Bool) (m : SMap α) : SMap α := m.filter fun e => p e.1 e.2

/-! Parts of the package. -/

/-- The thread at a location. -/
def thread? (s : State) (l : Loc) : Option Thread := mget s.threads (Loc.key l)

/-- The state with a thread at a location. -/
def setThread (s : State) (l : Loc) (t : Thread) : State := { s with threads := mset s.threads (Loc.key l) t }

/-- The state with the thread at a location changed, where there is one. -/
def modThread (s : State) (l : Loc) (f : Thread → Thread) : State :=
  match thread? s l with
  | some t => setThread s l (f t)
  | none => s

/-- The state with a slot emptied. -/
def delThread (s : State) (l : Loc) : State := { s with threads := mdel s.threads (Loc.key l) }

/-- A subscription slot of zeros (R196). -/
def SubSlot.zero : SubSlot := ⟨false, false, false, false, 0, 0, 0, 0, 0, 0, 0, false⟩

/-- An accumulator file that no group holds. -/
def Accum.empty : Accum where
  owner := none
  hash := false
  row0 := 0
  col0 := 0
  direct := []
  table := []
  lb := 0
  ways := 1
  bcap := 0
  bbase := 0
  spill := 0
  poison := false
  badWords := []

/-- A matrix unit that no group uses. -/
def Matrix.empty : Matrix where
  groups := []
  owners := []
  slots := []
  slotPoison := []
  badWords := []
  acc := Accum.empty
  cur := none

/-- A cluster as reset leaves it (R196, R445). -/
def Cluster.empty : Cluster where
  view := []
  viewPoison := []
  stash := []
  stashPoison := []
  maps := []
  mapped := []
  mapKey := []
  tlb := []
  subs := []
  heath := []
  saves := []
  gangs := []
  forming := []
  mx := Matrix.empty
  evc := Vector.replicate 8 0
  evsel := Vector.replicate 8 0
  rtres := 0
  faults := []
  faultWin := []
  closed := false

/-- A core as reset leaves it: partition P128 (log 2), its pointer at a free phase. -/
def Core.empty (idx : Nat) : Core where
  p64 := false
  phase := idx
  contest := []
  icache := []
  inbox := []
  xseq := 0
  fifo := []

/-- A die as reset leaves it. -/
def Die.empty : Die where
  tlb := []
  ctr := []
  sel := []
  task := none
  back := []

/-- A queue as reset leaves it (log 2). -/
def Queue.empty : Queue where
  qbase := 0
  en := false
  dev := false
  prio := 0
  logn := 0
  qptb := 0
  qkey := 0
  doorbell := 0
  rdidx := 0
  holdlim := 0
  qstate := 0
  heldAt := 0
  heldVa := 0
  heldPkt := 0
  reported := false

/-- The cluster of a package-wide number. -/
def cluster (s : State) (c : Nat) : Cluster := (mget s.clusters c).getD Cluster.empty

/-- The state with a cluster changed. -/
def setCluster (s : State) (c : Nat) (v : Cluster) : State := { s with clusters := mset s.clusters c v }

/-- The subscription slot of a cluster that bits [9:0] of a register name (R195, R196). -/
def slotOf (s : State) (clu : Nat) (w : Word) : SubSlot := (mget (cluster s clu).subs (w.toNat % 1024)).getD SubSlot.zero

/-- The state with a subscription slot changed. -/
def setSlot (s : State) (clu k : Nat) (v : SubSlot) : State :=
  setCluster s clu { cluster s clu with subs := mset (cluster s clu).subs k v }

/-- The core with a package-wide number 4 × cluster + core (R8). -/
def coreOf (s : State) (k : Nat) : Core := (mget s.cores k).getD (Core.empty k)

/-- The state with a core changed. -/
def setCore (s : State) (k : Nat) (v : Core) : State := { s with cores := mset s.cores k v }

/-- The die of a number. -/
def dieOf (s : State) (d : Nat) : Die := (mget s.dies d).getD Die.empty

/-- The state with a die changed. -/
def setDie (s : State) (d : Nat) (v : Die) : State := { s with dies := mset s.dies d v }

/-- The queue of a number. -/
def queueOf (s : State) (q : Nat) : Queue := (mget s.ctl.queues q).getD Queue.empty

/-- The state with a queue changed. -/
def setQueue (s : State) (q : Nat) (v : Queue) : State :=
  { s with ctl := { s.ctl with queues := mset s.ctl.queues q v } }

/-- The threads of the package with their locations, in the order of their locations. -/
def allThreads (s : State) : List (Loc × Thread) := s.threads.map fun e => (Loc.ofKey e.1, e.2)

/-- The threads of a cluster. -/
def clusterThreads (s : State) (c : Nat) : List (Loc × Thread) := (allThreads s).filter fun e => e.1.clu = c

/-- The slot in which the thread of a uid stands. -/
def locOf (s : State) (uid : Nat) : Option Loc := ((allThreads s).find? fun e => e.2.uid = uid).map (·.1)

/-- Whether an access, by thread and id, is still to be performed: of a thread in a slot, or of one that has
    left it (R23), a CMPK or EXPD among them; or a copy, by thread and id, still to be carried out. -/
def accPending (s : State) (p : Nat × Nat) : Bool :=
  let has := fun (t : Thread) =>
    t.uid = p.1 && (t.pipe.acc.any (fun x => x.id = p.2) || t.pipe.pack.any fun k => k.id = p.2)
  s.threads.any (fun e => has e.2) || s.flight.ghosts.any (fun e => has e.2)
    || s.flight.copies.any fun c => c.uid = p.1 && c.id = p.2 && !c.ready

/-! Draws. -/

/-- The state after one draw of a free value. -/
def drawn (s : State) : State := { s with free := s.free + 1 }

/-- Some draws are spent. -/
def drawnBy (n : Nat) (s : State) : State := { s with free := s.free + n }

/-- A free value of 64 bytes: four draws from `n` on. -/
def freeBlock (n : Nat) : BitVec 512 :=
  (List.range 4).foldl (fun acc k => acc <<< 128 ||| (Config.freeWord (n + k)).setWidth 512) 0

/-- A choice among `n` by the next draw. -/
def choose (s : State) (n : Nat) : Nat := (Config.freeWord s.free).toNat % n

/-! Bytes and words. -/

/-- The little-endian bytes of a number (R122). -/
def leBytes : Nat → Nat → List Byte
  | 0, _ => []
  | n + 1, v => BitVec.ofNat 8 v :: leBytes n (v / 256)

/-- The number of little-endian bytes (R122). -/
def leNat : List Byte → Nat
  | [] => 0
  | b :: bs => b.toNat + 256 * leNat bs

/-- The bits [hi:lo] of a word as a number. -/
def field (w : Word) (lo width : Nat) : Nat := w.toNat / 2 ^ lo % 2 ^ width

/-- The level at which a thread runs: supervisor in slot 0, but for a light handler, which runs at user level
    also there; a trap handler entered from it stays at that level (R111, R115, log 67). -/
def supLevel (l : Loc) (t : Thread) : Bool := l.supervisor && !t.csr.tcause.getLsbD 62

/-- Sign extension of the low `k` bits of a number to 64 bits. -/
def sextNat (k v : Nat) : Word :=
  if v % 2 ^ k < 2 ^ (k - 1) then BitVec.ofNat 64 (v % 2 ^ k)
  else BitVec.ofNat 64 (v % 2 ^ k + (2 ^ 64 - 2 ^ k))

/-- The signed value of the low `k` bits of a number. -/
def sintNat (k v : Nat) : Int :=
  if v % 2 ^ k < 2 ^ (k - 1) then (v % 2 ^ k : Nat) else (v % 2 ^ k : Nat) - (2 ^ k : Nat)

/-- An integer modulo 2^k. -/
def wrapInt (k : Nat) (v : Int) : Nat := (v % (2 ^ k : Nat)).toNat

/-- Bytes of an access size (R76). -/
def sizeBytes : Size → Nat
  | .b => 1
  | .h => 2
  | .w => 4
  | .d => 8
  | .q => 16

/-! Registers. -/

/-- A register file of zeros, every register full and clear (R21, R108). -/
def Regs.zero : Regs where
  x := Vector.replicate 64 0
  v := Vector.replicate 64 0
  full := BitVec.allOnes 64
  taint := 0
  xpoison := 0
  vpoison := 0

/-- A port register as a thread starts (R108). -/
def Port.empty : Port := ⟨0, [], [], false⟩

/-- The issue state of a thread that starts, or after its tags have become FREE (R60, R107). -/
def Pipe.empty : Pipe where
  annul := 0
  hist := []
  fixed := []
  results := []
  tags := Vector.replicate 8 TagState.free
  sWait := false
  acc := []
  block := none
  pack := none

/-- The bits of PTBASE that are no reserved ones (R109). -/
def ptbaseMask (w : Word) : Word := w &&& 0xFFFF_FFFF_FFFF_0000

/-- The control registers of a thread as it starts (R21): those that the rule lists, and zero in the
    others. -/
def Csrs.start (tid gsz gang lnch : BitVec 32) (light : Bool) (prio : BitVec 2) (slice : BitVec 32)
    (ptbase : Word) (keyid : BitVec 6) (wpriv : Word) : Csrs where
  tid := tid
  gsz := gsz
  gang := gang
  lnch := lnch
  rand := 0
  fpctl := 0
  tvec := 0
  tepc := 0
  tcause := 0
  tval := 0
  uepc := 0
  xferid := 0
  qhnd := 0
  qctlv := 0
  wpriv := wpriv
  nakbo := 0
  grank := BitVec.allOnes 64
  light := light
  prio := prio
  slice := slice
  ptbase := ptbaseMask ptbase
  keyid := keyid
  xwin := 0

/-- A thread as it starts in a slot (R21, R108): entry address, argument in x1, registers of zeros. -/
def Thread.start (uid : Nat) (l : Loc) (pc arg : Word) (csr : Csrs) : Thread where
  uid := uid
  pc := pc
  mode := .running
  regs := { Regs.zero with x := Regs.zero.x.set 1 arg }
  csr := csr
  pipe := Pipe.empty
  ports := Vector.replicate 8 Port.empty
  trap := none
  gfault := none
  irqs := []
  present := none
  grp := none
  origin := l
  ret := none
  sliceCount := 0
  expired := none
  waitSince := none

/-- The value of an x register; x0 reads as zero (R101). -/
def xval (t : Thread) (n : XReg) : Word := if n = 0 then 0 else t.regs.x.get n.toFin

/-- The value of a v register. -/
def vval (t : Thread) (n : VReg) : VWord := t.regs.v.get n.toFin

/-- A port register. -/
def portOf (t : Thread) (q : PReg) : Port := t.ports.get q.toFin

/-- The thread with a port register changed. -/
def setPort (t : Thread) (q : PReg) (p : Port) : Thread := { t with ports := t.ports.set q.toNat p q.isLt }

/-- The value of a scalar operand: an x register, or the word at the head of a port (R103). -/
def oval (t : Thread) : Opr → Word
  | .x n => xval t n
  | .q q => ((portOf t q).inb.head?.map (·.word)).getD 0

/-- The taint bit of an operand; ports are never tainted (R183). -/
def otaint (t : Thread) : Opr → Bool
  | .x n => n ≠ 0 && t.regs.taint.getLsbD n.toNat
  | .q _ => false

/-- The taint bit of an x register; x0 has none (R183). -/
def xtaint (t : Thread) (n : XReg) : Bool := n ≠ 0 && t.regs.taint.getLsbD n.toNat

/-- A bit of a word set or cleared. -/
def putBit {w : Nat} (b : BitVec w) (n : Nat) (v : Bool) : BitVec w :=
  if v then b ||| BitVec.twoPow w n else b &&& ~~~ BitVec.twoPow w n

/-- The registers after one write: x0 ignores it, a write clears poison, sets the taint of its value
    and leaves full/empty bits alone (R101, R183, R303). -/
def Regs.write (r : Regs) (w : Wr) : Regs :=
  match w.dest with
  | .x n =>
    if n = 0 then r
    else { r with
      x := r.x.set n.toNat (w.val.setWidth 64) n.isLt
      taint := putBit r.taint n.toNat w.taint
      xpoison := putBit r.xpoison n.toNat w.poison }
  | .v n => { r with v := r.v.set n.toNat w.val n.isLt, vpoison := putBit r.vpoison n.toNat w.poison }

/-- The registers after writes in order. -/
def Regs.writes (r : Regs) (ws : List Wr) : Regs := ws.foldl Regs.write r

/-- A write of an x register without taint or poison. -/
def wrX (n : XReg) (v : Word) : Wr := ⟨.x n, v.setWidth 128, false, false⟩

/-- A write of a v register. -/
def wrV (n : VReg) (v : VWord) : Wr := ⟨.v n, v, false, false⟩

/-- The full/empty bit of an x register set; x0 stays full (R101, R102). -/
def Regs.setFull (r : Regs) (n : XReg) (b : Bool) : Regs :=
  if n = 0 then r else { r with full := putBit r.full n.toNat b }

/-! Waits. -/

/-- Every result has landed and every issued instruction has completed (R66). -/
def settled (t : Thread) (cycle : Nat) : Bool :=
  t.pipe.results.isEmpty && t.pipe.fixed.isEmpty && t.pipe.hist.all (· ≤ cycle) && t.pipe.pack.isNone

/-- Settled, and every access performed (R67, R185). -/
def drained (t : Thread) (cycle : Nat) : Bool := settled t cycle && t.pipe.acc.isEmpty

/-- The thread has no annulment pending and no result outstanding, its tags are FREE, and no
    instruction lies at distance 1 to 3 (R60, R67). -/
def Pipe.fresh (p : Pipe) (annul : Nat) : Pipe :=
  { p with annul := annul, hist := [], tags := Vector.replicate 8 TagState.free, sWait := false }

/-! Traps. -/

/-- Cause codes (R116). -/
inductive Cause where
  | illegal | operand | align | xlate | prot | window | ifetch | coord | accwin | group | migr | hostamo
  | poison | priv | trap | addr
  deriving DecidableEq, Repr

/-- The code of a cause (R116). -/
def Cause.code : Cause → BitVec 8
  | .illegal => 0x01
  | .operand => 0x02
  | .align => 0x03
  | .xlate => 0x04
  | .prot => 0x05
  | .window => 0x06
  | .ifetch => 0x07
  | .coord => 0x08
  | .accwin => 0x09
  | .group => 0x0A
  | .migr => 0x0B
  | .hostamo => 0x0C
  | .poison => 0x0D
  | .priv => 0x0E
  | .trap => 0x0F
  | .addr => 0x10

/-- A trap that an instruction raises: cause and value. -/
structure TrapVal where
  cause : Cause
  val : Word
  deriving DecidableEq, Repr

/-- A fault message of four words, of KIND 2 for HALT and 1 for all others (R297, R361). -/
def faultMessage (l : Loc) (t : Thread) (kind : Nat) (hi : BitVec 16) : List Word :=
  [ BitVec.ofNat 64 (kind * 2 ^ 56 + (t.csr.tcause.toNat % 256) * 2 ^ 48 + l.core * 2 ^ 40 + l.slot * 2 ^ 32
      + t.csr.tid.toNat),
    t.csr.tepc, t.csr.tval, hi.setWidth 64 ]

/-- A 64-byte entry for a Novyada function enters the path to its mailbox (R13, R308). -/
def sendMail (s : State) (f : Nat) (data : BitVec 512) : State :=
  { s with ctl := { s.ctl with outbox := s.ctl.outbox ++ [(f, data)] } }

/-- A 64-byte entry of eight words, the first lowest. -/
def mailOf (ws : List Word) : BitVec 512 :=
  BitVec.ofNat 512 (ws.foldr (fun w acc => w.toNat + 2 ^ 64 * acc) 0)

/-- The fault message of a halt: to the cluster supervisor, or to the error-handling function when the
    supervisor itself halts, after which the cluster takes no task records (R297). -/
def sendFault (s : State) (l : Loc) (msg : List Word) : State :=
  let c := cluster s l.clu
  if l.clusterSup then sendMail (setCluster s l.clu { c with closed := true }) 3 (mailOf msg)
  else setCluster s l.clu { c with faults := c.faults ++ [msg] }

/-- The group of a thread that halts dissolves as soon as no collective of it is in progress (R215,
    R296). -/
def startDissolve (s : State) (clu : Nat) (grp : Option Nat) : State :=
  match grp with
  | none => s
  | some g =>
    let c := cluster s clu
    let gs := c.mx.groups.map fun r => if r.gid = g then { r with dissolving := true } else r
    setCluster s clu { c with mx := { c.mx with groups := gs } }

/-- Taking a trap once the thread is drained (R87, R112, R295, R296): TEPC, TCAUSE and TVAL are written,
    and the thread enters its handler, or halts alone when it has none, is in a trap handler already, or
    the trap never uses TVEC. -/
def takeTrap (s : State) (l : Loc) (t : Thread) (r : TrapReq) : State :=
  let cause := (t.csr.tcause &&& ~~~ 0x3FF#64) ||| (r.skp.setWidth 64 <<< 8) ||| r.cause.setWidth 64
  let c1 := { t.csr with tepc := r.pc, tcause := cause, tval := r.tval }
  let p1 := t.pipe.fresh 0
  if r.alone || t.csr.tvec = 0 || t.csr.tcause.getLsbD 63 then
    let t1 := { t with csr := c1, pipe := p1, trap := none, present := none, mode := .halted r.hi, expired := none }
    startDissolve (sendFault (setThread s l t1) l (faultMessage l t1 (if r.alone && r.cause = 0x0F then 2 else 1) r.hi)) l.clu t.grp
  else
    let c2 := { c1 with tcause := c1.tcause ||| BitVec.twoPow 64 63 }
    setThread s l { t with csr := c2, pipe := p1, trap := none, present := none, pc := t.csr.tvec }

/-- A trap raised for a thread: taken at once when nothing is outstanding, and otherwise held until
    then (R67, R112). -/
def raiseReq (s : State) (l : Loc) (t : Thread) (r : TrapReq) : State :=
  let t1 := { t with trap := some r, present := none }
  if drained t s.cycle then takeTrap s l t1 r else setThread s l t1

/-- A synchronous trap raised by the instruction at the thread's PC (R112). -/
def raiseTrap (s : State) (l : Loc) (t : Thread) (v : TrapVal) : State :=
  raiseReq s l t
    { cause := v.cause.code, tval := v.val, pc := t.pc, skp := 0, alone := false, hi := 0 }

/-- An illegal instruction halts its thread alone: TVAL holds the low 64 bits of the logical word, the
    fault message the rest (R87). -/
def raiseIllegal (s : State) (l : Loc) (t : Thread) (word : Nat) : State :=
  raiseReq s l t
    { cause := Cause.illegal.code, tval := BitVec.ofNat 64 word, pc := t.pc, skp := 0, alone := true
      hi := BitVec.ofNat 16 (word / 2 ^ 64) }

/-- A PC that enters a malformed line or an index not below N: ILLEGAL with TVEC unused, and the pending
    annulment is discarded (R40, R54, R72). -/
def raiseTarget (s : State) (l : Loc) (t : Thread) : State :=
  raiseReq s l { t with pipe := { t.pipe with annul := 0 } }
    { cause := Cause.illegal.code, tval := t.pc, pc := t.pc, skp := 0, alone := true, hi := 0 }

/-- A PC whose line cannot be fetched: IFETCH, the pending annulment saved in SKP (R40, R70, R169). -/
def raiseIfetch (s : State) (l : Loc) (t : Thread) : State :=
  raiseReq s l t
    { cause := Cause.ifetch.code, tval := t.pc, pc := t.pc, skp := BitVec.ofNat 2 t.pipe.annul, alone := false
      hi := 0 }

/-- The return from a trap (R113): PC := TEPC, TH cleared, the annulment count restored from SKP and the
    field cleared. -/
def returnTrap (t : Thread) : Thread :=
  { t with
    pc := t.csr.tepc
    csr := { t.csr with tcause := t.csr.tcause &&& ~~~ (BitVec.twoPow 64 63 ||| 0x300#64) }
    pipe := { t.pipe with annul := field t.csr.tcause 8 2 } }

/-- The return from a light handler (R115): PC := UEPC, LH cleared. -/
def returnLight (t : Thread) : Thread :=
  { t with
    pc := t.csr.uepc
    csr := { t.csr with tcause := t.csr.tcause &&& ~~~ BitVec.twoPow 64 62 }
    pipe := { t.pipe with hist := [] } }

end Sys2Proof.Machine
end

