-- ==== Sys2Proof/Machine/Float.lean ====
section
/-! DEFINITION. Floating-point values as exact numbers, their rounding, arithmetic and comparison
(R117 to R131). -/

namespace Sys2Proof.Machine

/-- The layout of a floating-point format (R117). `special` says how its top exponent is used. -/
structure FForm where
  width : Nat
  mbits : Nat
  bias : Nat
  maxBits : Nat
  inf : Bool
  nan : Bool
  canon : Nat
  deriving DecidableEq, Repr

/-- The floating-point formats (R117, R119); other codes have no such layout. -/
def fform : Fmt → FForm
  | .fp64 => ⟨64, 52, 1023, 0x7FEF_FFFF_FFFF_FFFF, true, true, 0x7FF8_0000_0000_0000⟩
  | .fp16 => ⟨16, 10, 15, 0x7BFF, true, true, 0x7E00⟩
  | .bf16 => ⟨16, 7, 127, 0x7F7F, true, true, 0x7FC0⟩
  | .e4m3 => ⟨8, 3, 7, 0x7E, false, true, 0x7F⟩
  | .e5m2 => ⟨8, 2, 15, 0x7B, true, true, 0x7E⟩
  | .e2m1 => ⟨4, 1, 1, 0x7, false, false, 0x0⟩
  | _ => ⟨32, 23, 127, 0x7F7F_FFFF, true, true, 0x7FC0_0000⟩

/-- Bits of an element of a format (R117, R120, R121). -/
def fmtWidth : Fmt → Nat
  | .fp32 | .i32 | .n32 => 32
  | .fp64 | .i64 | .n64 => 64
  | .fp16 | .bf16 | .i16 | .n16 => 16
  | .e4m3 | .e5m2 | .e8m0 | .pxf8 | .i8 | .n8 => 8
  | .e2m1 => 4

/-- A number: NaN, an infinity, or ± m × 2^e; a zero keeps its sign (R118). -/
inductive Num where
  | nan (signalling : Bool)
  | inf (neg : Bool)
  | fin (neg : Bool) (m : Nat) (e : Int)
  deriving DecidableEq, Repr

/-- The number that some bits of a format stand for (R118, R119). -/
def numOf (f : Fmt) (bits : Nat) : Num :=
  let g := fform f
  let b := bits % 2 ^ g.width
  let neg := b / 2 ^ (g.width - 1) = 1
  let mag := b % 2 ^ (g.width - 1)
  let man := mag % 2 ^ g.mbits
  let ex := mag / 2 ^ g.mbits
  if mag > g.maxBits then
    if g.inf && man = 0 then .inf neg else .nan (g.inf && man / 2 ^ (g.mbits - 1) = 0)
  else if ex = 0 then .fin neg man (1 - (g.bias : Int) - g.mbits)
  else .fin neg (man + 2 ^ g.mbits) ((ex : Int) - g.bias - g.mbits)

/-- Rounding modes (R124). -/
inductive RMode where
  | rne | rtz | rdn | rup | rs
  deriving DecidableEq, Repr

/-- The mode that FPCTL MODE names (R109, R124). -/
def modeOf (fpctl : BitVec 8) : RMode :=
  match fpctl.toNat % 8 with
  | 1 => .rtz
  | 2 => .rdn
  | 3 => .rup
  | 4 => .rs
  | _ => .rne

/-- The mode of an instruction (R79, R124). -/
def RMode.select (rm : RM) (fpctl : BitVec 8) : RMode :=
  match rm with
  | .dyn => modeOf fpctl
  | .rne => .rne
  | .rtz => .rtz
  | .rdn => .rdn
  | .rup => .rup
  | .rs => .rs

/-- How to round: the mode, the RAND state of a stochastic rounding, SAT of CVT. -/
structure Rnd where
  mode : RMode
  rand : Nat
  sat : Bool
  deriving DecidableEq, Repr

/-- Round to nearest, ties to even. -/
def Rnd.rne : Rnd := ⟨.rne, 0, false⟩

/-- Flags NV, DZ, OF, UF, NX in the order of FPCTL [7:3] (R109). -/
abbrev Flags := BitVec 5

/-- Invalid operation. -/
def flagNV : Flags := 0x10
/-- Division by zero. -/
def flagDZ : Flags := 0x08
/-- Overflow. -/
def flagOF : Flags := 0x04
/-- Underflow. -/
def flagUF : Flags := 0x02
/-- Inexact. -/
def flagNX : Flags := 0x01

/-- The result of an operation: bits and flags. -/
structure FRes where
  bits : Nat
  flags : Flags
  deriving DecidableEq, Repr

/-- The RAND state that a stochastic rounding uses (R110). -/
def randUse (r : BitVec 32) : BitVec 32 := if r = 0 then 0x6D2B_79F5 else r

/-- The xorshift32 step (R125). -/
def randStep (r : BitVec 32) : BitVec 32 :=
  let a := randUse r
  let b := a ^^^ (a <<< 13)
  let c := b ^^^ (b >>> 17)
  c ^^^ (c <<< 5)

/-- RAND after `n` roundings in a mode (R125, R126). -/
def randAfter (m : RMode) (n : Nat) (r : BitVec 32) : BitVec 32 :=
  match m, n with
  | .rs, k + 1 => randAfter .rs k (randStep r)
  | _, _ => r

/-- Whether a magnitude with integer part `fl` and remainder `rem` below 2^`sh` rounds away
    (R124, R125). -/
def roundsUp (r : Rnd) (neg : Bool) (fl rem sh : Nat) : Bool :=
  match r.mode with
  | .rne => decide (2 * rem > 2 ^ sh) || (decide (2 * rem = 2 ^ sh) && fl % 2 == 1)
  | .rtz => false
  | .rdn => neg && rem ≠ 0
  | .rup => !neg && rem ≠ 0
  | .rs => decide (rem * 2 ^ 24 / 2 ^ sh + r.rand % 2 ^ 24 ≥ 2 ^ 24)

/-- A magnitude m × 2^e in units of 2^q: integer part, remainder and the shift the remainder belongs
    to. A value far below the unit keeps only that it is not zero. -/
def unitsOf (m : Nat) (e q : Int) : Nat × Nat × Nat :=
  if e ≥ q then (m * 2 ^ (e - q).toNat, 0, 0)
  else
    let sh := (q - e).toNat
    if sh > m.log2 + 64 then (0, if m = 0 then 0 else 1, 64) else (m / 2 ^ sh, m % 2 ^ sh, sh)

/-- The overflow result of a format (R131): bits and flags. -/
def overflowed (g : FForm) (r : Rnd) (neg : Bool) : FRes :=
  let s := if neg then 2 ^ (g.width - 1) else 0
  let big := s + g.maxBits
  let top := if g.inf then s + g.maxBits + 1 else g.canon
  let toBig := match r.mode with
    | .rne | .rs => false
    | .rtz => true
    | .rdn => !neg
    | .rup => neg
  ⟨if !g.nan || r.sat || toBig then big else top, flagOF ||| flagNX⟩

/-- Rounding of ± m × 2^e once into a format: bits and flags OF, UF, NX (R123 to R125, R131). -/
def roundFin (f : Fmt) (r : Rnd) (neg : Bool) (m : Nat) (e : Int) : FRes :=
  let g := fform f
  let s := if neg then 2 ^ (g.width - 1) else 0
  if m = 0 then ⟨s, 0⟩
  else
    let top : Int := e + m.log2
    let emin : Int := 1 - (g.bias : Int)
    let qmin := emin - g.mbits
    let q := max (top - g.mbits) qmin
    let (fl, rem, sh) := unitsOf m e q
    let mag := fl + (if roundsUp r neg fl rem sh then 1 else 0)
    let bits := (q - qmin).toNat * 2 ^ g.mbits + mag
    if bits > g.maxBits then overflowed g r neg
    else
      let (fl', rem', sh') := unitsOf m e (top - g.mbits)
      let mag' := fl' + (if roundsUp r neg fl' rem' sh' then 1 else 0)
      let tiny := decide (top < emin) && !(decide (top = emin - 1) && decide (mag' ≥ 2 ^ (g.mbits + 1)))
      let nx := rem ≠ 0
      ⟨s + bits, (if nx then flagNX else 0) ||| (if tiny && nx then flagUF else 0)⟩

/-- The canonical NaN of a format (R119). -/
def canonNaN (f : Fmt) : Nat := (fform f).canon

/-- An infinity of a format that has one. -/
def infBits (f : Fmt) (neg : Bool) : Nat :=
  (if neg then 2 ^ ((fform f).width - 1) else 0) + (fform f).maxBits + 1

/-- An exact result rounded into a format that has infinities and NaN. -/
def roundNum (f : Fmt) (r : Rnd) : Num → FRes
  | .nan _ => ⟨canonNaN f, 0⟩
  | .inf neg => ⟨infBits f neg, 0⟩
  | .fin neg m e => roundFin f r neg m e

/-- Whether a number is a signalling NaN. -/
def Num.snan : Num → Bool
  | .nan s => s
  | _ => false

/-- Whether a number is a NaN. -/
def Num.isNaN : Num → Bool
  | .nan _ => true
  | _ => false

/-- NV for a signalling operand (R127, R128). -/
def nvIf (b : Bool) : Flags := if b then flagNV else 0

/-- The negation of a number. -/
def Num.neg : Num → Num
  | .nan s => .nan s
  | .inf n => .inf !n
  | .fin n m e => .fin (!n) m e

/-- A signed magnitude in units of 2^q. -/
def signedUnits (neg : Bool) (m : Nat) (e q : Int) : Int :=
  let v : Int := (m * 2 ^ (e - q).toNat : Nat)
  if neg then -v else v

/-- The exact sum of two finite numbers; a zero sum of unlike signs is +0, or −0 when rounding
    down (R123). -/
def sumFin (mode : RMode) (n1 : Bool) (m1 : Nat) (e1 : Int) (n2 : Bool) (m2 : Nat) (e2 : Int) : Num :=
  let q := min e1 e2
  let v := signedUnits n1 m1 e1 q + signedUnits n2 m2 e2 q
  if v = 0 then .fin (if m1 = 0 ∧ m2 = 0 ∧ n1 = n2 then n1 else mode = .rdn) 0 0
  else .fin (v < 0) v.natAbs q

/-- The exact product of two numbers, with NV for an infinity times zero (R127). -/
def mulNum : Num → Num → Num × Flags
  | .nan a, b => (.nan false, nvIf (a || b.snan))
  | a, .nan b => (.nan false, nvIf (a.snan || b))
  | .inf a, .inf b => (.inf (a != b), 0)
  | .inf a, .fin b m _ => if m = 0 then (.nan false, flagNV) else (.inf (a != b), 0)
  | .fin a m _, .inf b => if m = 0 then (.nan false, flagNV) else (.inf (a != b), 0)
  | .fin a m e, .fin b k j => (.fin (a != b) (m * k) (e + j), 0)

/-- The exact sum of two numbers, with NV for infinities of unlike signs (R127). -/
def addNum (mode : RMode) : Num → Num → Num × Flags
  | .nan a, b => (.nan false, nvIf (a || b.snan))
  | a, .nan b => (.nan false, nvIf (a.snan || b))
  | .inf a, .inf b => if a = b then (.inf a, 0) else (.nan false, flagNV)
  | .inf a, .fin .. => (.inf a, 0)
  | .fin .., .inf b => (.inf b, 0)
  | .fin a m e, .fin b k j => (sumFin mode a m e b k j, 0)

/-- Floating-point addition (R123). -/
def fpAdd (f : Fmt) (r : Rnd) (a b : Nat) : FRes :=
  let p := addNum r.mode (numOf f a) (numOf f b)
  let x := roundNum f r p.1
  ⟨x.bits, x.flags ||| p.2⟩

/-- Floating-point subtraction (R123). -/
def fpSub (f : Fmt) (r : Rnd) (a b : Nat) : FRes :=
  let p := addNum r.mode (numOf f a) (numOf f b).neg
  let x := roundNum f r p.1
  ⟨x.bits, x.flags ||| p.2⟩

/-- Floating-point multiplication (R123). -/
def fpMul (f : Fmt) (r : Rnd) (a b : Nat) : FRes :=
  let p := mulNum (numOf f a) (numOf f b)
  let x := roundNum f r p.1
  ⟨x.bits, x.flags ||| p.2⟩

/-- Fused multiply-add: rounded once after the add; an infinity times zero sets NV whatever the addend
    (R123, R127). -/
def fpFma (f : Fmt) (r : Rnd) (a b c : Nat) : FRes :=
  let p := mulNum (numOf f a) (numOf f b)
  let q := addNum r.mode p.1 (numOf f c)
  let x := roundNum f r q.1
  ⟨x.bits, x.flags ||| p.2 ||| q.2⟩

/-- The quotient of two magnitudes with 2^`k` scaling and a low bit for what remains. -/
def quotient (m d k : Nat) : Nat := 2 * (m * 2 ^ k / d) + (if m * 2 ^ k % d = 0 then 0 else 1)

/-- Floating-point division (R123, R127). -/
def fpDiv (f : Fmt) (r : Rnd) (a b : Nat) : FRes :=
  match numOf f a, numOf f b with
  | .nan s, y => ⟨canonNaN f, nvIf (s || y.snan)⟩
  | _, .nan s => ⟨canonNaN f, nvIf ((numOf f a).snan || s)⟩
  | .inf _, .inf _ => ⟨canonNaN f, flagNV⟩
  | .inf x, .fin y .. => ⟨infBits f (x != y), 0⟩
  | .fin x .., .inf y => roundFin f r (x != y) 0 0
  | .fin x m e, .fin y k j =>
    if k = 0 then if m = 0 then ⟨canonNaN f, flagNV⟩ else ⟨infBits f (x != y), flagDZ⟩
    else
      let sc := k.log2 + 128
      roundFin f r (x != y) (quotient m k sc) (e - j - sc - 1)

/-- The integer square root, from bit `k` down. -/
def isqrtGo : Nat → Nat → Nat → Nat
  | 0, _, r => r
  | k + 1, n, r => if (r + 2 ^ k) * (r + 2 ^ k) ≤ n then isqrtGo k n (r + 2 ^ k) else isqrtGo k n r

/-- The integer square root. -/
def isqrt (n : Nat) : Nat := isqrtGo (n.log2 / 2 + 1) n 0

/-- The square root of m × 2^e with a low bit for what remains. -/
def rootNum (m : Nat) (e : Int) : Nat × Int :=
  let sc : Int := if (e - 256) % 2 = 0 then 256 else 257
  let v := m * 2 ^ sc.toNat
  let x := isqrt v
  (2 * x + (if x * x = v then 0 else 1), (e - sc) / 2 - 1)

/-- Floating-point square root (R123, R127). -/
def fpSqrt (f : Fmt) (r : Rnd) (a : Nat) : FRes :=
  match numOf f a with
  | .nan s => ⟨canonNaN f, nvIf s⟩
  | .inf neg => if neg then ⟨canonNaN f, flagNV⟩ else ⟨infBits f false, 0⟩
  | .fin neg m e =>
    if m = 0 then roundFin f r neg 0 0
    else if neg then ⟨canonNaN f, flagNV⟩
    else
      let p := rootNum m e
      roundFin f r false p.1 p.2

/-- The order of two finite or infinite numbers: whether the first is less (R78, R129). -/
def Num.lt : Num → Num → Bool
  | .inf a, .inf b => a && !b
  | .inf a, .fin .. => a
  | .fin .., .inf b => !b
  | .fin a m e, .fin b k j =>
    let q := min e j
    decide (signedUnits a m e q < signedUnits b k j q)
  | _, _ => false

/-- Whether two finite or infinite numbers are equal; −0 equals +0. -/
def Num.eq : Num → Num → Bool
  | .inf a, .inf b => a = b
  | .fin a m e, .fin b k j =>
    let q := min e j
    decide (signedUnits a m e q = signedUnits b k j q)
  | _, _ => false

/-- The sign bit of a number that is no NaN. -/
def Num.sign : Num → Bool
  | .inf n => n
  | .fin n .. => n
  | .nan _ => false

/-- The order of R129, which puts −0 below +0. -/
def Num.ltMin (a b : Num) : Bool := a.lt b || (a.eq b && a.sign && !b.sign)

/-- FMIN, FMAX, VMIN and VMAX of two values (R129). -/
def fpMinMax (f : Fmt) (isMax : Bool) (a b : Nat) : FRes :=
  let w := (fform f).width
  let x := numOf f a
  let y := numOf f b
  let nv := nvIf (x.snan || y.snan)
  match x.isNaN, y.isNaN with
  | true, true => ⟨canonNaN f, nv⟩
  | true, false => ⟨b % 2 ^ w, nv⟩
  | false, true => ⟨a % 2 ^ w, nv⟩
  | false, false =>
    let takeB := if isMax then x.ltMin y else y.ltMin x
    ⟨(if takeB then b else a) % 2 ^ w, nv⟩

/-- The condition of FCMP and VCMP on two values, and its flags (R78, R357). -/
def fpCompare (f : Fmt) (c : FCond) (a b : Nat) : Bool × Flags :=
  let x := numOf f a
  let y := numOf f b
  let un := x.isNaN || y.isNaN
  let r := match c with
    | .eq => !un && x.eq y
    | .ne => un || !x.eq y
    | .lt => !un && x.lt y
    | .ge => !un && !x.lt y
    | .le => !un && (x.lt y || x.eq y)
    | .gt => !un && !(x.lt y || x.eq y)
    | .uo => un
    | .ord => !un
  (r, nvIf (x.snan || y.snan))

/-- Exact sums (R141 to R143): the running sum in units, whether a NaN or an infinity has come in, and
    whether every term is −0. -/
structure Sum where
  v : Int
  q : Int
  nan : Bool
  pinf : Bool
  ninf : Bool
  negZero : Bool
  nv : Bool
  deriving DecidableEq, Repr

/-- The empty sum. -/
def Sum.start : Sum := ⟨0, 0, false, false, false, true, false⟩

/-- A sum with a term added. -/
def Sum.add (s : Sum) (t : Num × Flags) : Sum :=
  let s := { s with nv := s.nv || t.2.getLsbD 4 }
  match t.1 with
  | .nan _ => { s with nan := true, negZero := false }
  | .inf neg => { s with pinf := s.pinf || !neg, ninf := s.ninf || neg, negZero := false }
  | .fin neg m e =>
    let q := min s.q e
    { s with
      v := s.v * (2 ^ (s.q - q).toNat : Nat) + signedUnits neg m e q
      q := q
      negZero := s.negZero && neg && m = 0 }

/-- The value of a sum, with NV for infinities of unlike signs (R127, R141, R143). -/
def Sum.result (s : Sum) : Num × Flags :=
  if s.nan then (.nan false, nvIf (s.nv || (s.pinf && s.ninf)))
  else if s.pinf && s.ninf then (.nan false, flagNV)
  else if s.pinf then (.inf false, nvIf s.nv)
  else if s.ninf then (.inf true, nvIf s.nv)
  else if s.v = 0 then (.fin s.negZero 0 0, nvIf s.nv)
  else (.fin (s.v < 0) s.v.natAbs s.q, nvIf s.nv)

end Sys2Proof.Machine
end

