-- ==== Sys2Proof/Machine/Special.lean ====
section
/-! DEFINITION. Conversions (R130 to R134), special functions (R135), block scaling (R136, R137) and
packed exponents (R138 to R140). -/

namespace Sys2Proof.Machine

/-! Conversions. -/

/-- Signed integer formats (R121). -/
def Fmt.signedInt : Fmt → Bool
  | .i8 | .i16 | .i32 | .i64 => true
  | _ => false

/-- The integer that some bits of an integer format stand for (R121). -/
def intOf (f : Fmt) (bits : Nat) : Int :=
  if Fmt.signedInt f then sintNat (fmtWidth f) bits else (bits % 2 ^ fmtWidth f : Nat)

/-- Smallest value of an integer format (R121). -/
def intMin (f : Fmt) : Int := if Fmt.signedInt f then -(2 ^ (fmtWidth f - 1) : Nat) else 0

/-- Largest value of an integer format (R121). -/
def intMax (f : Fmt) : Int :=
  if Fmt.signedInt f then (2 ^ (fmtWidth f - 1) : Nat) - 1 else (2 ^ fmtWidth f : Nat) - 1

/-- The number that an operand of CVT stands for: an integer, an E8M0 scale or a floating-point value
    (R118, R120, R121). -/
def cvtNum (f : Fmt) (bits : Nat) : Num :=
  match f with
  | .i8 | .i16 | .i32 | .i64 | .n8 | .n16 | .n32 | .n64 =>
    let v := intOf f bits
    .fin (v < 0) v.natAbs 0
  | .e8m0 => if bits % 256 = 255 then .nan false else .fin false 1 ((bits % 256 : Nat) - 127)
  | _ => numOf f bits

/-- Conversion to an integer format: rounded, and saturated outside the range (R132). -/
def toInt (f : Fmt) (r : Rnd) (n : Num) : FRes :=
  let w := fmtWidth f
  match n with
  | .nan _ => ⟨0, flagNV⟩
  | .inf neg => ⟨wrapInt w (if neg then intMin f else intMax f), flagNV⟩
  | .fin neg m e =>
    if m ≠ 0 ∧ e + m.log2 > 70 then ⟨wrapInt w (if neg then intMin f else intMax f), flagNV⟩
    else
      let (fl, rem, sh) := unitsOf m e 0
      let mag := fl + (if roundsUp r neg fl rem sh then 1 else 0)
      let v : Int := if neg then -(mag : Int) else mag
      if v > intMax f then ⟨wrapInt w (intMax f), flagNV⟩
      else if v < intMin f then ⟨wrapInt w (intMin f), flagNV⟩
      else ⟨wrapInt w v, if rem ≠ 0 then flagNX else 0⟩

/-- Conversion to E8M0 (R134). -/
def toE8m0 (sat : Bool) : Num → FRes
  | .nan s => ⟨0xFF, nvIf s⟩
  | .inf _ => ⟨if sat then 0xFE else 0xFF, flagNV⟩
  | .fin _ m e =>
    if m = 0 then ⟨0, flagNX⟩
    else
      let x : Int := e + m.log2 + 127
      let c := max 0 (min x 254)
      ⟨c.toNat, if x = c ∧ m = 2 ^ m.log2 then 0 else flagNX⟩

/-- Conversion to a floating-point format, with the results of R131 where the format lacks NaN or
    infinity (R130, R131). -/
def toFloat (f : Fmt) (r : Rnd) (n : Num) : FRes :=
  let g := fform f
  match n with
  | .nan s => if g.nan then ⟨canonNaN f, nvIf s⟩ else ⟨0, flagNV⟩
  | .inf neg =>
    let s := if neg then 2 ^ (g.width - 1) else 0
    if g.inf && !r.sat then ⟨infBits f neg, 0⟩
    else if r.sat || !g.nan then ⟨s + g.maxBits, flagNV⟩
    else ⟨g.canon, flagNV⟩
  | .fin neg m e => roundFin f r neg m e

/-- CVT of one element (R130 to R134). -/
def cvtElem (sf tf : Fmt) (r : Rnd) (bits : Nat) : FRes :=
  if Fmt.isInt sf && Fmt.isInt tf then
    let v := intOf sf bits
    ⟨wrapInt (fmtWidth tf) (if r.sat then max (intMin tf) (min v (intMax tf)) else v), 0⟩
  else if Fmt.isInt tf then toInt tf r (cvtNum sf bits)
  else if tf = .e8m0 then toE8m0 r.sat (cvtNum sf bits)
  else toFloat tf r (cvtNum sf bits)

/-- Whether CVT rounds in the selected mode, and so steps RAND under RS: neither between integers nor to
    E8M0 (R126, R133, R134). -/
def cvtRounds (sf tf : Fmt) : Bool := tf ≠ .e8m0 && !(Fmt.isInt sf && Fmt.isInt tf)

/-! Special functions, in fixed point with 320 bits below the point. -/

/-- Bits below the point. -/
def fxBits : Nat := 320

/-- The product of two fixed-point numbers, rounded down. -/
def fxMul (a b : Nat) : Nat := a * b / 2 ^ fxBits

/-- Σ z^(2k+1) / (2k+1) over k from `k` on, `n` terms, where `p` is z^(2k+1): the inverse hyperbolic
    tangent. -/
def fxAtanh (z2 : Nat) : (n k p acc : Nat) → Nat
  | 0, _, _, acc => acc
  | n + 1, k, p, acc => fxAtanh z2 n (k + 1) (fxMul p z2) (acc + p / (2 * k + 1))

/-- The natural logarithm of 2: twice the inverse hyperbolic tangent of one third. -/
def fxLn2 : Nat := 2 * fxAtanh (2 ^ fxBits / 9) 110 0 (2 ^ fxBits / 3) 0

/-- Σ y^k / k! from term `k` on, `n` terms, where `p` is y^k / k!. -/
def fxExpSum (y : Nat) : (n k p acc : Nat) → Nat
  | 0, _, _, acc => acc
  | n + 1, k, p, acc => fxExpSum y n (k + 1) (fxMul p y / (k + 1)) (acc + p)

/-- 2^f for a fraction f below 1. -/
def fxExp2 (f : Nat) : Nat := fxExpSum (fxMul f fxLn2) 90 0 (2 ^ fxBits) 0

/-- The base-2 logarithm of m / 2^`k`, between 1 and 2. -/
def fxLog2 (m k : Nat) : Nat :=
  let z := (m - 2 ^ k) * 2 ^ fxBits / (m + 2 ^ k)
  2 * fxAtanh (fxMul z z) 110 0 z 0 * 2 ^ fxBits / fxLn2

/-- 2^x for a finite x = ± m × 2^e that is no integer: integer part and fraction of x, then the power
    with a low bit for what is below it. -/
def exp2Num (neg : Bool) (m : Nat) (e : Int) : Nat × Int :=
  let ip := if e ≥ 0 then m * 2 ^ e.toNat else m / 2 ^ (-e).toNat
  let fr := if e ≥ 0 then 0
    else if (-e).toNat ≤ fxBits then m % 2 ^ (-e).toNat * 2 ^ (fxBits - (-e).toNat)
    else max 1 (m / 2 ^ ((-e).toNat - fxBits))
  if fr = 0 then (1, if neg then -(ip : Int) else ip)
  else if neg then (2 * fxExp2 (2 ^ fxBits - fr) + 1, -(ip : Int) - 1 - fxBits - 1)
  else (2 * fxExp2 fr + 1, (ip : Int) - fxBits - 1)

/-- EXP2 of an FP32 value (R135). -/
def fpExp2 (a : Nat) : FRes :=
  match numOf .fp32 a with
  | .nan s => ⟨canonNaN .fp32, nvIf s⟩
  | .inf neg => if neg then ⟨0, 0⟩ else ⟨infBits .fp32 false, 0⟩
  | .fin neg m e =>
    if m = 0 then ⟨0x3F80_0000, 0⟩
    else if e + m.log2 ≥ 12 then roundFin .fp32 Rnd.rne false 1 (if neg then -5000 else 5000)
    else
      let p := exp2Num neg m e
      roundFin .fp32 Rnd.rne false p.1 p.2

/-- LOG2 of an FP32 value (R135). -/
def fpLog2 (a : Nat) : FRes :=
  match numOf .fp32 a with
  | .nan s => ⟨canonNaN .fp32, nvIf s⟩
  | .inf neg => if neg then ⟨canonNaN .fp32, flagNV⟩ else ⟨infBits .fp32 false, 0⟩
  | .fin neg m e =>
    if m = 0 then ⟨infBits .fp32 true, flagDZ⟩
    else if neg then ⟨canonNaN .fp32, flagNV⟩
    else
      let k := m.log2
      let ip : Int := e + k
      if m = 2 ^ k then roundFin .fp32 Rnd.rne (ip < 0) ip.natAbs 0
      else
        let v : Int := ip * (2 ^ fxBits : Nat) + (fxLog2 m k : Int)
        roundFin .fp32 Rnd.rne (v < 0) (2 * v.natAbs + 1) (-(fxBits : Int) - 1)

/-- RCP of an FP32 value (R135). -/
def fpRcp (a : Nat) : FRes := fpDiv .fp32 Rnd.rne 0x3F80_0000 a

/-- RSQ of an FP32 value (R135). -/
def fpRsq (a : Nat) : FRes :=
  match numOf .fp32 a with
  | .nan s => ⟨canonNaN .fp32, nvIf s⟩
  | .inf neg => if neg then ⟨canonNaN .fp32, flagNV⟩ else ⟨0, 0⟩
  | .fin neg m e =>
    if m = 0 then ⟨infBits .fp32 neg, flagDZ⟩
    else if neg then ⟨canonNaN .fp32, flagNV⟩
    else
      let p := if e % 2 = 0 then (m, e) else (2 * m, e - 1)
      let q := 2 ^ 512 / p.1
      let x := isqrt q
      roundFin .fp32 Rnd.rne false (2 * x + (if x * x * p.1 = 2 ^ 512 then 0 else 1)) (-p.2 / 2 - 256 - 1)

/-- TANH of an FP32 value (R135). Below 2^-14 the result is the operand less a small part of its last
    place; from 32 on it is one less a small part. -/
def fpTanh (a : Nat) : FRes :=
  match numOf .fp32 a with
  | .nan s => ⟨canonNaN .fp32, nvIf s⟩
  | .inf neg => ⟨0x3F80_0000 + (if neg then 2 ^ 31 else 0), 0⟩
  | .fin neg m e =>
    if m = 0 then roundFin .fp32 Rnd.rne neg 0 0
    else if e + m.log2 < -14 then roundFin .fp32 Rnd.rne neg (m * 2 ^ 60 - 1) (e - 60)
    else if e + m.log2 ≥ 5 then roundFin .fp32 Rnd.rne neg (2 ^ 60 - 1) (-60)
    else
      let y := (if e ≥ -319 then 2 * m * 2 ^ (e + fxBits).toNat else 0) * 2 ^ fxBits / fxLn2
      let ex := fxExp2 (y % 2 ^ fxBits) * 2 ^ (y / 2 ^ fxBits)
      let v := (ex - 2 ^ fxBits) * 2 ^ fxBits / (ex + 2 ^ fxBits)
      roundFin .fp32 Rnd.rne neg (2 * v + 1) (-(fxBits : Int) - 1)

/-! Block scaling. -/

/-- Largest normal exponent of an element format (R136). -/
def emaxOf : Fmt → Int
  | .e4m3 => 8
  | .e5m2 => 15
  | _ => 2

/-- The magnitude exponent floor(log2 |v|) of a finite non-zero number. -/
def Num.exp : Num → Option Int
  | .fin _ m e => if m = 0 then none else some (e + m.log2)
  | _ => none

/-- VQNT of one block: the scale and the elements (R136). -/
def quantBlock (f : Fmt) (vs : List Nat) : Nat × List Nat :=
  let ns := vs.map (numOf .fp32)
  let bad := ns.any fun n => match n with
    | .fin .. => false
    | _ => true
  if bad then (0xFF, vs.map fun _ => 0)
  else
    match ns.filterMap Num.exp with
    | [] => (0, ns.map fun n => if n.sign then 2 ^ ((fform f).width - 1) else 0)
    | x :: xs =>
      let top := xs.foldl max x
      let e := min (max (top - emaxOf f) (-127)) 127
      ((e + 127).toNat,
        ns.map fun n => match n with
          | .fin neg m q => (roundFin f ⟨.rne, 0, true⟩ neg m (q - e)).bits
          | _ => 0)

/-- VDQ of one element under a scale (R137). -/
def dequant (f : Fmt) (scale bits : Nat) : Nat :=
  if scale % 256 = 255 then canonNaN .fp32
  else match numOf f bits with
    | .fin neg m e => (roundFin .fp32 Rnd.rne neg m (e + (scale % 256 : Nat) - 127)).bits
    | .inf neg => infBits .fp32 neg
    | .nan _ => canonNaN .fp32

/-! Packed exponents. -/

/-- Bit `i` of the code bits of a PXF8 block, which start at byte 17 (R138). -/
def pxBit (block : List Byte) (i : Nat) : Nat := ((block.getD (17 + i / 8) 0).toNat / 2 ^ (i % 8)) % 2

/-- One exponent code at bit `i`: the exponent field and the bits it took (R139). -/
def pxCode (block : List Byte) (emax i : Nat) : Nat × Nat :=
  let b := fun k => pxBit block (i + k)
  if b 0 = 0 then (emax, 1)
  else if b 1 = 0 then (emax - 1, 2)
  else if b 2 = 0 then (emax - (2 * b 3 + b 4 + 2), 5)
  else if b 3 = 0 then (0, 4)
  else (8 * b 4 + 4 * b 5 + 2 * b 6 + b 7, 8)

/-- The E4M3 bytes of elements `e` on of a PXF8 block, `n` of them, with the code bits from `i`
    (R138, R139). -/
def pxElems (block : List Byte) : (n e i : Nat) → List Byte
  | 0, _, _ => []
  | n + 1, e, i =>
    let nib := (block.getD (1 + e / 2) 0).toNat / (if e % 2 = 0 then 1 else 16) % 16
    let (x, k) := pxCode block ((block.getD 0 0).toNat % 16) i
    BitVec.ofNat 8 (nib / 8 * 128 + x * 8 + nib % 8) :: pxElems block n (e + 1) (i + k)

/-- The 32 E4M3 bytes of a PXF8 block (R138, R139). -/
def pxDecode (block : List Byte) : List Byte := pxElems block 32 0 0

/-- How many code bits the first `n` codes take, from bit `i` on. -/
def pxBits (block : List Byte) : (n i : Nat) → Nat
  | 0, i => i
  | n + 1, i => pxBits block n (i + (pxCode block ((block.getD 0 0).toNat % 16) i).2)

/-- How many bytes of a block the decoder reads (R140). -/
def pxLength (block : List Byte) : Nat := 17 + (pxBits block 32 0 + 7) / 8

end Sys2Proof.Machine
end

