-- ==== Sys2Proof/Machine/Flags.lean ====
section
/-! DEFINITION. The flags of FPCTL, the rounding mode of an instruction and the stepping of RAND
(R109, R110, R124 to R127). -/

namespace Sys2Proof.Machine

/-- FPCTL with flags set; they are sticky (R109, R110). -/
def stickyFlags (fpctl : BitVec 8) (f : Flags) : BitVec 8 := fpctl ||| (f.setWidth 8 <<< 3)

/-- How an instruction of a thread rounds (R124, R125). -/
def rndOf (t : Thread) (rm : RM) (sat : Bool) : Rnd :=
  ⟨RMode.select rm t.csr.fpctl, (randUse t.csr.rand).toNat, sat⟩

/-- RAND of a thread after the roundings of an instruction, stepped at issue (R126). -/
def stepRand (t : Thread) (rm : RM) (n : Nat) : Thread :=
  { t with csr := { t.csr with rand := randAfter (RMode.select rm t.csr.fpctl) n t.csr.rand } }

/-- The results of an operation on elements 0 to E − 1 in ascending order, each rounded with its own
    draw of RAND (R126). -/
def eachElem (mode : RMode) (rand : BitVec 32) (sat : Bool) (op : Rnd → Nat → FRes) : (n i : Nat) → List FRes
  | 0, _ => []
  | n + 1, i => op ⟨mode, (randUse rand).toNat, sat⟩ i :: eachElem mode (randAfter mode 1 rand) sat op n (i + 1)

/-- The flags of a list of results together (R127). -/
def allFlags (rs : List FRes) : Flags := rs.foldl (fun f r => f ||| r.flags) 0

end Sys2Proof.Machine
end

