-- ==== Sys2Proof/Machine/Mem.lean ====
section
/-! DEFINITION. Physical addresses and homes, home memory, cluster views, stashes and memory at the host:
the effects of the actions of R177 on them. -/

namespace Sys2Proof.Machine

/-! Physical addresses. -/

/-- The space of a physical address (R151). -/
def spaceOf (pa : Nat) : Nat := pa / 2 ^ 50

/-- A pod address that names this package is the matching address of space 0b00 (R151). Package numbers 576 to 1,023,
    of which R151 says nothing, name ordinary memory of a package of that number (DESIGN CHOICE, log 72). -/
def normPa (s : State) (pa : Nat) : Nat :=
  if spaceOf pa = 1 ∧ pa / 2 ^ 40 % 1024 = s.ctl.bar.pkgnum then pa % 2 ^ 40 else pa

/-- The home die of a physical address (R152). -/
def homeDie (pa : Nat) : Nat := pa / 2 ^ 37 % 8

/-- The slice index of a physical address within its home die (R152). -/
def sliceOf (pa : Nat) : Nat :=
  (pa / 2 ^ 7 % 256) ^^^ (pa / 2 ^ 15 % 256) ^^^ (pa / 2 ^ 23 % 256) ^^^ (pa / 2 ^ 31 % 64)

/-- The package cluster that holds the home slice (R8, R152). -/
def homeCluster (pa : Nat) : Nat := 32 * homeDie pa + sliceOf pa / 8

/-- The number of the home slice within the package. -/
def homeSlice (pa : Nat) : Nat := 256 * homeDie pa + sliceOf pa

/-- Lines of spaces 0b00 and 0b10 have a home slice in this package (R152). -/
def hasHome (pa : Nat) : Bool := spaceOf pa = 0 || spaceOf pa = 2

/-- The memory of a fenced package (R309). -/
def isFenced (s : State) (pa : Nat) : Bool :=
  spaceOf pa = 1 && s.ctl.fenced.contains (pa / 2 ^ 40 % 1024)

/-- The replica of a byte that die `d` holds (R163). -/
def replicaPa (pa d : Nat) : Nat := pa / 2 ^ 40 * 2 ^ 40 + d * 2 ^ 37 + pa % 2 ^ 37

/-- A 64-byte half of a line by number (R162). -/
def halvesOf (pa n : Nat) : List Nat :=
  if n = 0 then [] else (List.range ((pa + n - 1) / 64 - pa / 64 + 1)).map (pa / 64 + ·)

/-- Whether a half that the host holds answers to a number and a key (R162, R165). -/
def HeldHalf.serves (h : HeldHalf) (key half : Nat) : Bool := h.half = half && h.key.all (· = key)

/-- Whether the host holds a half for a key (R162). -/
def halfHeld (s : State) (key half : Nat) : Bool := s.store.hostHeld.any (HeldHalf.serves · key half)

/-- Whether the host holds, for a key, a half that the bytes touch (R162). -/
def hostHolds (s : State) (key pa n : Nat) : Bool := (halvesOf pa n).any (halfHeld s key)

/-- The verification of the firmware has failed (R316). -/
def bootFailed (s : State) : Bool := s.ctl.bar.bootstat = 2 || s.ctl.bar.bootstat = 3

/-! Counting events. -/

/-- Counters of a cluster whose select has the count enable and the source (R320, R321). -/
def bumpEvc (c : Cluster) (src n : Nat) : Cluster :=
  let f := fun (i : Fin 8) (w : Word) =>
    let sel := c.evsel.get i
    if sel.getLsbD 16 && sel.toNat % 65536 = src then w + BitVec.ofNat 64 n else w
  { c with evc := Vector.ofFn fun i => f i (c.evc.get i) }

/-- Counters of a die with the source (R320). -/
def bumpDie (d : Die) (src n : Nat) : Die :=
  let hit := d.sel.filter fun e => e.2.getLsbD 16 && e.2.toNat % 65536 = src
  { d with ctr := hit.foldl (fun m e => mset m e.1 (((mget m e.1).getD 0) + BitVec.ofNat 64 n)) d.ctr }

/-- A select as it is stored: a reserved source becomes source 0 (R320, R321). Cluster counters take sources
    below 0x100, die counters any. -/
def storedSel (die : Bool) (v : Word) : BitVec 18 :=
  let src := v.toNat % 65536
  let ok := [0x1, 0x2, 0x3, 0x4, 0x5, 0x10, 0x11, 0x20, 0x30, 0x31, 0x40, 0x41, 0x50, 0x51, 0x60, 0x61, 0x62].contains src
    || (die && 0x100 ≤ src && src ≤ 0x105)
  if ok then v.setWidth 18 else v.setWidth 18 &&& 0x30000

/-- An event of a cluster is counted (R320, R321). -/
def tally (s : State) (clu src n : Nat) : State :=
  if n = 0 then s
  else
    let s1 := setCluster s clu (bumpEvc (cluster s clu) src n)
    setDie s1 (clu / 32) (bumpDie (dieOf s1 (clu / 32)) src n)

/-- An event of a die is counted (R320, R321). -/
def tallyDie (s : State) (die src n : Nat) : State :=
  if n = 0 then s else setDie s die (bumpDie (dieOf s die) src n)

/-! Home memory. -/

/-- A page that has been moved: the redirect that names its new home (R161). -/
def redirectOf (s : State) (pa : Nat) : Option Redirect :=
  s.store.redirects.find? fun r => r.src ≤ pa && pa < r.src + r.size

/-- One redirect after another, at most `n` of them. -/
def chaseFrom (s : State) : (n pa : Nat) → Nat
  | 0, pa => pa
  | n + 1, pa =>
    match redirectOf s pa with
    | some r => chaseFrom s n (r.dst + (pa - r.src))
    | none => pa

/-- The address at which a request to a physical byte is performed: at the new home of a page that has
    moved (R161). -/
def chase (s : State) (pa : Nat) : Nat := chaseFrom s s.store.redirects.length pa

/-- What home memory holds at a byte under a key: the byte last written when that was under the same
    key, and otherwise no promised value (R165, R445). -/
def homeGet (s : State) (key pa0 : Nat) : Byte :=
  let pa := chase s pa0
  match mget s.store.homeKey pa, mget s.store.home pa with
  | some k, some b => if k = key then b else Config.unwritten pa s.free
  | _, _ => Config.unwritten pa s.free

/-- Bytes of home memory. -/
def homeBytes (s : State) (key pa n : Nat) : List Byte := (List.range n).map fun i => homeGet s key (pa + i)

/-- The words of eight bytes that some bytes touch. -/
def wordsOf (bs : List Nat) : List Nat := (bs.map (· / 8)).eraseDups

/-- Whether a word of eight bytes is poisoned at home; a fenced package returns poison (R302, R309). -/
def homePoisoned (s : State) (pa : Nat) : Bool :=
  s.store.homePoison.contains (chase s pa / 8) || isFenced s pa

/-- Whether one of some bytes lies in a word that is poisoned at home. -/
def homeBad (s : State) (pa n : Nat) : Bool := (wordsOf ((List.range n).map (pa + ·))).any fun w => homePoisoned s (w * 8)

/-! The L2 slices. -/

/-- The number of a line under a key, by which caches know it (R165). -/
def lineKey (key line : Nat) : Nat := key * 2 ^ 45 + line

/-- The lines that an L2 slice holds (R9, R160). -/
def l2Of (s : State) (slice : Nat) : SMap Bool := (mget s.store.l2 slice).getD []

/-- The lines of an L2 slice changed. -/
def setL2 (s : State) (slice : Nat) (m : SMap Bool) : State := { s with store := { s.store with l2 := mset s.store.l2 slice m } }

/-- Counts of the traffic between a home slice and HBM: of lines of space 0b00 alone, since those of space 0b10 lie in
    memory of the host (R151, R321). -/
def tallyHbm (s : State) (slice line src : Nat) : State := if spaceOf (line * 128) = 0 then tallyDie s (slice / 256) src 1 else s

/-- A line leaves a slice. Of its home slice, a dirty one is written to HBM, whose words under it are good again, and
    below a clean one the words that are in error in HBM come to light (R9, R302, R321; log 20). -/
def lineGone (s : State) (slice n : Nat) (dirty : Bool) : State :=
  let line := n % 2 ^ 45
  if !hasHome (line * 128) || homeSlice (line * 128) ≠ slice then s
  else
    let bad := s.store.hbmPoison.filter fun w => w / 16 = line
    let s1 := if bad.isEmpty then s
      else { s with store := { s.store with
        hbmPoison := s.store.hbmPoison.filter fun w => w / 16 ≠ line
        homePoison := if dirty then s.store.homePoison else (bad ++ s.store.homePoison).eraseDups } }
    if dirty then tallyHbm s1 slice line 0x102 else s1

/-- An L2 slice of 384 KiB takes a line, clean or dirty; when it is full a line of a free choice leaves it (R9). The
    home slice reads a line that it does not hold from HBM (R321, log 20). -/
def l2Put (s0 : State) (slice n : Nat) (dirty : Bool) : State :=
  let m := l2Of s0 slice
  match mget m n with
  | some d => if d || !dirty then s0 else setL2 s0 slice (mset m n true)
  | none =>
    let line := n % 2 ^ 45
    let s := if homeSlice (line * 128) = slice then tallyHbm (tallyHbm s0 slice line 0x100) slice line 0x101 else s0
    if m.length < 3072 then setL2 s slice (mset m n dirty)
    else
      let k := choose s m.length
      let out := m.getD k (n, false)
      drawn (setL2 (lineGone s slice out.1 out.2) slice (mset (m.eraseIdx k) n dirty))

/-- A line leaves an L2 slice. -/
def l2Del (s : State) (slice n : Nat) : State :=
  match mget (l2Of s slice) n with
  | some d => lineGone (setL2 s slice (mdel (l2Of s slice) n)) slice n d
  | none => s

/-- Of the lines of the L2 slices stay those that a predicate of slice and number keeps. -/
def l2Keep (s : State) (p : Nat → Nat → Bool) : State :=
  let gone := s.store.l2.flatMap fun e => (e.2.filter fun x => !p e.1 x.1).map fun x => (e.1, x)
  gone.foldl (fun s g => lineGone s g.1 g.2.1 g.2.2)
    { s with store := { s.store with l2 := s.store.l2.map fun e => (e.1, mfilter (fun n _ => p e.1 n) e.2) } }

/-- A home read of bytes of a page brings their lines into their home slices, at the new home of a page that has moved
    (R9, R160, R161). -/
def l2Reach (s : State) (key pa0 n : Nat) : State :=
  let pa := chase s pa0
  if n = 0 || !hasHome pa then s
  else (List.range ((pa + n - 1) / 128 - pa / 128 + 1)).foldl
    (fun s i => l2Put s (homeSlice ((pa / 128 + i) * 128)) (lineKey key (pa / 128 + i)) false) s

/-- A home action that writes a line: the home slice holds it dirty, and the near copies are gone before the
    home acknowledges (R160). A line of another package has no home here. -/
def l2Write (s : State) (key line : Nat) : State :=
  let pa := line * 128
  let near := (List.range 8).filter fun d => !(hasHome pa && d = homeDie pa)
  let s1 := near.foldl (fun s d => l2Del s (256 * d + sliceOf pa) (lineKey key line)) s
  if hasHome pa then l2Put s1 (homeSlice pa) (lineKey key line) true else s1

/-- A line fetched for a cluster: its home slice holds it, and the slice of the cluster's die holds a read copy
    where that is another; of a page that has moved, the line at its new home (R161). Lines of space 0b01 are held in
    no slice (R160). -/
def l2Fetch (s : State) (clu key line0 : Nat) : State :=
  let pa := chase s (line0 * 128)
  let line := pa / 128
  if hasHome pa then l2Put (l2Put s (homeSlice pa) (lineKey key line) false) (256 * (clu / 32) + sliceOf pa) (lineKey key line) false
  else s

/-! Home writes. -/

/-- The subscribers of a word under a key (R200, R201). -/
def subscribersOf (s : State) (word key : Nat) : List Subscriber :=
  let es := (mget s.store.subTable (homeSlice (word * 8))).getD []
  ((es.filter fun e => e.word = word).flatMap fun e => e.subs).filter fun u => u.key = key

/-- A message on the way between a home slice and a slot. -/
def sendSub (s : State) (slice clu slot : Nat) (b : SubBody) : State :=
  { s with
    flight := { s.flight with subMsgs := s.flight.subMsgs ++ [⟨s.nextId, slice, clu, slot, b⟩] }
    nextId := s.nextId + 1 }

/-- A home action that wrote a word sends its value to each subscriber (R192, R201). -/
def pushWord (s : State) (key word : Nat) : State :=
  let v := BitVec.ofNat 64 (leNat (homeBytes s key (word * 8) 8))
  let bad := homePoisoned s (word * 8)
  (subscribersOf s word key).foldl (fun s u => sendSub s (homeSlice (word * 8)) u.clu u.slot (.push v bad)) s

/-- One action that writes bytes of home memory under a key: the bytes change, words written whole lose
    their poison unless the data is poisoned, and subscribers are sent the new words (R177, R201, R302).
    Writes to a fenced package are discarded (R309). -/
def homeWrites (s : State) (key : Nat) (bs0 : List (Nat × Byte)) (bad : List Nat) : State :=
  let bs := bs0.map fun e => (chase s e.1, e.2)
  match bs with
  | [] => s
  | (pa, _) :: _ =>
    if isFenced s pa then s
    else
      let home := bs.foldl (fun m e => mset m e.1 e.2) s.store.home
      let hk := bs.foldl (fun m e => mset m e.1 key) s.store.homeKey
      let ws := wordsOf (bs.map (·.1))
      let whole := ws.filter fun w => (List.range 8).all fun i => bs.any fun e => e.1 = w * 8 + i
      let poison := (s.store.homePoison.filter fun w => !whole.contains w) ++ bad
      let s1 := { s with store := { s.store with home := home, homeKey := hk, homePoison := poison.eraseDups } }
      let s2 := (ws.map (· / 16)).eraseDups.foldl (fun s l => l2Write s key l) s1
      ws.foldl (fun s w => pushWord s key w) s2

/-- Bytes paired with their addresses. -/
def atAddr (pa : Nat) (bytes : List Byte) : List (Nat × Byte) :=
  (List.range bytes.length).map fun i => (pa + i, bytes.getD i 0)

/-! Stashes. -/

/-- A byte of a cluster's stash; one that nothing has written holds no promised value (R445). -/
def stashGet (s : State) (clu off : Nat) : Byte :=
  (mget (cluster s clu).stash off).getD (Config.unwritten (2 ^ 60 + clu * 2 ^ 21 + off) s.free)

/-- Bytes of a cluster's stash. -/
def stashBytes (s : State) (clu off n : Nat) : List Byte := (List.range n).map fun i => stashGet s clu (off + i)

/-- The stash offset that holds a physical byte of a mapped range (R154, R155). -/
def mapOff (c : Cluster) (pa : Nat) : Option Nat :=
  c.maps.findSome? fun m =>
    m.segs.findSome? fun g => if g.2.1 ≤ pa ∧ pa < g.2.1 + g.2.2 then some (g.1 + (pa - g.2.1)) else none

/-- The physical byte behind a mapped stash offset (R154). -/
def mapPa (c : Cluster) (off : Nat) : Option Nat :=
  c.maps.findSome? fun m =>
    m.segs.findSome? fun g => if g.1 ≤ off ∧ off < g.1 + g.2.2 then some (g.2.1 + (off - g.1)) else none

/-- A write of stash bytes: a byte of a mapped line becomes a dirty byte of the view (R155), and words written
    whole lose their poison (R302). A raw access carries no key (R153). -/
def stashWrite (s : State) (clu off : Nat) (bytes : List Byte) : State :=
  let c := cluster s clu
  let st := (atAddr off bytes).foldl (fun m e => mset m e.1 e.2) c.stash
  let mp := (List.range bytes.length).foldl
    (fun m i => if (mapPa c (off + i)).isSome then mset m (off + i) true else m) c.mapped
  let bad := c.stashPoison.filter fun w => !(off ≤ w * 8 && w * 8 + 8 ≤ off + bytes.length)
  setCluster s clu { c with stash := st, mapped := mp, stashPoison := bad }

/-- Whether stash bytes include a poisoned word (R302). -/
def stashPoisoned (s : State) (clu off n : Nat) : Bool :=
  (wordsOf ((List.range n).map (off + ·))).any (cluster s clu).stashPoison.contains

/-! Cluster views. -/

/-- The number of a location in a view: physical byte under a key (R165, R172). -/
def vkey (key pa : Nat) : Nat := key * 2 ^ 52 + pa

/-- The stash offset at which a cluster holds a physical byte under a key: in a mapped line, which serves the
    key of the access that filled it, or any key while nothing has (R155, R165, R394, log 68). An access under
    another key goes to the cluster data cache, and stays there as long as that holds the line. -/
def viewWhere (c : Cluster) (key pa : Nat) : Option Nat :=
  (mapOff c pa).filter fun o =>
    match mget c.mapKey (o / 128) with
    | some k => k = key
    | none => !(c.view.any fun e => e.1 / 128 = vkey key pa / 128)

/-- A byte of a cluster's view: absent, or its value, clean or dirty (R176). -/
def viewGet (s : State) (clu key pa : Nat) : Option VByte :=
  let c := cluster s clu
  match viewWhere c key pa with
  | some o => (mget c.mapped o).map fun d => ⟨stashGet s clu o, d⟩
  | none => mget c.view (vkey key pa)

/-- A byte of a cluster's view set; a mapped line takes the key (R394). -/
def viewSet (s : State) (clu key pa : Nat) (v : VByte) : State :=
  let c := cluster s clu
  match viewWhere c key pa with
  | some o =>
    setCluster s clu
      { c with stash := mset c.stash o v.val, mapped := mset c.mapped o v.dirty, mapKey := mset c.mapKey (o / 128) key }
  | none => setCluster s clu { c with view := mset c.view (vkey key pa) v }

/-- Poison marks stand only on words of which the view holds a byte, and keys only on mapped lines of which it
    holds one. -/
def pruneView (c : Cluster) : Cluster :=
  { c with
    viewPoison := c.viewPoison.filter fun w => c.view.any fun e => e.1 / 8 = w
    mapKey := mfilter (fun l _ => c.mapped.any fun e => e.1 / 128 = l) c.mapKey }

/-- Bytes of a cluster's view made absent. -/
def viewDels (s : State) (clu key : Nat) (pas : List Nat) : State :=
  let del := fun (c : Cluster) (pa : Nat) =>
    match viewWhere c key pa with
    | some o => { c with mapped := mdel c.mapped o }
    | none => { c with view := mdel c.view (vkey key pa) }
  setCluster s clu (pruneView (pas.foldl del (cluster s clu)))

/-- The number of a word of eight bytes in the list of poisoned words of a view. -/
def viewWord (key pa : Nat) : Nat := vkey key pa / 8

/-- Whether a byte of the view lies in a poisoned word (R302). -/
def viewPoisoned (s : State) (clu key pa : Nat) : Bool :=
  let c := cluster s clu
  match viewWhere c key pa with
  | some o => c.stashPoison.contains (o / 8)
  | none => c.viewPoison.contains (viewWord key pa)

/-- A word of the view marked poisoned or clean of poison. -/
def viewPoisonSet (s : State) (clu key pa : Nat) (b : Bool) : State :=
  let c := cluster s clu
  match viewWhere c key pa with
  | some o =>
    let rest := c.stashPoison.filter (· ≠ o / 8)
    setCluster s clu { c with stashPoison := if b then o / 8 :: rest else rest }
  | none =>
    let rest := c.viewPoison.filter (· ≠ viewWord key pa)
    setCluster s clu { c with viewPoison := if b then viewWord key pa :: rest else rest }

/-- The words of eight bytes that a stretch covers whole. -/
def wholeWords (pa n : Nat) : List Nat :=
  (wordsOf ((List.range n).map (pa + ·))).filter fun w => pa ≤ w * 8 && w * 8 + 8 ≤ pa + n

/-- Bytes of a cluster's view set to values, clean or dirty; words set whole lose their poison (R302). -/
def viewPut (s : State) (clu key pa : Nat) (bytes : List Byte) (dirty : Bool) : State :=
  let s1 := (atAddr pa bytes).foldl (fun s e => viewSet s clu key e.1 ⟨e.2, dirty⟩) s
  (wholeWords pa bytes.length).foldl (fun s w => viewPoisonSet s clu key (w * 8) false) s1

/-- The addresses of a line of 128 bytes. -/
def lineAddrs (line : Nat) : List Nat := (List.range 128).map (line * 128 + ·)

/-- The host holds a half no more, for a key (R162). -/
def freeHalf (s : State) (key half : Nat) : State :=
  { s with store := { s.store with hostHeld := s.store.hostHeld.filter fun h => !h.serves key half } }

/-- A half of a line that its home slice holds dirty is written to HBM, whose words under it are good again (R162, R302).
    The line stays dirty for its other half. -/
def flushHalf (s : State) (half : Nat) : State :=
  let pa := half * 64
  let slice := homeSlice pa
  if !hasHome pa || !(l2Of s slice).any (fun e => e.1 % 2 ^ 45 = pa / 128 && e.2) then s
  else tallyHbm { s with store := { s.store with hbmPoison := s.store.hbmPoison.filter fun w => w / 8 ≠ half } } slice (pa / 128) 0x102

/-- The data of a half is merged under a key (R162). -/
def putHalf (s : State) (key half : Nat) (d : BitVec 512) : State :=
  homeWrites s key (atAddr (half * 64) (leBytes 64 d.toNat)) []

/-- The collapse engine recalls a half of a page table: what the host wrote to it, if anything, is a free value that
    is merged (R162, R164, log 16). -/
def recallTable (key : Nat) (s : State) (half : Nat) : State :=
  if Config.happens s.free then putHalf (drawnBy 4 (freeHalf s key half)) key half (freeBlock s.free)
  else drawn (freeHalf s key half)

/-! Replicated pages. -/

/-- Whether a physical byte lies in one of the replicas of a page other than that of its home die. -/
def inReplica (pa size p : Nat) : Bool :=
  p / 2 ^ 40 = pa / 2 ^ 40 && pa % 2 ^ 37 ≤ p % 2 ^ 37 && p % 2 ^ 37 < pa % 2 ^ 37 + size
    && homeDie p ≠ homeDie pa

/-- The entries of a TLB that do not map a replicated page. -/
def tlbWithout (tlb : List TlbEntry) (pa size : Nat) : List TlbEntry :=
  tlb.filter fun e => !(e.repl && e.pa = pa && e.size = size)

/-- The leaf entries of a page: sixteen of them for a page of 32 MiB (R167). -/
def leavesOf (pte size : Nat) : List Nat :=
  if size = 2 ^ 25 then (List.range 16).map fun i => pte / 128 * 128 + 8 * i else [pte]

/-- A translation that stops being one of a replicated page. -/
def TlbEntry.single (e : TlbEntry) (pa size : Nat) : TlbEntry :=
  if e.pa = pa && e.size = size then { e with repl := false } else e

/-- A page stops being replicated for an access to it: a write that waits for the collapse goes on, and a
    load reads the page itself (R164). -/
def Access.released (a : Access) (pa size c : Nat) : Access :=
  let b := { a with stalled := if a.stalled = some c then none else a.stalled }
  match a.page with
  | some e =>
    if e.pa = pa && e.size = size then { b with page := some { e with repl := false }, replica := none } else b
  | none => b

/-- A stretch of a page that stops being replicated. -/
def Piece.single (pa size : Nat) (p : Piece) : Piece := { p with entry := p.entry.map fun e => e.single pa size }

/-- The collective of a cluster after a page has stopped being replicated: one that waits goes on (R164). -/
def Coll.released (c : Coll) (pa size id : Nat) : Coll :=
  { c with
    waits := if c.waits = some id then none else c.waits
    rows := c.rows.map fun r => r.map (Piece.single pa size)
    todo := c.todo.map fun m => match m with
      | .read p => .read (p.single pa size)
      | .write p bs => .write (p.single pa size) bs }

/-- The issue state of a thread after a page has stopped being replicated. -/
def Pipe.released (p : Pipe) (pa size id : Nat) : Pipe :=
  { p with
    acc := p.acc.map (Access.released · pa size id)
    pack := p.pack.map fun k => { k with
      todo := k.todo.map (Piece.single pa size)
      used := k.used.map (Piece.single pa size)
      out := k.out.map (Piece.single pa size) } }

/-- A page stops being replicated: REPL is cleared in its entries, and its TLB entries and the replica lines of the L2
    slices and the clusters go (R164). -/
def endReplicas (s : State) (pa size pte key : Nat) : State :=
  let s1 := (leavesOf pte size).foldl
    (fun s0 a =>
      let s := ((halvesOf (chase s0 a) 8).filter (halfHeld s0 key)).foldl (recallTable key) s0
      homeWrites s key (atAddr a (leBytes 8 (leNat (homeBytes s key a 8) % 2 ^ 63))) []) s
  let cl := fun (c : Cluster) => pruneView { c with
    tlb := tlbWithout c.tlb pa size
    view := mfilter (fun k _ => !inReplica pa size (k % 2 ^ 52)) c.view }
  let s2 := l2Keep s1 fun _ n => !inReplica pa size (n % 2 ^ 45 * 128)
  { s2 with
    clusters := s2.clusters.map fun e => (e.1, cl e.2)
    dies := s2.dies.map fun e => (e.1, { e.2 with tlb := tlbWithout e.2.tlb pa size })
    store := { s2.store with repl := tlbWithout s2.store.repl pa size } }

/-- The collapse of a replicated page: it stops being replicated, and the stalled writes are released (R164). -/
def collapsePage (s0 : State) (pa size pte key id : Nat) : State :=
  let s := endReplicas s0 pa size pte key
  let cl := fun (c : Cluster) => { c with mx := { c.mx with cur := c.mx.cur.map (Coll.released · pa size id) } }
  let rel := fun (t : Thread) => { t with pipe := t.pipe.released pa size id }
  { s with
    clusters := s.clusters.map fun e => (e.1, cl e.2)
    threads := s.threads.map fun e => (e.1, rel e.2)
    flight := { s.flight with ghosts := s.flight.ghosts.map fun e => (e.1, rel e.2) }
    store := { s.store with collapses := s.store.collapses.filter fun c => c.id ≠ id } }

/-! Page-table entries. -/

/-- A page-table entry read at its home under a key (R170). A table that stands in space 0b11, which has no home
    slice, is read as home memory at that address (log 70). -/
def readPte (s : State) (key pa : Nat) : Word := BitVec.ofNat 64 (leNat (homeBytes s key (normPa s pa) 8))

/-- Reserved bits of every entry, and V (R168). -/
def pteOk (p : Word) : Bool := p.getLsbD 0 && !p.getLsbD 2 && field p 8 8 = 0 && field p 52 11 = 0

/-- FRAME as an address (R168). -/
def pteFrame (p : Word) : Nat := field p 16 36 * 65536

/-- A pointer to a table: no REPL, no C32, and an address with no stray bits in space 0b00 (R151,
    R168). -/
def ptePointer (p : Word) : Bool :=
  pteOk p && !p.getLsbD 63 && !p.getLsbD 7 && (spaceOf (pteFrame p) ≠ 0 || pteFrame p / 2 ^ 40 = 0)

/-! Pages that are replicated. -/

/-- The lowest address bit that indexes a table of level D, C, B or A, counted from 0 (R167). -/
def levelShift : Nat → Nat
  | 0 => 16
  | 1 => 21
  | 2 => 30
  | _ => 43

/-- The size of a page whose leaf stands at a level, if it is a leaf there (R167, R168). -/
def leafSize (level : Nat) (p : Word) : Option Nat :=
  if !pteOk p then none
  else match level with
    | 0 => if p.getLsbD 7 then none else some (2 ^ 16)
    | 1 => if !p.getLsbD 1 then none else if p.getLsbD 7 then some (2 ^ 25) else some (2 ^ 21)
    | 2 => if p.getLsbD 1 && !p.getLsbD 7 then some (2 ^ 30) else none
    | _ => none

/-- The entries of a table that memory holds as valid: their indices (R167, R168). -/
def validEntries (s : State) (table level : Nat) : List Nat :=
  let n := if level = 0 then 32 else if level = 1 then 512 else 8192
  (s.store.home.filter fun e => e.1 % 8 = 0 && table ≤ e.1 && e.1 < table + 8 * n && e.2.getLsbD 0).map fun e => (e.1 - table) / 8

/-- The leaf below a table of level `n` - 1 that maps a physical byte with REPL set, in the address space of a root
    (R163, R167). -/
def replBelow (s : State) (key asid pa : Nat) : (n table va : Nat) → Option TlbEntry
  | 0, _, _ => none
  | n + 1, table, va =>
    (validEntries s table n).findSome? fun i =>
      let p := readPte s key (table + 8 * i)
      let at' := va + i * 2 ^ levelShift n
      match leafSize n p with
      | some size =>
        let frame := normPa s (pteFrame p)
        if p.getLsbD 63 && frame % size = 0 && frame ≤ pa && pa < frame + size then
          some { asid := asid, va := at' / size * size, size := size, pa := frame, user := p.getLsbD 6, x := p.getLsbD 5
                 w := p.getLsbD 4, r := p.getLsbD 3, repl := true, pte := table + 8 * i, key := key }
        else none
      | none => if n ≠ 0 && ptePointer p && !p.getLsbD 1 then replBelow s key asid pa n (normPa s (pteFrame p)) at' else none

/-- The roots in use, each with its key: of live threads, of queues, of launches and their gangs, and of copies
    (R109, R165, R275). -/
def rootsInUse (s : State) : List (Word × Nat) :=
  let of := fun (t : Thread) => (t.csr.ptbase, t.csr.keyid.toNat)
  (s.threads.map (fun e => of e.2) ++ s.clusters.flatMap (fun c => c.2.heath.map (fun r => of r.2.thread) ++ c.2.gangs.map fun g => (g.ptbase, g.keyid))
    ++ s.flight.migs.map (fun m => of m.thread) ++ s.ctl.queues.map (fun q => (q.2.qptb, q.2.qkey))
    ++ s.ctl.launches.map (fun x => (x.ptbase, x.key)) ++ s.flight.copies.map fun c => (c.ptbase, c.key)).eraseDups

/-- Whether some word of memory can be an entry with REPL whose page holds a physical byte. -/
def replLikely (s : State) (pa : Nat) : Bool :=
  s.store.home.any fun e => e.1 % 8 = 7 && e.2.getLsbD 7 && (match mget s.store.homeKey e.1 with
    | some k => let f := normPa s (pteFrame (readPte s k (e.1 - 7))); f ≤ pa && pa < f + 2 ^ 30
    | none => false)

/-- Whether the entry of a page that a walk has found still says that the page is replicated. -/
def stillRepl (s : State) (e : TlbEntry) : Bool :=
  let p := readPte s e.key e.pte
  p.getLsbD 63 && normPa s (pteFrame p) = e.pa

/-- The replicated page on which a physical byte lies: by an entry that a root in use reaches, or by one that a walk
    has found and that still stands (R163, R164, log 29). -/
def replOf (s : State) (pa : Nat) : Option TlbEntry :=
  let walked := s.store.repl.find? fun e => e.pa ≤ pa && pa < e.pa + e.size && stillRepl s e
  if !replLikely s pa then walked
  else ((rootsInUse s).findSome? fun r =>
    replBelow s r.2 (field r.1 52 12) pa 4 (normPa s (field r.1 16 36 * 65536)) 0).or walked

/-- A collapse carried out at once, for a write that does not stall in the machine of R176. -/
def collapseNow (s : State) (e : TlbEntry) : State :=
  let id := match s.store.collapses.find? fun c => c.pte = e.pte && c.pa = e.pa with
    | some c => c.id
    | none => s.nextId
  tallyDie (collapsePage s e.pa e.size e.pte e.key id) (homeDie e.pa) 0x103 1

/-- A write to a physical byte collapses its page first where that is replicated (R164). -/
def collapseAt (s : State) (pa : Nat) : State :=
  match replOf s pa with
  | some e => collapseNow s e
  | none => s

/-- A write to a replicated page calls for its collapse; writes that arrive meanwhile wait for the same
    one (R164). -/
def callCollapse (s : State) (e : TlbEntry) : State × Nat :=
  match s.store.collapses.find? fun c => c.pte = e.pte && c.pa = e.pa with
  | some c => (s, c.id)
  | none =>
    ({ s with
        store := { s.store with collapses := s.store.collapses ++ [⟨s.nextId, e.asid, e.va, e.size, e.pa, e.pte, e.key⟩] }
        nextId := s.nextId + 1 }, s.nextId)

/-- A replicated page on which what the host wrote is merged stops being replicated before it is; the collapse engine
    then releases the writes that wait for it (R164). -/
def endReplicasAt (s : State) (pa : Nat) : State :=
  match replOf s pa with
  | some e => endReplicas (callCollapse s e).1 e.pa e.size e.pte e.key
  | none => s

/-- A half is recalled from the host at once: it becomes device-held, and what the host wrote to it, if anything, is
    a free value that is merged under the key of the access, after the collapse of its page where that is replicated
    (R162, R164, log 16). -/
def recallNow (key : Nat) (s : State) (half : Nat) : State :=
  let s1 := freeHalf s key half
  if Config.happens s.free then putHalf (endReplicasAt (drawnBy 4 s1) (half * 64)) key half (freeBlock s.free) else drawn s1

/-- Those of some halves that the host holds are recalled, at the new home of a page that has moved (R161, R162). -/
def recallHalves (s : State) (key : Nat) (halves : List Nat) : State :=
  ((halves.map fun h => chase s (h * 64) / 64).filter (halfHeld s key)).foldl (recallNow key) s

/-- The halves that some bytes touch and the host holds are recalled (R162). -/
def recallRange (s : State) (key pa n : Nat) : State := recallHalves s key (halvesOf pa n)

/-- The halves in which some bytes lie. -/
def halvesIn (pas : List Nat) : List Nat := (pas.map (· / 64)).eraseDups

/-! Actions on a view. -/

/-- The dirty bytes of a line of the view. -/
def dirtyBytes (s : State) (clu key line : Nat) : List (Nat × Byte) :=
  (lineAddrs line).filterMap fun pa =>
    match viewGet s clu key pa with
    | some v => if v.dirty then some (pa, v.val) else none
    | none => none

/-- Write-back of a line: every dirty byte goes home in one action and becomes clean (R177, R302). A line
    without dirty bytes stays as it is; one of a replicated page collapses it first (R164), and the halves in which
    dirty bytes lie are recalled from the host (R162). -/
def wbLine (s0 : State) (clu key line : Nat) : State :=
  if (dirtyBytes s0 clu key line).isEmpty then s0
  else
    let s := recallHalves (collapseAt s0 (line * 128)) key (halvesIn ((dirtyBytes s0 clu key line).map (·.1)))
    let dirty := dirtyBytes s clu key line
    let bad := (wordsOf (dirty.map (·.1))).filter fun w => viewPoisoned s clu key (w * 8)
    let s1 := homeWrites s key dirty bad
    dirty.foldl (fun s e => viewSet s clu key e.1 ⟨e.2, false⟩) s1

/-- Every byte of a line of the view becomes absent. -/
def dropLine (s : State) (clu key line : Nat) : State := viewDels s clu key (lineAddrs line)

/-- The clean bytes of a line become absent, those of them that `which` names by their place in it. -/
def dropClean (s : State) (clu key line : Nat) (which : Nat → Bool) : State :=
  viewDels s clu key ((lineAddrs line).filter fun pa =>
    which (pa % 128) && match viewGet s clu key pa with
      | some v => !v.dirty
      | none => false)

/-- The lines that the cluster data cache holds in the set of a line, by their numbers (R156). -/
def setLines (c : Cluster) (n : Nat) : List Nat :=
  ((c.view.map fun e => e.1 / 128).eraseDups).filter fun m => Config.viewSet m % 128 = Config.viewSet n % 128

/-- Room for a line in a cluster data cache of 256 KiB and 16 ways: when its set is full, a line of a free
    choice is evicted, its dirty bytes written home (R156); one whose write-back would collapse a page only when
    there is no other (R164). -/
def makeRoom (s : State) (clu key line : Nat) : State :=
  let c := cluster s clu
  let here := setLines c (vkey key (line * 128) / 128)
  if (viewWhere c key (line * 128)).isSome || here.contains (vkey key (line * 128) / 128) || here.length < 16 then s
  else
    let calm := here.filter fun v => (dirtyBytes s clu (v / 2 ^ 45) (v % 2 ^ 45)).isEmpty || (replOf s (v % 2 ^ 45 * 128)).isNone
    let out := if calm.isEmpty then here else calm
    let v := out.getD (choose s out.length) 0
    dropLine (wbLine (drawn s) clu (v / 2 ^ 45) (v % 2 ^ 45)) clu (v / 2 ^ 45) (v % 2 ^ 45)

/-- The bytes of a line that the view does not hold. -/
def absentBytes (s : State) (clu key line : Nat) : List Nat := (lineAddrs line).filter fun pa => (viewGet s clu key pa).isNone

/-- The absent bytes of a word take the home value, and its poison with them (R177, R302). -/
def fillWord (s : State) (clu key w : Nat) : State :=
  let absent := ((List.range 8).map (w * 8 + ·)).filter fun pa => (viewGet s clu key pa).isNone
  if absent.isEmpty then s
  else
    let bad := homePoisoned s (w * 8) || (absent.length < 8 && viewPoisoned s clu key (w * 8))
    let s1 := absent.foldl (fun s pa => viewSet s clu key pa ⟨homeGet s key pa, false⟩) s
    viewPoisonSet s1 clu key (w * 8) bad

/-- Fill: every absent byte of the line takes the home value as clean (R177). -/
def fillLine (s : State) (clu key line : Nat) : State :=
  (List.range 16).foldl (fun s i => fillWord s clu key (line * 16 + i)) (l2Fetch (makeRoom s clu key line) clu key line)

/-- Local read of bytes of one line: fill where one is absent, then the view's values (R177). -/
def localRead (s : State) (clu key pa n : Nat) : List Byte × Bool × State :=
  let addrs := (List.range n).map (pa + ·)
  let s1 := if addrs.all fun p => (viewGet s clu key p).isSome then s else fillLine s clu key (pa / 128)
  (addrs.map fun p => ((viewGet s1 clu key p).map (·.val)).getD 0, addrs.any (viewPoisoned s1 clu key), s1)

/-- Local write: the view's bytes become the value, dirty; words written whole lose their poison
    (R177, R302). -/
def localWrite (s : State) (clu key pa : Nat) (bytes : List Byte) : State :=
  viewPut (makeRoom s clu key (pa / 128)) clu key pa bytes true

/-- Whether a byte of the view is dirty. -/
def viewDirty (s : State) (clu key pa : Nat) : Bool := (viewGet s clu key pa).any (·.dirty)

/-- Home read: the view's value for dirty bytes, the home value for all others; the view is unchanged
    (R177). -/
def homeRead (s : State) (clu key pa n : Nat) : List Byte × Bool :=
  let addrs := (List.range n).map (pa + ·)
  (addrs.map fun p => if viewDirty s clu key p then ((viewGet s clu key p).map (·.val)).getD 0 else homeGet s key p,
   addrs.any fun p => if viewDirty s clu key p then viewPoisoned s clu key p else homePoisoned s p)

/-- Home write: home takes the value; bytes that the acting view holds take it as clean (R177), and words that
    it covers lose their poison (R302). -/
def homeWrite (s : State) (clu key pa : Nat) (bytes : List Byte) : State :=
  let s1 := homeWrites s key (atAddr pa bytes) []
  let held := (atAddr pa bytes).filter fun e => (viewGet s clu key e.1).isSome
  let s2 := held.foldl (fun s e => viewSet s clu key e.1 ⟨e.2, false⟩) s1
  if held.isEmpty then s2
  else (wholeWords pa bytes.length).foldl (fun s w => viewPoisonSet s clu key (w * 8) false) s2

/-- Invalidate: every clean byte of the view becomes absent (R177). -/
def invalidate (s : State) (clu : Nat) : State :=
  let c := cluster s clu
  setCluster s clu (pruneView
    { c with view := mfilter (fun _ v => v.dirty) c.view, mapped := mfilter (fun _ d => d) c.mapped })

/-- Line removal: write-back, then every byte becomes absent; a mapped stash line is written back only
    (R158, R177, R178). -/
def removeLine (s : State) (clu key line : Nat) : State :=
  let s1 := wbLine s clu key line
  if (viewWhere (cluster s clu) key (line * 128)).isSome then s1 else dropLine s1 clu key line

/-- The key under which a mapped stash line is written back: that of the access that filled it, or that of
    the write-back where raw stores alone have written it (R155, R394, log 69). -/
def mappedKey (c : Cluster) (key off : Nat) : Nat := (mget c.mapKey (off / 128)).getD key

/-- The dirty lines of a view, mapped lines included, by key and line; `key` is that of the write-back. -/
def dirtyLines (c : Cluster) (key : Nat) : List (Nat × Nat) :=
  let a := (c.view.filter fun e => e.2.dirty).map fun e => (e.1 / 2 ^ 52, e.1 % 2 ^ 52 / 128)
  let b := c.mapped.filterMap fun e =>
    if e.2 then (mapPa c e.1).map fun pa => (mappedKey c key e.1, pa / 128) else none
  (a ++ b).eraseDups

/-- Write-back of every dirty line of a view. -/
def wbAll (s : State) (clu key : Nat) : State :=
  (dirtyLines (cluster s clu) key).foldl (fun s e => wbLine s clu e.1 e.2) s

/-- The actions of a release at a scope, taken in one step: at a wide scope every dirty line is written
    back (R157, R178). -/
def releaseNow (s : State) (clu key : Nat) (scope : Scope) : State := if scope.wide then wbAll s clu key else s

/-- The actions of an acquire at a scope, taken in one step (R157, R178). -/
def acquireNow (s : State) (clu : Nat) (scope : Scope) : State := if scope.wide then invalidate s clu else s

/-! Memory at the host. -/

/-- A byte of space 0b11: what was last written there, or whatever the host holds (R172, R194). -/
def hostGet (s : State) (pa : Nat) : Byte := (mget s.store.hostMem pa).getD (Config.unwritten pa s.free)

/-- Bytes of space 0b11. -/
def hostBytes (s : State) (pa n : Nat) : List Byte := (List.range n).map fun i => hostGet s (pa + i)

/-- A write of bytes of space 0b11. -/
def hostWrites (s : State) (pa : Nat) (bytes : List Byte) : State :=
  { s with
    store := { s.store with hostMem := (atAddr pa bytes).foldl (fun m e => mset m e.1 e.2) s.store.hostMem } }

end Sys2Proof.Machine
end

