-- ==== Sys2Proof/Machine/Translate.lean ====
section
/-! DEFINITION. Generic addresses, page walks, TLBs and the address checks of R149. -/

namespace Sys2Proof.Machine

/-- What an address names: a virtual address of the global window, a stash offset, or nothing
    (R148). -/
inductive Win where
  | glob (va : Nat)
  | raw (off : Nat)
  | bad
  deriving DecidableEq, Repr

/-- The window of a generic address (R148). -/
def window (wpriv : Word) (a : Nat) : Win :=
  let o := a % 2 ^ 56
  match a / 2 ^ 56 with
  | 0x00 => .glob o
  | 0xFF => if wpriv.toNat + o < 2 ^ 56 then .glob (wpriv.toNat + o) else .bad
  | 0xFE => if o < 2 ^ 21 then .raw o else .bad
  | _ => .bad

/-- Who translates: the cluster of the access, or none for an agent that uses only the TLB of a die;
    the die; root and address space; key; user level; base of the private window (R169, R170, R275). -/
structure Ctx where
  clu : Option Nat
  die : Nat
  ptbase : Word
  key : Nat
  user : Bool
  wpriv : Word
  deriving DecidableEq, Repr

/-- The address-space ID (R109, R170). -/
def Ctx.asid (c : Ctx) : Nat := field c.ptbase 52 12

/-- The accesses of a thread at a location. -/
def threadCtx (l : Loc) (t : Thread) : Ctx :=
  ⟨some l.clu, l.clu / 32, t.csr.ptbase, t.csr.keyid.toNat, !supLevel l t, t.csr.wpriv⟩

/-- What a walk finds (R149, R168). -/
inductive Walk where
  | miss
  | badLeaf
  | leaf (e : TlbEntry)
  deriving DecidableEq, Repr

/-- A leaf that maps a page of a size (R149, R168). -/
def leafOf (s : State) (c : Ctx) (va size pteAddr : Nat) (p : Word) : Walk :=
  if pteFrame p % size ≠ 0 then .miss
  else if spaceOf (pteFrame p) = 0 ∧ pteFrame p / 2 ^ 40 ≠ 0 then .badLeaf
  else .leaf
    { asid := c.asid, va := va / size * size, size := size, pa := normPa s (pteFrame p), user := p.getLsbD 6
      x := p.getLsbD 5, w := p.getLsbD 4, r := p.getLsbD 3, repl := p.getLsbD 63, pte := normPa s pteAddr, key := c.key }

/-- Whether the sixteen leaves of a 32 MiB page agree (R167). -/
def c32Agrees (s : State) (c : Ctx) (table idx : Nat) (p : Word) : Bool :=
  (List.range 16).all fun i => readPte s c.key (table + 8 * (idx / 16 * 16 + i)) = p

/-- A leaf whose group disagrees gives no promised translation: none, or one with a free frame and free
    permissions (R167, log 71). -/
def freeLeaf (s : State) (p : Word) : Option Word :=
  let w := (Config.freeWord s.free).toNat
  if w / 2 ^ 64 % 2 = 0 then none
  else some ((p &&& ~~~ 0x000F_FFFF_FFFF_0078#64) ||| BitVec.ofNat 64 (w % 2 ^ 52 / 2 ^ 25 * 2 ^ 25 + w / 2 ^ 65 % 16 * 8))

/-- Level D: always a leaf (R167). -/
def walkD (s : State) (c : Ctx) (va table : Nat) : Walk :=
  let a := table + 8 * (va / 2 ^ 16 % 32)
  let p := readPte s c.key a
  if !pteOk p || p.getLsbD 7 then .miss else leafOf s c va (2 ^ 16) a p

/-- Level C: a leaf of 2 MiB or 32 MiB, or a pointer (R167). -/
def walkC (s : State) (c : Ctx) (va table : Nat) : Walk :=
  let i := va / 2 ^ 21 % 512
  let a := table + 8 * i
  let p := readPte s c.key a
  if pteOk p && p.getLsbD 1 then
    if p.getLsbD 7 then
      if c32Agrees s c table i p then leafOf s c va (2 ^ 25) a p
      else match freeLeaf s p with
        | some q => leafOf s c va (2 ^ 25) a q
        | none => .miss
    else leafOf s c va (2 ^ 21) a p
  else if ptePointer p then walkD s c va (pteFrame p)
  else .miss

/-- Level B: a leaf of 1 GiB, or a pointer (R167). -/
def walkB (s : State) (c : Ctx) (va table : Nat) : Walk :=
  let a := table + 8 * (va / 2 ^ 30 % 8192)
  let p := readPte s c.key a
  if pteOk p && p.getLsbD 1 then if p.getLsbD 7 then .miss else leafOf s c va (2 ^ 30) a p
  else if ptePointer p then walkC s c va (pteFrame p)
  else .miss

/-- The radix walk from PTBASE; level A is never a leaf (R167, R168). -/
def walk (s : State) (c : Ctx) (va : Nat) : Walk :=
  let root := field c.ptbase 16 36 * 65536
  let p := readPte s c.key (root + 8 * (va / 2 ^ 43 % 8192))
  if (spaceOf root = 0 ∧ root / 2 ^ 40 ≠ 0) ∨ p.getLsbD 1 ∨ !ptePointer p then .miss
  else walkB s c va (pteFrame p)

/-- The addresses of the entries that a walk reads: of levels A and B, of level C with the leaves that must
    agree, and of level D (R167). -/
def walkAddrs (s : State) (c : Ctx) (va : Nat) : List Nat :=
  let below := fun (a : Nat) (k : Nat → List Nat) =>
    let p := readPte s c.key a
    if ptePointer p then k (pteFrame p) else []
  let a := field c.ptbase 16 36 * 65536 + 8 * (va / 2 ^ 43 % 8192)
  a :: below a fun tb =>
    let b := tb + 8 * (va / 2 ^ 30 % 8192)
    b :: below b fun tc =>
      let i := va / 2 ^ 21 % 512
      let e := tc + 8 * i
      (if (readPte s c.key e).getLsbD 7 then (List.range 16).map fun k => tc + 8 * (i / 16 * 16 + k) else [e])
        ++ below e fun td => [td + 8 * (va / 2 ^ 16 % 32)]

/-- A walk is a device access to the entries that it reads at their home slices: halves of them that the host holds are
    recalled, and their lines come into the slices, level by level (R160, R162, R170). -/
def recallWalk (s : State) (c : Ctx) (va : Nat) : State :=
  let reach := fun (s : State) (a : Nat) => let pa := normPa s a; l2Reach (recallRange s c.key pa 8) c.key pa 8
  (List.range 4).foldl (fun s _ => (walkAddrs s c va).foldl reach s) s

/-- Whether an entry serves an address of an address space (R170). -/
def TlbHit (asid va : Nat) (e : TlbEntry) : Bool := e.asid = asid && e.va ≤ va && va < e.va + e.size

/-- The entry of a TLB that serves an address. -/
def tlbFind (tlb : List TlbEntry) (asid va : Nat) : Option TlbEntry := tlb.find? (TlbHit asid va)

/-- Whether an entry of a TLB serves the PC of one of some threads. -/
def servesPc (ts : List (Loc × Thread)) (e : TlbEntry) : Bool :=
  ts.any fun x => TlbHit (field x.2.csr.ptbase 52 12) (x.2.pc.toNat / 64 * 64) e

/-- The entry that gives way in a full TLB: of a free choice among those that serve no PC of some threads,
    as long as there is one (R27, R170). -/
def tlbVictim (s : State) (tlb : List TlbEntry) (ts : List (Loc × Thread)) : Option TlbEntry :=
  let free := tlb.filter fun e => !servesPc ts e
  let from' := if free.isEmpty then tlb else free
  from'[choose s from'.length]?

/-- A TLB of some entries with one added (R170). -/
def tlbAdd (s : State) (cap : Nat) (tlb : List TlbEntry) (ts : List (Loc × Thread)) (e : TlbEntry) :
    List TlbEntry × Option TlbEntry :=
  if tlb.contains e then (tlb, none)
  else if tlb.length < cap then (e :: tlb, none)
  else match tlbVictim s tlb ts with
    | some v => (e :: tlb.erase v, some v)
    | none => (e :: tlb, none)

/-- An entry is placed in the TLB of a die. -/
def dieTlbFill (s : State) (die : Nat) (e : TlbEntry) : State :=
  let d := dieOf s die
  setDie s die { d with tlb := (tlbAdd s 24576 d.tlb ((allThreads s).filter fun x => x.1.clu / 32 = die) e).1 }

/-- A walk has found an entry: it is placed in the die's TLB and in the cluster's (R170). An entry that the
    cluster's TLB gives up while a PC of the cluster needs it stays in the die's, so that a thread that is ready
    stays ready (R27). A replicated page is noted, and one that is no more so is forgotten (R163). -/
def tlbFill (s : State) (c : Ctx) (e : TlbEntry) : State :=
  let rest := s.store.repl.filter fun x => !(x.pa = e.pa && x.size = e.size)
  let s0 := { s with store := { s.store with repl := if e.repl then e :: rest else rest } }
  let s1 := dieTlbFill s0 c.die e
  match c.clu with
  | some k =>
    let cl := cluster s1 k
    let r := tlbAdd s1 256 cl.tlb [] e
    let s2 := setCluster s1 k { cl with tlb := r.1 }
    match r.2 with
    | some v => if servesPc (clusterThreads s k) v then dieTlbFill s2 c.die v else s2
    | none => s2
  | none => s1

/-- Translation of an address: the cluster's TLB, then the die's, then a walk that fills both
    (R170). -/
def translate (s : State) (c : Ctx) (va : Nat) : Walk × State :=
  let near := match c.clu with
    | some k => tlbFind (cluster s k).tlb c.asid va
    | none => none
  match near with
  | some e => (.leaf e, s)
  | none =>
    let s0 := match c.clu with
      | some k => tally s k 0x20 1
      | none => s
    match tlbFind (dieOf s0 c.die).tlb c.asid va with
    | some e => (.leaf e, tlbFill s0 c e)
    | none =>
      let s1 := recallWalk (tallyDie s0 c.die 0x104 1) c va
      match walk s1 c va with
      | .leaf e => (.leaf e, drawn (tlbFill s1 c e))
      | r => (r, drawn s1)

/-- What an access needs of its pages (R169). -/
structure Need where
  r : Bool
  w : Bool
  deriving DecidableEq, Repr

/-- Whether a page lacks what a data access needs (R169). -/
def protFails (c : Ctx) (n : Need) (e : TlbEntry) : Bool :=
  (c.user && !e.user) || (n.r && !e.r) || (n.w && !e.w)

/-- The physical byte that an entry gives an address. -/
def entryPa (s : State) (e : TlbEntry) (va : Nat) : Nat := normPa s (e.pa + (va - e.va))

/-- Translation of one byte with its permission check: XLATE, ADDR for a stray leaf, PROT (R149,
    R169). -/
def xlateByte (s : State) (c : Ctx) (n : Need) (va : Nat) : Except Cause TlbEntry × State :=
  match translate s c va with
  | (.miss, s1) => (.error .xlate, s1)
  | (.badLeaf, s1) => (.error .addr, s1)
  | (.leaf e, s1) => if protFails c n e then (.error .prot, s1) else (.ok e, s1)

/-- Where an access acts, its virtual address, and the page that a global access lies on. -/
structure Target where
  place : Place
  va : Nat
  entry : Option TlbEntry
  deriving DecidableEq, Repr

/-- The place of a physical address (R172). -/
def placeOf (pa : Nat) : Place := if spaceOf pa = 3 then .host pa else .mem pa

/-- The window step of the checks: the window of the first byte, WINDOW when the last byte has another
    top byte, ADDR when either lies beyond its window (R148, R149). -/
def windowCheck (c : Ctx) (a n : Nat) : Except TrapVal Win :=
  let last := (a + n - 1) % 2 ^ 64
  match window c.wpriv a with
  | .bad => .error ⟨.addr, BitVec.ofNat 64 a⟩
  | w =>
    if last / 2 ^ 56 ≠ a / 2 ^ 56 then .error ⟨.window, BitVec.ofNat 64 a⟩
    else match window c.wpriv last with
      | .bad => .error ⟨.addr, BitVec.ofNat 64 a⟩
      | _ => .ok w

/-- The checks of a memory instruction on `n` aligned bytes at `a`, in the order ADDR, WINDOW, ALIGN,
    XLATE, PROT (R149). -/
def accessCheck (s : State) (c : Ctx) (a n align : Nat) (need : Need) : Except TrapVal Target × State :=
  match windowCheck c a n with
  | .error e => (.error e, s)
  | .ok w =>
    if a % align ≠ 0 then (.error ⟨.align, BitVec.ofNat 64 a⟩, s)
    else match w with
      | .raw off => (.ok ⟨.stash (c.clu.getD 0) off, a, none⟩, s)
      | .bad => (.error ⟨.addr, BitVec.ofNat 64 a⟩, s)
      | .glob va =>
        match xlateByte s c need va with
        | (.error e, s1) => (.error ⟨e, BitVec.ofNat 64 a⟩, s1)
        | (.ok e, s1) => (.ok ⟨placeOf (entryPa s1 e va), va, some e⟩, s1)

/-- The pages of a virtual range, lowest first: the pieces, or the cause and the offset of the lowest byte whose
    page faults, a page without a translation anywhere in the range before one without its permission (R149). `k`
    bounds the pages left. -/
def rangePages (s : State) (c : Ctx) (need : Need) : (k va off n : Nat) → Except (Cause × Nat) (List Piece) × State
  | 0, _, _, _ => (.ok [], s)
  | k + 1, va, off, n =>
    if n = 0 then (.ok [], s)
    else
      let len := min n (65536 - va % 65536)
      match xlateByte s c need va with
      | (.error .prot, s1) =>
        match rangePages s1 c need k (va + len) (off + len) (n - len) with
        | (.error (.prot, _), s2) => (.error (.prot, off), s2)
        | (.error x, s2) => (.error x, s2)
        | (.ok _, s2) => (.error (.prot, off), s2)
      | (.error e, s1) => (.error (e, off), s1)
      | (.ok e, s1) =>
        match rangePages s1 c need k (va + len) (off + len) (n - len) with
        | (.error x, s2) => (.error x, s2)
        | (.ok ps, s2) => (.ok (⟨off, len, placeOf (entryPa s1 e va), some e⟩ :: ps), s2)

/-- The checks of a range of `n` bytes at `a`: its pieces or the trap. An empty range checks nothing
    (R149, R159). -/
def rangeCheck (s : State) (c : Ctx) (a n align : Nat) (need : Need) : Except TrapVal (List Piece) × State :=
  if n = 0 then (.ok [], s)
  else
    match windowCheck c a n with
    | .error e => (.error e, s)
    | .ok w =>
      if a % align ≠ 0 then (.error ⟨.align, BitVec.ofNat 64 a⟩, s)
      else match w with
        | .raw off => (.ok [⟨0, n, .stash (c.clu.getD 0) off, none⟩], s)
        | .bad => (.error ⟨.addr, BitVec.ofNat 64 a⟩, s)
        | .glob va =>
          match rangePages s c need ((va + n - 1) / 65536 - va / 65536 + 1) va 0 n with
          | (.error (e, off), s1) => (.error ⟨e, BitVec.ofNat 64 (a + off)⟩, s1)
          | (.ok ps, s1) => (.ok ps, s1)

/-- A place some bytes further on. -/
def Place.add (p : Place) (k : Nat) : Place :=
  match p with
  | .stash c o => .stash c (o + k)
  | .mem pa => .mem (pa + k)
  | .host pa => .host (pa + k)
  | .nowhere => .nowhere

/-- The place of a byte of a checked range. -/
def pieceAt (ps : List Piece) (off : Nat) : Place :=
  match ps.find? fun p => p.off ≤ off && off < p.off + p.len with
  | some p => p.place.add (off - p.off)
  | none => .nowhere

/-- A checked range cut into stretches of at most `w` bytes, in ascending order. -/
def cutPieces (w : Nat) (ps : List Piece) : List Piece :=
  ps.flatMap fun p => (List.range ((p.len + w - 1) / w)).map fun i =>
    { p with off := p.off + i * w, len := min w (p.len - i * w), place := p.place.add (i * w) }

end Sys2Proof.Machine
end

