-- ==== Sys2Proof/Machine/Operands.lean ====
section
/-! DEFINITION. The registers and ports that an instruction names, and the operand forms of the
instructions. -/

namespace Sys2Proof.Machine

/-- What an instruction names: x registers it reads, x registers it writes, v registers it reads and
    writes, ports it pops, ports it sends through, whether it names a port at all, x registers whose
    full/empty bit alone it waits for, and x registers that it names and ignores (log 99). Numbers above 63 stand
    for registers of a group that does not exist. -/
structure Uses where
  rx : List Nat := []
  wx : List Nat := []
  rv : List Nat := []
  wv : List Nat := []
  pops : List PReg := []
  sends : List PReg := []
  port : Bool := false
  fx : List Nat := []
  ix : List Nat := []
  deriving DecidableEq, Repr

/-- An operand is read: a register, or a port that is popped (R103). One instruction pops a port once,
    however many operands name it (R62). -/
def Uses.read (u : Uses) : Opr → Uses
  | .x n => { u with rx := u.rx ++ [n.toNat] }
  | .q q => { u with pops := if u.pops.contains q then u.pops else u.pops ++ [q], port := true }

/-- An operand is written: a register, or a port that is sent through (R103). -/
def Uses.write (u : Uses) : Opr → Uses
  | .x n => { u with wx := u.wx ++ [n.toNat] }
  | .q q => { u with sends := u.sends ++ [q], port := true }

/-- A three-operand form. -/
def usesRRR (rd ra rb : Opr) : Uses := (({} : Uses).read ra).read rb |>.write rd

/-- A two-operand form. -/
def usesRR (rd ra : Opr) : Uses := (({} : Uses).read ra).write rd

/-- Consecutive numbers from a register on. -/
def regGroup (n : BitVec 6) (k : Nat) : List Nat := (List.range k).map (n.toNat + ·)

/-- The pair of a 16-byte operand (R339, R366, R397). -/
def pairIf (size : Size) (n : XReg) : List Nat := if size = .q then regGroup n 2 else [n.toNat]

/-- A store's data operand. -/
def Uses.storeData (u : Uses) (size : Size) : Opr → Uses
  | .x n => { u with rx := u.rx ++ pairIf size n }
  | .q q => u.read (.q q)

/-- A vector form with two sources. -/
def usesV (vd va vb : VReg) (old : Bool) : Uses :=
  { rv := [va.toNat, vb.toNat] ++ (if old then [vd.toNat] else []), wv := [vd.toNat] }

/-- The elements of F in a block occupy one or two registers (R417). -/
def blockRegs (f : Fmt) : Nat := if f = .e2m1 then 1 else 2

/-- Sources and destinations in x registers only. -/
def usesX (rx wx : List XReg) : Uses := { rx := rx.map (·.toNat), wx := wx.map (·.toNat) }

/-- What each instruction names. -/
def usesOf : Instr → Uses
  | .callr _ r => { rx := [r.toNat], wx := [15] }
  | .call .. => { wx := [15] }
  | .jr _ r | .trap _ r | .csrw _ _ r | .xres _ r => usesX [r] []
  | .ret _ => { rx := [15] }
  | .csrr _ _ rd => ({} : Uses).write rd
  | .repart _ rd _ => usesX [] [rd]
  | .spill _ rd ra | .rstr _ rd ra | .xrd _ rd ra | .keyret _ rd ra | .cvta _ rd ra | .tq _ rd ra
  | .sunmap _ rd ra | .take _ rd ra => usesX [ra] [rd]
  | .xwr _ ra rb | .sig _ _ ra rb => usesX [ra, rb] []
  | .tlbi _ ra rb k => match k with
    | .page => usesX [ra, rb] []
    | .space => { usesX [rb] [] with ix := [ra.toNat] }
    | .all => { ix := [ra.toNat, rb.toNat] }
  | .add _ _ rd ra rb | .sub _ _ rd ra rb | .mul _ _ rd ra rb | .mulh _ _ rd ra rb | .mulhn _ _ rd ra rb
  | .and _ _ rd ra rb | .andn _ _ rd ra rb | .or _ _ rd ra rb | .xor _ _ rd ra rb | .shl _ _ rd ra rb
  | .shr _ _ rd ra rb | .sra _ _ rd ra rb | .rot _ _ rd ra rb | .min _ _ rd ra rb | .minn _ _ rd ra rb
  | .max _ _ rd ra rb | .maxn _ _ rd ra rb => usesRRR rd ra rb
  | .div _ _ rd ra rb | .divn _ _ rd ra rb | .rem _ _ rd ra rb | .remn _ _ rd ra rb => usesX [ra, rb] [rd]
  | .clz _ _ rd ra | .ctz _ _ rd ra | .popc _ _ rd ra | .bfx _ _ rd ra _ _ | .addiFrri _ _ rd ra _
  | .addiFi32 _ _ rd ra _ | .andiFrri _ _ rd ra _ | .andiFi32 _ _ rd ra _ | .oriFrri _ _ rd ra _
  | .oriFi32 _ _ rd ra _ | .xoriFrri _ _ rd ra _ | .xoriFi32 _ _ rd ra _ | .shli _ _ rd ra _
  | .shri _ _ rd ra _ | .srai _ _ rd ra _ | .lea _ rd ra _ _ | .mov _ rd ra | .cvt _ _ _ _ _ rd ra =>
    usesRR rd ra
  | .bfxR _ _ rd ra rb rc => (((({} : Uses).read ra).read rb).read rc).write rd
  | .bfi _ _ rd ra _ _ => ((({} : Uses).read (.x rd)).read ra).write (.x rd)
  | .bfiR _ _ rd ra rb rc => ((((({} : Uses).read (.x rd)).read ra).read rb).read rc).write (.x rd)
  | .sel _ rd ra rb rc => (((({} : Uses).read ra).read rb).read rc).write rd
  | .li _ rd _ | .leaPc _ rd _ => ({} : Uses).write rd
  | .liH _ rd _ => usesX [rd] [rd]
  | .cmp _ _ _ _ rdx ra rb | .fcmp _ _ _ _ rdx ra rb => usesRRR (.x (rdx.setWidth 6)) ra rb
  | .cmpi _ _ _ _ rd ra _ => usesRR (.x (rd.setWidth 6)) ra
  | .fadd _ _ _ rd ra rb | .fsub _ _ _ rd ra rb | .fmul _ _ _ rd ra rb | .fmin _ _ rd ra rb
  | .fmax _ _ rd ra rb | .fsgn _ _ _ rd ra rb => usesRRR rd ra rb
  | .ffma _ _ _ rd ra rb rc => (((({} : Uses).read ra).read rb).read rc).write rd
  | .ffmai _ _ _ rd ra _ => ((({} : Uses).read (.x rd)).read ra).write (.x rd)
  | .fdiv _ _ _ rd ra rb => usesX [ra, rb] [rd]
  | .fsqrt _ _ _ rd ra => usesX [ra] [rd]
  | .exp2 _ rd ra | .log2 _ rd ra | .rcp _ rd ra | .rsq _ rd ra | .tanh _ rd ra => usesX [ra] [rd]
  | .cvtV _ _ _ _ _ rd ra => { rv := [ra.toNat], wv := [rd.toNat] }
  | .vqnt _ f rd ra rb =>
    { (({} : Uses).write rb) with rv := regGroup ra 8, wv := regGroup rd (blockRegs f) }
  | .vdq _ f rd ra rb =>
    { (({} : Uses).read rb) with rv := regGroup ra (blockRegs f), wv := regGroup rd 8 }
  | .vadd _ _ vd va vb | .vsub _ _ vd va vb | .vmul _ _ vd va vb | .vmin _ _ vd va vb | .vmax _ _ vd va vb
  | .vshuf _ _ vd va vb | .vcmp _ _ _ vd va vb => usesV vd va vb false
  | .vfma _ _ vd va vb | .vdot _ _ vd va vb | .vsel _ _ vd va vb => usesV vd va vb true
  | .vredAdd _ _ vd va | .vredMin _ _ vd va | .vredMax _ _ vd va => { rv := [va.toNat], wv := [vd.toNat] }
  | .vbcast _ _ vd ra => { (({} : Uses).read ra) with wv := [vd.toNat] }
  | .vins _ _ _ vd ra => { (({} : Uses).read ra) with rv := [vd.toNat], wv := [vd.toNat] }
  | .vext _ _ _ rd va => { (({} : Uses).write rd) with rv := [va.toNat] }
  | .vld _ vd a => { rx := [a.base.toNat], wv := [vd.toNat] }
  | .vst _ vd a => { rx := [a.base.toNat], rv := [vd.toNat] }
  | .ld _ _ size rd a => { rx := [a.base.toNat], wx := pairIf size rd }
  | .ldS _ _ _ rd a | .ldc _ _ rd a => usesX [a.base] [rd]
  | .st _ _ size rd a => Uses.storeData { rx := [a.base.toNat] } size rd
  | .lds _ rd a => usesX [rd, a.base] [rd]
  | .unsub _ r => usesX [r] [r]
  | .takeS _ rd ra rb => usesX [ra] [rd, rb]
  | .pfd _ a => usesX [a.base] []
  | .smap _ rd ra rb rc => usesX [ra, rb, rc] [rd]
  | .wb _ _ ra rb | .inv _ _ ra rb | .wbi _ _ ra rb => usesX [ra, rb] []
  | .amoAdd _ _ rd ra rb | .amoAnd _ _ rd ra rb | .amoOr _ _ rd ra rb | .amoXor _ _ rd ra rb
  | .amoMin _ _ rd ra rb | .amoMinn _ _ rd ra rb | .amoMax _ _ rd ra rb | .amoMaxn _ _ rd ra rb
  | .amoSwap _ _ rd ra rb | .amoFadd _ _ rd ra rb => usesX [ra, rb] [rd]
  | .cas _ a rd ra rb rc =>
    { rx := ra.toNat :: pairIf a.size rb ++ pairIf a.size rc, wx := pairIf a.size rd }
  | .copy _ rd ra | .copyNb _ rd ra => { rx := regGroup ra 4, wx := [rd.toNat] }
  | .copyq _ rd ra _ => { rx := regGroup ra 4, wx := [rd.toNat], port := true }
  | .qbind _ _ ra => { rx := [ra.toNat], port := true }
  | .qend _ q ra => { rx := [ra.toNat], sends := [q], port := true }
  | .qstat _ rd _ => { wx := [rd.toNat], port := true }
  | .convene _ rd _ _ => usesX [] [rd]
  | .spawn _ rd ra rb | .spawnL _ rd ra rb => usesX [ra, rb] [rd]
  | .waitf _ (.x n) | .waitfPark _ (.x n) => { fx := [n.toNat] }
  | .waitf _ (.q _) | .waitfPark _ (.q _) => { port := true }
  | .tld _ _ ra rb | .tldR _ _ ra rb | .tldPx _ _ ra rb | .tst _ _ ra rb | .join _ ra rb | .ains _ ra rb => usesX [ra, rb] []
  | .acfg _ hash ra rb => if hash then usesX [ra, rb] [] else { usesX [ra] [] with ix := [rb.toNat] }
  | .fmtctx _ ra | .mma _ _ ra _ _ _ _ | .drain _ ra | .drainT _ ra => usesX [ra] []
  | .drainV _ vf ra => { usesX [ra] [] with wv := regGroup vf 4 }
  | .astat _ ra => usesX [] [ra]
  | .cmpk _ _ rd ra rb rc => usesX [rd, ra, rb, rc] [rd]
  | .expd _ _ rd ra rb rc => usesX [rd, ra, rb, rc] []
  | _ => {}

/-- What an instruction names, of what it reads only what its operation reads before its checks: a store and an
    atomic read their data after them (R4, R331, R339, R397). -/
def usesFirst (i : Instr) : Uses :=
  match i with
  | .st _ _ _ _ a => usesX [a.base] []
  | .amoAdd _ _ _ ra _ | .amoAnd _ _ _ ra _ | .amoOr _ _ _ ra _ | .amoXor _ _ _ ra _ | .amoMin _ _ _ ra _
  | .amoMinn _ _ _ ra _ | .amoMax _ _ _ ra _ | .amoMaxn _ _ _ ra _ | .amoSwap _ _ _ ra _ | .amoFadd _ _ _ ra _
  | .cas _ _ _ ra _ _ => usesX [ra] []
  | _ => usesOf i

/-- An x register that the thread lacks: x16 up in a light thread, x32 up in P128 (R42, R49). -/
def absentX (light p64 : Bool) (n : Nat) : Bool := if light then 16 ≤ n else if p64 then 64 ≤ n else 32 ≤ n

/-- A v register that the thread lacks: every one in a light thread, v32 up in P128 (R42, R49). -/
def absentV (light p64 : Bool) (n : Nat) : Bool := light || (if p64 then 64 ≤ n else 32 ≤ n)

/-- The smallest of some numbers. -/
def least : List Nat → Option Nat
  | [] => none
  | n :: ns => some (ns.foldl min n)

/-- The OPERAND value of the lowest absent register, x registers first (R444). -/
def absentReg (light p64 : Bool) (u : Uses) : Option Word :=
  match least ((u.rx ++ u.wx ++ u.fx ++ u.ix).filter (absentX light p64)) with
  | some n => some (BitVec.ofNat 64 n)
  | none => (least ((u.rv ++ u.wv).filter (absentV light p64))).map fun n => BitVec.ofNat 64 (0x80 + n)

/-- The POISON value of the lowest poisoned register read, x registers first (R303, R444). -/
def poisonedReg (r : Regs) (u : Uses) : Option Word :=
  match least (u.rx.filter fun n => n ≠ 0 && r.xpoison.getLsbD n) with
  | some n => some (BitVec.ofNat 64 n)
  | none => (least (u.rv.filter fun n => r.vpoison.getLsbD n)).map fun n => BitVec.ofNat 64 (64 + n)

/-- The taint of the registers an instruction reads (R183). -/
def readTaint (r : Regs) (u : Uses) : Bool := u.rx.any fun n => n ≠ 0 && r.taint.getLsbD n

/-- The low bits of an operand by width (R122). -/
def widBits : Wid → Nat
  | .d => 64
  | .w => 32

/-- The low W bits of a value. -/
def lowBits (wd : Wid) (v : Word) : Nat := v.toNat % 2 ^ widBits wd

/-- The format of an FP width. -/
def fwidFmt : FWid → Fmt
  | .f32 => .fp32
  | .f64 => .fp64

/-- The low bits of a value by FP width. -/
def fwidBits (f : FWid) (v : Word) : Nat := v.toNat % 2 ^ fmtWidth (fwidFmt f)

/-- Element `i` of width `w` of a v register (R122). -/
def elem (w : Nat) (v : VWord) (i : Nat) : Nat := v.toNat / 2 ^ (w * i) % 2 ^ w

/-- A v register from its elements of width `w`, element 0 first (R122). -/
def packElems (w : Nat) : List Nat → Nat
  | [] => 0
  | e :: es => e % 2 ^ w + 2 ^ w * packElems w es

/-- A v register from its elements. -/
def vec (w : Nat) (es : List Nat) : VWord := BitVec.ofNat 128 (packElems w es)

/-- The next sequential PC after an index of a line of N instructions (R70). -/
def nextPc (pc : Word) (n : Nat) : Word :=
  if pc.toNat % 64 + 1 < n then pc + 1 else BitVec.ofNat 64 ((pc.toNat / 64 + 1) * 64)

/-- The target of a branch (R71): bits above [55:0] wrap and [63:56] stay zero. -/
def branchTarget (pc : Word) (disp : BitVec 19) (idx : Nat) : Word :=
  BitVec.ofNat 64 (((pc.toNat / 64 + (sextNat 19 disp.toNat).toNat) * 64) % 2 ^ 56 + idx)

/-- The address of a memory operand (R366). -/
def memAddr (t : Thread) (a : MemArg) : Nat := (xval t a.base + sextNat 16 a.disp.toNat).toNat

end Sys2Proof.Machine
end

