-- ==== Sys2Proof/Machine/Access.lean ====
section
/-! DEFINITION. Accesses: the actions each takes (R178), the order within a thread (R182, R184, R194), and
the taking of one action. -/

namespace Sys2Proof.Machine

/-- A load reads memory, and so does an atomic (R182); a pop and a TAKE are ordered as loads (R190, R205). -/
def Access.reads (a : Access) : Bool :=
  match a.kind with
  | .load | .rmw _ | .lds | .prefetch | .take => true
  | _ => false

/-- A store writes memory, and so does an atomic (R182); a port send is ordered as a store (R190). -/
def Access.writes (a : Access) : Bool :=
  match a.kind with
  | .store | .rmw _ | .send => true
  | _ => false

/-- A load or atomic with ORD acq or ar (R182). -/
def Access.acquires (a : Access) : Bool := a.reads && (a.ord = .acq || a.ord = .ar)

/-- A store or atomic with ORD rel or ar (R182). -/
def Access.releases (a : Access) : Bool := a.writes && (a.ord = .rel || a.ord = .ar)

/-- An access that acts at the host. -/
def Access.atHost (a : Access) : Bool :=
  match a.place with
  | .host _ => true
  | _ => false

/-- A load, store or atomic, not a fence. -/
def Access.plain (a : Access) : Bool := a.reads || a.writes

/-- Whether two places of given lengths share a byte. -/
def placesMeet (p : Place) (n : Nat) (q : Place) (m : Nat) : Bool :=
  match p, q with
  | .stash c o, .stash d k => c = d && o < k + m && k < o + n
  | .mem a, .mem b => a < b + m && b < a + n
  | .host a, .host b => a < b + m && b < a + n
  | _, _ => false

/-- The lines that a range operation or an unmapping still acts on. -/
def Access.lines (a : Access) : List Nat :=
  a.todo.filterMap fun x => match x with
    | .rangeLine l => some l
    | .unmapLine l => some l
    | _ => none

/-- Overlapping bytes of one location kind and key (R182). -/
def Access.meets (a b : Access) : Bool :=
  (a.key = b.key || (match a.place with | .mem _ => false | _ => true)) &&
    (placesMeet a.place a.n b.place b.n
      || a.lines.any (fun l => placesMeet (.mem (l * 128)) 128 b.place b.n)
      || b.lines.any (fun l => placesMeet (.mem (l * 128)) 128 a.place a.n))

/-- What a FENCE orders before itself (R182). -/
def FenceKind.before (k : FenceKind) (a : Access) : Bool :=
  match k with
  | .full | .eng | .rel => true
  | .acq | .rr => a.reads
  | .ww => a.writes

/-- What a FENCE orders after itself (R182). -/
def FenceKind.afterIt (k : FenceKind) (a : Access) : Bool :=
  match k with
  | .full | .eng | .acq => true
  | .rel | .ww => a.writes
  | .rr => a.reads

/-- The FENCEs that order every access after them, and those that order every access before them. -/
def fencesMeet (j k : FenceKind) : Bool :=
  j = .full || j = .eng || j = .acq || k = .full || k = .eng || k = .rel

/-- The rows of R182 and R194: whether an access of a thread is ordered before a later one of the same
    thread. FENCEs are accesses too (R178); one at hst or sys scope follows the earlier writes to space 0b11
    (R157, R194). An LDS with ORD rlx holds no later read back (R199). -/
def mustPrecede (a b : Access) : Bool :=
  match a.kind, b.kind with
  | .coll, _ | _, .coll => true
  | .fence j, .fence k => fencesMeet j k
  | .fence k, _ => FenceKind.afterIt k b || b.releases
  | _, .fence k =>
    FenceKind.before k a || a.acquires || (a.writes && a.atHost && (b.scope = .hst || b.scope = .sys))
  | _, _ =>
    ((a.kind ≠ .lds || b.writes) && Access.meets a b) || a.acquires || b.releases || (a.atHost && b.atHost)

/-- A place on a page that has moved is the place at its new home (R161). -/
def chasePlace (s : State) : Place → Place
  | .mem pa => .mem (chase s pa)
  | p => p

/-- The lines that an access still acts on, and the bounds of a range operation, at other addresses. -/
def Access.reline (f : Nat → Nat) (a : Access) : Access :=
  let ln := fun (l : Nat) => f (l * 128) / 128
  let b := match a.kind, a.place with
    | .range _, .mem pa => { a with place := .mem (f pa), data := BitVec.ofNat 128 (f pa + a.n) }
    | _, _ => a
  { b with
    todo := a.todo.map fun x => match x with
      | .wbLines ls => .wbLines (ls.map fun e => (e.1, ln e.2))
      | .rangeLine l => .rangeLine (ln l)
      | .unmapLine l => .unmapLine (ln l)
      | x => x }

/-- An access as it stands after a move of its page (R161). -/
def Access.chased (s : State) (a : Access) : Access :=
  if s.store.redirects.isEmpty then a else let b := a.reline (chase s); { b with place := chasePlace s b.place }

/-- Whether a place lies at the host. -/
def Place.atHost : Place → Bool
  | .host _ => true
  | _ => false

/-- The places of `n` bytes from an offset on, in some pieces, with lengths. -/
def stretch (s : State) (ps : List Piece) (off n : Nat) : List (Place × Nat) :=
  ps.filterMap fun p =>
    let lo := max off p.off
    let hi := min (off + n) (p.off + p.len)
    if lo < hi then some (chasePlace s (p.place.add (lo - p.off)), hi - lo) else none

/-- The bytes that a copy has still to read. -/
def CopyOp.readsLeft (s : State) (c : CopyOp) : List (Place × Nat) := c.chunks.flatMap fun p => stretch s c.srcAt p.1 p.2

/-- The bytes that a copy has still to write. -/
def CopyOp.writesLeft (s : State) (c : CopyOp) : List (Place × Nat) :=
  (c.chunks ++ c.got.map fun p => (p.1, p.2.length)).flatMap fun p => stretch s c.dstAt p.1 p.2

/-- Whether an access shares a byte with one of some stretches under a key. -/
def Access.meetsAt (a : Access) (key : Nat) (ps : List (Place × Nat)) : Bool :=
  ps.any fun p => Access.meets a { a with kind := .load, key := key, place := p.1, n := p.2, todo := [] }

/-- Whether an access waits for a copy that its thread has issued before it: for the bytes that they share, at the
    host for all that the copy does there, at hst or sys scope a FENCE for what it writes there, and a release for
    the whole copy (R182, R194). -/
def copyHolds (s : State) (a : Access) (c : CopyOp) : Bool :=
  let rs := c.readsLeft s
  let ws := c.writesLeft s
  let fence := match a.kind with
    | .fence _ => a.scope = .hst || a.scope = .sys
    | _ => false
  (a.releases && a.kind ≠ .send) || a.meetsAt c.key (rs ++ ws) || (a.atHost && (rs ++ ws).any (·.1.atHost))
    || (fence && ws.any (·.1.atHost))

/-- The copies of a thread issued before an access or copy of a number, and not carried out. -/
def copiesBefore (s : State) (uid id : Nat) : List CopyOp :=
  s.flight.copies.filter fun c => c.uid = uid && c.packet.isNone && c.id < id && !c.ready

/-- The accesses of a thread issued before one of them. -/
def earlierAcc (t : Thread) (id : Nat) : List Access := t.pipe.acc.takeWhile fun a => a.id ≠ id

/-- An access may take its next action when every access and copy ordered before it is done: those of R182, earlier
    LDCs when its address or data is tainted (R182, R184), and those of earlier members of its group (R32). A
    store that waits for a collapse takes none (R164). -/
def accessFree (s : State) (t : Thread) (a0 : Access) : Bool :=
  let a := a0.chased s
  let es := (earlierAcc t a.id).map (Access.chased s)
  !(es.any fun e => mustPrecede e a)
    && !((a.tainted || a.afterLdc) && es.any fun e => e.ldc)
    && a.after.all (fun p => !accPending s p)
    && (copiesBefore s t.uid a.id).all (fun c => !copyHolds s a c)
    && a.stalled.isNone

/-- The two halves of a 16-byte access act apart, in either order; anything else acts whole (R173, log 73). -/
def halves (n : Nat) (f : Nat → Nat → Act) : List Act := if n = 16 then [f 0 8, f 8 8] else [f 0 n]

/-- The actions of an access on home memory or a cluster view (R178, R184). -/
def memActs (a : Access) : List Act :=
  let acquires := a.ord = .acq || a.ord = .ar
  let releases := a.ord = .rel || a.ord = .ar
  match a.kind with
  | .load =>
    if a.scope.wide && acquires then halves a.n .homeRead ++ [.invalidate]
    else if a.tainted then halves a.n .homeRead
    else halves a.n .localRead
  | .store =>
    if a.scope.wide && releases then .wbStart :: halves a.n .homeWrite else halves a.n .localWrite
  | .rmw _ =>
    if a.scope.wide then
      (if releases then [.wbStart] else []) ++ [.lineOut, .homeRmw] ++ (if acquires then [.invalidate] else [])
    else [.localRmw]
  | .prefetch => [.fill]
  | _ => []

/-- The actions of an access on memory at the host: one at the host, with the write-backs and the
    invalidation of its order and scope (R157, R194). -/
def hostActs (a : Access) : List Act :=
  let acquires := a.ord = .acq || a.ord = .ar
  let releases := a.ord = .rel || a.ord = .ar
  let core := match a.kind with
    | .load => halves a.n .hostRead
    | .store => halves a.n .hostWrite
    | .rmw _ => [.hostRmw]
    | _ => []
  (if a.scope.wide && releases then [.wbStart] else []) ++ core
    ++ (if a.scope.wide && acquires then [.invalidate] else [])

/-- The actions of a raw stash access (R153, R178). -/
def stashActs (a : Access) : List Act :=
  match a.kind with
  | .load => halves a.n .stashRead
  | .store => halves a.n .stashWrite
  | .rmw _ => [.stashRmw]
  | _ => []

/-- The actions of a FENCE (R178). -/
def fenceActs (k : FenceKind) (scope : Scope) : List Act :=
  if scope.wide then
    (match k with
      | .full | .rel | .ww | .eng => [.wbStart]
      | _ => [])
    ++ (match k with
      | .full | .acq | .rr | .eng => [.invalidate]
      | _ => [])
  else []

/-- The actions of an access by its kind and place (R178). -/
def actsOf (a : Access) : List Act :=
  match a.kind, a.place with
  | .fence k, _ => fenceActs k a.scope
  | .range _, _ | .unmap, _ => a.todo
  | .send, _ => if a.scope.wide then [.wbStart] else []
  | .take, _ => if a.scope.wide then [.invalidate] else []
  | .lds, _ | .coll, _ => [.arrive]
  | _, .stash .. => stashActs a
  | _, .mem _ => memActs a
  | _, .host _ => hostActs a
  | _, .nowhere => []

/-- An access of nothing, to be filled in. -/
def Access.blank : Access where
  id := 0
  kind := .load
  place := .nowhere
  n := 0
  ord := .rlx
  scope := .thr
  key := 0
  page := none
  va := 0
  signed := false
  ldc := false
  tainted := false
  afterLdc := false
  data := 0
  expd := 0
  got := 0
  gotPoison := false
  replica := none
  stalled := none
  after := []
  team := []
  todo := []

/-- The bytes that a generic address names for a thread of a cluster: stash bytes, or virtual bytes (R148). -/
def spanOf (wpriv : Word) (clu a : Nat) : Option (Option Nat × Nat) :=
  match window wpriv a with
  | .glob va => some (none, va)
  | .raw off => some (some clu, off)
  | .bad => none

/-- Whether an access shares a byte with `n` bytes of a span. -/
def spanMeets (a : Access) (n : Nat) : Option (Option Nat × Nat) → Bool
  | some (some c, o) => placesMeet a.place a.n (.stash c o) n
  | some (none, va) => (match a.place with
      | .stash .. => false
      | _ => a.va < va + n && va < a.va + a.n)
  | none => false

/-- Whether a CMPK or EXPD may still read bytes that an access touches: of what CMPK has left to read, by place; of
    the records that EXPD has left, by virtual address (log 88). -/
def Packing.readsMeet (t : Thread) (clu : Nat) (k : Packing) (a : Access) : Bool :=
  k.count.isNone && !k.ended && match k.instr with
  | .cmpk .. => a.meetsAt t.csr.keyid.toNat (k.todo.map fun p => (p.place, p.len))
  | _ => spanMeets a (8 * (k.rb - k.n)) (spanOf t.csr.wpriv clu k.addr)

/-- Whether a CMPK or EXPD that has not yet made its stores may write bytes that an access touches. -/
def Packing.writesMeet (t : Thread) (k : Packing) (a : Access) : Bool :=
  k.count.isNone && a.meetsAt t.csr.keyid.toNat (k.out.map fun p => (p.place, p.len))

/-- The accesses of earlier members of a group that an access of a later member follows: those that share a byte
    with it (R32), and FENCEs a FENCE (R358). -/
def groupBefore (s : State) (uid : Nat) (a : Access) : List (Nat × Nat) :=
  let meets := fun (x : Access) => Access.meets x a || (match x.kind, a.kind with
    | .fence _, .fence _ => true
    | _, _ => false)
  s.grpAcc.filter fun p =>
    p.1 ≠ uid && s.threads.any fun e => e.2.uid = p.1 && e.2.pipe.acc.any fun x => x.id = p.2 && meets x

/-- The accesses of later members of a group, and their CMPK and EXPD, that follow an access of a thread in it: a
    later access of the thread to their bytes follows them, since the members act as if they issued with nothing
    between them (R32, R438). -/
def groupLater (s : State) (uid : Nat) (a : Access) : List (Nat × Nat) :=
  (allThreads s).flatMap fun e =>
    if e.2.uid = uid then []
    else
      (e.2.pipe.acc.filter fun x => (x.after ++ x.team).any (fun p => p.1 = uid) && Access.meets x a).map (fun x => (e.2.uid, x.id))
        ++ (e.2.pipe.pack.toList.filter fun k =>
            k.before.any (fun p => p.1 = uid) && (k.readsMeet e.2 e.1.clu a || k.writesMeet e.2 a)).map fun k => (e.2.uid, k.id)

/-- Whether an access is an atomic. -/
def Access.isRmw (a : Access) : Bool :=
  match a.kind with
  | .rmw _ => true
  | _ => false

/-- An access issues: it takes an id and its actions, follows the accesses of its group or, an atomic, acts with
    them (R32), and joins the accesses of its thread. An access without actions is done at once, but for one that
    only orders others. -/
def pushAccess (s : State) (t : Thread) (a : Access) : State × Thread :=
  let before := groupBefore s t.uid a
  let after := a.after ++ (if a.isRmw then [] else before) ++ groupLater s t.uid a
  let key := match a.kind with
    | .fence _ | .send => t.csr.keyid.toNat
    | _ => a.key
  let a := { a with id := s.nextId, key := key, after := after, team := if a.isRmw then before else [], todo := actsOf a }
  let s1 := { s with nextId := s.nextId + 1, grpAcc := s.grpAcc ++ [(t.uid, a.id)] }
  match a.kind, a.todo with
  | .fence _, _ | .send, _ | .take, _ => (s1, { t with pipe := { t.pipe with acc := t.pipe.acc ++ [a] } })
  | _, [] => (s1, t)
  | _, _ => (s1, { t with pipe := { t.pipe with acc := t.pipe.acc ++ [a] } })

/-- A FENCE at a scope (R178). -/
def fenceAccess (k : FenceKind) (scope : Scope) : Access := { Access.blank with kind := .fence k, scope := scope }

/-- The release of a port send at a scope (R190). -/
def sendAccess (scope : Scope) : Access := { Access.blank with kind := .send, ord := .rel, scope := scope }

/-- The acquire of a pop or of a TAKE at a scope, ordered as a load with ORD acq (R190, R205). -/
def takeAccess (scope : Scope) : Access := { Access.blank with kind := .take, ord := .acq, scope := scope }

/-- What an atomic writes: the new value from the old one, the operand and the expected value, or
    nothing (R330, R331, R339, R145). `w` counts bits. -/
def rmwNew (op : RmwOp) (w old b expd : Nat) : Option Nat :=
  match op with
  | .add => some ((old + b) % 2 ^ w)
  | .and => some (old &&& b)
  | .or => some (old ||| b)
  | .xor => some (old ^^^ b)
  | .min => some (if sintNat w b < sintNat w old then b else old)
  | .minn => some (if b < old then b else old)
  | .max => some (if sintNat w old < sintNat w b then b else old)
  | .maxn => some (if old < b then b else old)
  | .swap => some b
  | .fadd => some (fpAdd (if w = 32 then .fp32 else .fp64) Rnd.rne old b).bits
  | .cas => if old = expd then some b else none

/-- Bytes of the data of an access. -/
def dataBytes (a : Access) (off len : Nat) : List Byte := leBytes len (a.data.toNat / 2 ^ (8 * off))

/-- An access that has read bytes at an offset. -/
def Access.gain (a : Access) (off : Nat) (bytes : List Byte) (bad : Bool) : Access :=
  { a with got := a.got ||| BitVec.ofNat 128 (leNat bytes * 2 ^ (8 * off)), gotPoison := a.gotPoison || bad }

/-- The new bytes of an atomic that read some bytes, unless it writes nothing or read poison (R303,
    R339). -/
def rmwBytes (a : Access) (bytes : List Byte) (bad : Bool) : Option (List Byte) :=
  match a.kind with
  | .rmw op =>
    if bad then none
    else
      let w := 8 * a.n
      (rmwNew op w (leNat bytes) (a.data.toNat % 2 ^ w) (a.expd.toNat % 2 ^ w)).map fun v => leBytes a.n v
  | _ => none

/-- The byte addresses of an access on memory: for a load of a replicated page, the replica of its die
    (R163). -/
def Access.pa (a : Access) (off : Nat) : Nat :=
  match a.place with
  | .mem p => match a.replica with
    | some d => replicaPa (p + off) d
    | none => p + off
  | .host p => p + off
  | .stash _ o => o + off
  | .nowhere => 0

/-- The cluster whose stash an access reaches. -/
def Access.stashClu (a : Access) (clu : Nat) : Nat :=
  match a.place with
  | .stash c _ => c
  | _ => clu

/-- An element of a list by a free choice, and the others. -/
def takeChoice {α : Type} (s : State) : List α → Option (α × List α)
  | [] => none
  | x :: xs =>
    match (x :: xs)[choose s (x :: xs).length]? with
    | some y => some (y, (x :: xs).eraseIdx (choose s (x :: xs).length))
    | none => some (x, xs)

/-- Whether the next action is one half of a 16-byte access and the other half follows it. -/
def halfPair : Act → Act → Bool
  | .localRead .., .localRead .. | .localWrite .., .localWrite .. | .homeRead .., .homeRead ..
  | .homeWrite .., .homeWrite .. | .stashRead .., .stashRead .. | .stashWrite .., .stashWrite ..
  | .hostRead .., .hostRead .. | .hostWrite .., .hostWrite .. => true
  | _, _ => false

/-- Whether every action left is one line of a range operation or an unmapping. -/
def lineActs (acts : List Act) : Bool :=
  acts.all fun x => match x with
    | .rangeLine _ | .unmapLine _ => true
    | _ => false

/-- The action that an access takes next, and those left: lines of a range and halves of a 16-byte access in any
    order, by a free choice, and all others in the order of R178 (log 73, log 74). -/
def nextAct (s : State) (acts : List Act) : Option (Act × List Act) :=
  if lineActs acts then takeChoice s acts
  else match acts with
    | [] => none
    | x :: y :: rest => if halfPair x y && Config.happens s.free then some (y, x :: rest) else some (x, y :: rest)
    | [x] => some (x, [])

/-- Whether an action on home memory under a key may be taken: no half that it touches is held by the host
    (R162), and no page that it touches has moved (R161). -/
def homeReady (s : State) (key pa n : Nat) : Bool := !hostHolds s key pa n && (redirectOf s pa).isNone

/-- Whether an action on some bytes of a line at home may be taken. -/
def halvesReady (s : State) (key line : Nat) (pas : List Nat) : Bool :=
  !(halvesIn pas).any (halfHeld s key) && (redirectOf s (line * 128)).isNone

/-- Whether a line may be filled: no half in which a byte is absent is held by the host (R162). -/
def fillReady (s : State) (clu key line : Nat) : Bool := halvesReady s key line (absentBytes s clu key line)

/-- Whether a line may be written back: no half in which a byte is dirty is held by the host (R162). -/
def wbReady (s : State) (clu key line : Nat) : Bool :=
  let dirty := dirtyBytes s clu key line
  dirty.isEmpty || halvesReady s key line (dirty.map (·.1))

/-- The bytes of a line that INV writes back: the dirty ones outside its range (R159). -/
def invKeeps (s : State) (clu : Nat) (a : Access) (line : Nat) : List Nat :=
  ((dirtyBytes s clu a.key line).map (·.1)).filter fun p => !(decide (a.pa 0 ≤ p) && decide (p < a.data.toNat))

/-- The stash offset of a line in the mapping that starts at a stash offset, while it is mapped. -/
def lineOff (c : Cluster) (off line : Nat) : Option Nat :=
  let segs := (c.maps.filter fun m => m.off = off).flatMap (·.segs)
  segs.findSome? fun g => if g.2.1 ≤ line * 128 ∧ line * 128 < g.2.1 + g.2.2 then some (g.1 + (line * 128 - g.2.1)) else none

/-- The dirty bytes of a mapped line, where another mapping of the same memory serves the accesses to it
    (log 28). -/
def rawDirty (s : State) (clu o line : Nat) : List (Nat × Byte) :=
  ((List.range 128).filter fun i => mget (cluster s clu).mapped (o + i) = some true).map fun i =>
    (line * 128 + i, stashGet s clu (o + i))

/-- The bytes of a line that SUNMAP writes back. -/
def unmapDirty (s : State) (clu key off line : Nat) : List (Nat × Byte) :=
  let c := cluster s clu
  match lineOff c off line with
  | none => []
  | some o => if mapOff c (line * 128) = some o then dirtyBytes s clu (mappedKey c key o) line else rawDirty s clu o line

/-- Whether a line of a range operation or an unmapping may be taken (R161, R162). -/
def lineReady (s : State) (clu : Nat) (a : Access) (line : Nat) : Bool :=
  match a.kind with
  | .range op =>
    a.atHost || (let bs := if op = .inv then invKeeps s clu a line else (dirtyBytes s clu a.key line).map (·.1)
                 halvesReady s a.key line bs)
  | _ =>
    let bs := unmapDirty s clu a.key a.va line
    bs.isEmpty || halvesReady s a.key line (bs.map (·.1))

/-- Whether an action may be taken: an action on home memory waits for the halves that it touches and the host holds,
    and for a redirect (R161, R162). The arrival of a subscribe request is an event of its own. -/
def actReady (s : State) (clu : Nat) (a : Access) : Act → Bool
  | .localRead off len =>
    (List.range len).all (fun i => (viewGet s clu a.key (a.pa off + i)).isSome) || fillReady s clu a.key (a.pa off / 128)
  | .localWrite off _ => (redirectOf s (a.pa off)).isNone
  | .localRmw =>
    let line := a.pa 0 / 128
    (List.range a.n).all (fun i => if a.tainted then viewDirty s clu a.key (a.pa 0 + i) else (viewGet s clu a.key (a.pa 0 + i)).isSome)
      || (if a.tainted then halvesReady s a.key line ((lineAddrs line).filter fun p => !viewDirty s clu a.key p)
        else fillReady s clu a.key line)
  | .fill => fillReady s clu a.key (a.pa 0 / 128)
  | .homeRead off len | .homeWrite off len => homeReady s a.key (a.pa off) len
  | .homeRmw => homeReady s a.key (a.pa 0) a.n
  | .lineOut => wbReady s clu a.key (a.pa 0 / 128)
  | .wbLines ls => ls.any fun e => wbReady s clu e.1 e.2
  | .rangeLine l | .unmapLine l => lineReady s clu a l
  | .arrive => false
  | _ => true

/-- The clean bytes of a line of the view become absent before a tainted narrow atomic reads it
    (R184). -/
def taintClean (s : State) (clu : Nat) (a : Access) : State :=
  if a.tainted then dropClean s clu a.key (a.pa 0 / 128) fun _ => true else s

/-- Discard counting of INV: the lines from which dirty bytes are discarded (R159, R321). -/
def discardLine (s : State) (clu key line lo hi : Nat) : State :=
  let inside := fun pa => decide (lo ≤ pa) && decide (pa < hi)
  let dirty := (lineAddrs line).filter fun pa => inside pa && viewDirty s clu key pa
  let s1 := viewDels s clu key dirty
  if dirty.isEmpty then s1 else tally s1 clu 0x11 1

/-- A line of the instruction caches of a cluster's four cores invalidated (R159). -/
def dropCode (s : State) (clu key line : Nat) : State :=
  (List.range 4).foldl
    (fun s k =>
      let c := coreOf s (clu * 4 + k)
      setCore s (clu * 4 + k)
        { c with icache := mdel (mdel c.icache (vkey key (line * 2))) (vkey key (line * 2 + 1)) }) s

/-- The line of the replica that a cluster reads, for a line of a replicated page (R163). -/
def replicaLine (clu line : Nat) : Nat := replicaPa (line * 128) (clu / 32) / 128

/-- The copies of a line that INV and WBI leave behind: its clean bytes and its code lines, in the replica of the
    cluster's die as well for a replicated page (R159, R163). -/
def dropCopies (s : State) (clu : Nat) (a : Access) (line : Nat) : State :=
  let one := fun (s : State) (l : Nat) => dropCode (dropClean s clu a.key l fun _ => true) clu a.key l
  let s1 := one s line
  if a.page.any (·.repl) then one s1 (replicaLine clu line) else s1

/-- One line of a range operation at wide scope (R159): `lo` to `hi` are the bytes of the range. Of a line of
    space 0b11 a cluster holds code alone. -/
def rangeLine (s : State) (clu : Nat) (a : Access) (op : RangeOp) (line : Nat) : State :=
  let lo := a.pa 0
  let hi := a.data.toNat
  match op with
  | .wb => if a.atHost then s else wbLine s clu a.key line
  | .inv =>
    if a.atHost then dropCode s clu a.key line
    else dropCopies (wbLine (discardLine s clu a.key line lo hi) clu a.key line) clu a line
  | .wbi => if a.atHost then dropCode s clu a.key line else dropCopies (wbLine s clu a.key line) clu a line

/-- One line of SUNMAP of the mapping at a stash offset: written back, with its poison, and unmapped in one action
    (R302, R395). A line that is unmapped already stays as it is. -/
def unmapLine (s : State) (clu key off line : Nat) : State :=
  let c := cluster s clu
  match lineOff c off line with
  | none => s
  | some o =>
    let raw := rawDirty s clu o line
    let bad := (wordsOf (raw.map (·.1))).filter fun w => c.stashPoison.contains ((o + (w * 8 - line * 128)) / 8)
    let s1 := if mapOff c (line * 128) = some o then wbLine s clu (mappedKey c key o) line
      else if raw.isEmpty then s
      else homeWrites (recallHalves (collapseAt s (line * 128)) key (halvesIn (raw.map (·.1)))) key raw bad
    let c1 := cluster s1 clu
    let cut := fun (g : Nat × Nat × Nat) =>
      if g.2.1 ≤ line * 128 ∧ line * 128 < g.2.1 + g.2.2 then
        [(g.1, g.2.1, line * 128 - g.2.1),
         (g.1 + (line * 128 + 128 - g.2.1), line * 128 + 128, g.2.1 + g.2.2 - (line * 128 + 128))].filter
          (fun h => h.2.2 ≠ 0)
      else [g]
    let ms := c1.maps.map fun m => if m.off = off then { m with segs := m.segs.flatMap cut } else m
    setCluster s1 clu (pruneView
      { c1 with maps := ms.filter fun m => !m.segs.isEmpty, mapped := mfilter (fun k _ => k / 128 ≠ o / 128) c1.mapped })

/-- The replicated page into which a line's dirty bytes would be written back: the write stalls until it has
    collapsed (R164). -/
def lineStall (s : State) (clu key line : Nat) : Option TlbEntry :=
  if (dirtyBytes s clu key line).isEmpty then none else replOf s (line * 128)

/-- The replicated page that an access lies on. -/
def Access.replPage (a : Access) : Option TlbEntry := a.page.filter fun e => e.repl

/-- After a home RMW the bytes of a mapped stash line take the value written, clean (R158, R178). -/
def mappedTakes (s : State) (clu key pa : Nat) (bytes : List Byte) : State :=
  if (viewWhere (cluster s clu) key pa).isSome then viewPut s clu key pa bytes false else s

/-- After a home RMW that writes nothing, the clean bytes of a mapped stash line take the home value with its
    poison (R332, R339). -/
def mappedHome (s : State) (clu key pa n : Nat) : State :=
  if (viewWhere (cluster s clu) key pa).isNone then s
  else
    let clean := ((List.range n).map (pa + ·)).filter fun p => !viewDirty s clu key p
    (wordsOf clean).foldl (fun s w => fillWord s clu key w) (viewDels s clu key clean)

/-- A write of an access stalls until the page that it lies on has collapsed, or is made (R164). -/
def writeOr (s : State) (a done : Access) (e : Option TlbEntry) (f : State → State) : State × Access :=
  match e with
  | some e => let (s2, c) := callCollapse s e; (s2, { a with stalled := some c })
  | none => (f s, done)

/-- A miss in a cluster data cache is counted (R321). -/
def tallyMiss (s : State) (clu : Nat) (miss : Bool) : State := if miss then tally s clu 0x10 1 else s

/-- The write of an atomic that has read some bytes, after the collapse of its page where that is replicated and it
    or an atomic of `mates`, performed with it, would write (R32, R164, R330). -/
def rmwWrite (s : State) (a done : Access) (mates : List Access) (bs : List Byte) (bad : Bool) (f : State → List Byte → State) :
    State × Access :=
  let writes := (a :: mates).any fun x => (rmwBytes x bs bad).isSome
  writeOr s a (done.gain 0 bs bad) (if writes then a.replPage else none) fun s =>
    match rmwBytes a bs bad with
    | some nb => f s nb
    | none => s

/-- The state and the access after its next action (R177); `mates` are the atomics of its group that act with it. The
    home RMW of a wide atomic removes the line of the cluster again, so that the atomic is one with respect to what
    its cluster has stored there since the line removal (R187, log 89). -/
def takeAct (s : State) (clu : Nat) (a : Access) (act : Act) (rest : List Act) (mates : List Access) : State × Access :=
  let done := { a with todo := rest }
  match act with
  | .localRead off len =>
    let miss := !((List.range len).all fun i => (viewGet s clu a.key (a.pa off + i)).isSome)
    let (bs, bad, s1) := localRead s clu a.key (a.pa off) len
    (tallyMiss s1 clu miss, done.gain off bs bad)
  | .localWrite off len =>
    writeOr s a done a.replPage fun s => localWrite s clu a.key (a.pa off) (dataBytes a off len)
  | .localRmw =>
    let s0 := taintClean s clu a
    let miss := !((List.range a.n).all fun i => (viewGet s0 clu a.key (a.pa 0 + i)).isSome)
    let (bs, bad, s1) := localRead s0 clu a.key (a.pa 0) a.n
    rmwWrite (tallyMiss s1 clu miss) a done mates bs bad fun s nb => localWrite s clu a.key (a.pa 0) nb
  | .homeRead off len =>
    let (bs, bad) := homeRead s clu a.key (a.pa off) len
    (l2Reach s a.key (a.pa off) len, done.gain off bs bad)
  | .homeWrite off len =>
    writeOr s a done a.replPage fun s => homeWrite s clu a.key (a.pa off) (dataBytes a off len)
  | .homeRmw =>
    let s1 := l2Reach (removeLine s clu a.key (a.pa 0 / 128)) a.key (a.pa 0) a.n
    let bs := homeBytes s1 a.key (a.pa 0) a.n
    let bad := homeBad s1 (a.pa 0) a.n
    if (rmwBytes a bs bad).isSome || mates.any (fun x => (rmwBytes x bs bad).isSome) then
      rmwWrite s1 a done mates bs bad fun s nb => mappedTakes (homeWrites s a.key (atAddr (a.pa 0) nb) []) clu a.key (a.pa 0) nb
    else (mappedHome s1 clu a.key (a.pa 0) a.n, done.gain 0 bs bad)
  | .stashRead off len =>
    let c := a.stashClu clu
    (s, done.gain off (stashBytes s c (a.pa off) len) (stashPoisoned s c (a.pa off) len))
  | .stashWrite off len => (stashWrite s (a.stashClu clu) (a.pa off) (dataBytes a off len), done)
  | .stashRmw =>
    let c := a.stashClu clu
    rmwWrite s a done mates (stashBytes s c (a.pa 0) a.n) (stashPoisoned s c (a.pa 0) a.n) fun s nb => stashWrite s c (a.pa 0) nb
  | .hostRead off len => (s, done.gain off (hostBytes s (a.pa off) len) false)
  | .hostWrite off len => (hostWrites s (a.pa off) (dataBytes a off len), done)
  | .hostRmw => rmwWrite s a done mates (hostBytes s (a.pa 0) a.n) false fun s nb => hostWrites s (a.pa 0) nb
  | .wbStart =>
    match dirtyLines (cluster s clu) a.key with
    | [] => (s, done)
    | ls => (s, { a with todo := .wbLines ls :: rest })
  | .wbLines ls =>
    match takeChoice s (ls.filter fun e => wbReady s clu e.1 e.2) with
    | none => (s, if ls.isEmpty then done else a)
    | some (e, _) =>
      let more := ls.erase e
      writeOr s a (if more.isEmpty then done else { a with todo := .wbLines more :: rest }) (lineStall s clu e.1 e.2)
        fun s => wbLine s clu e.1 e.2
  | .lineOut =>
    let l := a.pa 0 / 128
    writeOr s a done (lineStall s clu a.key l) fun s => removeLine s clu a.key l
  | .invalidate => (invalidate s clu, done)
  | .fill =>
    let l := a.pa 0 / 128
    (tallyMiss (fillLine s clu a.key l) clu !(absentBytes s clu a.key l).isEmpty, done)
  | .rangeLine l =>
    match a.kind with
    | .range op =>
      let left := if op = .inv then discardLine s clu a.key l (a.pa 0) a.data.toNat else s
      writeOr s { a with todo := .rangeLine l :: rest } done (if a.atHost then none else lineStall left clu a.key l) fun s =>
        rangeLine s clu a op l
    | _ => (s, done)
  | .unmapLine l =>
    let bs := unmapDirty s clu a.key a.va l
    writeOr s { a with todo := .unmapLine l :: rest } done (if bs.isEmpty then none else replOf s (l * 128)) fun s =>
      unmapLine s clu a.key a.va l
  | .arrive => (s, done)

/-- The value that a load or atomic returns to its register: extended from its bytes (R366, R331). -/
def accessValue (a : Access) : VWord :=
  if a.signed then (sextNat (8 * a.n) a.got.toNat).setWidth 128 else a.got

/-- The landing of a finished access becomes known: its result takes the value read (R63, R183,
    R303). A 16-byte load of an x pair fills both registers. -/
def fillResult (a : Access) (r : Result) : Result :=
  if r.id ≠ a.id then r
  else
    let v := accessValue a
    let ws := match r.writes with
      | [w] => [{ w with val := v, taint := a.ldc, poison := a.gotPoison }]
      | [w0, w1] =>
        [{ w0 with val := (v.setWidth 64).setWidth 128, taint := a.ldc, poison := a.gotPoison },
         { w1 with val := (v >>> 64), taint := a.ldc, poison := a.gotPoison }]
      | ws => ws
    { r with writes := ws, ready := true }

/-- The thread after an action of one of its accesses: a finished access leaves it and makes its result
    known. -/
def putAccess (t : Thread) (a : Access) : Thread :=
  if a.todo.isEmpty then
    { t with pipe :=
      { t.pipe with
        acc := t.pipe.acc.filter fun x => x.id ≠ a.id
        results := t.pipe.results.map (fillResult a) } }
  else { t with pipe := { t.pipe with acc := t.pipe.acc.map fun x => if x.id = a.id then a else x } }

/-! Atomics of one group. -/

/-- The read and write of an atomic. -/
def Act.rmw : Act → Bool
  | .localRmw | .homeRmw | .stashRmw | .hostRmw => true
  | _ => false

/-- Whether the next action of an access is the read and write of its atomic. -/
def Access.atRmw (a : Access) : Bool :=
  match a.todo with
  | x :: _ => x.rmw
  | [] => false

/-- An access of a thread, in a slot or left (R23). -/
structure Issued where
  loc : Loc
  thread : Thread
  acc : Access

/-- The accesses that are not performed, of threads in slots and of those that have left. -/
def allIssued (s : State) : List Issued :=
  (allThreads s ++ s.flight.ghosts).flatMap fun e => e.2.pipe.acc.map fun a => ⟨e.1, e.2, a⟩

/-- Whether an atomic still has its read and write before it. -/
def Access.rmwLeft (a : Access) : Bool := a.todo.any Act.rmw

/-- The atomics of later members of a group that act together with one, in the order of their issue (R32). -/
def matesOf (s : State) (uid id : Nat) : List Issued :=
  (allIssued s).filter (fun x => x.acc.team.contains (uid, id) && x.acc.rmwLeft) |>.foldl
    (fun l x => (l.takeWhile fun y => y.acc.id < x.acc.id) ++ x :: l.dropWhile fun y => y.acc.id < x.acc.id) []

/-- Whether an atomic of an earlier member of its group leads an atomic (R32). -/
def ledByOther (s : State) (a : Access) : Bool :=
  !a.team.isEmpty && (allIssued s).any fun x => a.team.contains (x.thread.uid, x.acc.id) && x.acc.rmwLeft

/-- Whether the atomics of a group that act with one have all come to their reads and writes: they act in one step, in
    the order of R29, with nothing between them (R32, R438). -/
def teamReady (s : State) (a : Access) (mates : List Issued) : Bool :=
  !a.atRmw || (!ledByOther s a && mates.all fun x =>
    x.acc.atRmw && accessFree s x.thread x.acc && x.acc.todo.head?.all (actReady s x.loc.clu x.acc))

/-- One action of an access of a thread in a cluster: the state and the thread after it. A fence without actions left
    is done. -/
def takeNext (s : State) (clu : Nat) (t : Thread) (a : Access) (mates : List Access) : Option (State × Thread) :=
  match nextAct s a.todo with
  | none => some (s, putAccess t a)
  | some (act, rest) =>
    if !actReady s clu a act then none
    else
      let r := takeAct s clu a act rest mates
      some (drawn r.1, putAccess t r.2)

/-- One action of an access of a thread in a cluster, where the order within the thread and its group lets it be
    taken (R32, R178, R180). -/
def performFor (s : State) (clu : Nat) (t : Thread) (id : Nat) : Option (State × Thread) :=
  match t.pipe.acc.find? fun a => a.id = id with
  | none => none
  | some a =>
    let mates := matesOf s t.uid id
    if !accessFree s t a || !teamReady s a mates then none else takeNext s clu t a (mates.map (·.acc))

/-- The threads that have left their slots, with one changed; it is forgotten once its accesses are
    performed. -/
def putGhost (s : State) (l : Loc) (t : Thread) : State :=
  let gs := s.flight.ghosts.filterMap fun e =>
    if e.2.uid ≠ t.uid then some e else if t.pipe.acc.isEmpty then none else some (l, t)
  { s with flight := { s.flight with ghosts := gs } }

/-- What `f` does with a thread and its access, by location and id: of the thread in the slot, or of one that has left
    it (R23). -/
def onAccess (s : State) (l : Loc) (id : Nat) (f : Thread → Option (State × Thread)) : Option State :=
  let inSlot := match thread? s l with
    | some t => (f t).map fun (r : State × Thread) => setThread r.1 l r.2
    | none => none
  match inSlot with
  | some s1 => some s1
  | none =>
    match s.flight.ghosts.find? fun (e : Loc × Thread) => e.1 = l && e.2.pipe.acc.any fun a => a.id = id with
    | none => none
    | some e => (f e.2).map fun r => putGhost r.1 l r.2

/-- An atomic acts with the one that leads it. -/
def followMate (s : State) (x : Issued) : State :=
  (onAccess s x.loc x.acc.id fun t =>
    match t.pipe.acc.find? fun a => a.id = x.acc.id with
    | none => none
    | some a => takeNext s x.loc.clu t a []).getD s

/-- Whether an access, by thread and id, waits for a collapse. -/
def stalledNow (s : State) (uid id : Nat) : Bool :=
  (allIssued s).any fun x => x.thread.uid = uid && x.acc.id = id && x.acc.stalled.isSome

/-- One action of an access, by location and id, is taken, and with the read and write of an atomic those of the
    atomics that it leads (R32). -/
def performAction (s : State) (l : Loc) (id : Nat) : State :=
  let lead := (allIssued s).find? fun x => x.loc = l && x.acc.id = id
  match onAccess s l id (fun t => performFor s l.clu t id), lead with
  | some s1, some x =>
    if x.acc.atRmw && !stalledNow s1 x.thread.uid id then (matesOf s x.thread.uid id).foldl followMate s1 else s1
  | some s1, none => s1
  | none, _ => s

end Sys2Proof.Machine
end

