-- ==== Sys2Proof/Machine/Issue.lean ====
section
/-! DEFINITION. The issue of an instruction: the waits of R27, the checks that stop it with a trap, what
every issue does to its thread, and the writing of results. -/

namespace Sys2Proof.Machine

/-- Memory, atomic, copy and matrix instructions, which a range operation of the thread holds back
    (R159). -/
def touchesMemory : Instr → Bool
  | .vld .. | .vst .. | .ld .. | .ldS .. | .st .. | .ldc .. | .lds .. | .unsub .. | .take .. | .takeS .. | .pfd ..
  | .smap .. | .sunmap .. | .wb .. | .inv .. | .wbi .. | .amoAdd .. | .amoAnd .. | .amoOr .. | .amoXor ..
  | .amoMin .. | .amoMinn .. | .amoMax .. | .amoMaxn .. | .amoSwap .. | .amoFadd .. | .cas .. | .fence ..
  | .copy .. | .copyNb .. | .copyq .. | .sig .. | .tq .. | .tclaim .. | .trel .. | .tld .. | .tldR .. | .tldPx ..
  | .tst .. | .fmtctx .. | .mma .. | .acfg .. | .aclr .. | .drain .. | .drainT .. | .drainV .. | .join ..
  | .ains .. | .cmpk .. | .expd .. | .astat .. | .cvta .. => true
  | _ => false

/-- Whether `n` bytes of a generic address of a thread lie in a virtual range (R148). -/
def spanIn (t : Thread) (va len a n : Nat) : Bool :=
  match window t.csr.wpriv a with
  | .glob v => v < va + len && va < v + n
  | _ => false

/-- Whether an instruction of a thread may access a virtual range (R395): by the address that it names, by both
    addresses of a copy, CMPK or EXPD, and a collective that reads or writes memory in any case (log 81). -/
def mayTouch (t : Thread) (va len : Nat) (i : Instr) : Bool :=
  let x := fun (r : XReg) => (xval t r).toNat
  let req := fun (ra : XReg) => spanIn t va len (x ra) (x (ra + 2) % 2 ^ 32) || spanIn t va len (x (ra + 1)) (x (ra + 2) % 2 ^ 32)
  match i with
  | .vld _ _ a | .vst _ _ a => spanIn t va len (memAddr t a) 16
  | .ld _ _ size _ a | .ldS _ _ size _ a | .st _ _ size _ a | .ldc _ size _ a => spanIn t va len (memAddr t a) (sizeBytes size)
  | .lds _ _ a => spanIn t va len (memAddr t a) 8
  | .pfd _ a => spanIn t va len (memAddr t a / 128 * 128) 128
  | .amoAdd _ a _ ra _ | .amoAnd _ a _ ra _ | .amoOr _ a _ ra _ | .amoXor _ a _ ra _ | .amoMin _ a _ ra _ | .amoMinn _ a _ ra _
  | .amoMax _ a _ ra _ | .amoMaxn _ a _ ra _ | .amoSwap _ a _ ra _ | .amoFadd _ a _ ra _ | .cas _ a _ ra _ _ =>
    spanIn t va len (x ra) (sizeBytes a.size)
  | .sig _ _ ra _ => spanIn t va len (x ra) 8
  | .tq _ _ ra => spanIn t va len (x ra) 64
  | .wb _ _ ra rb | .inv _ _ ra rb | .wbi _ _ ra rb => spanIn t va len (x ra) (x rb)
  | .copy _ _ ra | .copyNb _ _ ra | .copyq _ _ ra _ => req ra
  | .cmpk _ f rd ra rb _ => spanIn t va len (x ra) (x rb * (fmtWidth f / 8)) || spanIn t va len (x rd) (8 * (x rb + 2))
  | .expd _ f rd ra rb rc => spanIn t va len (x ra) (8 * x rb) || spanIn t va len (x rd) (x rc % 2 ^ 32 * (fmtWidth f / 8))
  | .tld .. | .tldR .. | .tldPx .. | .tst .. | .drain .. | .drainT .. | .join .. | .ains .. => true
  | _ => false

/-- Instructions that wait until every earlier instruction has completed and every result has landed:
    CSRR and CSRW (R110), REPART (R385), RET (R386), and EXIT and MIGH, which wait as the switch marker
    makes an instruction wait (R66). -/
def waitsSettled : Instr → Bool
  | .csrr .. | .csrw .. | .repart .. | .ret .. | .exit .. | .migh .. => true
  | _ => false

/-- REPART, SPILL, RSTR, XRD, XWR, XRES, TLBI and KEYRET raise PRIV at user level (R111). -/
def privileged : Instr → Bool
  | .repart .. | .spill .. | .rstr .. | .xrd .. | .xwr .. | .xres .. | .tlbi .. | .keyret .. => true
  | _ => false

/-- BAR, CONVENE, SPAWN and instructions that name a port raise MIGR in a migration slot (R47). -/
def migrRaises (i : Instr) : Bool :=
  match i with
  | .bar .. | .convene .. | .spawn .. | .spawnL .. => true
  | _ => (usesOf i).port

/-- The state of a tag. -/
def tagOf (t : Thread) (k : BitVec 3) : TagState := t.pipe.tags.get k.toFin

/-- A tag set to a state; tag 0 is no tag. -/
def setTag (p : Pipe) (k : BitVec 3) (v : TagState) : Pipe :=
  if k = 0 then p else { p with tags := p.tags.set k.toNat v k.isLt }

/-- The PD wait is met: the instruction at the distance has completed (R61). -/
def pdMet (t : Thread) (pd : BitVec 2) (cycle : Nat) : Bool :=
  pd = 0 || (match t.pipe.hist[pd.toNat - 1]? with
    | some c => decide (c ≤ cycle)
    | none => true)

/-- The SC and SA waits are met: neither tag is pending (R64). -/
def tagsMet (t : Thread) (d : Dep) : Bool :=
  (d.sc = 0 || tagOf t d.sc ≠ .pending) && (d.sa = 0 || tagOf t d.sa ≠ .pending || d.sa = d.sc)

/-- An EXIT has begun, and waits for the replay windows of its thread (R353). -/
def Thread.exiting (t : Thread) : Bool :=
  match t.present with
  | some p => (match p.instr with
    | .exit _ => true
    | _ => false)
  | none => false

/-- A held light interrupt can be delivered: TH and LH clear and no annulment pending (R114). An EXIT that
    has begun discards it (R353). -/
def irqReady (t : Thread) : Bool :=
  !t.irqs.isEmpty && !t.exiting && !t.csr.tcause.getLsbD 63 && !t.csr.tcause.getLsbD 62 && t.pipe.annul = 0

/-- Every x register that the instruction names is full (R27, R102). -/
def fullMet (t : Thread) (u : Uses) : Bool :=
  (u.rx ++ u.wx ++ u.fx).all fun n => n = 0 || 64 ≤ n || t.regs.full.getLsbD n

/-- Every port that the instruction pops holds a word, and every port that it sends through has room in
    its replay window (R103, R266). -/
def portsMet (t : Thread) (u : Uses) : Bool :=
  u.pops.all (fun q => !(portOf t q).inb.isEmpty) && u.sends.all (fun q => (portOf t q).win.length < 32)

/-- No SUNMAP of the thread that is not complete holds the instruction back: it touches none of the ranges that were
    mapped (R395). -/
def unmapsMet (t : Thread) (i : Instr) : Bool := t.pipe.acc.all fun x => x.kind ≠ .unmap || !mayTouch t x.data.toNat x.n i

/-- A TLBI, a range operation, a CMPK or an EXPD of the thread, or the SPAWN that started it, does not hold
    the instruction back (R159, R239, R355, R396, R403). -/
def blockMet (s : State) (t : Thread) (i : Instr) : Bool :=
  match t.pipe.block with
  | none => true
  | some (.all accs) =>
    accs.all fun p => !accPending s p
  | some (.memory ids) => !touchesMemory i || !(t.pipe.acc.any fun x => ids.contains x.id)
  | some (.until c) => c ≤ s.cycle
  | some (.landing uid id) => s.threads.all fun e => e.2.uid ≠ uid || e.2.pipe.results.all fun r => r.id ≠ id

/-- The thread can be considered for issue at all: running, with nothing raised, presented or held that
    comes first (R27, R210, R295). A GROUP fault is held back by a pending annulment, and does not hold it back
    (R38, R40, R218). -/
def mayRun (t : Thread) : Bool :=
  t.mode = .running && t.trap.isNone && (t.gfault.isNone || t.pipe.annul ≠ 0) && t.present.isNone && !irqReady t

/-- A light handler is left once every access issued before has been performed (R185). -/
def leaveMet (t : Thread) : Instr → Bool
  | .reth _ => t.pipe.acc.isEmpty
  | _ => true

/-- The spill engine is saving the thread, and has stopped its issue (R290). -/
def beingSaved (s : State) (l : Loc) (t : Thread) : Bool :=
  match (cluster s l.clu).saves with
  | r :: _ => r.uid = t.uid
  | [] => false

/-- The engine operations of a thread that FENCE of kind eng waits for: copies, and port sends; its
    collectives are accesses of their own (R182, R358). -/
def enginesIdle (s : State) (t : Thread) : Bool :=
  s.flight.copies.all (fun c => c.uid ≠ t.uid) && t.ports.toList.all (fun p => p.win.isEmpty)

/-- TAKE is ready when its slot holds a value, or no subscription (R205). -/
def takeReady (k : SubSlot) : Bool := k.full || (!k.sub && !k.pend)

/-- What single instructions wait for: TAKE for its slot (R205), WAITF for its port (R423), FENCE of kind eng
    for engine operations (R358), COPY and COPYQ for an entry of the command FIFO (R260), TQ for
    the accesses that its release covers (R288), TLBI for the accesses of its thread, so that walks after its
    issue read what they wrote (R403, log 75), ASTAT for a collective that has issued and is not stalled (R254). -/
def ownMet (s : State) (l : Loc) (t : Thread) : Instr → Bool
  | .take _ _ ra | .takeS _ _ ra _ => takeReady (slotOf s l.clu (xval t ra))
  | .waitf _ (.q q) | .waitfPark _ (.q q) => l.migration || !(portOf t q).inb.isEmpty
  | .fence _ .eng _ => enginesIdle s t
  | .tq .. | .tlbi .. => t.pipe.acc.isEmpty
  | .copy .. | .copyq .. => (coreOf s l.coreIdx).fifo.length < 16
  | .astat .. => !((cluster s l.clu).mx.cur.any fun c => !c.stalled)
  | _ => true

/-- The dependence byte of a logical word, whether or not it holds an instruction (R58); a word without a tail has
    none. -/
def wordDep (w : Nat) : Dep :=
  if headTl w = 0 then Dep.bare (w / 2 ^ 15 % 2 == 1)
  else ⟨w / 2 ^ 15 % 2 == 1, BitVec.ofNat 3 (w / 2 ^ 21), BitVec.ofNat 3 (w / 2 ^ 18), BitVec.ofNat 2 (w / 2 ^ 16)⟩

/-- Every wait of R27 is met. In a migration slot, which has no ports, an instruction that names one does not wait
    for it: it raises MIGR (R45, R47). -/
def canIssue (s : State) (l : Loc) (t : Thread) (i : Instr) : Bool :=
  let u := usesOf i
  mayRun t && t.pipe.pack.isNone && !beingSaved s l t && leaveMet t i && (!t.pipe.sWait || settled t s.cycle) && pdMet t i.dep.pd s.cycle && tagsMet t i.dep
    && (!waitsSettled i || settled t s.cycle) && fullMet t u && (l.migration || portsMet t u) && blockMet s t i && unmapsMet t i && ownMet s l t i

/-- A binding that a send may go through (R265). -/
def bindingOk (d : BitVec 32) : Bool :=
  d.getLsbD 31 && !d.getLsbD 3 && d.toNat / 16 % 128 ≠ 0
    && (d.toNat / 2 ^ 21 % 1024 < 576 || d.toNat / 2 ^ 21 % 1024 = 0x3FF)

/-- The traps that stop an instruction before its own checks: an absent register, privilege, a migration
    slot, a send without a good binding, a poisoned register that is read before those checks (R4, R42, R47, R49,
    R111, R266, R303). -/
def entryTrap (s : State) (l : Loc) (t : Thread) (i : Instr) : Option TrapVal :=
  let u := usesOf i
  match absentReg t.csr.light (coreOf s l.coreIdx).p64 u with
  | some v => some ⟨.operand, v⟩
  | none =>
    if privileged i && !supLevel l t then some ⟨.priv, 0⟩
    else if l.migration && migrRaises i then some ⟨.migr, 0⟩
    else match u.sends.find? fun q => !bindingOk (portOf t q).desc with
      | some q => some ⟨.operand, BitVec.ofNat 64 (64 + q.toNat)⟩
      | none => (poisonedReg t.regs (usesFirst i)).map fun v => ⟨.poison, v⟩

/-- The scope of a port: the narrowest of clu, die, pkg and pod with the sender and the target
    (R190). -/
def portScope (s : State) (l : Loc) (d : BitVec 32) : Scope :=
  let pkg := d.toNat / 2 ^ 21 % 1024
  let clu := d.toNat / 2 ^ 13 % 256
  if pkg ≠ 0x3FF ∧ pkg ≠ s.ctl.bar.pkgnum then .pod
  else if clu = l.clu then .clu
  else if clu / 32 = l.clu / 32 then .die
  else .pkg

/-- The words popped by an instruction leave their ports; a control value popped as data is kept in
    QCTLV (R103, R114, R270). -/
def popPorts (t : Thread) (qs : List PReg) : Thread :=
  qs.foldl
    (fun t q =>
      match (portOf t q).inb with
      | [] => t
      | w :: ws =>
        let t1 := setPort t q { portOf t q with inb := ws }
        if w.ctl then { t1 with csr := { t1.csr with qctlv := w.word } } else t1) t

/-- The acquires of popped words, at the scopes of their ports (R190). -/
def popAcquires (s : State) (t : Thread) (qs : List PReg) : State × Thread :=
  qs.foldl
    (fun p q =>
      match (portOf t q).inb with
      | [] => p
      | w :: _ => pushAccess p.1 p.2 (takeAccess w.scope)) (s, t)

/-- What still holds a thread back after one more issue: a range operation that is not complete (R159). -/
def Pipe.stillBlocked (p : Pipe) : Option Block :=
  match p.block with
  | some (.memory ids) => if p.acc.any fun x => ids.contains x.id then p.block else none
  | _ => none

/-- What every issue does to its thread: SC is consumed and SA allocated, the instruction enters the
    history, S is noted, popped words leave their ports, the PC moves on (R60 to R66, R70). -/
def charge (s : State) (t : Thread) (i : Instr) : Thread :=
  let d := i.dep
  let p1 := if tagOf t d.sc = .landed then setTag t.pipe d.sc .free else t.pipe
  let p2 := setTag p1 d.sa .pending
  popPorts
    { t with
      pc := nextPc t.pc s.curN
      pipe := { p2 with hist := (s.cycle + 4) :: p2.hist.take 2, sWait := d.s, block := t.pipe.stillBlocked } }
    (usesOf i).pops

/-- The lowest-numbered port that the instruction pops with a control value at its head, while QHND is not
    0 (R114, R324). -/
def ctlPop (t : Thread) (u : Uses) : Option PReg :=
  if t.csr.qhnd = 0 then none
  else ([0, 1, 2, 3, 4, 5, 6, 7] : List PReg).find? fun q => u.pops.contains q && (match (portOf t q).inb with
    | w :: _ => w.ctl
    | [] => false)

/-- A popped control value raises a light interrupt: it leaves its port, and the instruction has not
    issued (R114, R270). -/
def popControl (s : State) (l : Loc) (t : Thread) (q : PReg) : State :=
  match (portOf t q).inb with
  | [] => s
  | w :: ws =>
    let (s1, t1) := pushAccess s t (takeAccess w.scope)
    let t2 := setPort t1 q { portOf t1 q with inb := ws }
    setThread s1 l { t2 with irqs := t2.irqs ++ [.ctl w.word] }

/-- The outcome of an instruction's own checks and effects: a new state, or a trap. -/
abbrev Effect := Except TrapVal State

/-- The issue of an instruction for the thread at `cur`. While a wait of R27 is not met nothing happens;
    a check that fails raises its trap; otherwise `body` gives the effect, from the thread before the
    issue and the thread after it. -/
def issue (i : Instr) (s : State) (body : Thread → Thread → State → Effect) :
    Host.Outcome State Fault Refusal :=
  match thread? s s.cur with
  | none => .fault .noThread
  | some t =>
    if !canIssue s s.cur t i then .next s
    else match entryTrap s s.cur t i with
      | some v => .next (raiseTrap s s.cur t v)
      | none =>
        match ctlPop t (usesOf i) with
        | some q => .next (popControl s s.cur t q)
        | none =>
          let (s1, t1) := popAcquires s t (usesOf i).pops
          match body t (charge s1 t1 i) s1 with
          | .ok s2 => .next s2
          | .error v => .next (raiseTrap s s.cur t v)

/-- A word is sent through a port: the release at the port's scope, then the word in the replay window
    with the descriptor in force (R190, R266). The words that two members of a group send to one buffer arrive in
    any order (R32, R267, log 76). -/
def sendWord (s : State) (l : Loc) (t : Thread) (q : PReg) (ctl : Bool) (v : Word) : State × Thread :=
  let d := (portOf t q).desc
  let sc := portScope s l d
  let (s1, t1) := pushAccess s t (sendAccess sc)
  let w : SentWord := { w := ⟨ctl, v, sc⟩, desc := d, rel := s.nextId, flying := true, due := 0, tries := 1 }
  (s1, setPort t1 q { portOf t1 q with win := (portOf t1 q).win ++ [w] })

/-- Results of an instruction of Fixed kind, written 4 cycles after issue (R59). -/
def fixedWrites (s : State) (t : Thread) (ws : List Wr) (f : Flags) : Thread :=
  { t with pipe := { t.pipe with fixed := t.pipe.fixed ++ [⟨s.cycle + 4, ws, f⟩] } }

/-- The result of an instruction of Fixed kind: written to its register, or sent through its port at
    once; its flags are set when it completes (R59, R110, R183, R266). -/
def fixedResult (s : State) (t : Thread) (rd : Opr) (v : Word) (taint : Bool) (f : Flags) : State :=
  match rd with
  | .x n => setThread s s.cur (fixedWrites s t [⟨.x n, v.setWidth 128, taint, false⟩] f)
  | .q q =>
    let (s1, t1) := sendWord s s.cur t q false v
    setThread s1 s.cur (fixedWrites s t1 [] f)

/-- A fixed-latency instruction that computes one scalar value from its operands; its taint is that of
    the registers it reads (R183). -/
def issueFixed (i : Instr) (s : State) (rd : Opr) (f : Thread → Word × Flags) : Host.Outcome State Fault Refusal :=
  issue i s fun t t1 s => .ok (fixedResult s t1 rd (f t).1 (readTaint t.regs (usesOf i)) (f t).2)

/-- A fixed-latency instruction whose result carries no taint (R183, R345, R370, R414). -/
def issueClear (i : Instr) (s : State) (rd : Opr) (f : Thread → Word × Flags) : Host.Outcome State Fault Refusal :=
  issue i s fun t t1 s => .ok (fixedResult s t1 rd (f t).1 false (f t).2)

/-- A fixed-latency instruction that writes v registers. -/
def issueVector (i : Instr) (s : State) (f : Thread → List Wr × Flags) : Host.Outcome State Fault Refusal :=
  issue i s fun t t1 s => .ok (setThread s s.cur (fixedWrites s t1 (f t).1 (f t).2))

/-- An outstanding result of a variable-latency instruction (R59, R63). -/
def addResult (t : Thread) (r : Result) : Thread :=
  { t with pipe := { t.pipe with results := t.pipe.results ++ [r] } }

/-- A variable-latency result whose value is known at issue and lands later (R63). -/
def variableResult (s : State) (t : Thread) (tag : BitVec 3) (ws : List Wr) (f : Flags) : State :=
  { setThread s s.cur (addResult t ⟨s.nextId, tag, ws, f, true⟩) with nextId := s.nextId + 1 }

/-- A variable-latency instruction that computes x values from its operands. -/
def issueVariable (i : Instr) (s : State) (f : Thread → List Wr × Flags) : Host.Outcome State Fault Refusal :=
  issue i s fun t t1 s => .ok (variableResult s t1 i.dep.sa (f t).1 (f t).2)

/-- An instruction without a register result that changes its own thread. -/
def issueThread (i : Instr) (s : State) (f : Thread → Thread → Thread) : Host.Outcome State Fault Refusal :=
  issue i s fun t t1 s => .ok (setThread s s.cur (f t t1))

/-- A token completion starts on its way to the thread (R105). -/
def sendToken (s : State) (uid : Nat) (reg : XReg) (v : Word) (irq : Option Irq) (copy : Option Nat) : State :=
  { s with
    flight := { s.flight with tokens := s.flight.tokens ++ [⟨s.nextId, uid, reg, v, irq, copy, .bound⟩] }
    nextId := s.nextId + 1 }

/-- The token register of an instruction turns empty at its issue (R102). -/
def emptyToken (t : Thread) (r : XReg) : Thread := { t with regs := t.regs.setFull r false }

/-- The result of a variable instruction lands: registers and flags are written, its tag is LANDED
    (R63, R64, R110). -/
def landResult (t : Thread) (r : Result) : Thread :=
  { t with
    regs := t.regs.writes r.writes
    csr := { t.csr with fpctl := stickyFlags t.csr.fpctl r.flags }
    pipe := { setTag t.pipe r.tag .landed with results := t.pipe.results.filter fun x => x.id ≠ r.id } }

/-- The first fixed-latency write that is due is written (R59, R61). -/
def landFixed (t : Thread) (cycle : Nat) : Thread :=
  match t.pipe.fixed with
  | [] => t
  | w :: ws =>
    if w.due ≤ cycle then
      { t with
        regs := t.regs.writes w.writes
        csr := { t.csr with fpctl := stickyFlags t.csr.fpctl w.flags }
        pipe := { t.pipe with fixed := ws } }
    else t

end Sys2Proof.Machine
end

