-- ==== Sys2Proof/Machine/Fetch.lean ====
section
/-! DEFINITION. Fetching: what stands at the PC of a thread, and the filling of instruction caches
(R40, R54, R70 to R72, R169, R171). -/

namespace Sys2Proof.Machine

/-- The location of a code line in an instruction cache: 64-byte line of a physical address under a
    key (R165, R171). -/
def codeKey (t : Thread) (pa : Nat) : Nat := vkey t.csr.keyid.toNat (pa / 64)

/-- The translation that a TLB of the thread's cluster or die holds for an address (R170). -/
def heldEntry (s : State) (c : Ctx) (va : Nat) : Option TlbEntry :=
  match c.clu with
  | some k => (tlbFind (cluster s k).tlb c.asid va).or (tlbFind (dieOf s c.die).tlb c.asid va)
  | none => tlbFind (dieOf s c.die).tlb c.asid va

/-- Whether a fetch from a page is allowed (R169). -/
def fetchAllowed (c : Ctx) (e : TlbEntry) : Bool := e.x && (!c.user || e.user)

/-- The physical address that a fetch or load of a die reads: the replica of that die for a replicated
    page (R163). -/
def readPa (s : State) (c : Ctx) (e : TlbEntry) (va : Nat) : Nat :=
  if e.repl then replicaPa (entryPa s e va) c.die else entryPa s e va

/-- The line address of a PC. -/
def pcLine (pc : Word) : Nat := pc.toNat / 64 * 64

/-- The code line of a PC in the core's instruction cache; an address that is none; a line at a page that does
    not permit a fetch. -/
inductive Held where
  | fault
  | denied (pa : Nat)
  | miss
  | held (c : CodeLine)
  deriving DecidableEq, Repr

/-- The code line at a PC, as far as the TLBs and the instruction cache hold it (R70, R171). -/
def heldLine (s : State) (l : Loc) (t : Thread) (pc : Word) : Held :=
  if pc.toNat / 2 ^ 56 ≠ 0 then .fault
  else
    let c := threadCtx l t
    match heldEntry s c (pcLine pc) with
    | none => .miss
    | some e =>
      if !fetchAllowed c e then .denied (readPa s c e (pcLine pc))
      else match mget (coreOf s l.coreIdx).icache (codeKey t (readPa s c e (pcLine pc))) with
        | none => .miss
        | some k => .held k

/-- What stands at the PC of a thread: a line still to be fetched (or one whose fetch faults), a poisoned
    line, a line or index that holds no instruction, an annulled instruction, an illegal word, or an
    instruction; with the logical word and the N of the line. -/
inductive Next where
  | fetch
  | poison
  | target
  | annul (w n : Nat)
  | illegal (w n : Nat)
  | run (i : Instr) (w n : Nat)
  deriving DecidableEq, Repr

/-- What stands at the PC of the thread at a location (R38, R54, R72, R87, R303). -/
def nextOf (s : State) (l : Loc) (t : Thread) : Next :=
  match heldLine s l t t.pc with
  | .fault => .fetch
  | .denied _ => .fetch
  | .miss => .fetch
  | .held k =>
    match lineAt k.bytes (t.pc.toNat % 64) with
    | .error _ => .target
    | .ok (w, n) =>
      if t.pipe.annul ≠ 0 then .annul w n
      else if k.poison then .poison
      else match decodeWord w with
        | .ok i => .run i w n
        | .error _ => .illegal w n

/-- The bytes of a code line as the home holds it, or as memory at the host does (R171, R172). -/
def codeBytes (s : State) (key pa : Nat) : CodeLine :=
  if spaceOf pa = 3 then ⟨hostBytes s pa 64, false⟩
  else ⟨homeBytes s key pa 64, (List.range 8).any fun i => homePoisoned s (pa + 8 * i)⟩

/-- A code line comes from L2 under the key of its thread: it is recalled from the host, its home slice and the slice of
    the die hold it, and its bytes are read (R160, R162, R171). -/
def codeFetch (s : State) (l : Loc) (key pa : Nat) : CodeLine × State :=
  let s1 := l2Fetch (recallRange s key pa 64) l.clu key (pa / 128)
  (codeBytes s1 key pa, s1)

/-- A thread could issue, or pass, what stands at its PC (R27). -/
def readyHere (s : State) (l : Loc) (t : Thread) : Bool :=
  match nextOf s l t with
  | .run i _ _ => canIssue s l t i
  | .annul .. | .illegal .. => mayRun t
  | _ => false

/-- The lines of an instruction cache at the PCs of those threads of its core that a predicate names, by number. -/
def codeNeeded (s : State) (core : Nat) (p : Loc × Thread → Bool) : List Nat :=
  ((allThreads s).filter fun e => e.1.coreIdx = core && p e).filterMap fun e =>
    (heldEntry s (threadCtx e.1 e.2) (pcLine e.2.pc)).map fun x =>
      codeKey e.2 (readPa s (threadCtx e.1 e.2) x (pcLine e.2.pc))

/-- The lines that an instruction cache of 64 KiB and 4 ways holds in the set of a line, by number (R6, R171). -/
def codeWays (k : Core) (n : Nat) : List Nat :=
  (k.icache.map (·.1)).filter fun m => Config.codeSet m % 256 = Config.codeSet n % 256

/-- The lines of a full set of which a fill replaces one of a free choice: those that stand at the PC of no thread
    of the core, or else those at the PC of no thread that is ready, which would stop being so (R27, R171). -/
def codeVictims (s : State) (core : Nat) (ways : List Nat) : List Nat :=
  let idle := ways.filter fun n => !(codeNeeded s core fun _ => true).contains n
  if idle.isEmpty then ways.filter fun n => !(codeNeeded s core fun e => readyHere s e.1 e.2).contains n else idle

/-- A code line is placed in an instruction cache (R171). While every line of its set stands at the PC of a thread
    that is ready, the fill waits (R27; log 90). -/
def fillCode (s : State) (core key : Nat) (c : CodeLine) : State :=
  let k := coreOf s core
  let ways := codeWays k key
  if ways.contains key || ways.length < 4 then drawn (setCore s core { k with icache := mset k.icache key c })
  else
    let vs := codeVictims s core ways
    match vs[choose s vs.length]? with
    | some v => drawn (setCore s core { k with icache := mset (mdel k.icache v) key c })
    | none => drawn s

/-- Whether an instruction stands on port A, by its word; a word without a mnemonic stands on port B
    (R26). -/
def onPortA (w : Nat) : Bool :=
  match formatOf (w % 2 ^ 12) with
  | none => false
  | some f =>
    if w / 2 ^ 12 % 8 ≠ f.tl then false
    else match w % 2 ^ 12 / 256 with
      | 0x0 => w % 2 ^ 12 ≤ 0x28
      | 0x1 | 0x2 | 0x3 | 0x4 => true
      | 0x5 => w % 2 ^ 8 < 0x70
      | 0xC => w % 2 ^ 8 < 0x18
      | _ => false

end Sys2Proof.Machine
end

