-- ==== Sys2Proof/Machine/Agent.lean ====
section
/-! DEFINITION. Memory as the hardware outside the threads reads and writes it: packet parser, launch
engines, dispatchers and collapse engine (R164, R275). -/

namespace Sys2Proof.Machine

/-- The accesses of the parser, a launch engine or a dispatcher: through the TLB and walker of a die,
    under the queue's root and key, at supervisor level (R275, log 105). -/
def agentCtx (die : Nat) (ptbase : Word) (key : Nat) : Ctx := ⟨none, die, ptbase, key, false, 0⟩

/-- A write by an agent to a page collapses it first when it is replicated (R164). -/
def agentCollapse (s : State) (e : TlbEntry) : State :=
  if e.repl then collapseNow s e else s

/-- Translation by an agent: where a virtual byte lies, if its page allows the access (R275). Bits [63:56] of an address
    are not looked at (R167, log 105). -/
def agentPa (s : State) (c : Ctx) (need : Need) (va : Nat) : Option (Nat × TlbEntry) × State :=
  match xlateByte s c need va with
  | (.ok e, s1) => (some (entryPa s1 e va, e), s1)
  | (.error _, s1) => (none, s1)

/-- Bytes at a physical address as an agent reads them at their home or at the host (R172). -/
def physBytes (s : State) (key pa n : Nat) : List Byte :=
  if spaceOf pa = 3 then hostBytes s pa n else homeBytes s key pa n

/-- Bytes written by an agent at their home or at the host, those of some words poisoned (R172, R302). -/
def physWrite (s : State) (key pa : Nat) (bytes : List Byte) (bad : List Nat) : State :=
  if spaceOf pa = 3 then hostWrites s pa bytes
  else homeWrites (recallRange s key pa bytes.length) key (atAddr pa bytes) bad

/-- An agent reads bytes of a line at their home or at the host (R160, R162, R172). -/
def physRead (s : State) (key pa n : Nat) : List Byte × State :=
  let s1 := l2Reach (recallRange s key pa n) key pa n
  (physBytes s1 key pa n, drawn s1)

/-- An agent reads a word of eight bytes, if its page is there. -/
def agentRead (s : State) (c : Ctx) (va : Nat) : Option Word × State :=
  match agentPa s c ⟨true, false⟩ va with
  | (some (pa, _), s1) => let r := physRead s1 c.key pa 8; (some (BitVec.ofNat 64 (leNat r.1)), r.2)
  | (none, s1) => (none, s1)

/-- An agent writes bytes of one page; into a page that is not there nothing is written (log 17). -/
def agentWrite (s : State) (c : Ctx) (va : Nat) (bytes : List Byte) : State :=
  match agentPa s c ⟨false, true⟩ va with
  | (some (pa, e), s1) => physWrite (agentCollapse s1 e) c.key pa bytes []
  | (none, s1) => s1

/-- An agent writes a word of eight bytes. -/
def agentWord (s : State) (c : Ctx) (va : Nat) (v : Word) : State := agentWrite s c va (leBytes 8 v.toNat)

/-- Whether a word of eight bytes is poisoned; memory at the host has no poison of the package (R302). -/
def physBad (s : State) (pa : Nat) : Bool := spaceOf pa ≠ 3 && homePoisoned s pa

/-- An agent adds to a word of eight bytes in one action; at a host without a completer nothing happens
    (R158), and a poisoned word stays as it is (R303). -/
def agentAdd (s : State) (c : Ctx) (va : Nat) (v : Nat) : State :=
  match agentPa s c ⟨true, true⟩ va with
  | (some (pa, e), s1) =>
    if spaceOf pa = 3 && !Config.atomicCompleter then s1
    else
      let s2 := recallRange s1 c.key pa 8
      if physBad s2 pa then drawn s2
      else
        let s3 := recallRange (agentCollapse s2 e) c.key pa 8
        physWrite (drawn s3) c.key pa (leBytes 8 ((leNat (physBytes s3 c.key pa 8) + v) % 2 ^ 64)) []
  | (none, s1) => s1

/-- An agent changes bits of a word of eight bytes in one action; a poisoned word stays poisoned (R302). -/
def agentOr (s : State) (c : Ctx) (va : Nat) (v : Nat) : State :=
  match agentPa s c ⟨true, true⟩ va with
  | (some (pa, e), s1) =>
    let s2 := recallRange (agentCollapse s1 e) c.key pa 8
    physWrite (drawn s2) c.key pa (leBytes 8 (leNat (physBytes s2 c.key pa 8) ||| v)) (if physBad s2 pa then [chase s2 pa / 8] else [])
  | (none, s1) => s1

end Sys2Proof.Machine
end

