-- ==== Sys2Proof/Machine/Gang.lean ====
section
/-! DEFINITION. Gangs and slots: which slots are free for what, what keeps a thread from being saved, the end
of a thread and the retirement of a gang (R17 to R25, R285, R290, R292). -/

namespace Sys2Proof.Machine

/-- Full slots of a partition (R49). -/
def fullSlots (p64 : Bool) : Nat := if p64 then 64 else 128

/-- The threads of the package that have started and not exited: in slots, in the Heath, and on the way
    between clusters (R335). -/
def liveThreads (s : State) : List Thread :=
  s.threads.map (·.2) ++ s.clusters.flatMap (fun c => c.2.heath.map fun r => r.2.thread)
    ++ s.flight.migs.map (·.thread)

/-- Whether a thread belongs to a gang of a launch; a supervisor belongs to none (R111). -/
def inGang (gang lnch : Nat) (t : Thread) : Bool :=
  !t.origin.supervisor && t.csr.gang.toNat = gang && t.csr.lnch.toNat = lnch

/-- The record of a gang on a cluster (R287). -/
def gangRec (s : State) (clu gang lnch : Nat) : Option GangRec :=
  (cluster s clu).gangs.find? fun g => g.gang = gang && g.lnch = lnch

/-- The record of a thread's gang: on the cluster of its origin slot (R46). A supervisor is a member of none
    (log 77). -/
def gangOf (s : State) (t : Thread) : Option GangRec :=
  if t.origin.supervisor then none else gangRec s t.origin.clu t.csr.gang.toNat t.csr.lnch.toNat

/-- The live members of a gang (R335). -/
def liveMembers (s : State) (gang lnch : Nat) : List Thread :=
  (liveThreads s).filter (inGang gang lnch)

/-- A slot holds a thread, or is kept for a migrated thread to return to (R45, R46). -/
def occupied (s : State) (l : Loc) : Bool :=
  (thread? s l).isSome || (liveThreads s).any fun t => t.ret = some l

/-- A live thread started in the slot (R46, R265). -/
def originTaken (s : State) (l : Loc) : Bool := (liveThreads s).any fun t => t.origin = l

/-- A gang's reservation counts the slot (R17). -/
def reserved (s : State) (l : Loc) : Bool := (cluster s l.clu).gangs.any fun g => g.slots.contains l

/-- The full slots of a cluster but slots 0, by ascending core and slot number. -/
def clusterSlots (s : State) (clu : Nat) : List Loc :=
  (List.range 4).flatMap fun k =>
    (List.range (fullSlots (coreOf s (clu * 4 + k)).p64 - 1)).map fun i => ⟨clu, k, i + 1⟩

/-- A slot in which a thread may be started: empty, and the origin of no live thread (R265). -/
def freeToStart (s : State) (l : Loc) : Bool := !occupied s l && !originTaken s l

/-- A free full slot for the placing of a gang (R285). -/
def freeToReserve (s : State) (l : Loc) : Bool := freeToStart s l && !reserved s l

/-- Class-0 threads in the full slots of a cluster (R293). -/
def residentRt (s : State) (clu : Nat) : Nat :=
  ((clusterThreads s clu).filter fun e => e.2.csr.prio = 0 && !e.1.migration && !e.1.supervisor).length

/-- Slots that the class-0 reservation keeps free (R293). -/
def rtKept (s : State) (clu : Nat) : Nat := (cluster s clu).rtres - residentRt s clu

/-- The slot that a restore takes: the lowest free full slot on a core of the partition under which the thread
    was saved, beyond the class-0 reservation for a thread of another class (R19, R292, R293). -/
def restoreSlot (s : State) (clu : Nat) (r : HeathRec) : Option Loc :=
  let all := (clusterSlots s clu).filter fun l => !occupied s l
  let free := all.filter fun l => (coreOf s l.coreIdx).p64 = (coreOf s r.core).p64
  if r.thread.csr.prio = 0 || rtKept s clu < all.length then free.head? else none

/-- Saved threads of a cluster that are ready and not held (R292, R390). -/
def readySaved (s : State) (clu : Nat) : List (Nat × HeathRec) :=
  (cluster s clu).heath.filter fun e => e.2.readyAt.isSome && !e.2.held

/-- A saved thread of the cluster is ready and has no free slot (R289). -/
def wantsSlot (s : State) (clu : Nat) : Bool :=
  (readySaved s clu).any fun e => (restoreSlot s clu e.2).isNone

/-- Whether a presented instruction blocks the gang: BAR, CONVENE or a collective (R37, R220, R336). -/
def blocksGang (t : Thread) : Bool := t.present.isSome && !t.exiting

/-- Whether a thread's gang is blocked on a cluster (R37). -/
def gangBlocked (s : State) (clu : Nat) (t : Thread) : Bool :=
  (clusterThreads s clu).any fun e => inGang t.csr.gang.toNat t.csr.lnch.toNat e.2 && blocksGang e.2

/-- Whether a thread is a member of a group with an issued collective (R220). -/
def inCollective (s : State) (clu : Nat) (t : Thread) : Bool :=
  match t.grp with
  | some g => (cluster s clu).mx.cur.any fun c => c.gid = g
  | none => false

/-- The threads that the spill engine never chooses, whatever their class (R290, R296, R303, R353). -/
def neverSaved (s : State) (l : Loc) (t : Thread) : Bool :=
  l.supervisor || l.migration || t.mode ≠ .running || t.exiting || t.regs.xpoison ≠ 0 || t.regs.vpoison ≠ 0
    || gangBlocked s l.clu t || inCollective s l.clu t

/-- A time slice ends: the thread is expired when a ready saved thread lacks a slot, and otherwise its count
    starts again (R289), as it does in slot 0 and in a migration slot, where no thread is pre-empted (R47, R290). A
    member of a blocked gang or of an issued collective expires too, though the spill engine does not choose it
    (R290). -/
def expire (s : State) (l : Loc) (t : Thread) : Thread :=
  if !l.supervisor && !l.migration && wantsSlot s l.clu then { t with expired := some (t.expired.getD s.cycle) }
  else { t with sliceCount := 0 }

/-- Words of a bitmap of a progress record (R284). -/
def bitmapWords (n : Nat) : Nat := (n + 63) / 64

/-- The address of the word of STARTED (0) or RETIRED (1) that holds the bit of a gang (R284). -/
def progWord (prog ngang gang which : Nat) : Nat := prog + 64 + 8 * (which * bitmapWords ngang + gang / 64)

/-- A bit of a progress record is set, by the hardware of a die (R24, R284). -/
def setProgBit (s : State) (die : Nat) (r : GangRec) (which : Nat) : State :=
  agentOr s (agentCtx die r.ptbase r.keyid) (progWord r.prog r.ngang r.gang which) (2 ^ (r.gang % 64))

/-- The packet of a launch is done (R277). -/
def packetDone (s : State) (id : Nat) : State :=
  { s with
    ctl := { s.ctl with packets := s.ctl.packets.map fun p => if p.id = id then { p with phase := .done } else p } }

/-- The packet of a launch, or an INDIRECT, ends as faulted (R306, R307). -/
def packetFaults (s : State) (id : Nat) : State :=
  { s with
    ctl := { s.ctl with
      packets := s.ctl.packets.map fun p => if p.id = id then { p with phase := .done, faulted := true } else p } }

/-- A gang of a launch has retired; with the last one STATE becomes 2, a release at sys scope follows, and
    1 is added at SIGADDR (R284). -/
def launchRetire (s : State) (die lnch : Nat) : State :=
  match s.ctl.launches.find? fun x => x.started && x.lnch = lnch with
  | none => s
  | some x =>
    let y := { x with retired := x.retired + 1 }
    let ngang := field (x.words.getD 6 0) 0 32
    let c := agentCtx die x.ptbase x.key
    let s1 := { s with
      ctl := { s.ctl with launches := s.ctl.launches.map fun z => if z.packet = x.packet then y else z } }
    if y.retired < ngang then s1
    else
      let s2 := agentWord s1 c ((x.words.getD 4 0).toNat + 16) 2
      let sig := (x.words.getD 5 0).toNat
      packetDone (if sig = 0 then s2 else agentAdd s2 c sig 1) x.packet

/-- A gang retires: a release at package scope that covers the stores of its members, the RETIRED bit, and
    the end of its reservation (R24). The gang of an aborted launch keeps RETIRED clear (R306). -/
def retireGang (s : State) (clu : Nat) (r : GangRec) : State :=
  let s1 := (clu :: r.visited).eraseDups.foldl (fun s k => wbAll s k r.keyid) s
  let c := cluster s1 clu
  let s2 := setCluster s1 clu { c with gangs := c.gangs.filter fun g => !(g.gang = r.gang && g.lnch = r.lnch) }
  if s.ctl.launches.any fun x => x.lnch = r.lnch && x.aborted then s2
  else launchRetire (setProgBit s2 (clu / 32) r 1) (clu / 32) r.lnch

/-- The gangs whose last member has left its slot and whose accesses are all performed retire (R24). -/
def retireEnded (s : State) : State :=
  s.clusters.foldl
    (fun s e =>
      (e.2.gangs.filter fun g => g.ended && !s.flight.ghosts.any fun x => inGang g.gang g.lnch x.2).foldl
        (fun s g => retireGang s e.1 g) s) s

/-- A thread that stood on a cluster is no longer there: the record of its gang notes the cluster, and with the
    last member the gang retires (R23, R24). -/
def memberGone (s : State) (clu : Nat) (t : Thread) : State :=
  let gang := t.csr.gang.toNat
  let lnch := t.csr.lnch.toNat
  let last := (liveMembers s gang lnch).isEmpty
  let c := cluster s t.origin.clu
  let mark := fun (g : GangRec) =>
    if g.gang = gang && g.lnch = lnch then
      { g with
        ended := last
        visited := if clu = t.origin.clu || g.visited.contains clu then g.visited else clu :: g.visited }
    else g
  retireEnded (setCluster s t.origin.clu { c with gangs := c.gangs.map mark })

/-- A thread leaves its slot for good: its slot, its return slot and its TID are free, what it held in its
    ports is discarded, and the accesses it has issued stay to be performed (R23, R353). -/
def endThread (s : State) (l : Loc) (t : Thread) : State :=
  let s1 := delThread s l
  let s2 := if t.pipe.acc.isEmpty then s1
    else { s1 with flight := { s1.flight with ghosts := s1.flight.ghosts ++ [(l, t)] } }
  memberGone s2 l.clu t

end Sys2Proof.Machine
end

