-- ==== Sys2Proof/Machine/Range.lean ====
section
/-! DEFINITION. Checked ranges read and written at once: global bytes through the view of a cluster, line
by line, and stash bytes in the stash (R149, R191). -/

namespace Sys2Proof.Machine

/-- A stretch of physical bytes cut at the lines of 128 bytes: address and length of each part. -/
def lineParts (pa n : Nat) : List (Nat × Nat) :=
  if n = 0 then []
  else (List.range ((pa + n - 1) / 128 - pa / 128 + 1)).map fun i =>
    let lo := max pa ((pa / 128 + i) * 128)
    (lo, min (pa + n) ((pa / 128 + i + 1) * 128) - lo)

/-- Bytes of one line read through the view of a cluster: before a fill, the halves in which bytes are absent are
    recalled from the host (R162, R177, R321). -/
def viewRead (s : State) (clu key pa n : Nat) : List Byte × Bool × State :=
  if (List.range n).all fun i => (viewGet s clu key (pa + i)).isSome then localRead s clu key pa n
  else
    let (bs, bad, s1) := localRead (recallHalves s key (halvesIn (absentBytes s clu key (pa / 128)))) clu key pa n
    (bs, bad, tally s1 clu 0x10 1)

/-- The physical address at which a load of a piece reads: the replica of the cluster's die for a
    replicated page, and the page itself where a stash mapping of the cluster holds it (R155, R163). -/
def loadPa (s : State) (clu key pa : Nat) (e : Option TlbEntry) : Nat :=
  match e with
  | some x => if x.repl && (viewWhere (cluster s clu) key pa).isNone then replicaPa pa (clu / 32) else pa
  | none => pa

/-- The bytes of a piece, and whether one is poisoned (R191). -/
def readPiece (s : State) (clu key : Nat) (p : Piece) : List Byte × Bool × State :=
  match p.place with
  | .stash c o => (stashBytes s c o p.len, stashPoisoned s c o p.len, s)
  | .host pa => (hostBytes s pa p.len, false, s)
  | .mem pa =>
    (lineParts (chase s (loadPa s clu key pa p.entry)) p.len).foldl
      (fun r q =>
        let (bs, bad, s1) := viewRead r.2.2 clu key q.1 q.2
        (r.1 ++ bs, r.2.1 || bad, s1)) ([], false, s)
  | .nowhere => ((List.range p.len).map fun _ => 0, false, s)

/-- The bytes of a checked range, in ascending order. -/
def readRange (s : State) (clu key : Nat) (ps : List Piece) : List Byte × Bool × State :=
  ps.foldl
    (fun r p =>
      let (bs, bad, s1) := readPiece r.2.2 clu key p
      (r.1 ++ bs, r.2.1 || bad, s1)) ([], false, s)

/-- Bytes written to a piece: a page that is replicated collapses first (R164, R191). -/
def writePiece (s : State) (clu key : Nat) (p : Piece) (bytes : List Byte) : State :=
  match p.place with
  | .stash c o => stashWrite s c o bytes
  | .host pa => hostWrites s pa bytes
  | .mem old =>
    let s1 := match p.entry with
      | some e => agentCollapse s e
      | none => s
    let pa := chase s1 old
    (lineParts pa p.len).foldl
      (fun s q => localWrite s clu key q.1 ((bytes.drop (q.1 - pa)).take q.2)) s1
  | .nowhere => s

/-- The pieces of a virtual range whose pages have a translation, `k` bounding the pages left. -/
def pagesFound (c : Ctx) : (k va off n : Nat) → State → List Piece × State
  | 0, _, _, _, s => ([], s)
  | k + 1, va, off, n, s =>
    if n = 0 then ([], s)
    else
      let len := min n (65536 - va % 65536)
      let r := xlateByte s c ⟨false, false⟩ va
      let rest := pagesFound c k (va + len) (off + len) (n - len) r.2
      match r.1 with
      | .ok e => (⟨off, len, placeOf (entryPa r.2 e va), none⟩ :: rest.1, rest.2)
      | .error _ => rest

/-- Where the `n` bytes from a generic address on lie, as far as they have a translation. -/
def rangeFound (s : State) (c : Ctx) (a n : Nat) : List Piece × State :=
  match window c.wpriv a with
  | .raw off => ([⟨0, n, .stash (c.clu.getD 0) off, none⟩], s)
  | .glob va => pagesFound c ((va + n) / 65536 - va / 65536 + 1) va 0 n s
  | .bad => ([], s)

/-- The virtual address that a generic address names; 0 for a stash address (R148). -/
def globalVa (wpriv : Word) (a : Nat) : Nat :=
  match window wpriv a with
  | .glob va => va
  | _ => 0

/-- Whether every byte of a checked range lies in a stash. -/
def inStash (ps : List Piece) : Bool :=
  ps.all fun p => match p.place with
    | .stash .. => true
    | _ => false

/-- Checks of several ranges in order: their pieces, or the first trap (R219). -/
def checkRanges (s : State) (need : Need) (align : Nat) :
    List (Ctx × Nat × Nat) → Except TrapVal (List (List Piece)) × State
  | [] => (.ok [], s)
  | (c, a, n) :: rs =>
    match rangeCheck s c a n align need with
    | (.error v, s1) => (.error v, s1)
    | (.ok ps, s1) =>
      match checkRanges s1 need align rs with
      | (.error v, s2) => (.error v, s2)
      | (.ok pss, s2) => (.ok (ps :: pss), s2)

/-- Little-endian words of 8 bytes. -/
def wordsLe : (n : Nat) → List Byte → List Nat
  | 0, _ => []
  | n + 1, bs => leNat (bs.take 8) :: wordsLe n (bs.drop 8)

end Sys2Proof.Machine
end

