-- ==== Sys2Proof/Machine/Stream.lean ====
section
/-! DEFINITION. Stream records and streams, CMPK and EXPD (R234 to R240, R342, R355). -/

namespace Sys2Proof.Machine

/-! Records. -/

/-- What a stream record is (R234). -/
inductive Rec where
  | elem (f : Fmt) (coord value : Nat)
  | header (coord count : Nat)
  | cont (coord count : Nat)
  | endStream
  | endFibre
  | bad
  deriving DecidableEq, Repr

/-- Formats of element records (R234). -/
def recFmt : Fmt → Bool
  | .fp32 | .fp16 | .bf16 | .e4m3 | .e5m2 | .i32 => true
  | _ => false

/-- The kind and fields of a stream record (R234). -/
def recOf (w : Nat) : Rec :=
  let coord := w / 2 ^ 32 % 2 ^ 24
  let code := w / 2 ^ 56 % 64
  match w / 2 ^ 62 % 4 with
  | 0 =>
    match fmtCode code with
    | some f => if recFmt f && w % 2 ^ 32 < 2 ^ fmtWidth f then .elem f coord (w % 2 ^ 32) else .bad
    | none => .bad
  | 1 => if code = 0 ∧ w / 2 ^ 24 % 256 = 0 then .header coord (w % 2 ^ 24) else .bad
  | 2 => if code = 0 ∧ w / 2 ^ 24 % 256 = 0 then .cont coord (w % 2 ^ 24) else .bad
  | _ =>
    if w % 2 ^ 56 ≠ 0 then .bad
    else match code with
      | 1 => .endStream
      | 2 => .endFibre
      | _ => .bad

/-- The word of an element record (R234). -/
def elemRec (f : Fmt) (coord value : Nat) : Nat := f.code * 2 ^ 56 + coord * 2 ^ 32 + value

/-- The word of a fibre header (R234). -/
def headerRec (coord count : Nat) : Nat := 2 ^ 62 + coord * 2 ^ 32 + count

/-- The word of a continuation header (R234). -/
def contRec (coord count : Nat) : Nat := 2 ^ 63 + coord * 2 ^ 32 + count

/-- The end-of-stream record (R234). -/
def endStreamRec : Nat := 0xC100_0000_0000_0000

/-- Bytes at a generic address, read with their checks: the pieces and the bytes, or the trap with the state that the
    checks leave. -/
def readAt (s : State) (c : Ctx) (clu key a n align : Nat) : Except (TrapVal × State) (List Piece × List Byte × State) :=
  match rangeCheck s c a n align ⟨true, false⟩ with
  | (.error v, s1) => .error (v, s1)
  | (.ok ps, s1) => let r := readRange s1 clu key ps; .ok (ps, r.1, r.2.2)

/-! Streams. -/

/-- A fibre of a stream: its coordinate and its elements with format, coordinate and value. -/
structure Fibre where
  k : Nat
  elems : List (Fmt × Nat × Nat)
  deriving DecidableEq, Repr

/-- What may come next in a stream (R235): after a whole fibre, with or without a continuation; `count`
    more elements; the first record after a header of COUNT 0; inside an open fibre. -/
inductive Gram where
  | top (cont : Bool)
  | count (c : Nat)
  | zero
  | inside
  deriving DecidableEq, Repr

/-- A stream as far as it has been read: its fibres, the last one first and its elements in reverse; how many
    records have been read, and from where. -/
structure Parse where
  fibres : List Fibre
  gram : Gram
  n : Nat
  pieces : List Piece
  deriving DecidableEq, Repr

/-- What one record does to a stream (R235): the stream goes on, ends, or is malformed. -/
inductive Next1 where
  | more (fs : List Fibre) (g : Gram)
  | last
  | malformed
  deriving DecidableEq, Repr

/-- A fibre header opens a fibre whose coordinate is above the last one (R235). -/
def openFibre (fs : List Fibre) (k c : Nat) : Next1 :=
  let up := match fs with
    | f :: _ => decide (f.k < k)
    | [] => true
  if up then .more (⟨k, []⟩ :: fs) (if c = 0 then .zero else .count c) else .malformed

/-- An element joins the last fibre. -/
def addElem (fs : List Fibre) (e : Fmt × Nat × Nat) : List Fibre :=
  match fs with
  | f :: rest => { f with elems := e :: f.elems } :: rest
  | [] => []

/-- One record of a stream (R235, R236). `ok` says which formats the consumer permits. -/
def streamRec (ok : Fmt → Bool) (fs : List Fibre) (g : Gram) (r : Rec) : Next1 :=
  match g, r with
  | .count c, .elem f x v => if ok f then .more (addElem fs (f, x, v)) (if c = 1 then .top true else .count (c - 1)) else .malformed
  | .count _, _ => .malformed
  | .zero, .elem f x v | .inside, .elem f x v => if ok f then .more (addElem fs (f, x, v)) .inside else .malformed
  | .inside, .endFibre => .more fs (.top false)
  | .inside, _ => .malformed
  | .zero, .header k c | .top _, .header k c => openFibre fs k c
  | .zero, .endStream | .top _, .endStream => .last
  | .top true, .cont k c =>
    match fs with
    | f :: _ => if f.k = k then .more fs (if c = 0 then .top true else .count c) else .malformed
    | [] => .malformed
  | _, _ => .malformed

/-- A stream read from an address on, at most `n` records (R235, R236, R249). -/
def streamFrom (ok : Fmt → Bool) (c : Ctx) (clu key : Nat) : (n : Nat) → State → (a : Nat) → Parse →
    Except (TrapVal × State) (Parse × State)
  | 0, s, a, _ => .error (⟨.coord, BitVec.ofNat 64 a⟩, s)
  | n + 1, s, a, p =>
    match readAt s c clu key a 8 8 with
    | .error v => .error v
    | .ok (ps, bs, s1) =>
      match streamRec ok p.fibres p.gram (recOf (leNat bs)) with
      | .malformed => .error (⟨.coord, BitVec.ofNat 64 a⟩, s1)
      | .last => .ok ({ p with n := p.n + 1, pieces := p.pieces ++ ps }, s1)
      | .more fs g => streamFrom ok c clu key n s1 ((a + 8) % 2 ^ 64) ⟨fs, g, p.n + 1, p.pieces ++ ps⟩

/-- The fibres of a stream whose records are some words; nothing unless they are a stream that ends with the last of
    them (R235). -/
def streamOf (ok : Fmt → Bool) : List Nat → List Fibre → Gram → Option (List Fibre)
  | [], _, _ => none
  | w :: ws, fs, g =>
    match streamRec ok fs g (recOf w) with
    | .malformed => none
    | .last => if ws.isEmpty then some fs else none
    | .more fs g => streamOf ok ws fs g

/-- The fibres of a stream in order, each with its elements in order. -/
def inOrder (fs : List Fibre) : List Fibre := (fs.map fun f => { f with elems := f.elems.reverse }).reverse

/-! CMPK and EXPD. -/

/-- The elements of `w` bytes in some bytes. -/
def elemsOf (w : Nat) : (n : Nat) → List Byte → List Nat
  | 0, _ => []
  | n + 1, bs => leNat (bs.take w) :: elemsOf w n (bs.drop w)

/-- Whether an element is a zero of its format (R238). -/
def isZeroElem (f : Fmt) (v : Nat) : Bool := v = 0 || (f ≠ .i32 && v = 2 ^ (fmtWidth f - 1))

/-- The records of a fibre of non-zero elements, by offset and value (R238). -/
def fibreRecs (f : Fmt) (fib base : Nat) (nz : List (Nat × Nat)) : List Nat :=
  let c := nz.length
  let cap := min c (2 ^ 24 - 1)
  let es := nz.map fun e => elemRec f (base + e.1) e.2
  headerRec fib cap :: es.take cap ++ (if c = 2 ^ 24 then contRec fib 1 :: es.drop cap else [])

/-- Cycles for memory other than the stash, which the spec leaves open (R239, R355). -/
def memoryTime (s : State) (ps : List Piece) : Nat := if inStash ps then 0 else choose s 4096

/-- The element format of a CMPK or EXPD. -/
def Packing.fmt (k : Packing) : Fmt :=
  match k.instr with
  | .cmpk _ f .. | .expd _ f .. => f
  | _ => .fp32

/-- Whether it is a CMPK. -/
def Packing.packs (k : Packing) : Bool :=
  match k.instr with
  | .cmpk .. => true
  | _ => false

/-- The bytes of an element. -/
def Packing.width (k : Packing) : Nat := fmtWidth k.fmt / 8

/-- The cycle in which a CMPK completes, or until which an EXPD that has read `n` records holds its thread
    (R239, R355). -/
def Packing.due (k : Packing) : Nat :=
  k.start + (if inStash k.used then 0 else k.mem)
    + (if k.packs then (k.rb * k.width + 63) / 64 + (k.rb + 2 + 7) / 8 + 16 else (k.n + 7) / 8 + 16)

/-- The accesses at thr scope of a thread to some pieces of a range at a generic address. -/
def probes (t : Thread) (kind : AccKind) (a : Nat) (ps : List Piece) : List Access :=
  ps.map fun p =>
    { Access.blank with
      kind := kind, place := p.place, n := p.len, key := t.csr.keyid.toNat, va := globalVa t.csr.wpriv a + p.off }

/-- Whether an access of a CMPK or EXPD follows what earlier members of its group have under way: accesses to its
    bytes, and CMPK and EXPD that may still read or write them (R32). -/
def groupHolds (s : State) (k : Packing) (a : Access) : Bool :=
  (allIssued s).any (fun x => k.before.contains (x.thread.uid, x.acc.id) && Access.meets x.acc a)
    || (allThreads s).any fun e => e.2.pipe.pack.any fun j =>
      k.before.contains (e.2.uid, j.id) && (j.readsMeet e.2 e.1.clu a || j.writesMeet e.2 a)

/-- Whether a read of a CMPK or EXPD must wait: for earlier accesses of its thread, for its copies, and for earlier
    members of its group (R32, R182, R184, R191, R239). -/
def mustWait (s : State) (t : Thread) (k : Packing) (a : Nat) (ps : List Piece) : Bool :=
  (k.tainted && t.pipe.acc.any (·.ldc)) || (probes t .load a ps).any fun b =>
    t.pipe.acc.any (fun e => mustPrecede (e.chased s) (b.chased s))
      || (copiesBefore s t.uid k.id).any (copyHolds s (b.chased s)) || groupHolds s k b

/-- Whether the stores of a CMPK or EXPD wait for earlier members of its group (R32). -/
def storesWait (s : State) (t : Thread) (k : Packing) : Bool := (probes t .store k.rd k.out).any (groupHolds s k)

/-- Later members of its group follow the stores that a CMPK or EXPD of a thread makes, numbered from `lo` on (R32). -/
def handOn (s : State) (uid id lo : Nat) : State :=
  let ids := (List.range (s.nextId - lo)).map fun i => (uid, lo + i)
  let f := fun (k : Packing) => if k.before.contains (uid, id) then { k with before := k.before ++ ids } else k
  { s with threads := s.threads.map fun e => (e.1, { e.2 with pipe := { e.2.pipe with pack := e.2.pipe.pack.map f } }) }

/-- One read of a CMPK or EXPD: through the view, or as a home read where the address is tainted (R184, R191). -/
def packRead (s : State) (clu key : Nat) (tainted : Bool) (p : Piece) : List Byte × Bool × State :=
  match tainted, p.place with
  | true, .mem pa0 =>
    let pa := chase s (loadPa s clu key pa0 p.entry)
    let s1 := l2Reach (recallRange s key pa p.len) key pa p.len
    let r := homeRead s1 clu key pa p.len
    (r.1, r.2, s1)
  | _, _ => readPiece s clu key p

/-- A CMPK or EXPD that fails a check raises its trap at its own PC, and has done nothing (R68, R238, R240). -/
def packTrap (s : State) (l : Loc) (t : Thread) (k : Packing) (v : TrapVal) : State :=
  raiseReq s l { t with pipe := { t.pipe with pack := none } }
    { cause := v.cause.code, tval := v.val, pc := k.pc, skp := 0, alone := false, hi := 0 }

/-- The stores of a CMPK or EXPD, `w` bytes each in ascending order, one after another (R191, R239, R355). -/
def packStores (k : Packing) (w : Nat) (out : List Piece) : List (Nat × Nat) → Option (Nat × Nat) → State × Thread → State × Thread
  | [], _, p => p
  | (i, v) :: vs, prev, (s, t) =>
    let entry := (out.find? fun x => x.off ≤ i * w && i * w < x.off + x.len).bind (·.entry)
    let a : Access := { Access.blank with
      kind := .store, place := pieceAt out (i * w), n := w, key := t.csr.keyid.toNat, page := entry
      va := globalVa t.csr.wpriv ((k.rd + i * w) % 2 ^ 64), afterLdc := k.afterLdc, data := BitVec.ofNat 128 v
      after := prev.toList }
    packStores k w out vs (some (t.uid, s.nextId)) (pushAccess s t a)

/-- A CMPK that has read its elements: the checks of R238 that depend on them, and its records (R238, R342). -/
def checkCmpk (s : State) (l : Loc) (t : Thread) (k : Packing) : State :=
  let base := k.rc % 2 ^ 24
  let nz := ((List.range k.rb).zip (elemsOf k.width k.rb k.got)).filter fun e => !isZeroElem k.fmt e.2
  let recs := if nz.isEmpty then [] else fibreRecs k.fmt (k.rc / 2 ^ 32 % 2 ^ 24) base nz
  match nz.find? fun e => 2 ^ 24 ≤ base + e.1 with
  | some e => packTrap s l t k ⟨.coord, BitVec.ofNat 64 (base + e.1)⟩
  | none =>
    match rangeCheck s (threadCtx l t) k.rd (8 * recs.length) 8 ⟨false, true⟩ with
    | (.error v, s1) => packTrap s1 l t k v
    | (.ok out, s1) =>
      let r := packStores k 8 out ((List.range recs.length).zip recs) none ({ s1 with grpAcc := [] }, t)
      let last := if recs.isEmpty then k.id else r.1.nextId - 1
      handOn (setThread r.1 l { r.2 with pipe :=
        { r.2.pipe with pack := some { k with used := k.used ++ out, count := some (last, recs.length) } } }) t.uid k.id s1.nextId

/-- An EXPD that has read its records: the check of its destination and its stores, after which its thread goes
    on in the cycle that R355 gives. A poisoned record raises POISON (log 30). -/
def checkExpd (s : State) (l : Loc) (t : Thread) (k : Packing) : State :=
  let len := k.rc % 2 ^ 32
  match rangeCheck s (threadCtx l t) k.rd (len * k.width) k.width ⟨false, true⟩ with
  | (.error v, s1) => packTrap s1 l t k v
  | (.ok out, s1) =>
    if k.bad then packTrap s1 l t k ⟨.poison, 0⟩
    else
      let vals := (List.range len).map fun e => (e, (k.elems.find? fun x => x.1 = e).elim 0 (·.2))
      let r := packStores k k.width out vals none ({ s1 with grpAcc := [] }, t)
      handOn (setThread r.1 l { r.2 with pipe := { r.2.pipe with pack := none, block := some (.until k.due) } }) t.uid k.id s1.nextId

/-- One record of an EXPD (R240): its read and its checks. -/
def expandStep (s : State) (l : Loc) (t : Thread) (k : Packing) : Option State :=
  let key := t.csr.keyid.toNat
  let base := k.rc / 2 ^ 32 % 2 ^ 24
  if k.rb ≤ k.n || k.ended then if storesWait s t k then none else some (checkExpd s l t k)
  else match rangeCheck s (threadCtx l t) k.addr 8 8 ⟨true, false⟩ with
    | (.error v, s1) => some (packTrap s1 l t k v)
    | (.ok p, s1) =>
      if mustWait s t k k.addr p then none
      else
        let at' := BitVec.ofNat 64 k.addr
        let r := p.foldl
          (fun r q => let x := packRead r.2.2 l.clu key k.tainted q; (r.1 ++ x.1, r.2.1 || x.2.1, x.2.2)) ([], k.bad, s1)
        let s2 := r.2.2
        let k1 := { k with n := k.n + 1, addr := (k.addr + 8) % 2 ^ 64, bad := r.2.1, used := k.used ++ p }
        let go := fun (k : Packing) => some (setThread s2 l { t with pipe := { t.pipe with pack := some k } })
        match recOf (leNat r.1) with
        | .bad => some (packTrap s2 l t k ⟨.coord, at'⟩)
        | .endStream => go { k1 with ended := true }
        | .elem g x v =>
          if g ≠ k.fmt ∨ x < base ∨ base + k.rc % 2 ^ 32 ≤ x then some (packTrap s2 l t k ⟨.coord, at'⟩)
          else go { k1 with elems := (x - base, v) :: k1.elems }
        | _ => go k1

/-- One element of a CMPK is read, or its checks are made (R238). -/
def compactStep (s : State) (l : Loc) (t : Thread) (k : Packing) : Option State :=
  match k.todo with
  | [] => if storesWait s t k then none else some (checkCmpk s l t k)
  | p :: ps =>
    if mustWait s t k k.ra [p] then none
    else
      let (bs, bad, s1) := packRead s l.clu t.csr.keyid.toNat k.tainted p
      some (setThread s1 l { t with pipe :=
        { t.pipe with pack := some { k with todo := ps, got := k.got ++ bs, bad := k.bad || bad } } })

/-- The completion of a CMPK: its count in RD, poisoned where an element was (R239, R303). -/
def completeCmpk (s : State) (l : Loc) (t : Thread) (k : Packing) (count : Nat) : State :=
  let ws : List Wr := match k.instr with
    | .cmpk _ _ rd .. => [⟨.x rd, BitVec.ofNat 128 count, false, k.bad⟩]
    | _ => []
  setThread s l { t with regs := t.regs.writes ws, pipe := { t.pipe with pack := none } }

/-- What a CMPK or EXPD does next: a read, its checks, or the completion of a CMPK, in its cycle and after its
    stores; nothing while it has to wait. -/
def packStep (s : State) (l : Loc) : Option State :=
  match thread? s l with
  | none => none
  | some t =>
    match t.pipe.pack with
    | none => none
    | some k =>
      match k.count with
      | none => if k.packs then compactStep s l t k else expandStep s l t k
      | some (last, c) =>
        if k.due ≤ s.cycle && !t.pipe.acc.any (fun a => a.id = last) then some (completeCmpk s l t k c) else none

/-- At most so many steps of a CMPK or EXPD. -/
def packSteps (l : Loc) : (n : Nat) → State → State
  | 0, s => s
  | n + 1, s =>
    match packStep s l with
    | some s1 => packSteps l n s1
    | none => s

/-- The stores of a CMPK are made when it is to complete. -/
def forceStores (s : State) (l : Loc) : State :=
  match (thread? s l).bind fun t => t.pipe.pack with
  | some k =>
    match k.count with
    | some (last, c) => (List.range c).foldl (fun s i => performAction s l (last + 1 - c + i)) s
    | none => s
  | none => s

/-- A CMPK or EXPD goes on by a free number of reads; in the cycle in which it is to have finished, by all of them,
    and by the stores of a CMPK (R239, R355). -/
def packTurn (s : State) (l : Loc) (k : Packing) : State :=
  if s.cycle < k.due then packSteps l (choose s 1024) (drawn s)
  else packSteps l 1 (forceStores (packSteps l (2 ^ 26) s) l)

/-- A CMPK or EXPD issues: it has captured its operands, and what follows is its reads (R239, R355). `n` bytes are
    the most that it may write. -/
def startPack (s0 : State) (t t1 : Thread) (i : Instr) (w n : Nat) (rd ra rb rc : XReg) (src : List Piece) : State :=
  let dst := rangeFound s0 (threadCtx s0.cur t) (xval t rd).toNat n
  let s := dst.2
  let k : Packing := {
    id := s.nextId, instr := i, pc := t.pc, rd := (xval t rd).toNat, ra := (xval t ra).toNat, rb := (xval t rb).toNat
    rc := (xval t rc).toNat, tainted := xtaint t ra, afterLdc := xtaint t rd || xtaint t rb || xtaint t rc
    start := s.cycle, mem := choose s 4096, todo := cutPieces w src
    addr := (xval t ra).toNat, got := [], elems := [], n := 0, bad := false, used := src, count := none, ended := false
    before := s.grpAcc, out := dst.1 }
  setThread (drawn { s with nextId := s.nextId + 1, grpAcc := s.grpAcc ++ [(t.uid, s.nextId)] }) s.cur
    { t1 with pipe := { t1.pipe with pack := some k } }

/-- CMPK (R238, R342): the checks that come before its reads. -/
def execCmpk (d : Dep) (f : Fmt) (rd ra rb rc : XReg) (s : State) : Host.Outcome State Fault Refusal :=
  issue (.cmpk d f rd ra rb rc) s fun t t1 s =>
    let n := (xval t rb).toNat
    let c := (xval t rc).toNat
    if c / 2 ^ 24 % 256 ≠ 0 ∨ c / 2 ^ 56 ≠ 0 then .error ⟨.coord, xval t rc⟩
    else if 2 ^ 24 < n then .error ⟨.coord, xval t rb⟩
    else match rangeCheck s (threadCtx s.cur t) (xval t ra).toNat (n * (fmtWidth f / 8)) (fmtWidth f / 8) ⟨true, false⟩ with
      | (.error v, s1) => .ok (raiseTrap s1 s.cur t v)
      | (.ok src, s1) => .ok (startPack s1 t t1 (.cmpk d f rd ra rb rc) (fmtWidth f / 8) (8 * (n + 2)) rd ra rb rc src)

/-- EXPD (R240, R355): the check that comes before its reads. -/
def execExpd (d : Dep) (f : Fmt) (rd ra rb rc : XReg) (s : State) : Host.Outcome State Fault Refusal :=
  issue (.expd d f rd ra rb rc) s fun t t1 s =>
    let c := (xval t rc).toNat
    if c / 2 ^ 56 ≠ 0 ∨ 2 ^ 24 < c % 2 ^ 32 then .error ⟨.coord, xval t rc⟩
    else .ok (startPack s t t1 (.expd d f rd ra rb rc) (fmtWidth f / 8) (c % 2 ^ 32 * (fmtWidth f / 8)) rd ra rb rc [])

end Sys2Proof.Machine
end

