-- ==== Sys2Proof/Machine/Matrix.lean ====
section
/-! DEFINITION. The matrix unit: operand slots, tiles, dense products, the accumulator file in both modes
and the Bracken (R222 to R233, R241 to R254). -/

namespace Sys2Proof.Machine

/-- The matrix unit of a cluster. -/
def unitOf (s : State) (clu : Nat) : Matrix := (cluster s clu).mx

/-- The state with a matrix unit changed. -/
def setUnit (s : State) (clu : Nat) (m : Matrix) : State := setCluster s clu { cluster s clu with mx := m }

/-- The group of a number on a cluster. -/
def groupOf (s : State) (clu gid : Nat) : Option Group := (unitOf s clu).groups.find? fun g => g.gid = gid

/-! Operand slots. -/

/-- A byte of an operand slot; TCLAIM zeroes a slot (R222). -/
def slotByte (m : Matrix) (slot i : Nat) : Byte := (mget m.slots (slot * 4096 + i)).getD 0

/-- Bytes of an operand slot. -/
def slotBytes (m : Matrix) (slot i n : Nat) : List Byte := (List.range n).map fun k => slotByte m slot (i + k)

/-- Bytes written to an operand slot; words written whole lose their poison (R302). -/
def putSlot (m : Matrix) (slot i : Nat) (bytes : List Byte) : Matrix :=
  let lo := slot * 4096 + i
  { m with
    slots := (atAddr lo bytes).foldl (fun x e => mset x e.1 e.2) m.slots
    badWords := m.badWords.filter fun w => !(lo ≤ w * 8 && w * 8 + 8 ≤ lo + bytes.length) }

/-- An operand slot of zeros, without poison (R401). -/
def zeroSlot (m : Matrix) (slot : Nat) : Matrix :=
  { m with
    slots := mfilter (fun k _ => k / 4096 ≠ slot) m.slots
    slotPoison := m.slotPoison.filter (· ≠ slot)
    badWords := m.badWords.filter fun w => w / 512 ≠ slot }

/-- Whether a read of the first `n` bytes of a slot meets poison: that of the slot, or that of a word (R302,
    R303). -/
def slotBad (m : Matrix) (slot n : Nat) : Bool :=
  m.slotPoison.contains slot || m.badWords.any fun w => w / 512 = slot && w % 512 * 8 < n

/-- An operand slot poisoned (R303). -/
def poisonSlot (m : Matrix) (slot : Nat) : Matrix :=
  { m with slotPoison := if m.slotPoison.contains slot then m.slotPoison else slot :: m.slotPoison }

/-- Whether a group holds a slot (R222). -/
def holdsSlot (m : Matrix) (gid slot : Nat) : Bool := mget m.owners slot = some gid

/-- The row descriptor of TLD, TLD.R and TST (R223). -/
structure RowDesc where
  nrow : Nat
  len : Nat
  stride : Int
  deriving DecidableEq, Repr

/-- The fields of a descriptor, if it is good; STRIDE is looked at where it has a meaning, not for TLD.R (R223). -/
def rowDesc (strided : Bool) (w : Word) : Option RowDesc :=
  let nrow := field w 48 9
  let len := field w 32 13
  let stride := sintNat 32 (field w 0 32)
  if field w 57 7 = 0 ∧ field w 45 3 = 0 ∧ 1 ≤ nrow ∧ nrow ≤ 256 ∧ 8 ≤ len ∧ len ≤ 4096 ∧ len % 8 = 0 ∧ (strided = false ∨ stride % 8 = 0)
      ∧ nrow * len ≤ 4096 then some ⟨nrow, len, stride⟩ else none

/-- The address of a row (R223). -/
def rowAddr (ra : Word) (d : RowDesc) (i : Nat) : Nat := wrapInt 64 ((ra.toNat : Int) + (i : Nat) * d.stride)

/-! PXF8 tiles. -/

/-- The bytes that the decoder reads of one block: it reads on while its codes reach beyond (R139,
    R140). -/
def pxRead (c : Ctx) (clu key : Nat) : (n : Nat) → State → (a : Nat) → List Byte → Bool → List Piece →
    Except (TrapVal × State) (Bool × List Piece × State)
  | 0, s, _, _, bad, ps => .ok (bad, ps, s)
  | n + 1, s, a, bs, bad, ps =>
    if 17 ≤ bs.length ∧ pxLength bs ≤ bs.length then .ok (bad, ps, s)
    else
      match rangeCheck s c ((a + bs.length) % 2 ^ 64) 1 1 ⟨true, false⟩ with
      | (.error v, s1) => .error (v, s1)
      | (.ok p, s1) =>
        let (b, x, s2) := readRange s1 clu key p
        pxRead c clu key n s2 a (bs ++ b) (bad || x) (ps ++ p)

/-- The blocks of a tile from an address on, placed by their table (R140): the bytes of each that its decode reads. -/
def pxTile (c : Ctx) (clu key : Nat) : List Byte → State → (a : Nat) → Bool → List (List Piece) →
    Except (TrapVal × State) (Bool × List (List Piece) × State)
  | [], s, _, bad, out => .ok (bad, out, s)
  | len :: table, s, a, bad, out =>
    match pxRead c clu key 50 s a [] false [] with
    | .error v => .error v
    | .ok (x, p, s1) => pxTile c clu key table s1 ((a + len.toNat) % 2 ^ 64) (bad || x) (out ++ [p])

/-- The checks of TLD.PX: the bytes of the table and of each block that its decode reads, and whether one is poisoned
    (R404). -/
def pxLoad (s : State) (c : Ctx) (clu key tile table : Nat) : Except (TrapVal × State) (Bool × List (List Piece) × State) :=
  match rangeCheck s c table 128 1 ⟨true, false⟩ with
  | (.error v, s1) => .error (v, s1)
  | (.ok p, s1) => let (bs, x, s2) := readRange s1 clu key p; pxTile c clu key bs s2 tile x [p]

/-- How many bytes some pieces hold. -/
def bytesIn (ps : List Piece) : Nat := (ps.map (·.len)).foldl (· + ·) 0

/-- The decoded blocks of a tile, from the bytes read for each. A block that has been written since its check, so that
    its codes reach beyond the bytes read, gives free values (R404, log 12). -/
def pxBlocks (s : State) : List (List Piece) → List Byte → List Byte
  | [], _ => []
  | r :: rows, bs =>
    let b := bs.take (bytesIn r)
    (if pxLength b ≤ b.length then pxDecode b else (leBytes 64 (freeBlock (s.free + 4 * rows.length)).toNat).take 32)
      ++ pxBlocks s rows (bs.drop (bytesIn r))

/-! Format contexts and dense products. -/

/-- The fields of a context word (R225). -/
structure FmtCtx where
  a : Fmt
  b : Fmt
  scale : Bool
  c : Fmt
  deriving DecidableEq, Repr

/-- Element formats of tiles (R226). -/
def tileFmt : Fmt → Bool
  | .fp32 | .fp16 | .bf16 | .e4m3 | .e5m2 | .e2m1 | .i8 => true
  | _ => false

/-- Element formats that take a scale (R226). -/
def scaleFmt : Fmt → Bool
  | .e4m3 | .e5m2 | .e2m1 => true
  | _ => false

/-- The context of a word, if it is valid (R225, R226). -/
def fmtCtx (w : Word) : Option FmtCtx :=
  if field w 30 34 ≠ 0 ∨ field w 18 6 ≠ 0 ∨ field w 14 2 ≠ 0 ∨ field w 6 2 ≠ 0 ∨ 2 ≤ field w 16 2 then none
  else
    match fmtCode (field w 0 6), fmtCode (field w 8 6), fmtCode (field w 24 6) with
    | some a, some b, some c =>
      let scale : Bool := field w 16 2 = 1
      let int : Bool := a = .i8 && b = .i8 && c = .i32
      let fp : Bool := a ≠ .i8 && b ≠ .i8 && c = .fp32
      if tileFmt a && tileFmt b && (int || fp) && ((a ≠ .e2m1 && b ≠ .e2m1) || scale)
          && (!scale || (scaleFmt a && scaleFmt b)) then some ⟨a, b, scale, c⟩ else none
    | _, _, _ => none

/-- M, N and K of a shape (R227). -/
def dimsOf : Shape → Nat × Nat × Nat
  | .m16n16k16 => (16, 16, 16)
  | .m16n16k32 => (16, 16, 32)
  | .m16n16k64 => (16, 16, 64)
  | .m32n32k16 => (32, 32, 16)
  | .m32n32k32 => (32, 32, 32)
  | .m32n32k64 => (32, 32, 64)
  | .m64n32k32 => (64, 32, 32)
  | .m64n64k16 => (64, 64, 16)

/-- Whether a shape suits a context (R227). -/
def shapeFits (sh : Shape) (x : FmtCtx) : Bool :=
  let (m, n, k) := dimsOf sh
  m * k * fmtWidth x.a ≤ 32768 && k * n * fmtWidth x.b ≤ 32768 && (!x.scale || 32 ≤ k)

/-- Element number `i` of width `w` of a slot (R122, R228). -/
def tileElem (m : Matrix) (slot w i : Nat) : Nat :=
  leNat (slotBytes m slot (i * w / 8) ((w + 7) / 8)) / 2 ^ (i * w % 8) % 2 ^ w

/-- The exponent of a scale byte; none for 0xFF (R228, R229). -/
def scaleExp (b : Byte) : Option Int := if b = 0xFF then none else some ((b.toNat : Int) - 127)

/-- A product with its scale factors (R141, R229). -/
def scaledProduct (p : Num × Flags) (xa xb : Option Int) : Num × Flags :=
  match xa, xb with
  | some i, some j => match p.1 with
    | .fin neg m e => (.fin neg m (e + i + j), p.2)
    | r => (r, p.2)
  | _, _ => (.nan false, 0)

/-- Operands of MMA: the slots, the shape and the context. -/
structure MmaArgs where
  ta : Nat
  tb : Nat
  tc : Nat
  sh : Shape
  x : FmtCtx
  deriving DecidableEq, Repr

/-- One entry after MMA in FP32: the exact sum rounded once (R141, R143, R229). -/
def mmaFloat (u : Matrix) (g : MmaArgs) (old i j : Nat) : Nat :=
  let (m, _, k) := dimsOf g.sh
  let nb := k / 32
  let term := fun q =>
    let a := numOf g.x.a (tileElem u g.ta (fmtWidth g.x.a) (i * k + q))
    let b := numOf g.x.b (tileElem u g.tb (fmtWidth g.x.b) (j * k + q))
    let p := mulNum a b
    if g.x.scale then
      scaledProduct p (scaleExp (slotByte u g.tc (i * nb + q / 32))) (scaleExp (slotByte u g.tc (m * nb + j * nb + q / 32)))
    else p
  let sum := (List.range k).foldl (fun s q => Sum.add s (term q)) (Sum.add Sum.start (numOf .fp32 old, 0))
  (roundNum .fp32 Rnd.rne sum.result.1).bits

/-- One entry after MMA in I32 (R229). -/
def mmaInt (u : Matrix) (g : MmaArgs) (old i j : Nat) : Nat :=
  let (_, _, k) := dimsOf g.sh
  wrapInt 32 ((List.range k).foldl
    (fun s q => s + sintNat 8 (tileElem u g.ta 8 (i * k + q)) * sintNat 8 (tileElem u g.tb 8 (j * k + q))) (old : Int))

/-- Four times the factor r of a format (R230). -/
def rateOf : Fmt → Nat
  | .fp32 => 1
  | .e4m3 | .e5m2 | .i8 => 8
  | .e2m1 => 16
  | _ => 4

/-- Cycles of an MMA (R230). -/
def mmaCycles (sh : Shape) (x : FmtCtx) : Nat :=
  let (m, n, k) := dimsOf sh
  let r := min (rateOf x.a) (rateOf x.b)
  (m * n * k * 4 + 8192 * r - 1) / (8192 * r)

/-! The accumulator file. -/

/-- An entry of the window; absent ones are +0 (R232, R233). -/
def winGet (a : Accum) (i : Nat) : Nat := ((mget a.direct i).getD 0).toNat

/-- An entry of the window set. -/
def winSet (a : Accum) (i v : Nat) : Accum := { a with direct := mset a.direct i (BitVec.ofNat 32 v) }

/-- Whether a read of some entries of the file meets poison: that of the file, or that of a word, in hash mode of
    any (R302, R303). -/
def accBad (a : Accum) (es : List Nat) : Bool :=
  a.poison || if a.hash then !a.badWords.isEmpty else es.any fun i => a.badWords.contains (i / 2)

/-- Words of the window of which both entries have been written lose their poison (R302). -/
def healWords (a : Accum) (es : List Nat) : Accum :=
  { a with badWords := a.badWords.filter fun w => !(es.contains (2 * w) && es.contains (2 * w + 1)) }

/-- The entries of a stretch of `m` rows and `n` columns of the window. -/
def winEntries (r c m n : Nat) : List Nat :=
  (List.range m).flatMap fun i => (List.range n).map fun j => (r + i) * 128 + (c + j)

/-- The window entry of a key (R232), if it lies in the window. -/
def winIdx (a : Accum) (row col : Nat) : Option Nat :=
  if a.row0 ≤ row ∧ row ≤ a.row0 + 127 ∧ a.col0 ≤ col ∧ col ≤ a.col0 + 127 then
    some ((row - a.row0) * 128 + (col - a.col0)) else none

/-- MMA over a target that starts at an entry: M × N entries, row by row (R229). -/
def mmaRun (u : Matrix) (g : MmaArgs) (zero : Bool) (r c : Nat) : Accum :=
  let (m, n, _) := dimsOf g.sh
  (List.range m).foldl
    (fun acc i => (List.range n).foldl
      (fun acc j =>
        let e := (r + i) * 128 + (c + j)
        let old := if zero then 0 else winGet acc e
        winSet acc e (if g.x.c = .i32 then mmaInt u g old i j else mmaFloat u g old i j)) acc)
    (healWords u.acc (winEntries r c m n))

/-- Whether an MMA reads poison: of its tiles, of its scales, or of the entries that it adds to (R229, R303). -/
def mmaPoison (u : Matrix) (g : MmaArgs) (zero : Bool) (r c : Nat) : Bool :=
  let (m, n, k) := dimsOf g.sh
  slotBad u g.ta (m * k * fmtWidth g.x.a / 8) || slotBad u g.tb (k * n * fmtWidth g.x.b / 8)
    || (g.x.scale && slotBad u g.tc ((m + n) * (k / 32))) || accBad u.acc (if zero then [] else winEntries r c m n)

/-- The home bucket of a key (R243). -/
def homeBucket (lb key : Nat) : Nat :=
  if lb = 0 then 0 else key * 0x9E37_79B9_7F4A_7C15 % 2 ^ 64 / 2 ^ (64 - lb)

/-- The probe sequence of a key (R243). -/
def probeSeq (lb key : Nat) : List Nat := [0, 1, 3, 6].map fun i => (homeBucket lb key + i) % 2 ^ lb

/-- The place in the table where a key is resident (R244). -/
def hashFind (a : Accum) (key : Nat) : Option Nat := (a.table.find? fun e => e.2.key = key).map (·.1)

/-- The first free way of the probe sequence, lowest way first (R244). -/
def hashFree (a : Accum) (key : Nat) : Option Nat :=
  (probeSeq a.lb key).findSome? fun b =>
    ((List.range a.ways).map (b * 64 + ·)).find? fun i => (mget a.table i).isNone

/-- The sum of two FP32 values, rounded by RNE (R144). -/
def addFp32 (x y : Nat) : Nat := (fpAdd .fp32 Rnd.rne x y).bits

/-- COUNT of the Bracken (R245). -/
def brackenCount (s : State) (clu : Nat) (a : Accum) : Nat := leNat (stashBytes s clu a.bbase 4)

/-- A keyed record (R245). -/
def keyedRec (key val : Nat) : List Byte := leBytes 8 val ++ leBytes 8 (key / 2 ^ 24 * 2 ^ 24 + key % 2 ^ 24)

/-- accumulate(K, v) of R244, in the mode of the file; nothing where the value goes to the Bracken. -/
def accumulate (a : Accum) (k val : Nat) : Option Accum :=
  if !a.hash then
    match winIdx a (k / 2 ^ 24) (k % 2 ^ 24) with
    | some i => some (winSet a i (addFp32 (winGet a i) val))
    | none => some a
  else
    match hashFind a k with
    | some i =>
      match mget a.table i with
      | some e => some { a with table := mset a.table i { e with val := BitVec.ofNat 32 (addFp32 e.val.toNat val) } }
      | none => some a
    | none => (hashFree a k).map fun i => { a with table := mset a.table i ⟨k, BitVec.ofNat 32 val⟩ }

/-- A file without entries (R233, R242). -/
def clearAcc (a : Accum) : Accum := { a with direct := [], table := [], poison := false, badWords := [] }

/-- The configuration of a direct-mode ACFG, if its word is good (R232). -/
def directWord (w : Word) : Option (Nat × Nat) :=
  if field w 48 16 = 0 ∧ field w 0 24 ≤ 2 ^ 24 - 128 ∧ field w 24 24 ≤ 2 ^ 24 - 128 then
    some (field w 0 24, field w 24 24) else none

/-- LB, ways and BCAP of a hash-mode ACFG, if word and base are good (R241). -/
def hashWord (w b : Word) : Option (Nat × Nat × Nat) :=
  let bcap := field w 32 20
  if field w 52 12 = 0 ∧ field w 14 18 = 0 ∧ field w 4 4 = 0 ∧ field w 0 4 ≤ 8 ∧ 1 ≤ bcap ∧ bcap ≤ 131071
      ∧ b.toNat < 2 ^ 21 ∧ b.toNat % 16 = 0 ∧ b.toNat + 16 * (bcap + 1) ≤ 2 ^ 21 then
    some (field w 0 4, field w 8 6 + 1, bcap) else none

/-- The file after an ACFG of a group (R231, R232, R242). -/
def configure (a : Accum) (gid : Nat) (hash : Bool) (w b : Word) : Accum :=
  let mine : Bool := a.owner = some gid
  if hash then
    match hashWord w b with
    | none => a
    | some (lb, ways, bcap) =>
      let keep := mine && a.hash && a.lb = lb && a.ways = ways
      let a1 := if keep then a else clearAcc a
      { a1 with owner := some gid, hash := true, lb := lb, ways := ways, bcap := bcap, bbase := b.toNat, spill := 0 }
  else
    match directWord w with
    | none => a
    | some (r, c) =>
      let a1 := if mine && !a.hash then a else clearAcc a
      { a1 with owner := some gid, hash := false, row0 := r, col0 := c, spill := 0 }

/-! Draining. -/

/-- An insertion into a list in ascending key order. -/
def insertKey (e : Nat × BitVec 32) : List (Nat × BitVec 32) → List (Nat × BitVec 32)
  | [] => [e]
  | x :: xs => if e.1 < x.1 then e :: x :: xs else x :: insertKey e xs

/-- The resident keys in ascending order with their values (R253). -/
def residents (a : Accum) : List (Nat × BitVec 32) := a.table.foldl (fun l e => insertKey (e.2.key, e.2.val) l) []

/-- The rows that hold a resident key, in ascending order. -/
def residentRows (es : List (Nat × BitVec 32)) : List Nat := (es.map fun e => e.1 / 2 ^ 24).eraseDups

/-- The words of DRAIN (R253). -/
def drainWords (a : Accum) (cf : Fmt) : List Nat :=
  if a.hash then
    let es := residents a
    (residentRows es).flatMap (fun r =>
      let row := es.filter fun e => e.1 / 2 ^ 24 = r
      headerRec r row.length :: row.map fun e => elemRec .fp32 (e.1 % 2 ^ 24) e.2.toNat) ++ [endStreamRec]
  else
    ((List.range 128).flatMap fun r =>
      headerRec (a.row0 + r) 128 :: (List.range 128).map fun c => elemRec cf (a.col0 + c) (winGet a (r * 128 + c)))
      ++ [endStreamRec]

/-- The words of DRAIN.T (R253). -/
def drainTWords (a : Accum) : List Nat :=
  if a.hash then (residents a).flatMap (fun e => [e.2.toNat, e.1]) ++ [0, 2 ^ 63]
  else (List.range 8192).map fun i => winGet a (2 * i) + 2 ^ 32 * winGet a (2 * i + 1)

/-- Bytes that DRAIN or DRAIN.T writes (R350). -/
def drainBytes (a : Accum) (t : Bool) : Nat :=
  if a.hash then
    let es := residents a
    if t then 16 * (es.length + 1) else 8 * ((residentRows es).length + es.length + 1)
  else if t then 65536 else 132104

/-- The file after a DRAIN: no entry, or entries of +0 (R233, R253). -/
def drained1 (a : Accum) : Accum := { a with direct := [], table := [], badWords := [] }

/-- The entries that the member of a rank receives from DRAIN.V: four v registers (R233). -/
def drainRow (a : Accum) (r c rank f : Nat) : List Wr :=
  (List.range 4).map fun q =>
    wrV (BitVec.ofNat 6 (f + q)) (vec 32 ((List.range 4).map fun e => winGet a ((r + rank) * 128 + (c + 4 * q + e))))

/-- The file without the entries delivered by DRAIN.V (R233). -/
def drainRows (a : Accum) (r c : Nat) (ranks : List Nat) : Accum :=
  ranks.foldl (fun a m => (List.range 16).foldl (fun a e => winSet a ((r + m) * 128 + (c + e)) 0) a)
    (healWords a (ranks.flatMap fun m => winEntries (r + m) c 1 16))

/-! JOIN and AINS. -/

/-- Formats of the streams of JOIN (R249). -/
def joinFmt (f : Fmt) : Bool := recFmt f && f ≠ .i32

/-- The products of two fibres in order (R249). -/
def fibrePairs (x y : Fibre) : List (Nat × BitVec 32) :=
  x.elems.flatMap fun a => y.elems.map fun b =>
    (a.2.1 * 2 ^ 24 + b.2.1,
     BitVec.ofNat 32 (roundNum .fp32 Rnd.rne (mulNum (numOf a.1 a.2.2) (numOf b.1 b.2.2)).1).bits)

/-- The products of two streams in order, `n` bounding the fibres (R249). -/
def joinPairs : (n : Nat) → List Fibre → List Fibre → List (Nat × BitVec 32)
  | 0, _, _ => []
  | _, [], _ | _, _, [] => []
  | n + 1, x :: xs, y :: ys =>
    if x.k < y.k then joinPairs n xs (y :: ys)
    else if y.k < x.k then joinPairs n (x :: xs) ys
    else fibrePairs x y ++ joinPairs n xs ys

/-- The products of two streams (R249). -/
def productsOf (p q : List Fibre) : List (Nat × BitVec 32) := joinPairs (p.length + q.length) (inOrder p) (inOrder q)

/-- The products of two streams as JOIN has read them; where they are no streams any more, since they have been written
    after the check, there is no promised result: free values under the keys of the check (R363). -/
def productsRead (s : State) (checked : List (Nat × BitVec 32)) (a b : List Byte) : List (Nat × BitVec 32) :=
  match streamOf joinFmt (wordsLe (a.length / 8) a) [] (.top false), streamOf joinFmt (wordsLe (b.length / 8) b) [] (.top false) with
  | some p, some q => productsOf p q
  | _, _ => (checked.zip (List.range checked.length)).map fun e => (e.1.1, (Config.freeWord (s.free + e.2)).setWidth 32)

/-- The first key that lies outside the window (R251). -/
def outside (a : Accum) (ks : List Nat) : Option Nat :=
  ks.find? fun k => (winIdx a (k / 2 ^ 24) (k % 2 ^ 24)).isNone

/-- The window entries of some keys. -/
def entriesOf (a : Accum) (ks : List Nat) : List Nat := ks.filterMap fun k => winIdx a (k / 2 ^ 24) (k % 2 ^ 24)

/-- A keyed record from its two words: END, key and value; nothing when a reserved bit is set (R245,
    R250). -/
def keyedOf (w0 w1 : Nat) : Option (Bool × Nat × Nat) :=
  if w1 / 2 ^ 48 % 2 ^ 15 ≠ 0 ∨ w0 / 2 ^ 32 ≠ 0 then none else some (w1 / 2 ^ 63 = 1, w1 % 2 ^ 48, w0)

/-- The keyed records that AINS checks, at most `n` from an address on (R250, R329): their pieces, keys and number, or
    the first trap. -/
def keyedFrom (c : Ctx) (clu key : Nat) : (n : Nat) → State → (a : Nat) → List Piece → List Nat → Nat →
    Except (TrapVal × State) (List Piece × List Nat × Nat × State)
  | 0, s, _, ps, ks, n => .ok (ps, ks.reverse, n, s)
  | k + 1, s, a, ps, ks, n =>
    match readAt s c clu key a 16 16 with
    | .error v => .error v
    | .ok (p, bs, s1) =>
      match keyedOf (leNat (bs.take 8)) (leNat (bs.drop 8)) with
      | none => .error (⟨.coord, BitVec.ofNat 64 a⟩, s1)
      | some (true, _, _) => .ok (ps ++ p, ks.reverse, n + 1, s1)
      | some (false, x, _) => keyedFrom c clu key k s1 ((a + 16) % 2 ^ 64) (ps ++ p) (x :: ks) (n + 1)

end Sys2Proof.Machine
end

