-- ==== Sys2Proof/Machine/Collect.lean ====
section
/-! DEFINITION. Presenting together: barriers, convening and collectives, from the presentation of an
instruction to the issue for every member, the checks, the effect and the completion (R209 to R221, R335,
R336). -/

namespace Sys2Proof.Machine

/-! Presentation. -/

/-- The instruction that a thread presents. -/
def Thread.presents (t : Thread) : Option Instr := t.present.map (·.instr)

/-- The saved threads of a gang that SPILL holds are held no longer, since a member blocks (R390). -/
def unhold (s : State) (t : Thread) : State :=
  let f := fun (r : HeathRec) =>
    if inGang t.csr.gang.toNat t.csr.lnch.toNat r.thread && !t.origin.supervisor then { r with held := false } else r
  { s with clusters := s.clusters.map fun e => (e.1, { e.2 with heath := e.2.heath.map fun r => (r.1, f r.2) }) }

/-- A thread at its instruction presents it, which blocks its gang (R210, R220). -/
def putPresent (s : State) (l : Loc) (t : Thread) (i : Instr) : State :=
  { unhold (setThread s l { t with present := some ⟨i, s.curN, s.cycle, s.nextId⟩ }) t with nextId := s.nextId + 1 }

/-- The presented instruction issues for a thread (R69, R217): its own dependence byte and S bit act on its
    own thread. -/
def issuePresented (s : State) (t : Thread) (p : Presented) : Thread :=
  let t1 := charge { s with curN := p.lineN } t p.instr
  { t1 with present := none }

/-! Barriers. -/

/-- The barrier that a thread presents (R335). -/
def Thread.atBar (t : Thread) (b : BitVec 3) : Bool :=
  match t.presents with
  | some (.bar _ c) => c = b
  | _ => false

/-- The members of a gang in slots that present a barrier (R335). -/
def atBarrier (s : State) (gang lnch : Nat) (b : BitVec 3) : List (Loc × Thread) :=
  (allThreads s).filter fun e => inGang gang lnch e.2 && e.2.atBar b

/-- The accesses of some threads that are not performed, by thread and id. -/
def accsOf (ts : List Thread) : List (Nat × Nat) := ts.flatMap fun t => t.pipe.acc.map fun a => (t.uid, a.id)

/-- A thread's later accesses follow some accesses: those that the members of a gang or group issued before a
    BAR or a CONVENE (R191, R336). -/
def orderAfter (s : State) (t : Thread) (accs : List (Nat × Nat)) : State × Thread :=
  if accs.isEmpty then (s, t)
  else pushAccess { s with grpAcc := [] } t { fenceAccess .full .grp with after := accs }

/-- A barrier completes when every live member presents it: it issues for every member at once, and the accesses
    that a member issues after it follow those that any member issued before (R335, R336). -/
def tryBarrier (s : State) (gang lnch : Nat) (b : BitVec 3) : State :=
  let ms := atBarrier s gang lnch b
  if ms.isEmpty || ms.length ≠ (liveMembers s gang lnch).length then s
  else
    let accs := accsOf (ms.map (·.2))
    ms.foldl
      (fun s e =>
        match e.2.present with
        | some p => let r := orderAfter s (issuePresented s e.2 p) accs; tally (setThread r.1 e.1 r.2) e.1.clu 0x4 1
        | none => s) s

/-- Every barrier of a gang is looked at again. -/
def tryBarriers (s : State) (gang lnch : Nat) : State :=
  (List.range 8).foldl (fun s b => tryBarrier s gang lnch (BitVec.ofNat 3 b)) s

/-! Collectives. -/

/-- The collectives (R216). -/
def isCollective : Instr → Bool
  | .tclaim .. | .trel .. | .tld .. | .tldR .. | .tldPx .. | .tst .. | .fmtctx .. | .mma .. | .acfg .. | .aclr .. | .drain ..
  | .drainT .. | .drainV .. | .join .. | .ains .. => true
  | _ => false

/-- The OPC of an instruction (R85, R217). -/
def opcOf (i : Instr) : Option Nat := (encode i).map (·.opc)

/-- A member of a group that presents a collective: its rank, place and state, and what it presents. -/
structure Member where
  uid : Nat
  rank : Nat
  loc : Loc
  thread : Thread
  shown : Presented

/-- A member of a group, if it is resident and presents a collective (R217, R220). -/
def memberOf (s : State) (m : Nat × Nat) : Option Member :=
  match locOf s m.1 with
  | none => none
  | some l =>
    match thread? s l with
    | none => none
    | some t =>
      match t.present with
      | some p => if isCollective p.instr then some ⟨m.1, m.2, l, t, p⟩ else none
      | none => none

/-- The members of a group in the order of their ranks, when every one presents a collective. -/
def membersAll (s : State) : List (Nat × Nat) → Option (List Member)
  | [] => some []
  | m :: ms =>
    match memberOf s m, membersAll s ms with
    | some a, some as => some (a :: as)
    | _, _ => none

/-- A GROUP fault with its code (R221). -/
def groupFault (code : Nat) : TrapVal := ⟨.group, BitVec.ofNat 64 code⟩

/-- What a collective that passes its checks will do: the ranges it acts on, the memory actions it will take, the
    values it will add, the cycles it takes, and the state after its checks. -/
structure Plan where
  s : State
  rows : List (List Piece) := []
  todo : List Micro := []
  adds : List (Nat × BitVec 32) := []
  cycles : Nat := 1

/-- What the members of a group have as they present a collective. -/
structure Scene where
  s : State
  clu : Nat
  g : Group
  ms : List Member
  lead : Member

/-- The translation of a member. -/
def Member.ctx (m : Member) : Ctx := threadCtx m.loc m.thread

/-- The key of a collective: that of its lowest-ranked member. -/
def Scene.key (x : Scene) : Nat := x.lead.thread.csr.keyid.toNat

/-- A register of the lowest-ranked member (R217). -/
def Scene.reg (x : Scene) (r : XReg) : Word := xval x.lead.thread r

/-- The format context of the group. -/
def Scene.fmt (x : Scene) : FmtCtx := (fmtCtx x.g.word).getD ⟨.bf16, .bf16, false, .fp32⟩

/-- Whether the group holds the accumulator (R231). -/
def Scene.holdsAcc (x : Scene) : Bool := (unitOf x.s x.clu).acc.owner = some x.g.gid

/-- Whether the group holds a slot. -/
def Scene.holds (x : Scene) (t : TSlot) : Bool := holdsSlot (unitOf x.s x.clu) x.g.gid t.toNat

/-- The reads of checked ranges, eight bytes each, in ascending order (R191). -/
def readsOf (ps : List Piece) : List Micro := (cutPieces 8 ps).map .read

/-- The writes of bytes to a checked range, eight bytes each, in ascending order (R191). -/
def writesOf (ps : List Piece) (bytes : List Byte) : List Micro :=
  (cutPieces 8 ps).map fun p => .write p ((bytes.drop p.off).take p.len)

/-- The outcome of the checks of a collective: its plan, or its trap with the state that they leave. -/
abbrev Checked := Except (TrapVal × State) Plan

/-- The rows of a load into a slot are checked, and their data for poison (R404; log 15). -/
def planLoad (x : Scene) (d : RowDesc) (rows : List (Ctx × Nat × Nat)) : Checked :=
  match checkRanges x.s ⟨true, false⟩ 8 rows with
  | (.error v, s1) => .error (v, s1)
  | (.ok ps, s1) =>
    if (readRange s1 x.clu x.key ps.flatten).2.1 then .error (⟨.poison, 0⟩, s1)
    else .ok { s := s1, rows := ps, todo := ps.flatMap readsOf
               cycles := (d.nrow * d.len + 63) / 64 + 8 + memoryTime x.s ps.flatten }

/-- The rows of TLD and TST (R223). -/
def rowsAt (x : Scene) (ra : Word) (d : RowDesc) : List (Ctx × Nat × Nat) :=
  (List.range d.nrow).map fun i => (x.lead.ctx, rowAddr ra d i, d.len)

/-- The rows of TLD.R, each at the RA of the member whose rank it is; none where a rank is missing
    (R223). -/
def rowsOfRanks (x : Scene) (d : RowDesc) : Option (List (Ctx × Nat × Nat)) :=
  (List.range d.nrow).mapM fun i =>
    (x.ms.find? fun m => m.rank = i).map fun m =>
      let a := match m.shown.instr with
        | .tldR _ _ ra _ => xval m.thread ra
        | _ => 0
      (m.ctx, a.toNat, d.len)

/-- The checks of MMA (R229, R374). -/
def planMma (x : Scene) (sh : Shape) (ra : XReg) (ta tb tc : TSlot) (zero : Bool) : Checked :=
  let u := unitOf x.s x.clu
  let a := x.reg ra
  let (m, n, _) := dimsOf sh
  let r0 := field a 0 24
  let c0 := field a 24 24
  if !x.holds ta || !x.holds tb || (x.fmt.scale && !x.holds tc) then .error (groupFault 6, x.s)
  else if !x.holdsAcc || u.acc.hash then .error (groupFault 7, x.s)
  else if !shapeFits sh x.fmt then .error (groupFault 8, x.s)
  else if field a 48 16 ≠ 0 ∨ r0 < u.acc.row0 ∨ u.acc.row0 + 127 < r0 + m - 1 ∨ c0 < u.acc.col0
      ∨ u.acc.col0 + 127 < c0 + n - 1 then .error (⟨.accwin, a⟩, x.s)
  else if mmaPoison u ⟨ta.toNat, tb.toNat, tc.toNat, sh, x.fmt⟩ zero (r0 - u.acc.row0) (c0 - u.acc.col0) then
    .error (⟨.poison, 0⟩, x.s)
  else .ok { s := x.s, cycles := mmaCycles sh x.fmt }

/-- The checks of DRAIN and DRAIN.T (R253, R350). DRAIN.T in direct mode, which writes no records, takes the time of
    records of 8 bytes (log 91). -/
def planDrain (x : Scene) (ra : XReg) (t : Bool) : Checked :=
  let u := unitOf x.s x.clu
  let n := drainBytes u.acc t
  let recs := n / (if u.acc.hash && t then 16 else 8)
  if !x.holdsAcc then .error (groupFault 7, x.s)
  else
    match rangeCheck x.s x.lead.ctx (x.reg ra).toNat n 8 ⟨false, true⟩ with
    | (.error v, s1) => .error (v, s1)
    | (.ok ps, s1) =>
      if u.acc.poison || !u.acc.badWords.isEmpty then .error (⟨.poison, 0⟩, s1)
      else .ok { s := s1, rows := [ps]
                 todo := writesOf ps ((if t then drainTWords u.acc else drainWords u.acc x.fmt.c).flatMap (leBytes 8))
                 cycles := (if u.acc.hash then 64 else 0) + (recs + 7) / 8 + memoryTime x.s ps }

/-- The checks of DRAIN.V after that of its registers: the key names rows from that of rank 0 on, whether or not rank 0 is still a member
    (R233, R350, log 78). -/
def planDrainV (x : Scene) (ra : XReg) : Checked :=
  let acc := (unitOf x.s x.clu).acc
  let a := x.reg ra
  let r0 := field a 0 24
  let c0 := field a 24 24
  if !x.holdsAcc || acc.hash then .error (groupFault 7, x.s)
  else if field a 48 16 ≠ 0 || c0 < acc.col0 || acc.col0 + 127 < c0 + 15 || r0 < acc.row0
      || x.ms.any (fun m => acc.row0 + 127 < r0 + m.rank || r0 + m.rank < acc.row0) then .error (⟨.accwin, a⟩, x.s)
  else if accBad acc (x.ms.flatMap fun m => winEntries (r0 - acc.row0 + m.rank) (c0 - acc.col0) 1 16) then
    .error (⟨.poison, 0⟩, x.s)
  else .ok { s := x.s, cycles := 2 * x.ms.length }

/-- What JOIN and AINS check first: the accumulator and the format (R249, R329). -/
def accFormat (x : Scene) : Option TrapVal :=
  if !x.holdsAcc then some (groupFault 7) else if x.fmt.c ≠ .fp32 then some (groupFault 8) else none

/-- The checks of JOIN, and the products of the streams checked; its reads follow (R249, R251, R363). Of two
    streams that fail their checks either is the one reported (log 13). -/
def planJoin (x : Scene) (ra rb : XReg) : Checked :=
  let acc := (unitOf x.s x.clu).acc
  match accFormat x with
  | some v => .error (v, x.s)
  | none =>
    let stream := fun (s : State) (r : XReg) =>
      streamFrom joinFmt x.lead.ctx x.clu x.key (2 ^ 53) s (x.reg r).toNat ⟨[], .top false, 0, []⟩
    match stream x.s ra with
    | .error (v, s1) =>
      match stream x.s rb with
      | .error (w, s2) => .error (if Config.happens x.s.free then (v, s1) else (w, s2))
      | .ok _ => .error (v, s1)
    | .ok (p, s1) =>
      match stream s1 rb with
      | .error e => .error e
      | .ok (q, s2) =>
        let es := productsOf p.fibres q.fibres
        match if acc.hash then none else outside acc (es.map (·.1)) with
        | some k => .error (⟨.accwin, BitVec.ofNat 64 k⟩, s2)
        | none =>
          if accBad acc (entriesOf acc (es.map (·.1))) then .error (⟨.poison, 0⟩, s2)
          else
            .ok { s := s2, rows := [p.pieces, q.pieces], todo := readsOf p.pieces ++ readsOf q.pieces, adds := es
                  cycles := max ((es.length + 63) / 64) ((p.n + q.n + 31) / 32) + 16 + memoryTime x.s (p.pieces ++ q.pieces) }

/-- The checks of AINS (R250, R251, R329). -/
def planAins (x : Scene) (ra rb : XReg) : Checked :=
  let acc := (unitOf x.s x.clu).acc
  match accFormat x with
  | some v => .error (v, x.s)
  | none =>
    match keyedFrom x.lead.ctx x.clu x.key (x.reg rb).toNat x.s (x.reg ra).toNat [] [] 0 with
    | .error e => .error e
    | .ok (ps, ks, n, s1) =>
      match if acc.hash then none else outside acc ks with
      | some k => .error (⟨.accwin, BitVec.ofNat 64 k⟩, s1)
      | none =>
        if accBad acc (entriesOf acc ks) then .error (⟨.poison, 0⟩, s1)
        else .ok { s := s1, rows := [ps], cycles := (n + 15) / 16 + 16 + memoryTime x.s ps }

/-- The checks of a collective in the order of its entry, and its plan (R219). -/
def planOf (x : Scene) : Checked :=
  let u := unitOf x.s x.clu
  match x.lead.shown.instr with
  | .tclaim _ ta => .ok { s := x.s, cycles := if x.holds ta then 1 else 8 }
  | .trel _ ta => if x.holds ta then .ok { s := x.s } else .error (groupFault 6, x.s)
  | .tld _ ta ra rb =>
    if !x.holds ta then .error (groupFault 6, x.s)
    else match rowDesc true (x.reg rb) with
      | none => .error (groupFault 9, x.s)
      | some d => planLoad x d (rowsAt x (x.reg ra) d)
  | .tldR _ ta _ rb =>
    if !x.holds ta then .error (groupFault 6, x.s)
    else match rowDesc false (x.reg rb) with
      | none => .error (groupFault 9, x.s)
      | some d =>
        match rowsOfRanks x d with
        | none => .error (groupFault 9, x.s)
        | some rows => planLoad x d rows
  | .tldPx _ ta ra rb =>
    if !x.holds ta then .error (groupFault 6, x.s)
    else match pxLoad x.s x.lead.ctx x.clu x.key (x.reg ra).toNat (x.reg rb).toNat with
      | .error e => .error e
      | .ok (bad, ps, s1) =>
        if bad then .error (⟨.poison, 0⟩, s1)
        else .ok { s := s1, rows := ps, todo := ps.flatMap readsOf, cycles := 136 + memoryTime x.s ps.flatten }
  | .tst _ ta ra rb =>
    if !x.holds ta then .error (groupFault 6, x.s)
    else match rowDesc true (x.reg rb) with
      | none => .error (groupFault 9, x.s)
      | some d =>
        match checkRanges x.s ⟨false, true⟩ 8 (rowsAt x (x.reg ra) d) with
        | (.error v, s1) => .error (v, s1)
        | (.ok ps, s1) =>
          if slotBad u ta.toNat (d.nrow * d.len) then .error (⟨.poison, 0⟩, s1)
          else
            let row := fun (e : Nat × List Piece) => writesOf e.2 (slotBytes u ta.toNat (e.1 * d.len) d.len)
            .ok { s := s1, rows := ps, todo := ((List.range d.nrow).zip ps).flatMap row
                  cycles := (d.nrow * d.len + 63) / 64 + 8 + memoryTime x.s ps.flatten }
  | .fmtctx _ ra => if (fmtCtx (x.reg ra)).isSome then .ok { s := x.s } else .error (groupFault 8, x.s)
  | .mma _ sh ra ta tb tc zero => planMma x sh ra ta tb tc zero
  | .acfg _ hash ra rb =>
    let good := if hash then (hashWord (x.reg ra) (x.reg rb)).isSome else (directWord (x.reg ra)).isSome
    if good then .ok { s := x.s, cycles := 16 } else .error (groupFault 9, x.s)
  | .aclr _ => if x.holdsAcc then .ok { s := x.s, cycles := 16 } else .error (groupFault 7, x.s)
  | .drain _ ra => planDrain x ra false
  | .drainT _ ra => planDrain x ra true
  | .drainV _ _ ra => planDrainV x ra
  | .join _ ra rb => planJoin x ra rb
  | .ains _ ra rb => planAins x ra rb
  | _ => .ok { s := x.s }

/-- When the last member of a group presented (R222). -/
def presentedAt (s : State) (g : Group) : Nat :=
  (g.members.filterMap fun m => (memberOf s m).map (·.shown.order)).foldl max 0

/-- Whether every member of a group presents a claim, and its lowest-ranked one that of a slot (R217, R222). -/
def claims (s : State) (g : Group) (slot : Nat) : Bool :=
  let slotOf := fun (m : Member) => match m.shown.instr with
    | .tclaim _ ta => some ta.toNat
    | _ => none
  !g.dissolving && match membersAll s g.members with
    | some (m :: ms) => slotOf m = some slot && ms.all fun n => (slotOf n).isSome
    | _ => false

/-- A collective that does not issue yet: a claim of a slot that another group holds, or that another group has
    claimed earlier, or an ACFG while another group holds the accumulator (R220, R222). -/
def mustStay (x : Scene) : Bool :=
  let u := unitOf x.s x.clu
  match x.lead.shown.instr with
  | .tclaim _ ta =>
    match mget u.owners ta.toNat with
    | some o => o ≠ x.g.gid
    | none => u.groups.any fun g =>
        g.gid ≠ x.g.gid && presentedAt x.s g < presentedAt x.s x.g && claims x.s g ta.toNat
  | .acfg .. => u.acc.owner.any (· ≠ x.g.gid)
  | _ => false

/-- The trap of a register that the collective names and a member whose register it is lacks: the lowest-ranked member,
    for the rows of TLD.R and the destination of DRAIN.V every member (R42, R49, R217, R219, R233, log 27). -/
def lacksReg (x : Scene) : Option TrapVal :=
  let lacks := fun (m : Member) (u : Uses) => absentReg m.thread.csr.light (coreOf x.s m.loc.coreIdx).p64 u
  ((lacks x.lead (usesOf x.lead.shown.instr)).or (x.ms.findSome? fun m => match m.shown.instr with
    | .tldR _ _ ra _ => lacks m (usesX [ra] [])
    | .drainV .. => lacks m { wv := (usesOf x.lead.shown.instr).wv }
    | _ => none)).map fun v => ⟨.operand, v⟩

/-- Whether a register that the collective reads is poisoned (R303, log 27). -/
def readsPoison (x : Scene) : Bool :=
  (poisonedReg x.lead.thread.regs (usesOf x.lead.shown.instr)).isSome
    || x.ms.any fun m => match m.shown.instr with
      | .tldR _ _ ra _ => m.thread.regs.xpoison.getLsbD ra.toNat && ra ≠ 0
      | _ => false

/-- The registers of DRAIN.V that a result is owed to. -/
def owedTo : Instr → List Wr
  | .drainV _ vf _ => (List.range 4).map fun q => wrV (BitVec.ofNat 6 (vf.toNat + q)) 0
  | _ => []

/-- A collective issues for a member: its thread goes on, later accesses wait for the collective, and
    DRAIN.V owes it a result under its own tag (R191, R217, R233). -/
def issueMember (s : State) (lead : Instr) (m : Member) : State × Nat :=
  match thread? s m.loc with
  | none => (s, 0)
  | some t =>
    let t1 := issuePresented s t m.shown
    let (s1, t2) := pushAccess { s with grpAcc := [] } t1 { Access.blank with kind := .coll }
    let t3 := match lead with
      | .drainV .. => addResult t2 ⟨s.nextId, m.shown.instr.dep.sa, owedTo lead, 0, false⟩
      | _ => t2
    (setThread s1 m.loc t3, s.nextId)

/-- A collective that has passed its checks issues for every member in one cycle (R217, R220, R321). -/
def issueColl (x : Scene) (p : Plan) : State :=
  let i := x.lead.shown.instr
  let r := x.ms.foldl
    (fun r m => let (s1, id) := issueMember r.1 i m; (s1, r.2 ++ [(m.uid, id)])) (drawn p.s, ([] : List (Nat × Nat)))
  let (xa, xb) := match i with
    | .tld _ _ ra rb | .tldR _ _ ra rb | .tldPx _ _ ra rb | .tst _ _ ra rb | .acfg _ _ ra rb | .join _ ra rb | .ains _ ra rb =>
      (x.reg ra, x.reg rb)
    | .fmtctx _ ra | .mma _ _ ra _ _ _ _ | .drain _ ra | .drainT _ ra | .drainV _ _ ra => (x.reg ra, 0)
    | _ => (0, 0)
  let c : Coll := { gid := x.g.gid, instr := i, xa := xa, xb := xb, key := x.key, members := r.2, ranks := x.g.members.map (·.2)
                    rows := p.rows, due := x.s.cycle + p.cycles, todo := p.todo, got := [], waits := none, adds := p.adds
                    app := none, pos := 0, spilled := 0, bad := false, stalled := false, since := 0, checked := 0 }
  let s1 := tally r.1 x.clu 0x4 x.ms.length
  setUnit s1 x.clu { unitOf s1 x.clu with cur := some c }

/-- Every member takes one trap, each at its own PC (R217, R219). -/
def trapMembers (s : State) (ms : List Member) (v : TrapVal) : State :=
  ms.foldl (fun s m => match thread? s m.loc with
    | some t => raiseTrap s m.loc t v
    | none => s) s

/-- Whether a collective waits for copies that its members have issued before it: those that share a byte with what it
    reads or writes or, as it does, act at the host; for the bytes of streams, tables and the Bracken, which are known
    only once it is checked, all of them, and for poison that its checks meet too (R182, R191, R194, log 101). -/
def copiesFirst (x : Scene) (r : Checked) : Bool :=
  let cs := x.s.flight.copies.filter fun c => c.packet.isNone && !c.ready && x.ms.any fun m => m.uid = c.uid
  match x.lead.shown.instr with
  | .join .. | .ains .. | .tldPx .. | .acfg _ true _ _ => !cs.isEmpty
  | _ =>
    match r with
    | .ok p => p.rows.flatten.any fun q =>
        let a := { Access.blank with key := x.key, place := chasePlace x.s q.place, n := q.len }
        cs.any (copyHolds x.s a)
    | .error e => e.1.cause = .poison && !cs.isEmpty

/-- What the checks of a collective that fails leave: translations, which a TLB and the counters show; it reads no line
    into a cache (R170, R219, R321). -/
def checksLeft (s s1 : State) (clu : Nat) : State :=
  let c := cluster s1 clu
  setCluster { s with dies := s1.dies, free := s1.free, store := { s.store with repl := s1.store.repl } } clu
    { cluster s clu with tlb := c.tlb, evc := c.evc }

/-- The collective of a group is tried: it is performed once every member has presented, one OPC for all, with
    the members' earlier accesses and copies performed and the unit free (R191, R217, R219, R220). That it issues only once
    the unit performs no other, and that what would fault it is looked at only then, is the model's choice (log
    12, log 92). -/
def tryGroup (s : State) (clu gid : Nat) : State :=
  match groupOf s clu gid with
  | none => s
  | some g =>
    if g.dissolving then s
    else match membersAll s g.members with
      | none => s
      | some [] => s
      | some (m :: ms) =>
        let x : Scene := ⟨s, clu, g, m :: ms, m⟩
        if ms.any fun n => opcOf n.shown.instr ≠ opcOf m.shown.instr then trapMembers s (m :: ms) (groupFault 1)
        else if (unitOf s clu).cur.isSome || (m :: ms).any (fun n => !n.thread.pipe.acc.isEmpty) || mustStay x then s
        else match lacksReg x with
          | some v => trapMembers s (m :: ms) v
          | none =>
            if readsPoison x then trapMembers s (m :: ms) ⟨.poison, 0⟩
            else
              let r := planOf x
              if copiesFirst x r then s
              else match r with
                | .error (v, s1) => trapMembers (checksLeft s s1 clu) (m :: ms) v
                | .ok p => issueColl x p

/-- An insertion by the order of presentation. -/
def insertGroup (e : Nat × Nat) : List (Nat × Nat) → List (Nat × Nat)
  | [] => [e]
  | x :: xs => if e.1 < x.1 then e :: x :: xs else x :: insertGroup e xs

/-- The groups of a cluster are tried again, in the order in which their last members presented (R222; so too those that
    wait at ACFG, log 92). -/
def retryGroups (s : State) (clu : Nat) : State :=
  let gs := (unitOf s clu).groups.foldl (fun l g => insertGroup (presentedAt s g, g.gid) l) []
  gs.foldl (fun s e => tryGroup s clu e.2) s

/-- A group is gone: its context, slots and accumulator are free, and its members, wherever they are, are members
    no more; a member that has not halted takes GROUP code 2 (R215). -/
def dissolve (s : State) (clu : Nat) (g : Group) : State :=
  let u := unitOf s clu
  let u1 := { u with
    groups := u.groups.filter fun h => h.gid ≠ g.gid
    owners := mfilter (fun _ o => o ≠ g.gid) u.owners
    acc := if u.acc.owner = some g.gid then { u.acc with owner := none } else u.acc }
  let f := fun (t : Thread) =>
    if t.grp ≠ some g.gid then t
    else
      { t with
        grp := none
        csr := { t.csr with grank := BitVec.allOnes 64 }
        gfault := if t.mode = .running then some 2 else t.gfault }
  let saved := fun (c : Cluster) => { c with heath := c.heath.map fun r => (r.1, { r.2 with thread := f r.2.thread }) }
  let s1 := setUnit s clu u1
  { s1 with
    threads := s1.threads.map fun e => (e.1, f e.2)
    clusters := s1.clusters.map fun e => (e.1, saved e.2)
    flight := { s1.flight with migs := s1.flight.migs.map fun m => { m with thread := f m.thread } } }

/-- A group without members, or with one that has halted alone, dissolves once its collectives have completed
    (R215). -/
def dissolveDone (s : State) (clu gid : Nat) : State :=
  match groupOf s clu gid with
  | none => s
  | some g => if g.dissolving && !(unitOf s clu).cur.any fun c => c.gid = gid then dissolve s clu g else s

/-- A thread is no longer a member of a group; with its last member the group dissolves (R215). -/
def dropMember (s : State) (clu gid uid : Nat) : State :=
  let u := unitOf s clu
  let cut := fun (g : Group) =>
    if g.gid = gid then
      let ms := g.members.filter fun m => m.1 ≠ uid
      { g with members := ms, dissolving := g.dissolving || ms.isEmpty }
    else g
  dissolveDone (setUnit s clu { u with groups := u.groups.map cut }) clu gid

/-- A thread leaves its group (R215). -/
def leaveGroup (s : State) (l : Loc) : State :=
  match thread? s l with
  | none => s
  | some t =>
    match t.grp with
    | none => s
    | some gid => dropMember (setThread s l { t with grp := none, csr := { t.csr with grank := BitVec.allOnes 64 } }) l.clu gid t.uid

/-- What waits on the accesses of a thread is looked at again: the barriers of its gang and the collectives
    of its cluster. -/
def retryWaits (s : State) (clu : Nat) (t : Thread) : State :=
  retryGroups (tryBarriers s t.csr.gang.toNat t.csr.lnch.toNat) clu

/-- A collective is presented by a thread (R210, R218, R221); what faults it is decided with all members (R219,
    R325). -/
def presentColl (i : Instr) (s : State) : Host.Outcome State Fault Refusal :=
  match thread? s s.cur with
  | none => .fault .noThread
  | some t =>
    if !canIssue s s.cur t i then .next s
    else match t.grp with
      | none =>
        .next (raiseTrap s s.cur t
          (((absentReg t.csr.light (coreOf s s.cur.coreIdx).p64 (usesOf i)).map fun v => ⟨.operand, v⟩).getD (groupFault 3)))
      | some gid => .next (tryGroup (putPresent s s.cur t i) s.cur.clu gid)

/-! Completion. -/

/-- An access of a thread is done, wherever the thread is (R23, R191). -/
def doneAccess (s : State) (uid id : Nat) : State :=
  let f := fun (t : Thread) =>
    if t.uid ≠ uid then t
    else match t.pipe.acc.find? fun a => a.id = id with
      | some a => putAccess t { a with todo := [] }
      | none => t
  let gs := (s.flight.ghosts.map fun e => (e.1, f e.2)).filter fun e => !e.2.pipe.acc.isEmpty
  retireEnded { s with threads := s.threads.map fun e => (e.1, f e.2), flight := { s.flight with ghosts := gs } }

/-- The values of a result become known. -/
def giveResult (s : State) (uid id : Nat) (ws : List Wr) : State :=
  let f := fun (t : Thread) =>
    if t.uid ≠ uid then t
    else { t with pipe := { t.pipe with results := t.pipe.results.map fun r => if r.id = id then { r with writes := ws } else r } }
  { s with threads := s.threads.map fun e => (e.1, f e.2) }

/-- The load of a slot is written: its bytes from byte 0 on, decoded for TLD.PX, and poison of the slot (R303,
    R404). -/
def finishLoad (s : State) (clu : Nat) (c : Coll) (ta : TSlot) : State :=
  let bytes := match c.instr with
    | .tldPx .. => pxBlocks s c.rows.tail (c.got.drop 128)
    | _ => c.got
  let u := putSlot (unitOf s clu) ta.toNat 0 bytes
  setUnit (drawnBy 512 s) clu (if c.bad then poisonSlot u ta.toNat else u)

/-- The accumulator of a unit changed. -/
def setAcc (s : State) (clu : Nat) (a : Accum) : State := setUnit s clu { unitOf s clu with acc := a }

/-- The entries of DRAIN.V go to the members, each row under its own tag (R233). -/
def finishDrainV (s : State) (clu : Nat) (c : Coll) (vf : VReg) : State :=
  let acc := (unitOf s clu).acc
  let r := field c.xa 0 24 - acc.row0
  let col := field c.xa 24 24 - acc.col0
  let ranks := c.members.zip c.ranks
  let s1 := ranks.foldl (fun s e => giveResult s e.1.1 e.1.2 (drainRow acc r col e.2 vf.toNat)) s
  setAcc s1 clu (drainRows acc r col (ranks.map (·.2)))

/-- The collective in progress changed. -/
def modColl (s : State) (clu : Nat) (f : Coll → Coll) : State :=
  setUnit s clu { unitOf s clu with cur := (unitOf s clu).cur.map f }

/-- One action of an append: COUNT is read, and where there is room the record is written and then COUNT + 1.
    A full Bracken stalls the collective (R246). -/
def appendStep (s : State) (clu : Nat) (p : Append) : State :=
  let a := (unitOf s clu).acc
  match p.count, p.written with
  | none, _ =>
    let n := brackenCount s clu a
    let s1 := setAcc s clu { a with poison := a.poison || stashPoisoned s clu a.bbase 4 }
    if a.bcap ≤ n then modColl s1 clu fun c => { c with stalled := true, since := s.cycle, checked := s.cycle }
    else modColl s1 clu fun c => { c with app := some { p with count := some n } }
  | some n, false =>
    modColl (stashWrite s clu (a.bbase + 16 * (n + 1)) (keyedRec p.key p.val.toNat)) clu fun c =>
      { c with app := some { p with written := true } }
  | some n, true =>
    let s1 := setAcc (stashWrite s clu a.bbase (leBytes 4 (n + 1))) clu { a with spill := n + 1 }
    tally (modColl s1 clu fun c => { c with app := none, spilled := c.spilled + 1 }) clu 0x62 1

/-- The products of a JOIN are counted (R321). -/
def tallyProduct (s : State) (clu : Nat) (i : Instr) : State :=
  match i with
  | .join .. => tally s clu 0x61 1
  | _ => s

/-- One value is added, in the file or by an append to the Bracken; AINS reads one record after another, each
    before the append that it causes (R244, R246, R250), and at most those that its checks have read (log 93). -/
def addStep (s : State) (clu : Nat) (c : Coll) : Option State :=
  match c.app, c.adds with
  | some p, _ => some (appendStep s clu p)
  | none, (k, v) :: rest =>
    let s1 := tallyProduct s clu c.instr
    match accumulate (unitOf s clu).acc k v.toNat with
    | some a => some (modColl (setAcc s1 clu a) clu fun c => { c with adds := rest })
    | none => some (modColl s1 clu fun c => { c with adds := rest, app := some ⟨k, v, none, false⟩ })
  | none, [] =>
    match c.instr, (c.rows.flatten.drop c.pos).head? with
    | .ains .., some p =>
      let (bs, bad, s1) := readRange s clu c.key [{ p with off := 0 }]
      match keyedOf (leNat (bs.take 8)) (leNat (bs.drop 8)) with
      | some (false, k, v) =>
        some (modColl s1 clu fun c => { c with adds := [(k, BitVec.ofNat 32 v)], pos := c.pos + 1, bad := c.bad || bad })
      | _ => some (modColl s1 clu fun c => { c with pos := c.rows.flatten.length, bad := c.bad || bad })
    | _, _ => none

/-- A collective after a read of its memory: with its last read, JOIN knows the products that it adds (R363). -/
def afterRead (s : State) (c : Coll) (bs : List Byte) (bad : Bool) : Coll :=
  let got := c.got ++ bs
  let n := bytesIn (c.rows.headD [])
  let adds := match c.instr, c.todo.tail with
    | .join .., [] => productsRead s c.adds (got.take n) (got.drop n)
    | _, _ => c.adds
  { c with todo := c.todo.tail, got := got, adds := adds, bad := c.bad || bad }

/-- One action of the collective in progress: a read or write of memory, for which a replicated page has to
    collapse first, or a value added (R164, R191); nothing where it waits or has no action left. -/
def collStep (s : State) (clu : Nat) : Option State :=
  match (unitOf s clu).cur with
  | none => none
  | some c =>
    if c.waits.isSome || c.stalled then none
    else match c.todo with
      | .read p :: _ =>
        let (bs, bad, s1) := readPiece s clu c.key p
        some (modColl (drawnBy c.adds.length s1) clu fun c => afterRead s1 c bs bad)
      | .write p bs :: _ =>
        match p.entry.filter (·.repl) with
        | some e => let (s1, id) := callCollapse s e; some (modColl s1 clu fun c => { c with waits := some id })
        | none => some (modColl (writePiece s clu c.key p bs) clu fun c => { c with todo := c.todo.tail })
      | [] => addStep s clu c

/-- At most so many actions of the collective in progress. -/
def collSteps (clu : Nat) : (n : Nat) → State → State
  | 0, s => s
  | n + 1, s =>
    match collStep s clu with
    | some s1 => collSteps clu n s1
    | none => s

/-- What a poisoned source leaves: the accumulator poisoned as a whole (R303). -/
def poisonAcc (s : State) (clu : Nat) (bad : Bool) : State :=
  let a := (unitOf s clu).acc
  setAcc s clu { a with poison := a.poison || bad }

/-- The effect of a collective whose memory actions are done. -/
def performColl (s : State) (clu : Nat) (c : Coll) : State :=
  let u := unitOf s clu
  match c.instr with
  | .tclaim _ ta =>
    if holdsSlot u c.gid ta.toNat then s
    else setUnit s clu (zeroSlot { u with owners := mset u.owners ta.toNat c.gid } ta.toNat)
  | .trel _ ta => setUnit s clu { u with owners := mdel u.owners ta.toNat }
  | .tld _ ta .. | .tldR _ ta .. | .tldPx _ ta .. => finishLoad s clu c ta
  | .fmtctx .. =>
    setUnit s clu { u with groups := u.groups.map fun g => if g.gid = c.gid then { g with word := c.xa } else g }
  | .mma _ sh _ ta tb tc zero =>
    match groupOf s clu c.gid with
    | none => s
    | some g =>
      let x := (fmtCtx g.word).getD ⟨.bf16, .bf16, false, .fp32⟩
      setAcc s clu (mmaRun u ⟨ta.toNat, tb.toNat, tc.toNat, sh, x⟩ zero (field c.xa 0 24 - u.acc.row0)
        (field c.xa 24 24 - u.acc.col0))
  | .acfg _ hash .. =>
    let s1 := setAcc s clu (configure u.acc c.gid hash c.xa c.xb)
    if hash then stashWrite s1 clu c.xb.toNat (List.replicate 16 0) else s1
  | .aclr _ => setAcc s clu (clearAcc u.acc)
  | .drain .. | .drainT .. => setAcc s clu (drained1 u.acc)
  | .drainV _ vf _ => finishDrainV s clu c vf
  | .join .. | .ains .. => poisonAcc s clu c.bad
  | _ => s

/-- A collective is complete: its members' later accesses go on, its group dissolves if it is to, and waiting
    collectives are tried (R191, R215, R220). -/
def endColl (s : State) (clu : Nat) (c : Coll) : State :=
  let s1 := setUnit s clu { unitOf s clu with cur := none }
  retryGroups (dissolveDone (c.members.foldl (fun s m => doneAccess s m.1 m.2) s1) clu c.gid) clu

/-- The collective of a unit in the cycle in which it is to complete: the actions left, of which an append to the
    Bracken takes a further cycle (R252), and then its effect and its end. One that waits goes on later. -/
def forceColl (clu : Nat) : (n : Nat) → State → State
  | 0, s => s
  | n + 1, s =>
    match (unitOf s clu).cur with
    | none => s
    | some c =>
      if s.cycle < c.due + c.spilled || c.waits.isSome || c.stalled then s
      else match collStep s clu with
        | some s1 => forceColl clu n s1
        | none => endColl (performColl s clu c) clu c

/-- COLLECTIVE_COMPLETE: the collective of a unit takes a free number of its actions while its cycles pass, and
    the others, and its effect, when they have passed (R191, R220, R252). -/
def execCollectiveComplete (clu : Nat) (s : State) : Host.Outcome State Fault Refusal :=
  .next (forceColl clu (2 ^ 60) (collSteps clu (choose s 4096) (drawn s)))

/-- BRACKEN_RECHECK: the unit reads COUNT again, and a stalled collective goes on when it finds room; the stall
    adds to the cycles that it occupies the unit (R246, R247, R252). -/
def execBrackenRecheck (clu : Nat) (s : State) : Host.Outcome State Fault Refusal :=
  match (unitOf s clu).cur with
  | none => .next s
  | some c =>
    let a := (unitOf s clu).acc
    if !c.stalled then .next s
    else if a.bcap ≤ brackenCount s clu a then .next (modColl s clu fun c => { c with checked := s.cycle })
    else .next (modColl s clu fun c => { c with stalled := false, due := c.due + (s.cycle - c.since) })

/-! The collectives. -/

/-- TCLAIM (R401). -/
def execTclaim (d : Dep) (ta : TSlot) (s : State) : Host.Outcome State Fault Refusal := presentColl (.tclaim d ta) s

/-- TREL (R408). -/
def execTrel (d : Dep) (ta : TSlot) (s : State) : Host.Outcome State Fault Refusal := presentColl (.trel d ta) s

/-- TLD (R404). -/
def execTld (d : Dep) (ta : TSlot) (ra rb : XReg) (s : State) : Host.Outcome State Fault Refusal :=
  presentColl (.tld d ta ra rb) s

/-- TLD.R (R404). -/
def execTldR (d : Dep) (ta : TSlot) (ra rb : XReg) (s : State) : Host.Outcome State Fault Refusal :=
  presentColl (.tldR d ta ra rb) s

/-- TLD.PX (R404). -/
def execTldPx (d : Dep) (ta : TSlot) (ra rb : XReg) (s : State) : Host.Outcome State Fault Refusal :=
  presentColl (.tldPx d ta ra rb) s

/-- TST (R409). -/
def execTst (d : Dep) (ta : TSlot) (ra rb : XReg) (s : State) : Host.Outcome State Fault Refusal :=
  presentColl (.tst d ta ra rb) s

/-- FMTCTX (R360). -/
def execFmtctx (d : Dep) (ra : XReg) (s : State) : Host.Outcome State Fault Refusal := presentColl (.fmtctx d ra) s

/-- MMA (R374). -/
def execMma (d : Dep) (sh : Shape) (ra : XReg) (ta tb tc : TSlot) (zero : Bool) (s : State) :
    Host.Outcome State Fault Refusal :=
  presentColl (.mma d sh ra ta tb tc zero) s

/-- ACFG (R326). -/
def execAcfg (d : Dep) (hash : Bool) (ra rb : XReg) (s : State) : Host.Outcome State Fault Refusal :=
  presentColl (.acfg d hash ra rb) s

/-- ACLR (R327). -/
def execAclr (d : Dep) (s : State) : Host.Outcome State Fault Refusal := presentColl (.aclr d) s

/-- DRAIN (R350). -/
def execDrain (d : Dep) (ra : XReg) (s : State) : Host.Outcome State Fault Refusal := presentColl (.drain d ra) s

/-- DRAIN.T (R350). -/
def execDrainT (d : Dep) (ra : XReg) (s : State) : Host.Outcome State Fault Refusal := presentColl (.drainT d ra) s

/-- DRAIN.V (R233, R350). -/
def execDrainV (d : Dep) (vf : VReg) (ra : XReg) (s : State) : Host.Outcome State Fault Refusal :=
  presentColl (.drainV d vf ra) s

/-- JOIN (R363). -/
def execJoin (d : Dep) (ra rb : XReg) (s : State) : Host.Outcome State Fault Refusal := presentColl (.join d ra rb) s

/-- AINS (R329). -/
def execAins (d : Dep) (ra rb : XReg) (s : State) : Host.Outcome State Fault Refusal := presentColl (.ains d ra rb) s

/-- The value of ASTAT (R254). -/
def astatWord (u : Matrix) : Word :=
  let res := if u.acc.hash then u.acc.table.length else 16384
  let bit := fun (b : Bool) (k : Nat) => if b then 2 ^ k else 0
  BitVec.ofNat 64
    (u.acc.spill * 2 ^ 32 + bit (u.cur.any (·.stalled)) 31 + bit u.acc.hash 30 + bit u.acc.owner.isSome 29 + res)

/-- ASTAT (R254, R334). -/
def execAstat (d : Dep) (ra : XReg) (s : State) : Host.Outcome State Fault Refusal :=
  issue (.astat d ra) s fun _ t1 s =>
    .ok (variableResult s t1 d.sa [wrX ra (astatWord (unitOf s s.cur.clu))] 0)

/-! Barriers and convening. -/

/-- BAR (R335): the thread presents it. -/
def execBar (d : Dep) (b : BitVec 3) (s : State) : Host.Outcome State Fault Refusal :=
  match thread? s s.cur with
  | none => .fault .noThread
  | some t =>
    if !canIssue s s.cur t (.bar d b) then .next s
    else match entryTrap s s.cur t (.bar d b) with
      | some v => .next (raiseTrap s s.cur t v)
      | none => .next (tryBarrier (putPresent s s.cur t (.bar d b)) t.csr.gang.toNat t.csr.lnch.toNat b)

/-- CONVENE (R210, R214): the thread presents it, unless it is a member already or asks for more members
    than its gang has. -/
def execConvene (d : Dep) (rd : XReg) (p : BitVec 3) (n1 : BitVec 6) (s : State) : Host.Outcome State Fault Refusal :=
  let i := Instr.convene d rd p n1
  match thread? s s.cur with
  | none => .fault .noThread
  | some t =>
    if !canIssue s s.cur t i then .next s
    else match entryTrap s s.cur t i with
      | some v => .next (raiseTrap s s.cur t v)
      | none =>
        if t.grp.isSome then .next (raiseTrap s s.cur t (groupFault 5))
        else if t.csr.gsz.toNat < n1.toNat + 1 then .next (raiseTrap s s.cur t (groupFault 4))
        else .next (putPresent s s.cur t i)

/-- A thread that presents CONVENE at a point: its place and state, the count it names, and the cycle from
    which it counts. -/
structure AtPoint where
  loc : Loc
  thread : Thread
  n : Nat
  rd : XReg
  shown : Presented

/-- A presentation: its thread by uid, and its number. -/
def AtPoint.mark (a : AtPoint) : Nat × Nat := (a.thread.uid, a.shown.order)

/-- What a thread presents at a convening point of a gang. -/
def pointOf (gang lnch point : Nat) (e : Loc × Thread) : Option AtPoint :=
  match e.2.present with
  | some q =>
    match q.instr with
    | .convene _ rd p n1 =>
      if p.toNat = point && inGang gang lnch e.2 then some ⟨e.1, e.2, n1.toNat + 1, rd, q⟩ else none
    | _ => none
  | none => none

/-- Earlier cycle first, then lower TID (R211). -/
def AtPoint.before (a b : AtPoint) : Bool :=
  a.shown.cycle < b.shown.cycle || (a.shown.cycle = b.shown.cycle && a.thread.csr.tid.toNat < b.thread.csr.tid.toNat)

/-- An insertion in the order of counting. -/
def insertPoint (e : AtPoint) : List AtPoint → List AtPoint
  | [] => [e]
  | x :: xs => if e.before x then e :: x :: xs else x :: insertPoint e xs

/-- The threads at a point in the order in which they are counted: those that presented before this
    cycle (R211). -/
def atPoint (s : State) (clu gang lnch point : Nat) : List AtPoint :=
  (((clusterThreads s clu).filterMap (pointOf gang lnch point)).filter fun a => a.shown.cycle < s.cycle).foldl
    (fun l a => insertPoint a l) []

/-- A formed group of which a member has stopped presenting, be it that it presents anew, is no longer formed: its
    other members are counted again, as presentations of this cycle (R213). -/
def loseFormed (s : State) (clu : Nat) : State :=
  let here := (clusterThreads s clu).filterMap fun e => e.2.present.map fun p => (e.2.uid, p.order)
  let c := cluster s clu
  let broken := c.forming.filter fun f => f.members.any fun m => !here.contains m
  let again := broken.flatMap (·.members)
  let s1 := setCluster s clu { c with forming := c.forming.filter fun f => !broken.contains f }
  { s1 with
    threads := s1.threads.map fun e =>
      if e.2.present.any fun p => again.contains (e.2.uid, p.order) then
        (e.1, { e.2 with present := e.2.present.map fun p => { p with cycle := s.cycle - 1 } })
      else e }

/-- The gathering at a point goes through its presentations: each that names another count takes GROUP 4,
    and as many as the count form a group (R211, R214). -/
def gather (clu gang lnch point : Nat) : List AtPoint → (n : Nat) → (got : List (Nat × Nat)) → State → State
  | [], _, _, s => s
  | a :: as, n, got, s =>
    let n' := if got.isEmpty then a.n else n
    if a.n ≠ n' then gather clu gang lnch point as n' got (raiseTrap s a.loc a.thread (groupFault 4))
    else if got.length + 1 = n' then
      let c := cluster s clu
      gather clu gang lnch point as 0 []
        (setCluster s clu { c with forming := c.forming ++ [⟨gang, lnch, point, got ++ [a.mark]⟩] })
    else gather clu gang lnch point as n' (got ++ [a.mark]) s

/-- An insertion of a thread in ascending TID. -/
def insertTid (e : Loc × Thread) : List (Loc × Thread) → List (Loc × Thread)
  | [] => [e]
  | x :: xs => if e.2.csr.tid.toNat < x.2.csr.tid.toNat then e :: x :: xs else x :: insertTid e xs

/-- CONVENE issues for a member of a group: its later accesses follow those that the members issued before
    (R191, R211, R212). -/
def joinGroup (s0 : State) (gid : Nat) (accs : List (Nat × Nat)) (m : (Loc × Thread) × Nat) : State :=
  match m.1.2.present with
  | some p =>
    let (s, t1) := orderAfter s0 (issuePresented s0 m.1.2 p) accs
    let t2 := { t1 with grp := some gid, csr := { t1.csr with grank := BitVec.ofNat 64 m.2 } }
    let ws := match p.instr with
      | .convene _ rd _ _ => [wrX rd (BitVec.ofNat 64 m.2)]
      | _ => []
    { setThread s m.1.1 (addResult t2 ⟨s.nextId, p.instr.dep.sa, ws, 0, true⟩) with nextId := s.nextId + 1 }
  | none => s0

/-- The first group that waits takes the lowest free context, and its CONVENE issues for all of its members
    (R191, R211 to R213). -/
def bindFirst (s : State) (clu : Nat) : State :=
  let c := cluster s clu
  match c.forming with
  | [] => s
  | f :: rest =>
    let ms := ((clusterThreads s clu).filter fun e => e.2.present.any fun p => f.members.contains (e.2.uid, p.order)).foldl (fun l e => insertTid e l) []
    match (List.range 8).find? fun k => !c.mx.groups.any fun g => g.ctx = k with
    | none => s
    | some ctx =>
      if ms.length ≠ f.members.length then s
      else
        let ranked := ms.zip (List.range ms.length)
        let g : Group := { gid := s.nextId, gang := f.gang, lnch := f.lnch, ctx := ctx, word := 0x303
                           members := ranked.map fun m => (m.1.2.uid, m.2), dissolving := false }
        let s1 := setCluster s clu { c with forming := rest, mx := { c.mx with groups := c.mx.groups ++ [g] } }
        tally (ranked.foldl (fun s m => joinGroup s g.gid (accsOf (ms.map (·.2))) m) { s1 with nextId := s.nextId + 1 })
          clu 0x4 ms.length

/-- GROUP_FORM: the presentations at a convening point are counted, and waiting groups take contexts
    (R211, R213). -/
def execGroupForm (clu gang lnch point : Nat) (s : State) : Host.Outcome State Fault Refusal :=
  let s1 := loseFormed s clu
  let held := (cluster s1 clu).forming.flatMap (·.members)
  let fresh := (atPoint s1 clu gang lnch point).filter fun a => !held.contains a.mark
  let s2 := gather clu gang lnch point fresh 0 [] s1
  .next ((List.range 8).foldl (fun s _ => bindFirst s clu) s2)

/-- DISBAND (R215, R348). -/
def execDisband (b : Bool) (s : State) : Host.Outcome State Fault Refusal :=
  issue (.disband b) s fun t t1 s =>
    .ok (if t.grp.isSome then retryGroups (leaveGroup (setThread s s.cur t1) s.cur) s.cur.clu
      else setThread s s.cur t1)

/-- GROUP_DISSOLVE: a group that is to dissolve does, once its collectives have completed (R215). -/
def execGroupDissolve (clu gid : Nat) (s : State) : Host.Outcome State Fault Refusal :=
  .next (if (groupOf s clu gid).any (·.dissolving) then retryGroups (dissolveDone s clu gid) clu else s)

end Sys2Proof.Machine
end

