-- ==== Sys2Proof/Machine/Compare.lean ====
section
/-! DEFINITION. Compares with skip counts, and the passing of annulled instructions (R38 to R41, R341,
R357). -/

namespace Sys2Proof.Machine

/-- A condition on two operands of W bits (R78). -/
def condHolds (wd : Wid) (c : Cond) (a b : Nat) : Bool :=
  let w := widBits wd
  match c with
  | .eq => a = b
  | .ne => a ≠ b
  | .lt => sintNat w a < sintNat w b
  | .ge => sintNat w b ≤ sintNat w a
  | .ltu => a < b
  | .geu => b ≤ a
  | .le => sintNat w a ≤ sintNat w b
  | .gt => sintNat w b < sintNat w a
  | .leu => a ≤ b
  | .gtu => b < a
  | .bs => a &&& b ≠ 0
  | .bc => a &&& b = 0

/-- A compare: its result goes to a register, and a false condition annuls the next instructions
    (R38, R341). -/
def issueCompare (i : Instr) (s : State) (rd : BitVec 4) (skip : BitVec 2) (f : Thread → Bool × Flags) :
    Host.Outcome State Fault Refusal :=
  issue i s fun t t1 s =>
    let r := f t
    let t2 := { t1 with pipe := { t1.pipe with annul := if r.1 then 0 else skip.toNat } }
    .ok (fixedResult s t2 (.x (rd.setWidth 6)) (if r.1 then 1 else 0) (readTaint t.regs (usesOf i)) r.2)

/-- CMP (R341). -/
def execCmp (d : Dep) (wd : Wid) (c : Cond) (skip : BitVec 2) (rdx : BitVec 4) (ra rb : Opr) (s : State) :
    Host.Outcome State Fault Refusal :=
  issueCompare (.cmp d wd c skip rdx ra rb) s rdx skip fun t =>
    (condHolds wd c (lowBits wd (oval t ra)) (lowBits wd (oval t rb)), 0)

/-- CMPI (R341). -/
def execCmpi (d : Dep) (wd : Wid) (c : Cond) (skip : BitVec 2) (rd : BitVec 4) (ra : Opr) (imm : BitVec 32)
    (s : State) : Host.Outcome State Fault Refusal :=
  issueCompare (.cmpi d wd c skip rd ra imm) s rd skip fun t =>
    (condHolds wd c (lowBits wd (oval t ra)) (lowBits wd (sextNat 32 imm.toNat)), 0)

/-- FCMP (R357). -/
def execFcmp (d : Dep) (f : FWid) (c : FCond) (skip : BitVec 2) (rdx : BitVec 4) (ra rb : Opr) (s : State) :
    Host.Outcome State Fault Refusal :=
  issueCompare (.fcmp d f c skip rdx ra rb) s rdx skip fun t =>
    fpCompare (fwidFmt f) c (fwidBits f (oval t ra)) (fwidBits f (oval t rb))

/-- A thread past its annulled instruction: the PC advances, the pending count falls, and the instruction
    counts as completed (R38, R39). -/
def passAnnulled (t : Thread) (n cycle : Nat) : Thread :=
  { t with
    pc := nextPc t.pc n
    pipe := { t.pipe with annul := t.pipe.annul - 1, hist := cycle :: t.pipe.hist.take 2 } }

/-- ANNUL_PASS: the thread at a location passes its annulled instruction (R30, R38). -/
def execAnnulPass (l : Loc) (s : State) : Host.Outcome State Fault Refusal :=
  match thread? s l with
  | none => .next s
  | some t =>
    match nextOf s l t with
    | .annul _ n => .next (if mayRun t then tally (setThread s l (passAnnulled t n s.cycle)) l.clu 0x5 1 else s)
    | _ => .next s

end Sys2Proof.Machine
end

