-- ==== Sys2Proof/Machine/Control.lean ====
section
/-! DEFINITION. Control flow, returns, control registers and the ends of a thread: the instructions of
class 0 other than those of the supervisors. -/

namespace Sys2Proof.Machine

/-- An instruction that halts its thread alone as illegal when its turn comes: an unassigned or read-only
    control register (R86, R110). -/
def issueIllegal (i : Instr) (s : State) : Host.Outcome State Fault Refusal :=
  match thread? s s.cur with
  | none => .fault .noThread
  | some t => .next (if canIssue s s.cur t i then raiseIllegal s s.cur t i.word else s)

/-- NOP (R377). -/
def execNop (b : Bool) (s : State) : Host.Outcome State Fault Refusal := issueThread (.nop b) s fun _ t1 => t1

/-- BR (R338). -/
def execBr (d : Dep) (disp : BitVec 19) (idx : BitVec 5) (s : State) : Host.Outcome State Fault Refusal :=
  issueThread (.br d disp idx) s fun t t1 => { t1 with pc := branchTarget t.pc disp idx.toNat }

/-- CALL (R338). -/
def execCall (d : Dep) (disp : BitVec 19) (idx : BitVec 5) (s : State) : Host.Outcome State Fault Refusal :=
  issue (.call d disp idx) s fun t t1 s =>
    .ok (fixedResult s { t1 with pc := branchTarget t.pc disp idx.toNat } (.x 15) (nextPc t.pc s.curN) false 0)

/-- CALLR (R338). -/
def execCallr (d : Dep) (r : XReg) (s : State) : Host.Outcome State Fault Refusal :=
  issue (.callr d r) s fun t t1 s =>
    .ok (fixedResult s { t1 with pc := xval t r } (.x 15) (nextPc t.pc s.curN) (xtaint t r) 0)

/-- JR (R364). -/
def execJr (d : Dep) (r : XReg) (s : State) : Host.Outcome State Fault Refusal :=
  issueThread (.jr d r) s fun t t1 => { t1 with pc := xval t r }

/-- RET (R386). -/
def execRet (b : Bool) (s : State) : Host.Outcome State Fault Refusal :=
  issueThread (.ret b) s fun t t1 => { t1 with pc := xval t 15 }

/-- TRAP (R407). -/
def execTrap (d : Dep) (r : XReg) (s : State) : Host.Outcome State Fault Refusal :=
  issue (.trap d r) s fun t _ _ => .error ⟨.trap, xval t r⟩

/-- ERET (R352). -/
def execEret (b : Bool) (s : State) : Host.Outcome State Fault Refusal :=
  issueThread (.eret b) s fun _ t1 => returnTrap t1

/-- RETH (R387). -/
def execReth (b : Bool) (s : State) : Host.Outcome State Fault Refusal :=
  issueThread (.reth b) s fun _ t1 => returnLight t1

/-- Where YIELD has no effect: in slot 0, in a migration slot, in a member of a blocked gang, and in a member of an issued
    collective (R429). -/
def yieldIdle (s : State) (l : Loc) (t : Thread) : Bool :=
  l.supervisor || l.migration || gangBlocked s l.clu t || inCollective s l.clu t

/-- YIELD (R429). -/
def execYield (b : Bool) (s : State) : Host.Outcome State Fault Refusal :=
  issue (.yield b) s fun _ t1 s => .ok (setThread s s.cur (if yieldIdle s s.cur t1 then t1 else expire s s.cur t1))

/-- The fetch of a code line for a prefetch: dropped where the page is missing or not to be fetched
    (R171, R380). -/
def prefetchCode (s : State) (l : Loc) (t : Thread) (va : Nat) : State :=
  let c := threadCtx l t
  match translate s c va with
  | (.leaf e, s1) =>
    if fetchAllowed c e then
      let pa := readPa s1 c e va
      let (k, s2) := codeFetch s1 l c.key pa
      fillCode s2 l.coreIdx (codeKey t pa) k
    else s1
  | (_, s1) => s1

/-- PFI (R380). The hardware may drop it. -/
def execPfi (d : Dep) (disp : BitVec 19) (s : State) : Host.Outcome State Fault Refusal :=
  issue (.pfi d disp) s fun t t1 s =>
    let s1 := drawn (setThread s s.cur t1)
    .ok (if Config.happens s.free then prefetchCode s1 s.cur t (branchTarget t.pc disp 0).toNat else s1)

/-- A thread halts by HALT (R361): TEPC takes its PC, the cause is 0x0F, TVAL is 0. -/
def haltThread (s : State) (l : Loc) (t : Thread) : State :=
  raiseReq s l t { cause := 0x0F, tval := 0, pc := t.pc, skp := 0, alone := true, hi := 0 }

/-- HALT (R361). -/
def execHalt (b : Bool) (s : State) : Host.Outcome State Fault Refusal :=
  issue (.halt b) s fun t _ s => .ok (haltThread s s.cur t)

/-- A thread has words in its replay windows, or a COPYQ whose token is deposited has still to send its word
    (R261, R353). -/
def holdsWords (s : State) (t : Thread) : Bool :=
  (t.ports.toList.any fun p => !p.win.isEmpty)
    || s.flight.copies.any fun c => c.uid = t.uid && c.deposited && s.flight.tokens.all fun m => m.copy ≠ some c.id

/-- EXIT of a thread that waits for nothing (R353): it leaves its group, then waits for its replay windows,
    and then leaves its slot; in slot 0 it halts. -/
def exitThread (s : State) (l : Loc) (i : Instr) (t0 : Thread) : State :=
  let s2 := if t0.grp.isSome then retryGroups (leaveGroup s l) l.clu else s
  match thread? s2 l with
  | none => s2
  | some t =>
    if holdsWords s2 t then
      setThread s2 l { t with present := some ⟨i, s2.curN, s2.cycle, s2.nextId⟩ }
    else if l.supervisor then haltThread s2 l t
    else
      let s3 := endThread s2 l t
      tryBarriers s3 t.csr.gang.toNat t.csr.lnch.toNat

/-- EXIT (R353). -/
def execExit (b : Bool) (s : State) : Host.Outcome State Fault Refusal :=
  issue (.exit b) s fun t _ s => .ok (exitThread s s.cur (.exit b) t)

/-! Control registers. -/

/-- Numbers that R109 assigns. -/
def csrAssigned (n : Nat) : Bool :=
  n ≤ 0x17 || (0x20 ≤ n && n ≤ 0x27) || (0x100 ≤ n && n ≤ 0x109) || n = 0x110 || n = 0x120 || n = 0x121 || n = 0x130

/-- Control registers that only the supervisor level reads (R109). -/
def csrSupervisor (n : Nat) : Bool := 0x100 ≤ n

/-- Control registers that no level writes (R109). -/
def csrReadOnly (n : Nat) : Bool :=
  n ≤ 8 || n = 0x10 || n = 0x12 || n = 0x14 || n = 0x16 || n = 0x17 || n = 0x110

/-- Control registers that the user level writes (R109). -/
def csrUserWrites (n : Nat) : Bool := n < 0x100 && !csrReadOnly n && n ≠ 0x13 && n < 0x20

/-- The value of a control register of the thread at a location (R109, R110). -/
def csrValue (s : State) (l : Loc) (t : Thread) (n : Nat) : Word :=
  let c := t.csr
  let k := cluster s l.clu
  match n with
  | 0x000 => c.tid.setWidth 64
  | 0x001 => c.gsz.setWidth 64
  | 0x002 => c.gang.setWidth 64
  | 0x003 => c.lnch.setWidth 64
  | 0x004 => BitVec.ofNat 64 l.slot
  | 0x005 => BitVec.ofNat 64 l.core
  | 0x006 => BitVec.ofNat 64 (l.clu % 32)
  | 0x007 => BitVec.ofNat 64 (l.clu / 32)
  | 0x008 => BitVec.ofNat 64 (s.cycle + Config.dieSkew (l.clu / 32) % 33)
  | 0x009 => c.rand.setWidth 64
  | 0x00A => c.fpctl.setWidth 64
  | 0x00B => c.tvec
  | 0x00C => c.tepc
  | 0x00D => c.tcause
  | 0x00E => c.tval
  | 0x00F => c.uepc
  | 0x010 => c.xferid
  | 0x011 => c.qhnd
  | 0x012 => c.qctlv
  | 0x013 => c.wpriv
  | 0x014 => 0xFE00_0000_0000_0000
  | 0x015 => c.nakbo.setWidth 64
  | 0x016 => c.grank
  | 0x017 => if c.light then 1 else 0
  | 0x100 => c.prio.setWidth 64
  | 0x101 => c.slice.setWidth 64
  | 0x110 => if (coreOf s l.coreIdx).p64 then 1 else 0
  | 0x120 => ptbaseMask c.ptbase
  | 0x121 => c.keyid.setWidth 64
  | 0x130 => c.xwin
  | _ =>
    if 0x20 ≤ n ∧ n ≤ 0x27 then k.evc.get (Fin.ofNat 8 (n - 0x20))
    else if 0x102 ≤ n ∧ n ≤ 0x109 then (k.evsel.get (Fin.ofNat 8 (n - 0x102))).setWidth 64
    else 0

/-- What CSRR reads: a user-level read of an event counter that is not enabled gives 0 (R110). -/
def csrRead (s : State) (l : Loc) (t : Thread) (n : Nat) : Word :=
  if 0x20 ≤ n && n ≤ 0x27 && !supLevel l t
      && !((cluster s l.clu).evsel.get (Fin.ofNat 8 (n - 0x20))).getLsbD 17 then 0
  else csrValue s l t n

/-- FPCTL from a written value: MODE 5 to 7 stores 0 (R109, R110). -/
def fpctlOf (v : Word) : BitVec 8 :=
  let w := v.setWidth 8
  if 5 ≤ w.toNat % 8 then w &&& 0xF8 else w

/-- A control register of a thread written: the writable fields take the value (R109, R110). -/
def csrSet (c : Csrs) (n : Nat) (v : Word) : Csrs :=
  match n with
  | 0x009 => { c with rand := v.setWidth 32 }
  | 0x00A => { c with fpctl := fpctlOf v }
  | 0x00B => { c with tvec := v }
  | 0x00C => { c with tepc := v }
  | 0x00D => { c with tcause := (c.tcause &&& 0xC000_0000_0000_0000) ||| (v &&& 0x3FF) }
  | 0x00E => { c with tval := v }
  | 0x00F => { c with uepc := v }
  | 0x011 => { c with qhnd := v }
  | 0x013 => { c with wpriv := v &&& 0x00FF_FFFF_FFFF_0000 }
  | 0x015 => { c with nakbo := v.setWidth 20 }
  | 0x100 => { c with prio := v.setWidth 2 }
  | 0x101 => { c with slice := v.setWidth 32 }
  | 0x120 => { c with ptbase := ptbaseMask v }
  | 0x121 => { c with keyid := v.setWidth 6 }
  | 0x130 => { c with xwin := v &&& 0x8000_0000_0000_03FF }
  | _ => c

/-- A control register written: of the thread, or of its cluster (R109). -/
def csrWrite (s : State) (l : Loc) (t : Thread) (n : Nat) (v : Word) : State :=
  let k := cluster s l.clu
  if 0x20 ≤ n ∧ n ≤ 0x27 then
    setCluster (setThread s l t) l.clu { k with evc := k.evc.set ((n - 0x20) % 8) v (Nat.mod_lt _ (by decide)) }
  else if 0x102 ≤ n ∧ n ≤ 0x109 then
    setCluster (setThread s l t) l.clu { k with evsel := k.evsel.set ((n - 0x102) % 8) (storedSel false v) (Nat.mod_lt _ (by decide)) }
  else setThread s l { t with csr := csrSet t.csr n v }

/-- CSRR (R110, R345). -/
def execCsrr (d : Dep) (csr : BitVec 12) (rd : Opr) (s : State) : Host.Outcome State Fault Refusal :=
  if !csrAssigned csr.toNat then issueIllegal (.csrr d csr rd) s
  else issue (.csrr d csr rd) s fun t t1 s =>
    if csrSupervisor csr.toNat && !supLevel s.cur t then .error ⟨.priv, 0⟩
    else .ok (fixedResult s t1 rd (csrRead s s.cur t csr.toNat) false 0)

/-- CSRW (R110, R345). -/
def execCsrw (d : Dep) (csr : BitVec 12) (r : XReg) (s : State) : Host.Outcome State Fault Refusal :=
  if !csrAssigned csr.toNat || csrReadOnly csr.toNat then issueIllegal (.csrw d csr r) s
  else issue (.csrw d csr r) s fun t t1 s =>
    if !csrUserWrites csr.toNat && !supLevel s.cur t then .error ⟨.priv, 0⟩
    else .ok (csrWrite s s.cur t1 csr.toNat (xval t r))

end Sys2Proof.Machine
end

