-- ==== Sys2Proof/Machine/Heath.lean ====
section
/-! DEFINITION. The Heath and the spill engine (R36, R37, R289 to R293), repartitioning, SPILL and RSTR
(R50, R385, R389, R390), and the emulation window (R298 to R300, R427, R428). -/

namespace Sys2Proof.Machine

/-! Threads wherever they are. -/

/-- The live thread of a uid, in a slot, in the Heath or on the way between clusters. -/
def liveOf (s : State) (uid : Nat) : Option Thread := (liveThreads s).find? fun t => t.uid = uid

/-- The live thread that started in an origin slot (R46, R265). -/
def originOf (s : State) (l : Loc) : Option Thread := (liveThreads s).find? fun t => t.origin = l

/-- The words in the buffers and replay windows of a thread (R291). -/
def portWords (t : Thread) : Nat := (t.ports.toList.map fun p => p.inb.length + p.win.length).sum

/-- The thread of a record changed; its record grows and shrinks with the words of its ports (R291). -/
def HeathRec.modThread (r : HeathRec) (f : Thread → Thread) : HeathRec :=
  { r with thread := f r.thread, size := r.size + 16 * portWords (f r.thread) - 16 * portWords r.thread }

/-- The live thread of a uid changed, wherever it is. -/
def modLive (s : State) (uid : Nat) (f : Thread → Thread) : State :=
  let g := fun (t : Thread) => if t.uid = uid then f t else t
  { s with
    threads := s.threads.map fun e => (e.1, g e.2)
    clusters := s.clusters.map fun e => (e.1, { e.2 with heath := e.2.heath.map fun r => (r.1, r.2.modThread g) })
    flight := { s.flight with migs := s.flight.migs.map fun m => { m with thread := g m.thread } } }

/-! Records. -/

/-- The register context of a thread in bytes (R101). -/
def contextBytes (light p64 : Bool) : Nat := if light then 160 else if p64 then 1600 else 832

/-- The length of the record of a thread of a core (R291). -/
def recordBytes (s : State) (l : Loc) (t : Thread) : Nat :=
  192 + contextBytes t.csr.light (coreOf s l.coreIdx).p64 + 16 * portWords t

/-- The bytes of a number, from an offset of its control block on, followed by those of the fields after it. -/
def fieldBytes (fs : List (Nat × Nat)) : List Byte := fs.flatMap fun f => leBytes f.1 f.2

/-- WAIT of a record (R291). -/
def waitCode : Wait → Nat
  | .none => 0
  | .reg n => 2 ^ 14 + n.toNat
  | .port q => 2 * 2 ^ 14 + q.toNat
  | .take k => 3 * 2 ^ 14 + k % 1024

/-- The control block of a record, 192 bytes: each field with its width in bytes, in ascending order (R291). -/
def controlBlock (r : HeathRec) : List Byte :=
  let t := r.thread
  let c := t.csr
  let bit0 := fun (w : Word) => w.toNat / 2 * 2
  fieldBytes
    [(8, t.pc.toNat), (8, c.tvec.toNat), (8, c.tepc.toNat), (8, c.tcause.toNat), (8, c.tval.toNat), (8, c.uepc.toNat)
     , (8, c.qhnd.toNat), (8, c.qctlv.toNat), (8, c.xferid.toNat), (8, c.ptbase.toNat), (8, c.wpriv.toNat)
     , (4, c.tid.toNat), (4, c.gsz.toNat), (4, c.gang.toNat), (4, c.lnch.toNat), (4, c.rand.toNat)
     , (4, c.slice.toNat - t.sliceCount), (8, bit0 t.regs.full), (8, bit0 t.regs.taint), (4, c.nakbo.toNat)
     , (1, c.fpctl.toNat), (1, c.prio.toNat), (1, c.keyid.toNat), (1, c.grank.toNat % 256), (2, waitCode r.wait)
     , (2, portWords t), (2, t.origin.core * 256 + t.origin.slot), (2, if c.light then 1 else 0)
     , (8, r.readyAt.getD 0), (4, c.slice.toNat), (36, 0)]

/-- The register context of a thread: x registers, v registers and port descriptors (R101). -/
def contextImage (p64 : Bool) (t : Thread) : List Byte :=
  let n := if t.csr.light then 16 else if p64 then 64 else 32
  let xs := (List.range n).map fun i => (8, (xval t (BitVec.ofNat 6 i)).toNat)
  let vs := if t.csr.light then [] else (List.range n).map fun i => (16, (vval t (BitVec.ofNat 6 i)).toNat)
  let qs := t.ports.toList.map fun p => (if t.csr.light then 4 else 8, p.desc.toNat)
  fieldBytes (xs ++ vs ++ qs)

/-- A unit of the extension (R291). -/
def unitBytes (desc port : Nat) (win : Bool) (w : PWord) : List Byte :=
  let flags := port * 4 + (if win then 2 else 0) + (if w.ctl then 1 else 0)
  fieldBytes [(8, w.word.toNat), (8, desc * 2 ^ 8 + flags)]

/-- The extension: the inbound words of ports 0 to 7, then those of their replay windows (R291). -/
def extension (t : Thread) : List Byte :=
  let ps := (List.range t.ports.toList.length).zip t.ports.toList
  ps.flatMap (fun e => e.2.inb.flatMap (unitBytes 0 e.1 false))
    ++ ps.flatMap fun e => e.2.win.flatMap fun w => unitBytes w.desc.toNat e.1 true w.w

/-- The bytes of a record in the Heath (R291). -/
def recordImage (s : State) (r : HeathRec) : List Byte :=
  controlBlock r ++ contextImage (coreOf s r.core).p64 r.thread ++ extension r.thread

/-- Offsets of the Heath at which a record of some bytes fits: multiples of 64 (R6, R389). -/
def roomFor (c : Cluster) (n : Nat) : List Nat :=
  ((List.range 16384).map (64 * ·)).filter fun o =>
    o + n ≤ 2 ^ 20 && c.heath.all fun r => o + n ≤ r.1 || r.1 + r.2.size ≤ o

/-- Whether the Heath of a cluster has room for the record of a thread (R290). -/
def hasRoom (s : State) (l : Loc) (t : Thread) : Bool := !(roomFor (cluster s l.clu) (recordBytes s l t)).isEmpty

/-! Waits of threads that may be saved. -/

/-- The lowest-numbered empty port that an instruction pops. -/
def emptyPop (t : Thread) (u : Uses) : Option PReg :=
  ([0, 1, 2, 3, 4, 5, 6, 7] : List PReg).find? fun q => u.pops.contains q && (portOf t q).inb.isEmpty

/-- What a thread waits for at its next instruction: the register or port of WAITF, the slot of a TAKE that
    is not ready, once the register that names it is full, an empty port that is read (R206, R270, R423, R424). -/
def waitOf (s : State) (l : Loc) (t : Thread) : Wait :=
  match nextOf s l t with
  | .run i _ _ =>
    match i with
    | .waitf _ (.x n) | .waitfPark _ (.x n) => if t.regs.full.getLsbD n.toNat || n = 0 then .none else .reg n
    | .waitf _ (.q q) | .waitfPark _ (.q q) => if (portOf t q).inb.isEmpty then .port q else .none
    | .take _ _ ra | .takeS _ _ ra _ =>
      if takeReady (slotOf s l.clu (xval t ra)) || !(ra = 0 || t.regs.full.getLsbD ra.toNat) then .none
      else .take ((xval t ra).toNat % 1024)
    | _ => match emptyPop t (usesOf i) with
      | some q => .port q
      | none => .none
  | _ => .none

/-- Whether the wait of a thread is parkable: that of TAKE, WAITF.PARK and a read of an empty port, outside
    the migration slots (R47, R206, R270, R424). -/
def parkable (s : State) (l : Loc) (t : Thread) : Bool :=
  !l.migration && waitOf s l t ≠ .none && (match nextOf s l t with
    | .run (.waitf ..) _ _ => false
    | _ => true)

/-- Whether the condition that a saved thread waits for holds (R292). -/
def waitMet (c : Cluster) (t : Thread) : Wait → Bool
  | .none => true
  | .reg n => n = 0 || t.regs.full.getLsbD n.toNat
  | .port q => !(portOf t q).inb.isEmpty
  | .take k => ((mget c.subs k).getD SubSlot.zero).full

/-- The saved threads of a cluster whose conditions hold become ready (R292). -/
def wakeSaved (s : State) (clu : Nat) : State :=
  let c := cluster s clu
  let f := fun (r : HeathRec) =>
    if r.readyAt.isNone && waitMet c r.thread r.wait then { r with readyAt := some s.cycle } else r
  setCluster s clu { c with heath := c.heath.map fun e => (e.1, f e.2) }

/-- A refused word wakes a saved thread that waits on its port (R267, R292). -/
def wakePort (s : State) (uid : Nat) (q : PReg) : State :=
  let f := fun (r : HeathRec) =>
    if r.thread.uid = uid && r.wait = .port q && r.readyAt.isNone then { r with readyAt := some s.cycle } else r
  { s with
    clusters := s.clusters.map fun e => (e.1, { e.2 with heath := e.2.heath.map fun r => (r.1, f r.2) }) }

/-! Choice of the thread to restore. -/

/-- A member of a gang that blocks on a cluster, with the order in which it blocked (R37). -/
def blockedAt (s : State) (clu : Nat) (t : Thread) : Option Nat :=
  least (((clusterThreads s clu).filter fun e => inGang t.csr.gang.toNat t.csr.lnch.toNat e.2 && blocksGang e.2).filterMap
    fun e => e.2.present.map (·.order))

/-- The effective class of a saved thread: one less for each full slice that it has waited ready, but not
    below 1 (R36). -/
def effectiveClass (s : State) (r : HeathRec) : Nat :=
  let p := r.thread.csr.prio.toNat
  match r.readyAt with
  | some c => if p = 0 then 0 else if r.thread.csr.slice = 0 then p else max 1 (p - (s.cycle - c) / r.thread.csr.slice.toNat)
  | none => p

/-- Whether a saved thread waits for a push or a port (R36). -/
def wokenClass0 (r : HeathRec) : Bool :=
  r.thread.csr.prio = 0 && r.readyAt.isSome && match r.wait with
    | .port _ | .take _ => true
    | _ => false

/-- The rank of a saved thread in the order of restores, smallest first, or nothing for one that is not to
    be restored: class-0 threads woken by a push or a port, then members of blocked gangs in the order in which
    the gangs blocked, then all others by effective class and cycle (R36, R37, R390). -/
def restoreRank (s : State) (clu : Nat) (r : HeathRec) : Option (Nat × Nat × Nat) :=
  match blockedAt s clu r.thread, r.readyAt with
  | some o, _ => if wokenClass0 r then some (0, 0, r.readyAt.getD 0) else some (1, o, r.readyAt.getD s.cycle)
  | none, some c =>
    if r.held then none
    else if wokenClass0 r then some (0, 0, c)
    else some (2, effectiveClass s r, c)
  | none, none => none

/-- The order of triples. -/
def tripleLt (a b : Nat × Nat × Nat) : Bool :=
  a.1 < b.1 || (a.1 = b.1 && (a.2.1 < b.2.1 || (a.2.1 = b.2.1 && a.2.2 < b.2.2)))

/-- The record that is to be restored next, by offset: the one that the engine is restoring, or the first in the
    order of restores. -/
def nextRestore (s : State) (clu : Nat) : Option (Nat × HeathRec) :=
  let h := (cluster s clu).heath
  (h.find? fun e => e.2.busy).or
    ((h.foldl
      (fun (best : Option ((Nat × Nat × Nat) × Nat × HeathRec)) e =>
        match restoreRank s clu e.2, best with
        | some k, some b => if tripleLt k b.1 then some (k, e) else some b
        | some k, none => some (k, e)
        | none, b => b) none).map (·.2))

/-! Choice of the thread to save. -/

/-- Whether a class-0 thread may be saved by the engine: only for a class-0 thread that is to be restored
    (R290). -/
def classAllows (s : State) (clu : Nat) (t : Thread) : Bool :=
  t.csr.prio ≠ 0 || (match nextRestore s clu with
    | some r => r.2.thread.csr.prio = 0
    | none => false)

/-- From which cycle a thread counts as expired: its expiry, or the 256th cycle of a parkable wait (R290,
    R424). -/
def expiredFrom (s : State) (l : Loc) (t : Thread) : Option Nat :=
  match t.expired, t.waitSince with
  | some c, _ => some c
  | none, some w => if parkable s l t && w + 256 ≤ s.cycle then some (w + 256) else none
  | none, none => none

/-- The rank of an expired thread, smallest first: highest PRIO number, then earliest expiry (R290); ties in the
    order of cores and slots (log 107). -/
def expiredRank (s : State) (clu : Nat) (e : Loc × Thread) : Option (Nat × Nat × Nat) :=
  if neverSaved s e.1 e.2 || !classAllows s clu e.2 then none
  else (expiredFrom s e.1 e.2).map fun c => (3 - e.2.csr.prio.toNat, c, e.1.key)

/-- The rank of a thread that makes room for a member of a blocked gang: highest class number, expired
    threads by expiry, then the others by the slice cycles that remain, SLICE 0 last (R37). -/
def victimRank (s : State) (clu : Nat) (e : Loc × Thread) : Option (Nat × Nat × Nat) :=
  if neverSaved s e.1 e.2 || !classAllows s clu e.2 then none
  else
    let c := 3 - e.2.csr.prio.toNat
    match e.2.expired with
    | some x => some (c, 0, x * 1024 + e.1.key % 1024)
    | none =>
      if e.2.csr.slice = 0 then some (c, 2, e.1.key % 1024)
      else some (c, 1, (e.2.csr.slice.toNat - e.2.sliceCount) * 1024 + e.1.key % 1024)

/-- The thread of a cluster with the smallest rank. -/
def leastRank (s : State) (clu : Nat) (rank : Loc × Thread → Option (Nat × Nat × Nat)) : Option Loc :=
  ((clusterThreads s clu).foldl
    (fun (best : Option ((Nat × Nat × Nat) × Loc)) e =>
      match rank e, best with
      | some k, some b => if tripleLt k b.1 then some (k, e.1) else some b
      | some k, none => some (k, e.1)
      | none, b => b) none).map (·.2)

/-- The restore that comes next has no slot. -/
def restoreLacksSlot (s : State) (clu : Nat) : Bool :=
  match nextRestore s clu with
  | some r => (restoreSlot s clu r.2).isNone
  | none => false

/-- Whether the restore that comes next is that of a member of a blocked gang (R37). -/
def restoresBlocked (s : State) (clu : Nat) : Bool :=
  match nextRestore s clu with
  | some r => (blockedAt s clu r.2.thread).isSome
  | none => false

/-- The engine may begin to save the thread: at a parkable wait of 256 cycles, or as the one that R37 or
    R290 chooses while the next restore lacks a slot (R37, R289, R290, R424). -/
def maySave (s : State) (l : Loc) (t : Thread) : Bool :=
  let waits := parkable s l t && (match t.waitSince with
    | some w => decide (w + 256 ≤ s.cycle)
    | none => false)
  let chosen := restoreLacksSlot s l.clu &&
    decide ((if restoresBlocked s l.clu then leastRank s l.clu (victimRank s l.clu)
      else leastRank s l.clu (expiredRank s l.clu)) = some l)
  !neverSaved s l t && (waits || chosen) && hasRoom s l t

/-! Saving. -/

/-- The status word of SPILL and RSTR (R389). -/
def spillWord (status place : Nat) : Word := BitVec.ofNat 64 (status * 2 ^ 56 + place)

/-- A result of a thread becomes known: the value of its one register. -/
def answerResult (s : State) (uid id : Nat) (v : Word) : State :=
  let f := fun (r : Result) =>
    if r.id = id then { r with writes := r.writes.map fun w => { w with val := v.setWidth 128 }, ready := true } else r
  { s with
    threads := s.threads.map fun e =>
      if e.2.uid = uid then (e.1, { e.2 with pipe := { e.2.pipe with results := e.2.pipe.results.map f } }) else e }

/-- A save ends without a record: a SPILL that asked for it completes with a status (R390). -/
def dropSave (s : State) (clu : Nat) (r : SaveReq) (status : Nat) : State :=
  let c := cluster s clu
  let s1 := setCluster s clu { c with saves := c.saves.erase r }
  match r.asker with
  | some a => answerResult s1 a.1 a.2 (spillWord status 0)
  | none => s1

/-- Saves of threads that have left, or that may no longer be saved, end (R25, R390). -/
def cleanSaves (s : State) (clu : Nat) : State :=
  (cluster s clu).saves.foldl
    (fun s r =>
      match locOf s r.uid with
      | none => dropSave s clu r 1
      | some l =>
        match thread? s l with
        | some t => if l.clu ≠ clu || neverSaved s l t then dropSave s clu r 1 else s
        | none => dropSave s clu r 1) s

/-- A thread's record is written to the Heath and its slot becomes free (R290 to R292). Words on the way
    stay in their windows. -/
def writeRecord (s : State) (l : Loc) (t : Thread) (r : SaveReq) : State :=
  let c := cluster s l.clu
  let n := recordBytes s l t
  match (roomFor c n)[choose s (roomFor c n).length]? with
  | none => dropSave s l.clu r 2
  | some o =>
    let w := waitOf s l t
    let t1 := { t with pipe := { t.pipe.fresh 0 with block := none }, expired := none, waitSince := none }
    let x : HeathRec := { thread := t1, core := l.coreIdx, slot := l.slot, wait := w, size := n, held := r.asker.isSome, busy := false
                          readyAt := if waitMet c t1 w then some s.cycle else none, broken := false }
    let s1 := drawn (setCluster (delThread s l) l.clu { c with heath := mset c.heath o x, saves := c.saves.erase r })
    let s2 := tally s1 l.clu 0x50 1
    match r.asker with
    | some a => answerResult s2 a.1 a.2 (spillWord 0 o)
    | none => s2

/-- Nothing is held that comes before a save: no annulment, trap, fault or light interrupt (R40, R290). -/
def quiet (t : Thread) : Bool := t.pipe.annul = 0 && t.trap.isNone && t.gfault.isNone && !irqReady t

/-- HEATH_SAVE: the engine begins to save a thread, or writes the record of the one that it saves once the
    thread is at rest (R67, R290). -/
def execHeathSave (l : Loc) (s : State) : Host.Outcome State Fault Refusal :=
  match thread? s l with
  | none => .next s
  | some t =>
    let c := cluster s l.clu
    match c.saves with
    | [] => .next (if maySave s l t then setCluster s l.clu { c with saves := [⟨t.uid, none⟩] } else s)
    | r :: _ =>
      if r.uid ≠ t.uid then .next s
      else if neverSaved s l t then .next (dropSave s l.clu r 1)
      else if quiet t && drained t s.cycle then .next (writeRecord s l t r)
      else .next s

/-! Restoring. -/

/-- The replay windows of a restored thread: the head word is transmitted at once and counts anew (R268). -/
def restartPort (p : Port) : Port :=
  match p.win with
  | [] => p
  | w :: ws => { p with win := { w with flying := true, tries := 1, due := 0 } :: ws }

/-- The right of a member to a slot of its gang's reservation goes with it: the slot that it was saved from
    leaves the reservation and the one that it returns to joins it, unless a gang reserves that one already
    (R20, R23; log 48). -/
def moveRight (s : State) (clu : Nat) (r : HeathRec) (l : Loc) : State :=
  let old : Loc := ⟨clu, r.core % 4, r.slot⟩
  if reserved s l then s
  else
    let c := cluster s clu
    let f := fun (g : GangRec) =>
      if inGang g.gang g.lnch r.thread && g.slots.contains old then { g with slots := l :: g.slots.erase old } else g
    setCluster s clu { c with gangs := c.gangs.map f }

/-- A record goes back to a slot: no tag is pending, the slice starts again (R60, R291, R292). The thread of
    a broken record halts alone with POISON at its saved PC (R302), which TVAL takes too (log 79). -/
def restoreAt (s0 : State) (clu off : Nat) (r : HeathRec) (l : Loc) : State :=
  let s := moveRight s0 clu r l
  let c := cluster s clu
  let t := { r.thread with sliceCount := 0, expired := none, ports := r.thread.ports.map restartPort }
  let s1 := tally (setThread (setCluster s clu { c with heath := mdel c.heath off }) l t) clu 0x51 1
  if r.broken then
    raiseReq s1 l t { cause := Cause.poison.code, tval := t.pc, pc := t.pc, skp := 0, alone := true, hi := 0 }
  else s1

/-- HEATH_RESTORE: the engine begins to restore the record that comes next, and then it goes to the lowest free
    full slot; where that has been taken meanwhile, the engine looks again (R36, R292, R293, R390). -/
def execHeathRestore (clu off : Nat) (s : State) : Host.Outcome State Fault Refusal :=
  match nextRestore s clu with
  | none => .next s
  | some r =>
    let mark := fun (b : Bool) =>
      let c := cluster s clu
      setCluster s clu { c with heath := mset c.heath off { r.2 with busy := b } }
    if r.1 ≠ off then .next s
    else match restoreSlot s clu r.2 with
      | none => .next (if r.2.busy then mark false else s)
      | some l => .next (if r.2.busy then restoreAt s clu off { r.2 with busy := false } l else mark true)

/-! REPART, SPILL and RSTR. -/

/-- A task record is on its way to the inbox of a core and reaches it in this cycle (R385). -/
def recordArrives (s : State) (core : Nat) : Bool :=
  s.agenda.any fun i => match i with
    | .taskRecordArrival d => match (dieOf s d).task with
      | some m => m.clu * 4 + m.core = core
      | none => false
    | _ => false

/-- The core of the issuer is quiescent (R50). -/
def quiescent (s : State) (l : Loc) (t : Thread) : Bool :=
  let mine := fun (m : Loc) => m.coreIdx = l.coreIdx
  (allThreads s).all (fun e => !mine e.1 || e.1 = l)
    && !(liveThreads s).any (fun u => (match u.ret with | some r => mine r | none => false))
    && !(cluster s l.clu).gangs.any (fun g => g.slots.any mine)
    && t.ports.toList.all (fun p => p.inb.isEmpty)
    && (coreOf s l.coreIdx).inbox.isEmpty && !recordArrives s l.coreIdx
    && (cluster s l.clu).heath.all (fun r => r.2.core ≠ l.coreIdx)
    && settled t s.cycle

/-- What REPART leaves of its issuer: registers, ports, taint and poison of zeros, every tag FREE but the
    one that it allocates (R50, R385). -/
def repartThread (t t1 : Thread) (sa : BitVec 3) : Thread :=
  { t1 with
    regs := Regs.zero
    ports := t.ports.map fun p => { p with desc := 0 }
    pipe := setTag { t1.pipe with tags := Vector.replicate 8 TagState.free } sa .pending }

/-- REPART (R50, R385). The rotation pointer of the core stands anew (R28). -/
def execRepart (d : Dep) (rd : XReg) (p : Bool) (s : State) : Host.Outcome State Fault Refusal :=
  issue (.repart d rd p) s fun t t1 s =>
    if quiescent s s.cur t then
      let k := coreOf s s.cur.coreIdx
      let s1 := drawn (setCore s s.cur.coreIdx { k with p64 := p, phase := 4096 + s.free, contest := [] })
      .ok (variableResult s1 (repartThread t t1 d.sa) d.sa [wrX rd 0] 0)
    else .ok (variableResult s t1 d.sa [wrX rd 1] 0)

/-- What stops a SPILL of the slot that it names: its status, or the thread to save (R390). -/
def spillTarget (s : State) (clu : Nat) (v : Word) : Except Nat (Loc × Thread) :=
  let l : Loc := ⟨clu, field v 8 2, field v 0 8⟩
  if field v 10 54 ≠ 0 then .error 1
  else match thread? s l with
    | none => .error 1
    | some t =>
      if neverSaved s l t then .error 1
      else if !hasRoom s l t then .error 2
      else if (cluster s clu).saves.any fun r => r.uid = t.uid then .error 3
      else .ok (l, t)

/-- SPILL (R389, R390). -/
def execSpill (d : Dep) (rd ra : XReg) (s : State) : Host.Outcome State Fault Refusal :=
  issue (.spill d rd ra) s fun t t1 s =>
    match spillTarget s s.cur.clu (xval t ra) with
    | .error k => .ok (variableResult s t1 d.sa [wrX rd (spillWord k 0)] 0)
    | .ok (_, u) =>
      let c := cluster s s.cur.clu
      let s1 := setThread s s.cur (addResult t1 ⟨s.nextId, d.sa, [wrX rd 0], 0, false⟩)
      .ok { setCluster s1 s.cur.clu { c with saves := c.saves ++ [⟨u.uid, some (t.uid, s.nextId)⟩] } with
            nextId := s.nextId + 1 }

/-- RSTR (R389, R390, R392): a record that it names is held no longer, whether or not it finds a slot. -/
def execRstr (d : Dep) (rd ra : XReg) (s : State) : Host.Outcome State Fault Refusal :=
  issue (.rstr d rd ra) s fun t t1 s0 =>
    let v := xval t ra
    let rec? := if v.toNat < 2 ^ 20 then mget (cluster s0 s0.cur.clu).heath v.toNat else none
    match rec? with
    | none => .ok (variableResult s0 t1 d.sa [wrX rd (spillWord 1 0)] 0)
    | some r0 =>
      let r := { r0 with held := false }
      let c := cluster s0 s0.cur.clu
      let s := setCluster s0 s0.cur.clu { c with heath := mset c.heath v.toNat r }
      if r.busy then .ok (variableResult s t1 d.sa [wrX rd (spillWord 3 0)] 0)
      else match restoreSlot s s.cur.clu r with
      | none => .ok (variableResult s t1 d.sa [wrX rd (spillWord 2 0)] 0)
      | some l =>
        let s1 := variableResult s t1 d.sa [wrX rd (spillWord 0 (l.core * 256 + l.slot))] 0
        .ok (restoreAt s1 s.cur.clu v.toNat r l)

/-! The emulation window. -/

/-- The halted thread that XWIN names, for the cluster supervisor (R111). -/
def windowThread (s : State) (l : Loc) (t : Thread) : Option (Loc × Thread) :=
  let m : Loc := ⟨l.clu, field t.csr.xwin 8 2, field t.csr.xwin 0 8⟩
  if !l.clusterSup || !t.csr.xwin.getLsbD 63 then none
  else match thread? s m with
    | some u => if u.mode = .running then none else some (m, u)
    | none => none

/-- An item of a halted thread (R299). -/
inductive Item where
  | x (n : XReg)
  | q (n : PReg)
  | v (n : VReg) (high : Bool)
  | full
  | taint
  | xpoison
  | vpoison
  | csr (n : Nat)
  deriving DecidableEq, Repr

/-- The item of a window index (R299). -/
def itemOf (a : Nat) : Option Item :=
  if a < 0x40 then some (.x (BitVec.ofNat 6 a))
  else if a < 0x48 then some (.q (BitVec.ofNat 3 (a - 0x40)))
  else if 0x80 ≤ a ∧ a < 0x100 then some (.v (BitVec.ofNat 6 ((a - 0x80) / 2)) (a % 2 = 1))
  else if a = 0x101 then some .full
  else if a = 0x102 then some .taint
  else if a = 0x103 then some .xpoison
  else if a = 0x104 then some .vpoison
  else if 0x400 ≤ a && a < 0x1400 && csrAssigned (a - 0x400) && a < 0x1000 then some (.csr (a - 0x400))
  else none

/-- Whether a thread at a location lacks the register of an item (R42, R49, R299). -/
def lacksItem (s : State) (l : Loc) (t : Thread) : Item → Bool
  | .x n => absentX t.csr.light (coreOf s l.coreIdx).p64 n.toNat
  | .v n _ => absentV t.csr.light (coreOf s l.coreIdx).p64 n.toNat
  | _ => false

/-- What XRD reads (R299). -/
def readItem (s : State) (l : Loc) (t : Thread) : Item → Word
  | .x n => xval t n
  | .q n => (portOf t n).desc.setWidth 64
  | .v n high => ((vval t n) >>> (if high then 64 else 0)).setWidth 64
  | .full => t.regs.full &&& ~~~ 1#64
  | .taint => t.regs.taint &&& ~~~ 1#64
  | .xpoison => t.regs.xpoison &&& ~~~ 1#64
  | .vpoison => t.regs.vpoison
  | .csr n => csrValue s l t n

/-- Items that XWR does not write (R299). -/
def itemFixed : Item → Bool
  | .full => true
  | .csr n => n ≤ 8 || n = 0x14 || n = 0x17 || n = 0x110 || n = 0x130
  | _ => false

/-- One half of a v register replaced. -/
def halfSet (v : VWord) (high : Bool) (w : Word) : VWord :=
  if high then (w.setWidth 128 <<< 64) ||| (v.setWidth 64).setWidth 128
  else (v >>> 64 <<< 64) ||| w.setWidth 128

/-- What XWR writes (R299, R427). -/
def writeItem (s : State) (l : Loc) (t : Thread) (w : Word) : Item → State
  | .x n => setThread s l { t with regs := (t.regs.write (wrX n w)).setFull n true }
  | .q n => setThread s l (setPort t n { portOf t n with desc := w.setWidth 32 })
  | .v n high => setThread s l { t with regs := t.regs.write (wrV n (halfSet (vval t n) high w)) }
  | .taint => setThread s l { t with regs := { t.regs with taint := w &&& ~~~ 1#64 } }
  | .xpoison => setThread s l { t with regs := { t.regs with xpoison := w &&& ~~~ 1#64 } }
  | .vpoison => setThread s l { t with regs := { t.regs with vpoison := w } }
  | .csr n => if csrReadOnly n then s else csrWrite s l t n w
  | .full => s

/-- The item that XRD and XWR name, and the thread that it belongs to; or the trap (R111, R299, R444). -/
def windowItem (s : State) (l : Loc) (t : Thread) (a : Word) (write : Bool) : Except TrapVal (Item × Loc × Thread) :=
  match itemOf a.toNat with
  | none => .error ⟨.operand, a⟩
  | some it =>
    if write && itemFixed it then .error ⟨.operand, a⟩
    else match windowThread s l t with
      | none => .error ⟨.operand, t.csr.xwin⟩
      | some (m, u) => if lacksItem s m u it then .error ⟨.operand, a⟩ else .ok (it, m, u)

/-- XRD (R299, R427). -/
def execXrd (d : Dep) (rd ra : XReg) (s : State) : Host.Outcome State Fault Refusal :=
  issue (.xrd d rd ra) s fun t t1 s =>
    match windowItem s s.cur t (xval t ra) false with
    | .error v => .error v
    | .ok (it, m, u) => .ok (variableResult s t1 d.sa [wrX rd (readItem s m u it)] 0)

/-- XWR (R299, R427). -/
def execXwr (d : Dep) (ra rb : XReg) (s : State) : Host.Outcome State Fault Refusal :=
  issue (.xwr d ra rb) s fun t t1 s =>
    match windowItem s s.cur t (xval t ra) true with
    | .error v => .error v
    | .ok (it, m, u) => .ok (writeItem (setThread s s.cur t1) m u (xval t rb) it)

/-- A thread leaves the halted state: every tag FREE and nothing at distance 1 to 3 (R300). -/
def resume (t : Thread) : Thread := { t with mode := .running, pipe := { t.pipe.fresh 0 with block := none } }

/-- TCAUSE with SKP cleared. -/
def noSkp (t : Thread) : Thread := { t with csr := { t.csr with tcause := t.csr.tcause &&& ~~~ 0x300#64 } }

/-- The line of TEPC, fetched under the thread's translation (R300). -/
def lineOfPc (s : State) (l : Loc) (t : Thread) (pc : Word) : Option CodeLine × State :=
  if pc.toNat / 2 ^ 56 ≠ 0 then (none, s)
  else
    let c := threadCtx l t
    match translate s c (pcLine pc) with
    | (.leaf e, s1) =>
      if fetchAllowed c e then
        let pa := readPa s1 c e (pcLine pc)
        let r := codeFetch s1 l c.key pa
        (some r.1, r.2)
      else (none, s1)
    | (_, s1) => (none, s1)

/-- A thread halts alone again: TEPC stays, and a new fault message is sent (R300). -/
def haltAgain (s : State) (l : Loc) (t : Thread) (c : Cause) : State :=
  takeTrap s l t { cause := c.code, tval := t.csr.tepc, pc := t.csr.tepc, skp := 0, alone := true, hi := 0 }

/-- A thread halts alone at a PC at which it cannot go on, with a new fault message (R300). -/
def haltAt (s : State) (l : Loc) (u : Thread) (pc : Word) (c : Cause) (annul : Nat) : State :=
  takeTrap s l { u with pc := pc } { cause := c.code, tval := pc, pc := pc, skp := BitVec.ofNat 2 annul, alone := true, hi := 0 }

/-- A resumed thread goes on at a PC with so many annulments. At one whose top byte is not 0, or whose line has no
    translation or no permission to be fetched, it halts again, a malformed line first (R40, R54, R70, R72, R300). -/
def resumeAt (s : State) (l : Loc) (u : Thread) (pc : Word) (annul : Nat) : State :=
  if pc.toNat / 2 ^ 56 ≠ 0 then haltAt s l u pc .ifetch annul
  else
    let c := threadCtx l u
    match translate s c (pcLine pc) with
    | (.leaf e, s1) =>
      if fetchAllowed c e then setThread s1 l { u with pc := pc, pipe := { u.pipe with annul := annul } }
      else
        let (k, s2) := codeFetch s1 l c.key (readPa s1 c e (pcLine pc))
        match lineAt k.bytes 0 with
        | .error _ => haltAt s2 l u pc .illegal 0
        | .ok _ => haltAt s2 l u pc .ifetch annul
    | (_, s1) => haltAt s1 l u pc .ifetch annul

/-- ACT 1: the thread goes on at the instruction after TEPC; after an index that its line does not have, at the
    next line (R70, R300). Where the page of TEPC's line permits no fetch, IFETCH is raised without a look at the line,
    which may be malformed (log 96). -/
def resumeAfter (s : State) (l : Loc) (t : Thread) : State :=
  let a := field t.csr.tcause 8 2
  match lineOfPc s l t t.csr.tepc with
  | (none, s1) => haltAgain s1 l (noSkp (resume t)) .ifetch
  | (some k, s1) =>
    match lineAt k.bytes 0 with
    | .error _ => haltAgain s1 l (noSkp (resume t)) .illegal
    | .ok (_, n) =>
      resumeAt s1 l (noSkp (resume t)) (nextPc t.csr.tepc n) (a - 1)

/-- What XRES does to the halted thread (R300). -/
def resumeThread (s : State) (l : Loc) (t : Thread) (act : Nat) : State :=
  match act with
  | 0 => resumeAt s l (noSkp (resume t)) t.csr.tepc (field t.csr.tcause 8 2)
  | 1 => resumeAfter s l t
  | 2 =>
    takeTrap s l (resume t)
      { cause := t.csr.tcause.setWidth 8, tval := t.csr.tval, pc := t.csr.tepc, skp := BitVec.ofNat 2 (field t.csr.tcause 8 2)
        alone := false, hi := 0 }
  | _ => exitThread (setThread s l (resume t)) l (.exit false) (resume t)

/-- XRES (R300, R428). -/
def execXres (d : Dep) (r : XReg) (s : State) : Host.Outcome State Fault Refusal :=
  issue (.xres d r) s fun t t1 s =>
    let v := xval t r
    if field v 2 62 ≠ 0 then .error ⟨.operand, v⟩
    else match windowThread s s.cur t with
      | none => .error ⟨.operand, t.csr.xwin⟩
      | some (m, u) =>
        if v.toNat = 2 && (u.csr.tvec = 0 || u.csr.tcause.getLsbD 63) then .error ⟨.operand, v⟩
        else
          let t2 := { t1 with csr := { t1.csr with xwin := t1.csr.xwin &&& ~~~ BitVec.twoPow 64 63 } }
          .ok (resumeThread (setThread s s.cur t2) m u v.toNat)

end Sys2Proof.Machine
end

