-- ==== Sys2Proof/Machine/Migrate.lean ====
section
/-! DEFINITION. Light threads on the move: .M forms, MIGH, and the migration messages (R42 to R48, R106, R150,
R185, R214, R268, R271). -/

namespace Sys2Proof.Machine

/-- The cluster to which a .M form would migrate a thread: the home cluster, other than the current one, of
    a global address in this package (R43, R366). -/
def migratesTo (s : State) (l : Loc) (t : Thread) (m : Bool) (g : Target) (a : Nat) : Option Nat :=
  if !m || !t.csr.light || a / 2 ^ 56 ≠ 0 then none
  else match g.place with
    | .mem pa => if hasHome pa && homeCluster (normPa s pa) ≠ l.clu then some (homeCluster (normPa s pa)) else none
    | _ => none

/-- The POISON of a thread that would move with a poisoned register, the lowest (R303). -/
def movePoison (t : Thread) : Option TrapVal :=
  (least ((List.range 64).filter fun n => n ≠ 0 && t.regs.xpoison.getLsbD n)).map fun n => ⟨.poison, BitVec.ofNat 64 n⟩

/-- What stops the migration of a .M form: membership of a convened group, or a poisoned register (R214, R303). -/
def migrateTrap (t : Thread) : Option TrapVal := if t.grp.isSome then some ⟨.migr, 0⟩ else movePoison t

/-- A thread leaves its cluster for another one, to go on at its PC there: a release at package scope, then
    the message; its return slot is kept for it (R43, R45, R46, R107, R150). An expired thread, which is not pre-empted
    there, counts its slice anew (R47, R289). -/
def depart (s : State) (l : Loc) (t : Thread) (dest : Nat) : State :=
  let s1 := wbAll s l.clu t.csr.keyid.toNat
  let t1 := { t with
    pipe := { t.pipe.fresh 0 with block := none }
    ret := some (t.ret.getD l)
    sliceCount := if t.expired.isSome then 0 else t.sliceCount
    expired := none
    waitSince := none }
  let c := cluster s1 t.origin.clu
  let mark := fun (g : GangRec) =>
    if inGang g.gang g.lnch t && l.clu ≠ t.origin.clu && !g.visited.contains l.clu then
      { g with visited := l.clu :: g.visited }
    else g
  let s2 := setCluster (delThread s1 l) t.origin.clu { c with gangs := c.gangs.map mark }
  { s2 with
    flight := { s2.flight with migs := s2.flight.migs ++ [⟨s2.nextId, t1, dest, true, 0, 1⟩] }
    nextId := s2.nextId + 1 }

/-- The delay before the n-th transmission of a word, n ≥ 2, after `tries` transmissions (R268). -/
def backoff (nakbo : BitVec 20) (tries : Nat) : Nat :=
  let b := nakbo.toNat % 65536
  (if b = 0 then 16 else b) * 2 ^ min (tries - 1) (nakbo.toNat / 65536)

/-- The migration slot that accepts a thread on a cluster: the lowest free one of the lowest core that has
    one (R44). -/
def migrationSlot (s : State) (clu : Nat) : Option Loc :=
  ((List.range 4).flatMap fun k => (List.range 4).map fun i => (⟨clu, k, 128 + i⟩ : Loc)).find? fun l =>
    (thread? s l).isNone

/-- Where a migrating thread arrives: in its return slot on the cluster that it left first, or in a
    migration slot (R44, R47). -/
def arrivalSlot (s : State) (m : MigMsg) : Option Loc :=
  match m.thread.ret with
  | some r => if r.clu = m.dest then some r else migrationSlot s m.dest
  | none => migrationSlot s m.dest

/-- MFLAGS of a migrating thread: its return slot, LH and TH, full/empty bits and taint of x1 to x15 (R271). -/
def migFlags (r : Loc) (t : Thread) : Nat :=
  r.clu * 2 ^ 41 + r.core * 2 ^ 39 + r.slot * 2 ^ 32 + field t.csr.tcause 62 1 * 2 ^ 31 + field t.csr.tcause 63 1 * 2 ^ 30
    + field t.regs.full 1 15 * 2 ^ 15 + field t.regs.taint 1 15

/-- The migration message of 144 bytes: x0 to x15, the PC and MFLAGS (R271). -/
def migBytes (t : Thread) (r : Loc) : List Byte :=
  fieldBytes (((List.range 16).map fun i => (8, (xval t (BitVec.ofNat 6 i)).toNat)) ++ [(8, t.pc.toNat), (8, migFlags r t)])

/-- The word of eight bytes of a message. -/
def migWord (bs : List Byte) (i : Nat) : Word := BitVec.ofNat 64 (leNat ((bs.drop (8 * i)).take 8))

/-- What the accepting slot takes from a message: x1 to x15 with their full/empty and taint bits, the PC, TH and
    LH; every other control register it loads from the return slot (R45, R271). -/
def migLoad (bs : List Byte) (t : Thread) : Thread :=
  let f := migWord bs 17
  let low := fun (w : Word) (v : Nat) => (w &&& ~~~ 0xFFFE#64) ||| BitVec.ofNat 64 (v * 2)
  let regs := (List.range 15).foldl (fun (x : Vector Word 64) i => x.set ((i + 1) % 64) (migWord bs (i + 1)) (Nat.mod_lt _ (by decide)))
    t.regs.x
  { t with
    pc := migWord bs 16
    regs := { t.regs with x := regs, full := low t.regs.full (field f 15 15), taint := low t.regs.taint (field f 0 15) }
    csr := { t.csr with tcause := putBit (putBit t.csr.tcause 62 (f.getLsbD 31)) 63 (f.getLsbD 30) } }

/-- The return slot that a message names (R271). -/
def migReturn (bs : List Byte) : Loc :=
  let f := migWord bs 17
  ⟨field f 41 8, field f 39 2, field f 32 7⟩

/-- The message of a thread on its way (R271). -/
def MigMsg.bytes (m : MigMsg) : List Byte := migBytes m.thread (m.thread.ret.getD m.thread.origin)

/-- A thread arrives: an acquire at package scope, and then it stands in its slot with what its message holds
    (R45, R46, R150, R271). -/
def arrive (s : State) (m : MigMsg) (l : Loc) : State :=
  let r := migReturn m.bytes
  let t := { migLoad m.bytes m.thread with ret := if r = l then none else some r }
  let s1 := setThread (invalidate s l.clu) l t
  tally { s1 with flight := { s1.flight with migs := s1.flight.migs.filter fun x => x.id ≠ m.id } } l.clu 0x41 1

/-- A migration message changed. -/
def putMig (s : State) (m : MigMsg) : State :=
  { s with flight := { s.flight with migs := s.flight.migs.map fun x => if x.id = m.id then m else x } }

/-- MIGRATION_ACCEPT: the message reaches its cluster, which accepts it or, with no migration slot free,
    refuses it (R44, R268, R271). -/
def execMigrationAccept (id : Nat) (s : State) : Host.Outcome State Fault Refusal :=
  match s.flight.migs.find? fun m => m.id = id with
  | none => .next s
  | some m =>
    if !m.flying then .next s
    else match arrivalSlot s m with
      | some l => .next (arrive s m l)
      | none => .next (putMig s { m with flying := false, due := s.cycle + backoff m.thread.csr.nakbo m.tries })

/-- MIGRATION_REPLAY: a refused message is sent again after its delay (R44, R268). -/
def execMigrationReplay (id : Nat) (s : State) : Host.Outcome State Fault Refusal :=
  match s.flight.migs.find? fun m => m.id = id with
  | none => .next s
  | some m =>
    if m.flying || s.cycle < m.due then .next s
    else .next (putMig s { m with flying := true, tries := m.tries + 1 })

/-- MIGH (R48, R373): it waits as the switch marker makes it wait, and for the thread's accesses (R185); a
    migrated thread then returns to its return slot. It raises no MIGR. -/
def execMigh (b : Bool) (s : State) : Host.Outcome State Fault Refusal :=
  issue (.migh b) s fun t t1 s0 =>
    match t.ret with
    | none => .ok (setThread s0 s0.cur t1)
    | some r =>
      match movePoison t with
      | some v => .error v
      | none => .ok (if t.pipe.acc.isEmpty then depart s0 s0.cur t1 r.clu else s)

end Sys2Proof.Machine
end

