-- ==== Sys2Proof/Machine/Memory.lean ====
section
/-! DEFINITION. Loads, stores, atomics, fences, signals, prefetches and the conversion of addresses:
VLD, VST, LD, ST, LDC, PFD, CVTA, the AMO family, CAS, FENCE and SIG. -/

namespace Sys2Proof.Machine

/-- The die whose replica an access of a cluster reads: that of the cluster, for a replicated page that the
    cluster has not mapped onto its stash (R155, R163). -/
def replicaFor (s : State) (clu key : Nat) (g : Target) : Option Nat :=
  match g.place, g.entry with
  | .mem pa, some e => if e.repl && (viewWhere (cluster s clu) key pa).isNone then some (clu / 32) else none
  | _, _ => none

/-- An access of a thread at its target. -/
def accessAt (s : State) (l : Loc) (t : Thread) (kind : AccKind) (g : Target) (n : Nat) (ord : Ord) (scope : Scope) : Access :=
  { Access.blank with
    kind := kind
    place := g.place
    n := n
    ord := ord
    scope := scope
    key := t.csr.keyid.toNat
    page := g.entry
    va := g.va
    replica := if kind = .load || kind = .prefetch then replicaFor s l.clu t.csr.keyid.toNat g else none }

/-- A memory instruction on `n` aligned bytes: the checks of R149, the migration of a .M form, and then its
    access, built from the thread before the issue, with its result when it has one (R43, R68, R149); one whose
    data is tainted follows earlier LDCs (R182). A form that migrates waits for the thread's results and
    accesses (R43, R185). Data that it reads after its checks raises POISON only then (R4, R303). A trap leaves what the
    translation has done to TLBs and counters (R170, R321). -/
def memIssue (i : Instr) (s0 : State) (a : Thread → Nat) (n : Nat) (need : Need) (m : Bool)
    (own : Thread → Target → Option TrapVal) (mk : Thread → State → Target → Access) (ws : List Wr) (result : Bool) :
    Host.Outcome State Fault Refusal :=
  issue i s0 fun t t1 s =>
    match accessCheck s (threadCtx s.cur t) (a t) n n need with
    | (.error v, s1) => .ok (raiseTrap s1 s.cur t v)
    | (.ok g, s1) =>
      match migratesTo s1 s.cur t m g (a t) with
      | some dest =>
        match migrateTrap t with
        | some v => .ok (raiseTrap s1 s.cur t v)
        | none =>
          .ok (if settled t s.cycle && t.pipe.acc.isEmpty then depart s1 s.cur t dest else s0)
      | none =>
        match (own t g).or ((poisonedReg t.regs (usesOf i)).map fun v => ⟨.poison, v⟩) with
        | some v => .ok (raiseTrap s1 s.cur t v)
        | none =>
          let id := s1.nextId
          let (s2, t2) := pushAccess s1 t1 { mk t s1 g with afterLdc := readTaint t.regs (usesOf i) }
          .ok (setThread s2 s2.cur (if result then addResult t2 ⟨id, i.dep.sa, ws, 0, false⟩ else t2))

/-- An instruction without a check of its own. -/
def noTrap (_ : Thread) (_ : Target) : Option TrapVal := none

/-! Loads. -/

/-- The access of a load (R366, R367). -/
def loadAccess (size : Size) (a : MemArg) (signed ldc : Bool) (t : Thread) (s : State) (g : Target) : Access :=
  { accessAt s s.cur t .load g (sizeBytes size) a.ord a.scope with
    signed := signed, ldc := ldc, tainted := xtaint t a.base }

/-- The registers that a load writes (R366). -/
def loadWrites (size : Size) (rd : XReg) : List Wr := if size = .q then [wrX rd 0, wrX (rd + 1) 0] else [wrX rd 0]

/-- VLD (R419). -/
def execVld (d : Dep) (vd : VReg) (a : MemArg) (s : State) : Host.Outcome State Fault Refusal :=
  memIssue (.vld d vd a) s (memAddr · a) 16 ⟨true, false⟩ false noTrap (loadAccess .q a false false) [wrV vd 0] true

/-- LD (R366). -/
def execLd (d : Dep) (m : Bool) (size : Size) (rd : XReg) (a : MemArg) (s : State) : Host.Outcome State Fault Refusal :=
  memIssue (.ld d m size rd a) s (memAddr · a) (sizeBytes size) ⟨true, false⟩ m noTrap (loadAccess size a false false)
    (loadWrites size rd) true

/-- LD.S (R366). -/
def execLdS (d : Dep) (m : Bool) (size : Size) (rd : XReg) (a : MemArg) (s : State) : Host.Outcome State Fault Refusal :=
  memIssue (.ldS d m size rd a) s (memAddr · a) (sizeBytes size) ⟨true, false⟩ m noTrap (loadAccess size a true false)
    (loadWrites size rd) true

/-- LDC (R367). -/
def execLdc (d : Dep) (size : Size) (rd : XReg) (a : MemArg) (s : State) : Host.Outcome State Fault Refusal :=
  memIssue (.ldc d size rd a) s (memAddr · a) (sizeBytes size) ⟨true, false⟩ false noTrap (loadAccess size a false true)
    (loadWrites size rd) true

/-! Stores. -/

/-- A pair of x registers as 16 bytes (R366, R397). -/
def pairVal (t : Thread) (n : XReg) : VWord := (xval t n).setWidth 128 ||| ((xval t (n + 1)).setWidth 128 <<< 64)

/-- The data of a store (R397). -/
def storeData (t : Thread) (size : Size) (rd : Opr) : VWord :=
  match size, rd with
  | .q, .x n => pairVal t n
  | _, _ => (oval t rd).setWidth 128

/-- The access of a store (R397). -/
def storeAccess (n : Nat) (a : MemArg) (data : Thread → VWord) (t : Thread) (s : State) (g : Target) : Access :=
  { accessAt s s.cur t .store g n a.ord a.scope with data := data t, tainted := xtaint t a.base }

/-- VST (R419). -/
def execVst (d : Dep) (vd : VReg) (a : MemArg) (s : State) : Host.Outcome State Fault Refusal :=
  memIssue (.vst d vd a) s (memAddr · a) 16 ⟨false, true⟩ false noTrap (storeAccess 16 a (vval · vd)) [] false

/-- ST (R397). -/
def execSt (d : Dep) (m : Bool) (size : Size) (rd : Opr) (a : MemArg) (s : State) : Host.Outcome State Fault Refusal :=
  memIssue (.st d m size rd a) s (memAddr · a) (sizeBytes size) ⟨false, true⟩ m noTrap
    (storeAccess (sizeBytes size) a (storeData · size rd)) [] false

/-! Atomics. -/

/-- HOSTAMO: an atomic on space 0b11 that is neither an add, a swap nor a compare and swap, or that the
    root complex does not complete (R158, R311). -/
def hostAmo (op : RmwOp) (a : Thread → Nat) (t : Thread) (g : Target) : Option TrapVal :=
  match g.place with
  | .host _ =>
    if (op = .add || op = .swap || op = .cas) && Config.atomicCompleter then none
    else some ⟨.hostamo, BitVec.ofNat 64 (a t)⟩
  | _ => none

/-- The access of an atomic (R331, R339). -/
def rmwAccess (op : RmwOp) (n : Nat) (a : AmoArg) (ra : XReg) (data expd : Thread → VWord) (t : Thread) (s : State) (g : Target) :
    Access :=
  { accessAt s s.cur t (.rmw op) g n a.ord a.scope with data := data t, expd := expd t, tainted := xtaint t ra }

/-- The mould of the AMO family (R330 to R332). -/
def amoIssue (i : Instr) (op : RmwOp) (a : AmoArg) (rd ra rb : XReg) (s : State) : Host.Outcome State Fault Refusal :=
  let n := sizeBytes a.size
  let addr := fun t => (xval t ra).toNat
  memIssue i s addr n ⟨true, true⟩ a.m (hostAmo op addr) (rmwAccess op n a ra (fun t => (xval t rb).setWidth 128) (fun _ => 0))
    [wrX rd 0] true

/-- AMO.ADD (R330, R331). -/
def execAmoAdd (d : Dep) (a : AmoArg) (rd ra rb : XReg) (s : State) : Host.Outcome State Fault Refusal :=
  amoIssue (.amoAdd d a rd ra rb) .add a rd ra rb s

/-- AMO.AND (R330, R331). -/
def execAmoAnd (d : Dep) (a : AmoArg) (rd ra rb : XReg) (s : State) : Host.Outcome State Fault Refusal :=
  amoIssue (.amoAnd d a rd ra rb) .and a rd ra rb s

/-- AMO.OR (R330, R331). -/
def execAmoOr (d : Dep) (a : AmoArg) (rd ra rb : XReg) (s : State) : Host.Outcome State Fault Refusal :=
  amoIssue (.amoOr d a rd ra rb) .or a rd ra rb s

/-- AMO.XOR (R330, R331). -/
def execAmoXor (d : Dep) (a : AmoArg) (rd ra rb : XReg) (s : State) : Host.Outcome State Fault Refusal :=
  amoIssue (.amoXor d a rd ra rb) .xor a rd ra rb s

/-- AMO.MIN (R330, R331). -/
def execAmoMin (d : Dep) (a : AmoArg) (rd ra rb : XReg) (s : State) : Host.Outcome State Fault Refusal :=
  amoIssue (.amoMin d a rd ra rb) .min a rd ra rb s

/-- AMO.MINN (R330, R331). -/
def execAmoMinn (d : Dep) (a : AmoArg) (rd ra rb : XReg) (s : State) : Host.Outcome State Fault Refusal :=
  amoIssue (.amoMinn d a rd ra rb) .minn a rd ra rb s

/-- AMO.MAX (R330, R331). -/
def execAmoMax (d : Dep) (a : AmoArg) (rd ra rb : XReg) (s : State) : Host.Outcome State Fault Refusal :=
  amoIssue (.amoMax d a rd ra rb) .max a rd ra rb s

/-- AMO.MAXN (R330, R331). -/
def execAmoMaxn (d : Dep) (a : AmoArg) (rd ra rb : XReg) (s : State) : Host.Outcome State Fault Refusal :=
  amoIssue (.amoMaxn d a rd ra rb) .maxn a rd ra rb s

/-- AMO.SWAP (R330, R331). -/
def execAmoSwap (d : Dep) (a : AmoArg) (rd ra rb : XReg) (s : State) : Host.Outcome State Fault Refusal :=
  amoIssue (.amoSwap d a rd ra rb) .swap a rd ra rb s

/-- AMO.FADD (R145, R330, R331). -/
def execAmoFadd (d : Dep) (a : AmoArg) (rd ra rb : XReg) (s : State) : Host.Outcome State Fault Refusal :=
  amoIssue (.amoFadd d a rd ra rb) .fadd a rd ra rb s

/-- An operand of CAS by size (R339). -/
def casVal (size : Size) (n : XReg) (t : Thread) : VWord := if size = .q then pairVal t n else (xval t n).setWidth 128

/-- CAS (R339). -/
def execCas (d : Dep) (a : AmoArg) (rd ra rb rc : XReg) (s : State) : Host.Outcome State Fault Refusal :=
  let n := sizeBytes a.size
  let addr := fun t => (xval t ra).toNat
  memIssue (.cas d a rd ra rb rc) s addr n ⟨true, true⟩ a.m (hostAmo .cas addr)
    (rmwAccess .cas n a ra (casVal a.size rc) (casVal a.size rb)) (loadWrites a.size rd) true

/-! FENCE, SIG, CVTA and PFD. -/

/-- FENCE (R182, R358). -/
def execFence (d : Dep) (kind : FenceKind) (scope : Scope) (s : State) : Host.Outcome State Fault Refusal :=
  issue (.fence d kind scope) s fun _ t1 s =>
    let (s1, t2) := pushAccess s t1 (fenceAccess kind scope)
    .ok (setThread s1 s1.cur t2)

/-- SIG on a raw stash address raises ADDR, after the checks of R149 (R393). -/
def sigTrap (add : Bool) (addr : Thread → Nat) (t : Thread) (g : Target) : Option TrapVal :=
  match g.place with
  | .stash .. => some ⟨.addr, BitVec.ofNat 64 (addr t)⟩
  | _ => if add then hostAmo .add addr t g else none

/-- SIG (R393): a store or an add of 8 bytes with a release at sys scope. -/
def execSig (d : Dep) (add : Bool) (ra rb : XReg) (s : State) : Host.Outcome State Fault Refusal :=
  let addr := fun t => (xval t ra).toNat
  memIssue (.sig d add ra rb) s addr 8 ⟨true, true⟩ false (sigTrap add addr)
    (fun t s g =>
      { accessAt s s.cur t (if add then .rmw .add else .store) g 8 .rel .sys with
        data := (xval t rb).setWidth 128, tainted := xtaint t ra }) [] false

/-- The global address that a generic address names, or all ones (R347). -/
def cvtaVal (wpriv g : Word) : Word :=
  match g.toNat / 2 ^ 56 with
  | 0x00 => g
  | 0xFF =>
    if wpriv.toNat + g.toNat % 2 ^ 56 < 2 ^ 56 then BitVec.ofNat 64 (wpriv.toNat + g.toNat % 2 ^ 56)
    else BitVec.allOnes 64
  | _ => BitVec.allOnes 64

/-- CVTA (R347). -/
def execCvta (d : Dep) (rd ra : XReg) (s : State) : Host.Outcome State Fault Refusal :=
  issueVariable (.cvta d rd ra) s fun t => ([wrX rd (cvtaVal t.csr.wpriv (xval t ra))], 0)

/-- The line that PFD fills, unless it is dropped (R379). -/
def prefetchTarget (s : State) (l : Loc) (t : Thread) (a : MemArg) : Option Target × State :=
  match window t.csr.wpriv (memAddr t a) with
  | .glob va =>
    match xlateByte s (threadCtx l t) ⟨true, false⟩ va with
    | (.ok e, s1) =>
      match placeOf (entryPa s1 e va) with
      | .mem pa => (some ⟨.mem (pa / 128 * 128), va / 128 * 128, some e⟩, s1)
      | _ => (none, s1)
    | (.error _, s1) => (none, s1)
  | _ => (none, s)

/-- PFD (R379): at narrow scope it fills the line as a local read does, ordered with its thread's accesses to
    the line (R182), at wide scope it brings the line into the near L2 slice, if it has a home in this package
    (R160). The hardware may drop it, and one with a tainted address, which would read from home, is dropped. -/
def execPfd (d : Dep) (a : MemArg) (s : State) : Host.Outcome State Fault Refusal :=
  issue (.pfd d a) s fun t t1 s =>
    let s0 := drawn s
    if xtaint t a.base || !Config.happens s.free then .ok (setThread s0 s0.cur t1)
    else match prefetchTarget s0 s0.cur t a with
      | (none, s1) => .ok (setThread s1 s1.cur t1)
      | (some g, s1) =>
        let acc := accessAt s1 s1.cur t .prefetch g 128 a.ord a.scope
        if a.scope.wide then .ok (setThread (l2Fetch s1 s.cur.clu acc.key (acc.pa 0 / 128)) s1.cur t1)
        else
          let (s2, t2) := pushAccess s1 t1 acc
          .ok (setThread s2 s2.cur t2)

end Sys2Proof.Machine
end

