-- ==== Sys2Proof/Machine/Standing.lean ====
section
/-! DEFINITION. Standing loads: LDS, UNSUB and TAKE, the tables of the home slices, and the messages between
them and the subscription slots (R195 to R207, R368, R399, R410); and the deposit of tokens (R105, R106). -/

namespace Sys2Proof.Machine

/-! Token completions. -/

/-- A token completion is deposited in a thread: the register takes the value, without taint, and turns
    full (R102, R183). -/
def takeToken (t : Thread) (r : XReg) (v : Word) (irq : Option Irq) : Thread :=
  { t with
    regs := (t.regs.write (wrX r v)).setFull r true
    irqs := t.irqs ++ irq.toList }

/-- A saved thread of a uid becomes ready when its register is full (R292). -/
def wakeUid (s : State) (uid : Nat) : State :=
  let f := fun (clu : Nat × Cluster) (r : HeathRec) =>
    if r.thread.uid = uid && r.readyAt.isNone && waitMet clu.2 r.thread r.wait then { r with readyAt := some s.cycle } else r
  { s with
    clusters := s.clusters.map fun e => (e.1, { e.2 with heath := e.2.heath.map fun r => (r.1, f e r.2) }) }

/-- A token completion reaches its thread in a slot or in the Heath (R104, R105). -/
def deposit (s : State) (uid : Nat) (r : XReg) (v : Word) (irq : Option Irq) : State :=
  wakeUid (modLive s uid fun t => takeToken t r v irq) uid

/-- A token completes at the cluster of its thread: at once for a thread that has not migrated, and over its
    return slot for one that has (R106). -/
def completeToken (s : State) (uid : Nat) (r : XReg) (v : Word) : State :=
  match liveOf s uid with
  | some t => if t.ret.isNone then deposit s uid r v none else sendToken s uid r v none none
  | none => s

/-- The entry of a command FIFO that a copy holds until its completion is deposited is free (R260). -/
def freeFifo (s : State) (copy : Option Nat) : State :=
  match copy with
  | some id => { s with cores := s.cores.map fun e => (e.1, { e.2 with fifo := e.2.fifo.filter (· ≠ id) }) }
  | none => s

/-- TOKEN_COMPLETION: a token completion reaches a thread, or the return slot of one that has migrated,
    which keeps it for forwarding (R105, R106). A thread that has ended takes none. -/
def execTokenCompletion (id : Nat) (s : State) : Host.Outcome State Fault Refusal :=
  match s.flight.tokens.find? fun m => m.id = id with
  | none => .next s
  | some m =>
    let cut := s.flight.tokens.filter fun x => x.id ≠ id
    let s1 := freeFifo { s with flight := { s.flight with tokens := cut } } m.copy
    let here := fun (s : State) => deposit s m.uid m.reg m.value m.irq
    match liveOf s m.uid with
    | none => .next s1
    | some t =>
      match m.stage, t.ret with
      | .bound, none => .next (here s1)
      | .bound, some _ => .next s
      | .forwarded l, _ =>
        if (thread? s l).any fun u => u.uid = m.uid then .next (here s1)
        else
          let back := s.flight.tokens.map fun x => if x.id = id then { x with stage := .bound } else x
          .next { s with flight := { s.flight with tokens := back } }

/-- COMPLETION_FORWARD: the return slot of a migrated thread forwards a completion to the slot where the
    thread stands, once that is known (R106). -/
def execCompletionForward (id : Nat) (s : State) : Host.Outcome State Fault Refusal :=
  match s.flight.tokens.find? fun m => m.id = id with
  | none => .next s
  | some m =>
    match m.stage, liveOf s m.uid, locOf s m.uid with
    | .bound, some t, some l =>
      if t.ret.isNone then .next s
      else
        let fwd := s.flight.tokens.map fun x => if x.id = id then { x with stage := .forwarded l } else x
        .next { s with flight := { s.flight with tokens := fwd } }
    | _, _, _ => .next s

/-! LDS, UNSUB and TAKE. -/

/-- The scope of four bits. -/
def scopeOf (b : BitVec 4) : Scope :=
  match b.toNat with
  | 4 => .die
  | 5 => .pkg
  | 6 => .pod
  | 7 => .hst
  | _ => .sys

/-- The four bits of a scope (R76). -/
def scopeBits : Scope → BitVec 4
  | .thr => 0
  | .grp => 1
  | .core => 2
  | .clu => 3
  | .die => 4
  | .pkg => 5
  | .pod => 6
  | .hst => 7
  | .sys => 8

/-- A slot that LDS takes into use (R198). -/
def SubSlot.begin (k : SubSlot) (scope : Scope) (key : BitVec 6) : SubSlot :=
  { k with full := false, ovr := false, seq := 0, value := 0, poison := false, scope := scopeBits scope, key := key, pend := true }

/-- What LDS does once its address is checked (R198). -/
def subscribe (rd : XReg) (a : MemArg) (t t1 : Thread) (s : State) (g : Target) : State :=
  let t2 := emptyToken t1 rd
  let k := slotOf s s.cur.clu (xval t rd)
  let n := (xval t rd).toNat % 1024
  if k.pend || k.sub then sendToken (setThread s s.cur t2) t.uid rd 2 none none
  else match g.place with
    | .mem pa =>
      if !hasHome (normPa s pa) then sendToken (setThread s s.cur t2) t.uid rd 3 none none
      else
        let acc := { accessAt s s.cur t .lds g 8 a.ord a.scope with tainted := xtaint t a.base }
        let (s1, t3) := pushAccess s t2 acc
        let s2 := setSlot (setThread s1 s1.cur t3) s.cur.clu n (k.begin a.scope t.csr.keyid)
        sendSub s2 (homeSlice (normPa s pa)) s.cur.clu n
          (.request (normPa s pa) (scopeBits a.scope) t.csr.keyid.toNat t.uid rd s.nextId)
    | _ => sendToken (setThread s s.cur t2) t.uid rd 3 none none

/-- LDS (R198, R199, R368). -/
def execLds (d : Dep) (rd : XReg) (a : MemArg) (s : State) : Host.Outcome State Fault Refusal :=
  issue (.lds d rd a) s fun t t1 s =>
    if memAddr t a / 2 ^ 56 = 0xFE then .error ⟨.addr, BitVec.ofNat 64 (memAddr t a)⟩
    else match accessCheck s (threadCtx s.cur t) (memAddr t a) 8 8 ⟨true, false⟩ with
      | (.error v, s1) => .ok (raiseTrap s1 s.cur t v)
      | (.ok g, s1) => .ok (subscribe rd a t t1 s1 g)

/-- UNSUB (R203, R207, R410). -/
def execUnsub (d : Dep) (r : XReg) (s : State) : Host.Outcome State Fault Refusal :=
  issue (.unsub d r) s fun t t1 s =>
    let k := slotOf s s.cur.clu (xval t r)
    let n := (xval t r).toNat % 1024
    let s1 := setThread s s.cur (emptyToken t1 r)
    if k.pend then .ok (sendToken s1 t.uid r 2 none none)
    else if !k.sub then .ok (sendToken s1 t.uid r 1 none none)
    else
      .ok (sendSub (setSlot s1 s.cur.clu n { k with pend := true }) (256 * k.hdie.toNat + k.hslice.toNat) s.cur.clu n
        (.remove t.uid r))

/-- What TAKE returns of a slot: value and status (R205). -/
def takeVal (k : SubSlot) : Word × Word :=
  if k.full then (k.value, BitVec.ofNat 64 ((if k.ovr then 65536 else 0) + k.seq.toNat))
  else (0, BitVec.ofNat 64 (2 ^ 17 + k.seq.toNat))

/-- The mould of TAKE (R205, R399): the value and, after it, the status under one tag; the acquire at the
    scope of the subscription. -/
def takeIssue (i : Instr) (ra rd : XReg) (st : Option XReg) (s : State) : Host.Outcome State Fault Refusal :=
  issue i s fun t t1 s =>
    let k := slotOf s s.cur.clu (xval t ra)
    let n := (xval t ra).toNat % 1024
    let v := takeVal k
    let w : Wr := { wrX rd v.1 with poison := k.full && k.poison }
    let ws := w :: (match st with
      | some r => [wrX r v.2]
      | none => [])
    if k.full then
      let s1 := setSlot s s.cur.clu n { k with full := false, ovr := false }
      let (s2, t2) := pushAccess s1 t1 (takeAccess (scopeOf k.scope))
      .ok (variableResult s2 t2 i.dep.sa ws 0)
    else .ok (variableResult s t1 i.dep.sa ws 0)

/-- TAKE (R205, R399). -/
def execTake (d : Dep) (rd ra : XReg) (s : State) : Host.Outcome State Fault Refusal :=
  takeIssue (.take d rd ra) ra rd none s

/-- TAKE.S (R205, R399). -/
def execTakeS (d : Dep) (rd ra rb : XReg) (s : State) : Host.Outcome State Fault Refusal :=
  takeIssue (.takeS d rd ra rb) ra rd (some rb) s

/-! Home tables. -/

/-- The entries of a home slice (R200). -/
def tableOf (s : State) (slice : Nat) : List SubEntry := (mget s.store.subTable slice).getD []

/-- The entries of a home slice changed; entries without subscribers are free (R200). -/
def setTable (s : State) (slice : Nat) (es : List SubEntry) : State :=
  { s with store := { s.store with subTable := mset s.store.subTable slice (es.filter fun e => !e.subs.isEmpty) } }

/-- A table with a subscriber inserted, and the number of its entry: in the first entry of the word that holds
    fewer than eight, or else in the lowest free one of 256, which is the model's choice (R200, log 80). -/
def insertSub (es : List SubEntry) (word : Nat) (u : Subscriber) : Option (List SubEntry × Nat) :=
  match es.find? fun e => e.word = word && e.subs.length < 8 with
  | some e => some (es.map fun x => if x.index = e.index then { x with subs := x.subs ++ [u] } else x, e.index)
  | none =>
    ((List.range 256).find? fun i => es.all fun e => e.index ≠ i).map fun i => (es ++ [⟨i, word, [u]⟩], i)

/-- A message leaves the way. -/
def dropSub (s : State) (id : Nat) : State :=
  { s with flight := { s.flight with subMsgs := s.flight.subMsgs.filter fun m => m.id ≠ id } }

/-- Messages to a slot. -/
def SubBody.toSlot : SubBody → Bool
  | .request .. | .remove .. => false
  | _ => true

/-- The message of an id, when no earlier one to the same slot is on the way (R202). -/
def subMsg (s : State) (id : Nat) : Option SubMsg :=
  match s.flight.subMsgs.find? fun m => m.id = id with
  | none => none
  | some m =>
    let earlier := s.flight.subMsgs.takeWhile fun x => x.id ≠ id
    if m.body.toSlot && earlier.any fun x => x.body.toSlot && x.clu = m.clu && x.slot = m.slot then none else some m

/-- Whether the access of a subscribe request may act: what is ordered before it is done (R182, R199). -/
def requestFree (s : State) (uid acc : Nat) : Bool :=
  let ts := s.threads.map (·.2) ++ s.flight.ghosts.map (·.2)
  ts.all fun t => t.uid ≠ uid || (match t.pipe.acc.find? fun a => a.id = acc with
    | some a => accessFree s t a
    | none => true)

/-- SUBSCRIBE_REQUEST: the home slice inserts the subscriber in one action of the word's home order, or
    refuses it, and answers (R199, R200). A page that has moved is reached at its new home (R161). -/
def execSubscribeRequest (id : Nat) (s : State) : Host.Outcome State Fault Refusal :=
  match subMsg s id with
  | none => .next s
  | some m =>
    match m.body with
    | .request pa scope key uid reg acc =>
      if !requestFree s uid acc then .next s
      else
        let p := chase s pa
        let slice := homeSlice p
        let s1 := dropSub s id
        let r := insertSub (tableOf s slice) (p / 8) ⟨m.clu, m.slot, key, scope⟩
        let s2 := match r with
          | some (es, i) => sendSub (setTable s1 slice es) slice m.clu m.slot (.answer true i uid reg)
          | none => sendSub s1 slice m.clu m.slot (.answer false 0 uid reg)
        .next (doneAccess s2 uid acc)
    | _ => .next s

/-- SUBSCRIBE_ANSWER: the slot becomes ACTIVE, or IDLE again, and the token completes (R198, R203). -/
def execSubscribeAnswer (id : Nat) (s : State) : Host.Outcome State Fault Refusal :=
  match subMsg s id with
  | none => .next s
  | some m =>
    match m.body with
    | .answer ok hent uid reg =>
      let k := slotOf s m.clu (BitVec.ofNat 64 m.slot)
      let k1 := if ok then
          { k with sub := true, pend := false, hdie := BitVec.ofNat 3 (m.slice / 256), hslice := BitVec.ofNat 8 m.slice
                   hent := BitVec.ofNat 8 hent }
        else { k with pend := false }
      .next (completeToken (setSlot (dropSub s id) m.clu m.slot k1) uid reg (if ok then 0 else 1))
    | _ => .next s

/-- PUSH_ARRIVAL: a push is deposited in its slot and wakes the threads saved at a TAKE of it (R203, R204,
    R206). -/
def execPushArrival (id : Nat) (s : State) : Host.Outcome State Fault Refusal :=
  match subMsg s id with
  | none => .next s
  | some m =>
    match m.body with
    | .push v bad =>
      let k := slotOf s m.clu (BitVec.ofNat 64 m.slot)
      let k1 := { k with value := v, poison := bad, full := true, ovr := k.ovr || k.full, seq := k.seq + 1 }
      if !k.sub then .next (dropSub s id)
      else
        let s1 := wakeSaved (setSlot (dropSub s id) m.clu m.slot k1) m.clu
        .next (tally (tally s1 m.clu 0x30 1) m.clu 0x31 (if k.full then 1 else 0))
    | _ => .next s

/-- UNSUBSCRIBE_REQUEST: the home removes the subscriber in one action, and sends the final marker (R207).
    Entries that have moved are found at their new home (R200). -/
def execUnsubscribeRequest (id : Nat) (s : State) : Host.Outcome State Fault Refusal :=
  match subMsg s id with
  | none => .next s
  | some m =>
    match m.body with
    | .remove uid reg =>
      let cut := fun (e : SubEntry) => { e with subs := e.subs.filter fun u => !(u.clu = m.clu && u.slot = m.slot) }
      let tab := s.store.subTable.map fun e => (e.1, (e.2.map cut).filter fun x => !x.subs.isEmpty)
      let s1 := dropSub { s with store := { s.store with subTable := tab } } id
      .next (sendSub s1 m.slice m.clu m.slot (.marker uid reg))
    | _ => .next s

/-- FINAL_MARKER: the slot is IDLE, and the token completes with 0 (R203, R207). -/
def execFinalMarker (id : Nat) (s : State) : Host.Outcome State Fault Refusal :=
  match subMsg s id with
  | none => .next s
  | some m =>
    match m.body with
    | .marker uid reg =>
      let k := slotOf s m.clu (BitVec.ofNat 64 m.slot)
      .next (completeToken (setSlot (dropSub s id) m.clu m.slot { k with sub := false, pend := false }) uid reg 0)
    | _ => .next s

end Sys2Proof.Machine
end

