-- ==== Sys2Proof/Machine/Ranges.lean ====
section
/-! DEFINITION. Range operations and stash mappings: WB, INV, WBI, SMAP and SUNMAP (R154, R155, R159, R362,
R394, R395, R425). -/

namespace Sys2Proof.Machine

/-- The numbers of the lines that a stretch of physical bytes touches. -/
def linesOf (pa n : Nat) : List Nat := (lineParts pa n).map fun q => q.1 / 128

/-- The checks of a range operation: ADDR for a raw stash range, then those of R149; an empty range checks
    nothing (R159, R362, R425). -/
def rangeTrap (s : State) (l : Loc) (t : Thread) (a n : Word) (need : Need) : Except TrapVal (List Piece) × State :=
  if n = 0 then (.ok [], s)
  else if a.toNat / 2 ^ 56 = 0xFE then (.error ⟨.addr, a⟩, s)
  else rangeCheck s (threadCtx l t) a.toNat n.toNat 1 need

/-- The accesses of a range operation, one for each physical stretch, one action a line (R159, R178); a tainted
    address makes them follow earlier LDCs (R184). Of memory at the host only code is cached. -/
def pushRange (s : State) (t : Thread) (op : RangeOp) (scope : Scope) (tainted : Bool) : List Piece → List Nat →
    State × Thread × List Nat
  | [], ids => (s, t, ids)
  | p :: ps, ids =>
    let go := fun (pa : Nat) =>
      let a : Access := { Access.blank with
        kind := .range op, place := p.place, n := p.len, scope := scope, key := t.csr.keyid.toNat, page := p.entry
        tainted := tainted, data := BitVec.ofNat 128 (pa + p.len), todo := (linesOf pa p.len).map Act.rangeLine }
      let r := pushAccess s t a
      pushRange r.1 r.2 op scope tainted ps (s.nextId :: ids)
    match p.place with
    | .mem pa | .host pa => go pa
    | _ => pushRange s t op scope tainted ps ids

/-- The mould of WB, INV and WBI: at a narrow scope they only check; at a wide one the thread's later memory,
    atomic, copy and matrix instructions wait for their lines (R159). -/
def rangeIssue (i : Instr) (op : RangeOp) (scope : Scope) (ra rb : XReg) (need : Need) (s : State) :
    Host.Outcome State Fault Refusal :=
  issue i s fun t t1 s =>
    match rangeTrap s s.cur t (xval t ra) (xval t rb) need with
    | (.error v, s1) => .ok (raiseTrap s1 s.cur t v)
    | (.ok ps, s1) =>
      if !scope.wide then .ok (setThread s1 s1.cur t1)
      else
        let (s2, t2, ids) := pushRange s1 t1 op scope (xtaint t ra) ps []
        .ok (setThread s2 s2.cur (if ids.isEmpty then t2 else { t2 with pipe := { t2.pipe with block := some (.memory ids) } }))

/-- WB (R159, R425). -/
def execWb (d : Dep) (scope : Scope) (ra rb : XReg) (s : State) : Host.Outcome State Fault Refusal :=
  rangeIssue (.wb d scope ra rb) .wb scope ra rb ⟨true, false⟩ s

/-- INV (R159, R362). -/
def execInv (d : Dep) (scope : Scope) (ra rb : XReg) (s : State) : Host.Outcome State Fault Refusal :=
  rangeIssue (.inv d scope ra rb) .inv scope ra rb ⟨false, true⟩ s

/-- WBI (R159, R425). -/
def execWbi (d : Dep) (scope : Scope) (ra rb : XReg) (s : State) : Host.Outcome State Fault Refusal :=
  rangeIssue (.wbi d scope ra rb) .wbi scope ra rb ⟨true, false⟩ s

/-! SMAP and SUNMAP. -/

/-- Whether two ranges share a byte. -/
def rangesMeet (a n b m : Nat) : Bool := a < b + m && b < a + n

/-- The stretches of memory behind a mapping: stash offset, physical address, length (R154). Those of space 0b11, whose
    lines no cache holds, are not mapped (log 100). -/
def segsOf (off : Nat) (ps : List Piece) : List (Nat × Nat × Nat) :=
  ps.filterMap fun p => match p.place with
    | .mem pa => some (off + p.off, pa, p.len)
    | _ => none

/-- The status of SMAP, or the pieces that it maps, in the order of the status codes (R154, R394). -/
def smapCheck (s : State) (l : Loc) (t : Thread) (off va len : Nat) : Except Nat (List Piece) × State :=
  let c := cluster s l.clu
  if off % 128 ≠ 0 || va % 128 ≠ 0 || len % 128 ≠ 0 || len = 0 || 2 ^ 21 < off + len then (.error 1, s)
  else if c.maps.any fun m => rangesMeet m.off m.len off len || rangesMeet m.va m.len va len then (.error 2, s)
  else if 16 ≤ c.maps.length then (.error 3, s)
  else if 2 ^ 56 < va + len then (.error 4, s)
  else match rangePages s (threadCtx l t) ⟨true, true⟩ ((va + len - 1) / 65536 - va / 65536 + 1) va 0 len with
    | (.error _, s1) => (.error 4, s1)
    | (.ok ps, s1) => (.ok ps, s1)

/-- The keys under which a cluster's view holds bytes of a line. -/
def keysOf (c : Cluster) (line : Nat) : List Nat :=
  ((c.view.filter fun e => e.1 % 2 ^ 52 / 128 = line).map fun e => e.1 / 2 ^ 52).eraseDups

/-- The lines of some pieces are removed from the cluster data cache (R177, R394). -/
def clearLines (s : State) (clu : Nat) (segs : List (Nat × Nat × Nat)) : State :=
  (segs.flatMap fun g => linesOf g.2.1 g.2.2).foldl
    (fun s l => (keysOf (cluster s clu) l).foldl (fun s k => removeLine s clu k l) s) s

/-- SMAP (R154, R394): the mapping keeps the physical lines that its range has now (log 100). -/
def execSmap (d : Dep) (rd ra rb rc : XReg) (s : State) : Host.Outcome State Fault Refusal :=
  issue (.smap d rd ra rb rc) s fun t t1 s =>
    let off := (xval t ra).toNat
    let va := (xval t rb).toNat
    let len := (xval t rc).toNat
    match smapCheck s s.cur t off va len with
    | (.error k, s1) => .ok (variableResult s1 t1 d.sa [wrX rd (BitVec.ofNat 64 k)] 0)
    | (.ok ps, s1) =>
      let segs := segsOf off ps
      let s2 := clearLines (setThread s1 s1.cur t1) s1.cur.clu segs
      let c := cluster s2 s2.cur.clu
      let t2 := (thread? s2 s2.cur).getD t1
      .ok (variableResult (setCluster s2 s2.cur.clu { c with maps := c.maps ++ [⟨off, va, len, segs⟩] }) t2 d.sa [wrX rd 0] 0)

/-- SUNMAP (R154, R395): one action a line that writes it back and unmaps it; its status is written once
    all are done, and until then the issuer's accesses to the range that was mapped wait (log 81). -/
def execSunmap (d : Dep) (rd ra : XReg) (s : State) : Host.Outcome State Fault Refusal :=
  issue (.sunmap d rd ra) s fun t t1 s =>
    match (cluster s s.cur.clu).maps.find? fun m => m.off = (xval t ra).toNat with
    | none => .ok (variableResult s t1 d.sa [wrX rd 1] 0)
    | some m =>
      let a : Access := { Access.blank with
        kind := .unmap, key := t.csr.keyid.toNat, va := m.off, n := m.len, data := BitVec.ofNat 128 m.va
        todo := (m.segs.flatMap fun g => linesOf g.2.1 g.2.2).map Act.unmapLine }
      let id := s.nextId
      let (s1, t2) := pushAccess s t1 a
      .ok (setThread s1 s1.cur (addResult t2 ⟨id, d.sa, [wrX rd 0], 0, false⟩))

end Sys2Proof.Machine
end

