-- ==== Sys2Proof/Machine/Paging.lean ====
section
/-! DEFINITION. What changes translations and homes: TLBI, KEYRET, moved and replicated pages, and the events of
walks and of the cluster data caches (R160 to R166, R170, R179, R365, R402, R403). -/

namespace Sys2Proof.Machine

/-! TLBI. -/

/-- Whether TLBI of a kind removes an entry (R402). -/
def tlbiHits (kind : TlbiKind) (va asid : Nat) (e : TlbEntry) : Bool :=
  match kind with
  | .page => TlbHit asid va e
  | .space => e.asid = asid
  | .all => true

/-- Every entry of every TLB of the package. -/
def allEntries (s : State) : List TlbEntry :=
  s.clusters.flatMap (fun c => c.2.tlb) ++ s.dies.flatMap (fun d => d.2.tlb)

/-- One page, whether or not it is replicated still. -/
def samePage (a b : TlbEntry) : Bool := a.asid = b.asid && a.va = b.va && a.size = b.size && a.pa = b.pa

/-- The accesses, by thread and id, that are still to be performed and were translated through an entry of a
    list, those of collectives and of CMPK and EXPD among them (R403). -/
def usersOf (s : State) (es : List TlbEntry) : List (Nat × Nat) :=
  let hit := fun (e : TlbEntry) => es.any (samePage e)
  let at' := fun (p : Piece) => p.entry.any hit
  let of := fun (t : Thread) =>
    ((t.pipe.acc.filter fun a => a.page.any hit).map fun a => (t.uid, a.id))
      ++ ((t.pipe.pack.toList.filter fun k => k.used.any at').map fun k => (t.uid, k.id))
  let colls := s.clusters.flatMap fun c => match c.2.mx.cur with
    | some x => if x.rows.flatten.any at' then x.members else []
    | none => []
  s.threads.flatMap (fun e => of e.2) ++ s.flight.ghosts.flatMap (fun e => of e.2) ++ colls

/-- The lines that an access will write back, beside those of a range. -/
def Access.backLines (a : Access) : List Nat :=
  a.todo.flatMap fun x => match x with
    | .wbLines ls => ls.map (·.2)
    | _ => []

/-- Whether an access still names the old home of a page that has moved (R161). -/
def Access.redirected (s : State) (a : Access) : Bool :=
  (match a.place with
    | .mem pa => (redirectOf s pa).isSome
    | _ => false) || (a.lines ++ a.backLines).any fun l => (redirectOf s (l * 128)).isSome

/-- Whether something still names the old home of a page that has moved: a TLB entry, an access, a CMPK or EXPD,
    a collective, a copy or a subscribe request (R161). -/
def redirectLive (s : State) (r : Redirect) : Bool :=
  let inside := fun (pa : Nat) => r.src ≤ pa && pa < r.src + r.size
  let at' := fun (p : Place) => match p with
    | .mem pa => inside pa
    | _ => false
  let places := fun (t : Thread) =>
    t.pipe.acc.any (fun a => at' a.place || (a.lines ++ a.backLines).any fun l => inside (l * 128))
      || t.pipe.pack.any fun k => (k.used ++ k.todo ++ k.out).any fun p => at' p.place
  (allEntries s).any (fun e => rangesMeet e.pa e.size r.src r.size)
    || s.threads.any (fun e => places e.2) || s.flight.ghosts.any (fun e => places e.2)
    || s.clusters.any (fun c => match c.2.mx.cur with
      | some x => x.rows.flatten.any fun p => at' p.place
      | none => false)
    || s.flight.copies.any (fun c => (c.srcAt ++ c.dstAt).any fun p => at' p.place)
    || s.flight.subMsgs.any (fun m => match m.body with
      | .request pa .. => inside pa
      | _ => false)

/-- Entries leave every TLB of the package, and redirects that nothing names any more are forgotten (R161,
    R403). -/
def dropEntries (s : State) (p : TlbEntry → Bool) : State :=
  let cl := fun (c : Cluster) => { c with tlb := c.tlb.filter fun e => !p e }
  let di := fun (d : Die) => { d with tlb := d.tlb.filter fun e => !p e }
  let s1 := { s with
    clusters := s.clusters.map fun (e : Nat × Cluster) => (e.1, cl e.2)
    dies := s.dies.map fun (e : Nat × Die) => (e.1, di e.2) }
  { s1 with store := { s1.store with redirects := s1.store.redirects.filter (redirectLive s1) } }

/-- TLBI (R402, R403). -/
def execTlbi (d : Dep) (ra rb : XReg) (kind : TlbiKind) (s : State) : Host.Outcome State Fault Refusal :=
  issue (.tlbi d ra rb kind) s fun t t1 s =>
    let va := (xval t ra).toNat
    if kind = .page && va / 2 ^ 56 ≠ 0 then .error ⟨.addr, xval t ra⟩
    else
      let p := tlbiHits kind (va % 2 ^ 56) (field (xval t rb) 0 12)
      let users := usersOf s ((allEntries s).filter p)
      .ok (dropEntries (setThread s s.cur { t1 with pipe := { t1.pipe with block := some (.all users) } }) p)

/-! KEYRET. -/

/-- KEYRET (R166, R365): it is of Token kind, and orders as a FENCE of kind full at sys scope after its
    issuer's earlier accesses. -/
def execKeyret (d : Dep) (rd ra : XReg) (s : State) : Host.Outcome State Fault Refusal :=
  issue (.keyret d rd ra) s fun t t1 s =>
    let id := s.nextId
    let (s1, t2) := pushAccess s (emptyToken t1 rd) (fenceAccess .full .sys)
    let s2 := setThread s1 s1.cur t2
    .ok { s2 with flight := { s2.flight with keyrets := s2.flight.keyrets ++ [⟨t.uid, rd, (xval t ra).toNat, id⟩] } }

/-- Every dirty byte under a key goes home, and then every line under it is invalid, in every cluster, L2 slice and
    instruction cache (R166). A mapped line that raw stores alone have written is under no key (log 69). -/
def retireKey (s : State) (key : Nat) : State :=
  let s1 := s.clusters.foldl
    (fun s c => ((dirtyLines (cluster s c.1) 64).filter fun e => e.1 = key).foldl (fun s e => wbLine s c.1 e.1 e.2) s) s
  let cl := fun (c : Cluster) => pruneView { c with
    view := mfilter (fun k _ => k / 2 ^ 52 ≠ key) c.view
    mapped := mfilter (fun o _ => mget c.mapKey (o / 128) ≠ some key) c.mapped }
  let s2 := l2Keep s1 fun _ n => n / 2 ^ 45 ≠ key
  { s2 with
    clusters := s2.clusters.map fun e => (e.1, cl e.2)
    cores := s2.cores.map fun e => (e.1, { e.2 with icache := mfilter (fun k _ => k / 2 ^ 52 ≠ key) e.2.icache }) }

/-- KEYRET_COMPLETE: one KEYRET is performed, once its issuer's earlier accesses are; its token takes 0, or 1
    for a number that is no key (R166, R365). -/
def execKeyretComplete (idx : Nat) (s : State) : Host.Outcome State Fault Refusal :=
  match s.flight.keyrets[idx]? with
  | none => .next s
  | some k =>
    if accPending s (k.uid, k.acc) then .next s
    else
      let s1 := { s with flight := { s.flight with keyrets := s.flight.keyrets.eraseIdx idx } }
      if 63 < k.key then .next (sendToken s1 k.uid k.reg 1 none none)
      else .next (sendToken (retireKey s1 k.key) k.uid k.reg 0 none none)

/-! Walks and spontaneous actions. -/

/-- PAGE_WALK: the walker of a thread's die serves a translation that the thread needs, and fills the TLBs
    (R170). -/
def execPageWalk (l : Loc) (va : Nat) (s : State) : Host.Outcome State Fault Refusal :=
  match thread? s l with
  | none => .next s
  | some t => .next (translate s (threadCtx l t) va).2

/-- Whether a line is a mapped stash line of a cluster. -/
def lineMapped (s : State) (clu key line : Nat) : Bool := (viewWhere (cluster s clu) key (line * 128)).isSome

/-- SPONTANEOUS_WRITEBACK: a line of the cluster data cache goes home; a half that the host holds is recalled
    first (R162, R179). -/
def execSpontaneousWriteback (clu key line : Nat) (s : State) : Host.Outcome State Fault Refusal :=
  if lineMapped s clu key line then .next s else .next (drawn (wbLine s clu key line))

/-- SPONTANEOUS_DROP: any of the clean bytes of a line become absent (R179). -/
def execSpontaneousDrop (clu key line : Nat) (s : State) : Host.Outcome State Fault Refusal :=
  if lineMapped s clu key line then .next s
  else .next (drawn (dropClean s clu key line fun i => (Config.freeWord s.free).getLsbD i))

/-! Moved pages. -/

/-- The sizes of pages (R167). -/
def pageSizes : List Nat := [2 ^ 16, 2 ^ 21, 2 ^ 25, 2 ^ 30]

/-- An address of a page at its new home. -/
def movedPa (r : Redirect) (pa : Nat) : Nat := if r.src ≤ pa ∧ pa < r.src + r.size then r.dst + (pa - r.src) else pa

/-- Storage by address in which a page has moved: what stood at the new home before is gone. -/
def moveMap {α : Type} (r : Redirect) (m : SMap α) : SMap α :=
  let old := m.filter fun e => r.src ≤ e.1 && e.1 < r.src + r.size
  let rest := m.filter fun e => !(r.src ≤ e.1 && e.1 < r.src + r.size) && !(r.dst ≤ e.1 && e.1 < r.dst + r.size)
  old.foldl (fun m e => mset m (movedPa r e.1) e.2) rest

/-- The bytes of a view, which are numbered with their keys, follow a moved page. -/
def moveView {α : Type} (r : Redirect) (m : SMap α) : SMap α :=
  let old := m.filter fun e => r.src ≤ e.1 % 2 ^ 52 && e.1 % 2 ^ 52 < r.src + r.size
  let rest := m.filter fun e =>
    !(r.src ≤ e.1 % 2 ^ 52 && e.1 % 2 ^ 52 < r.src + r.size) && !(r.dst ≤ e.1 % 2 ^ 52 && e.1 % 2 ^ 52 < r.dst + r.size)
  old.foldl (fun m e => mset m (e.1 / 2 ^ 52 * 2 ^ 52 + movedPa r (e.1 % 2 ^ 52)) e.2) rest

/-- Whether an address lies where a page moves to. -/
def atDst (r : Redirect) (pa : Nat) : Bool := r.dst ≤ pa && pa < r.dst + r.size

/-- Numbers of units of `u` bytes follow a moved page; those of the new home before the move are gone. -/
def moveUnits (r : Redirect) (u : Nat) (ns : List Nat) : List Nat :=
  (ns.filter fun n => !atDst r (n * u)).map fun n => movedPa r (n * u) / u

/-- A translation follows a moved page. -/
def moveEntry (r : Redirect) (e : TlbEntry) : TlbEntry := { e with pa := movedPa r e.pa, pte := movedPa r e.pte }

/-- A cluster after a page has moved: its view and its mappings. -/
def moveCluster (r : Redirect) (c : Cluster) : Cluster :=
  { c with
    view := moveView r c.view
    viewPoison := (c.viewPoison.filter fun w => !atDst r (w * 8 % 2 ^ 52)).map fun w =>
      (w * 8 / 2 ^ 52 * 2 ^ 52 + movedPa r (w * 8 % 2 ^ 52)) / 8
    maps := c.maps.map fun m => { m with segs := m.segs.map fun g => (g.1, movedPa r g.2.1, g.2.2) } }

/-- The subscription entries of a page go with it, before its new home performs any write (R200). -/
def moveSubs (s : State) (r : Redirect) : State :=
  let mine := fun (e : SubEntry) => r.src ≤ e.word * 8 && e.word * 8 < r.src + r.size
  let all := s.store.subTable.flatMap fun e => e.2.filter mine
  let s1 := { s with
    store := { s.store with subTable := s.store.subTable.map fun e => (e.1, e.2.filter fun x => !mine x) } }
  all.foldl
    (fun s e =>
      let slice := homeSlice (movedPa r (e.word * 8))
      let es := tableOf s slice
      let i := ((List.range (es.length + 1)).find? fun k => es.all fun x => x.index ≠ k).getD 0
      setTable s slice (es ++ [{ e with index := i, word := movedPa r (e.word * 8) / 8 }])) s1

/-- Whether every home slice has room for the entries that a page brings with it (R200). -/
def subsFit (s : State) (r : Redirect) : Bool := (moveSubs s r).store.subTable.all fun e => e.2.length ≤ 256

/-- What stands at the new home is overwritten by the page that moves there: redirects from it end, and those to the
    old home lead to the new one (R161). -/
def moveRedirects (r : Redirect) (rs : List Redirect) : List Redirect :=
  let kept := rs.filter fun x => !(r.dst ≤ x.src && x.src < r.dst + r.size) && x.src ≠ r.src
  r :: (kept.map fun x => { x with dst := movedPa r x.dst }).filter fun x => x.src ≠ x.dst

/-- PAGE_MOVE: the memory-management function moves a page; what reaches its old home afterwards is
    redirected (R161). The L2 slices hold no line of it, and errors in HBM under lines that they held are left behind with
    the old home, as are those of the new home; no instruction cache holds code that stood at the new home (log 103). A
    page whose subscription entries the new home has no room for is not moved (log 82). -/
def execPageMove (src dst size : Nat) (s : State) : Host.Outcome State Fault Refusal :=
  let r : Redirect := ⟨src, dst, size⟩
  if !pageSizes.contains size || src % size ≠ 0 || dst % size ≠ 0 || src = dst || !hasHome src || !hasHome dst
      || !subsFit s r then .next s
  else
    let acts := fun (t : Thread) => { t with pipe := { t.pipe with acc := t.pipe.acc.map (Access.reline (movedPa r)) } }
    let gone := fun (pa : Nat) => (src ≤ pa && pa < src + size) || atDst r pa
    let s1 := moveSubs s r
    .next { s1 with
      clusters := s1.clusters.map fun e => (e.1, moveCluster r e.2)
      cores := s1.cores.map fun e => (e.1, { e.2 with icache := mfilter (fun n _ => !atDst r (n % 2 ^ 52 * 64)) e.2.icache })
      threads := s1.threads.map fun e => (e.1, acts e.2)
      flight := { s1.flight with ghosts := s1.flight.ghosts.map fun e => (e.1, acts e.2) }
      store := { s1.store with
        home := moveMap r s1.store.home
        homeKey := moveMap r s1.store.homeKey
        homePoison := moveUnits r 8 s1.store.homePoison
        hbmPoison := s1.store.hbmPoison.filter fun w => !gone (w * 8)
        l2 := s1.store.l2.map fun e => (e.1, mfilter (fun n _ => !gone (n % 2 ^ 45 * 128)) e.2)
        repl := s1.store.repl.map (moveEntry r)
        hostHeld := (s1.store.hostHeld.filter fun h => !atDst r (h.half * 64)).map fun h => { h with half := movedPa r (h.half * 64) / 64 }
        redirects := moveRedirects r s1.store.redirects } }

/-- REDIRECT_REPLAY: an access that was refused by the old home of a moved page is sent once to the new
    home, with the lines that it still acts on (R161). -/
def execRedirectReplay (l : Loc) (id : Nat) (s : State) : Host.Outcome State Fault Refusal :=
  let go := fun (a : Access) => if a.id = id then { a.chased s with replica := none } else a
  let f := fun (t : Thread) => { t with pipe := { t.pipe with acc := t.pipe.acc.map go } }
  let s1 := modThread s l f
  .next { s1 with
    flight := { s1.flight with ghosts := s1.flight.ghosts.map fun e => if e.1 = l then (e.1, f e.2) else e } }

/-- COLLAPSE: the collapse engine serves a stalled write to a replicated page (R164). -/
def execCollapse (id : Nat) (s : State) : Host.Outcome State Fault Refusal :=
  match s.store.collapses.find? fun c => c.id = id with
  | none => .next s
  | some c => .next (tallyDie (collapsePage s c.pa c.size c.pte c.key c.id) (homeDie c.pa) 0x103 1)

/-! Halves that the host holds. -/

/-- The key under which what the host wrote to a half is merged: that under which it holds the half, and for a
    half of space 0b10, which answers to any key, that of the access that recalls it (R162, R165, log 83). -/
def heldKey (s : State) (half : Nat) : Nat :=
  ((s.store.hostHeld.find? fun h => h.half = half).bind (·.key)).getD (Config.freeWord s.free).toNat % 64

/-- Whether the host holds a half under some key. -/
def heldByHost (s : State) (half : Nat) : Bool := s.store.hostHeld.any fun h => h.half = half

/-- A half becomes device-held, and what the host wrote to it is merged, after the collapse of its page where that is
    replicated (R162, R164). -/
def giveBack (s : State) (key half : Nat) (data : Option (BitVec 512)) : State :=
  let s1 := { s with store := { s.store with hostHeld := s.store.hostHeld.filter fun h => h.half ≠ half } }
  match data with
  | some d => putHalf (collapseAt s1 (half * 64)) key half d
  | none => s1

/-- A half becomes host-held, under a key; it is written back first where the home slice holds it dirty (R162). -/
def takeHalf (s0 : State) (key : Option Nat) (half : Nat) : State :=
  if heldByHost s0 half then s0
  else let s := flushHalf s0 half; { s with store := { s.store with hostHeld := ⟨half, key⟩ :: s.store.hostHeld } }

/-- HOST_TAKE_HALF: the host takes a half of a device line, under HOSTKEY; after a failed verification CXL.mem does not
    respond (R162, R316). -/
def execHostTakeHalf (half : Nat) (s : State) : Host.Outcome State Fault Refusal :=
  if spaceOf (half * 64) = 0 && !bootFailed s then .next (takeHalf s (some s.ctl.bar.hostkey) half) else .next s

/-- HOST_RELEASE_HALF: the host releases a half, with the data that it wrote, if any (R162, R316). -/
def execHostReleaseHalf (half : Nat) (data : Option (BitVec 512)) (s : State) : Host.Outcome State Fault Refusal :=
  if heldByHost s half && !bootFailed s then .next (drawn (giveBack s (heldKey s half) half data)) else .next s

/-- The accesses of a thread that wait for a half (R162). -/
def wantsHalf (half : Nat) (t : Thread) : List Nat :=
  (t.pipe.acc.filter fun a => (halvesOf (a.pa 0 / 128 * 128) 128).contains half
    || a.lines.any fun l => (halvesOf (l * 128) 128).contains half).map (·.key)

/-- The key of the access for which the home recalls a half (R162, R165): that under which the host holds it, or
    that of an access that waits for it. -/
def recallKey (s : State) (half : Nat) : Nat :=
  match (s.store.hostHeld.find? fun h => h.half = half).bind (·.key) with
  | some k => k
  | none => ((s.threads.flatMap fun e => wantsHalf half e.2).head?).getD (heldKey s half)

/-- HOST_RECALL: the home recalls a half for a device access, whose key it carries (R162, R316). -/
def execHostRecall (half : Nat) (data : Option (BitVec 512)) (s : State) : Host.Outcome State Fault Refusal :=
  if heldByHost s half && !bootFailed s then .next (drawn (giveBack s (recallKey s half) half data)) else .next s

/-- CXL_CACHE_HOST_RECALL: the host recalls a device-held half of a line of space 0b10 (R162, R316). -/
def execCxlCacheHostRecall (half : Nat) (s : State) : Host.Outcome State Fault Refusal :=
  if spaceOf (half * 64) = 2 && !bootFailed s then .next (takeHalf s none half) else .next s

end Sys2Proof.Machine
end

