-- ==== Sys2Proof/Machine/Ports.lean ====
section
/-! DEFINITION. Ports: QBIND, QEND, QSTAT, the arrival and replay of words, and the fault sender of a cluster
(R190, R264 to R272, R297, R382). -/

namespace Sys2Proof.Machine

/-- QBIND (R265, R382). -/
def execQbind (d : Dep) (q : PReg) (ra : XReg) (s : State) : Host.Outcome State Fault Refusal :=
  issueThread (.qbind d q ra) s fun t t1 => setPort t1 q { portOf t1 q with desc := (xval t ra).setWidth 32 }

/-- QEND (R266, R382): a control value. -/
def execQend (d : Dep) (q : PReg) (ra : XReg) (s : State) : Host.Outcome State Fault Refusal :=
  issue (.qend d q ra) s fun t t1 s =>
    let (s1, t2) := sendWord s s.cur t1 q true (xval t ra)
    .ok (setThread s1 s1.cur t2)

/-- The value of QSTAT (R269). -/
def qstatWord (p : Port) : Word :=
  let b := fun (x : Bool) (k : Nat) => if x then 2 ^ k else 0
  BitVec.ofNat 64 (p.desc.toNat * 2 ^ 32 + b p.drop 18 + b ((p.inb.head?.map (·.ctl)).getD false) 17
    + p.win.length * 2 ^ 10 + p.inb.length)

/-- QSTAT (R269, R382): it clears DROP. -/
def execQstat (d : Dep) (rd : XReg) (q : PReg) (s : State) : Host.Outcome State Fault Refusal :=
  issue (.qstat d rd q) s fun t t1 s =>
    .ok (variableResult s (setPort t1 q { portOf t1 q with drop := false }) d.sa [wrX rd (qstatWord (portOf t q))] 0)

/-! The way of a word. -/

/-- What becomes of a word that arrives (R267). -/
inductive Fate where
  | accepted
  | discarded
  | refused
  deriving DecidableEq, Repr

/-- The replay window of a sender, with the thread that it belongs to (R266, R272, R297). A thread's window is
    found by the slot in which the thread started. -/
def windowOf (s : State) : Sender → Option (Thread × PReg × List SentWord)
  | .port l q => (originOf s l).map fun t => (t, q, (portOf t q).win)
  | .fault _ => none

/-- The slot that a descriptor names (R265). -/
def boundLoc (d : BitVec 32) : Loc := ⟨d.toNat / 2 ^ 13 % 256, d.toNat / 2 ^ 11 % 4, d.toNat / 16 % 128⟩

/-- Whether a descriptor names a slot of this package (R265). -/
def boundHere (s : State) (d : BitVec 32) : Bool :=
  d.toNat / 2 ^ 21 % 1024 = 0x3FF || d.toNat / 2 ^ 21 % 1024 = s.ctl.bar.pkgnum

/-- A word is deposited in an inbound buffer of a live thread (R104, R267). -/
def pushIn (s : State) (uid : Nat) (q : PReg) (w : PWord) : State :=
  modLive s uid fun t => setPort t q { portOf t q with inb := (portOf t q).inb ++ [w] }

/-- A word arrives at a thread, or finds it saved or its buffer full (R45, R267): a saved thread that waits
    for the port becomes ready. -/
def arriveAt (s : State) (l : Loc) (q : PReg) (w : PWord) : Fate × State :=
  match originOf s l with
  | none => (.discarded, s)
  | some t =>
    let saved := s.clusters.any fun c => c.2.heath.any fun r => r.2.thread.uid = t.uid
    if saved then (.refused, wakePort s t.uid q)
    else if 8 ≤ (portOf t q).inb.length then (.refused, s)
    else (.accepted, pushIn s t.uid q w)

/-- Refused words are counted on the cluster that refuses them (R321). -/
def countRefused (clu : Nat) (r : Fate × State) : Fate × State :=
  if r.1 = .refused then (r.1, tally r.2 clu 0x40 1) else r

/-- A word arrives under its descriptor. One for another package is accepted, refused or discarded there, of a
    free choice. -/
def arriveBound (s : State) (w : SentWord) : Fate × State :=
  if boundHere s w.desc then countRefused (boundLoc w.desc).clu (arriveAt s (boundLoc w.desc) (w.desc.setWidth 3) w.w)
  else
    (match choose s 3 with
      | 0 => .accepted
      | 1 => .refused
      | _ => .discarded, drawn s)

/-- A word that follows a refused one is refused too, and wakes a saved thread that waits for the port; where no live
    thread has the origin slot that it names it is discarded (R267). -/
def refuseBehind (s : State) (w : SentWord) : Fate × State :=
  if boundHere s w.desc then
    let l := boundLoc w.desc
    match originOf s l with
    | some t => countRefused l.clu (.refused, wakePort s t.uid (w.desc.setWidth 3))
    | none => (.discarded, s)
  else (.refused, s)

/-- A window after the first word that is on the way has arrived; `head` when no word before it waits. A
    word behind a refused one is refused (R267, R268). -/
def afterArrival (win : List SentWord) (fate : Fate) (due : Nat) : List SentWord :=
  match win with
  | [] => []
  | w :: ws =>
    if w.flying then
      match fate with
      | .refused => { w with flying := false, due := due } :: ws
      | _ => ws
    else w :: afterArrival ws fate due

/-- An EXIT that waited for its windows goes on once they are empty (R353). -/
def finishExit (s : State) (uid : Nat) : State :=
  match locOf s uid with
  | none => s
  | some l =>
    match thread? s l with
    | some t =>
      (match t.present with
        | some p => if t.exiting && !holdsWords s t then
            exitThread { s with curN := p.lineN } l p.instr { t with present := none } else s
        | none => s)
    | none => s

/-- A word of a thread's window reaches its target (R266 to R268). Its release has been performed. -/
def portArrival (s : State) (t : Thread) (q : PReg) (win : List SentWord) : State :=
  match win.find? fun w => w.flying with
  | none => s
  | some w =>
    if accPending s (t.uid, w.rel) then s
    else
      let first := (win.head?.map (·.flying)).getD false
      let r := if first then arriveBound s w else refuseBehind s w
      let due := s.cycle + backoff t.csr.nakbo w.tries
      let put := fun (t : Thread) =>
        setPort t q { portOf t q with win := afterArrival win r.1 due, drop := (portOf t q).drop || r.1 = .discarded }
      finishExit (modLive r.2 t.uid put) t.uid

/-- A word of the fault sender reaches inbound port 7 of the cluster supervisor, and waits while there is
    none (R297). -/
def faultArrival (s : State) (clu : Nat) : State :=
  let c := cluster s clu
  match c.faultWin.find? fun w => w.flying with
  | none => s
  | some w =>
    let first := (c.faultWin.head?.map (·.flying)).getD false
    let r := countRefused clu (if first then arriveAt s ⟨clu, 0, 0⟩ 7 w.w else (.refused, s))
    let fate := if r.1 = .discarded then .refused else r.1
    let c1 := cluster r.2 clu
    setCluster r.2 clu { c1 with faultWin := afterArrival c.faultWin fate (s.cycle + backoff 0x4_0010 w.tries) }

/-- PORT_WORD_ARRIVAL: a word reaches its inbound buffer and is accepted, refused, or discarded with DROP
    (R267, R297). -/
def execPortWordArrival (src : Sender) (s : State) : Host.Outcome State Fault Refusal :=
  match src with
  | .fault clu => .next (faultArrival s clu)
  | .port .. => match windowOf s src with
    | some (t, q, win) => .next (portArrival s t q win)
    | none => .next s

/-- The head of a window is sent again, once it has been refused and its delay has passed (R268). -/
def replayHead (win : List SentWord) (cycle : Nat) : List SentWord :=
  match win with
  | [] => []
  | w :: ws => if !w.flying && w.due ≤ cycle then { w with flying := true, tries := w.tries + 1 } :: ws else w :: ws

/-- PORT_REPLAY: a refused word at the head of its window is sent again; a saved thread's window rests
    (R268). -/
def execPortReplay (src : Sender) (s : State) : Host.Outcome State Fault Refusal :=
  match src with
  | .fault clu =>
    let c := cluster s clu
    .next (setCluster s clu { c with faultWin := replayHead c.faultWin s.cycle })
  | .port .. => match windowOf s src with
    | some (t, q, win) =>
      if s.clusters.any fun c => c.2.heath.any fun r => r.2.thread.uid = t.uid then .next s
      else .next (modLive s t.uid fun t => setPort t q { portOf t q with win := replayHead win s.cycle })
    | none => .next s

/-- FAULT_MESSAGE_ENTER: the fault message that has waited longest enters the window of its cluster whole,
    once four places are free (R297). -/
def execFaultMessageEnter (clu : Nat) (s : State) : Host.Outcome State Fault Refusal :=
  let c := cluster s clu
  match c.faults with
  | [] => .next s
  | m :: ms =>
    if 28 < c.faultWin.length then .next s
    else
      let word := fun (e : Nat × Word) => (⟨⟨e.1 = 0, e.2, .clu⟩, 0, s.nextId, true, 0, 1⟩ : SentWord)
      let ws := ((List.range m.length).zip m).map word
      .next { setCluster s clu { c with faults := ms, faultWin := c.faultWin ++ ws } with nextId := s.nextId + 1 }

end Sys2Proof.Machine
end

