-- ==== Sys2Proof/Machine/Copies.lean ====
section
/-! DEFINITION. Copies: COPY, COPY.NB and COPYQ, the parts of a copy, and its completion (R182, R189,
R256 to R263, R344). -/

namespace Sys2Proof.Machine

/-- Where the addresses of a copy are translated: for its thread, or for a packet (R257, R275). -/
def CopyOp.ctx (c : CopyOp) : Ctx :=
  match c.packet with
  | none => ⟨some c.clu, c.clu / 32, c.ptbase, c.key, c.user, c.wpriv⟩
  | some _ => agentCtx 0 c.ptbase c.key

/-- LEN (R257). -/
def CopyOp.len (c : CopyOp) : Nat := field c.w2 0 32

/-- OP (R257). -/
def CopyOp.op (c : CopyOp) : Nat := field c.w2 32 2

/-- SEQ (R257). -/
def CopyOp.seq (c : CopyOp) : Bool := c.w2.getLsbD 46

/-- ETYPE (R257). -/
def CopyOp.etype (c : CopyOp) : Option Fmt := fmtCode (field c.w2 34 6)

/-- The bytes of an element. -/
def CopyOp.width (c : CopyOp) : Nat := ((c.etype.map fmtWidth).getD 8) / 8

/-- The element formats of an arithmetic copy (R257). -/
def copyFmt : Option Fmt → Bool
  | some .fp32 | some .fp64 | some .bf16 | some .i32 | some .i64 | some .n32 | some .n64 => true
  | _ => false

/-- A remote stash address without stray bits, its range within the stash (R257, R259). -/
def remoteOk (a : Word) (len : Nat) : Bool :=
  a.toNat / 2 ^ 40 = 0 && field a 21 11 = 0 && a.toNat % 2 ^ 21 + len ≤ 2 ^ 21

/-- The request words w0 to w3 keep the rules of R257 and R259. -/
def requestOk (src dst w2 hnd : Word) : Bool :=
  let len := field w2 0 32
  let op := field w2 32 2
  let f := fmtCode (field w2 34 6)
  let w := ((f.map fmtWidth).getD 8) / 8
  field w2 49 15 = 0 && !w2.getLsbD 47 && field w2 40 2 ≤ 1 && field w2 42 4 ≤ 8
    && (if op = 0 then decide (field w2 34 6 = 0)
      else copyFmt f && len % w = 0 && src.toNat % w = 0 && dst.toNat % w = 0)
    && (!w2.getLsbD 48 || remoteOk src len) && (!w2.getLsbD 40 || remoteOk dst len) && field hnd 56 8 = 0

/-- A range that R148 or R149 rejects (R259). A packet has no stash of its own. -/
def rangeRejected (c : CopyOp) (a : Word) (remote : Bool) : Bool :=
  if remote then false
  else match windowCheck c.ctx a.toNat c.len with
    | .error _ => true
    | .ok (.raw _) => c.packet.isSome
    | .ok _ => false

/-- The status codes of failed bytes (R258). -/
def causeStatus : Cause → Nat
  | .xlate => 3
  | .prot => 4
  | _ => 5

/-- Where a byte of a copy lies, at an offset of one of its ranges, or why it cannot be reached (R258); a lost
    package gives POISON (R309). -/
def copyPlace (s : State) (c : CopyOp) (need : Need) (a : Word) (remote : Bool) (off : Nat) :
    Except Nat (Place × Option TlbEntry) × State :=
  if remote then (.ok (.stash (a.toNat / 2 ^ 32 % 256) (a.toNat % 2 ^ 21 + off), none), s)
  else match window c.wpriv (a.toNat + off) with
    | .bad => (.error 5, s)
    | .raw o => (.ok (.stash c.clu o, none), s)
    | .glob va =>
      match xlateByte s c.ctx need va with
      | (.error e, s1) => (.error (causeStatus e), s1)
      | (.ok e, s1) =>
        let pa := entryPa s1 e va
        if isFenced s1 pa then (.error 6, s1) else (.ok (placeOf pa, some e), s1)

/-- One source byte: dirty from the issuing cluster's view, from home otherwise, or from a stash (R189); with
    its poison. -/
def copyByte (s : State) (c : CopyOp) (e : Option TlbEntry) : Place → Byte × Bool × State
  | .stash k o => (stashGet s k o, stashPoisoned s k o 1, s)
  | .host pa => (hostGet s pa, false, s)
  | .mem pa0 =>
    match c.packet with
    | none =>
      let pa := chase s (loadPa s c.clu c.key pa0 e)
      let s1 := if viewDirty s c.clu c.key pa then s else l2Reach (recallRange s c.key pa 1) c.key pa 1
      let r := homeRead s1 c.clu c.key pa 1
      (r.1.headD 0, r.2, s1)
    | some _ =>
      let s1 := l2Reach (recallRange s c.key pa0 1) c.key pa0 1
      (homeGet s1 c.key pa0, homePoisoned s1 pa0, s1)
  | .nowhere => (0, false, s)

/-- `n` source bytes from an offset on: the bytes up to the first that fails, the status of that one, and the
    state. -/
def copyRead (c : CopyOp) : (n off : Nat) → State → List Byte × Nat × State
  | 0, _, s => ([], 0, s)
  | n + 1, off, s =>
    match copyPlace s c ⟨true, false⟩ c.src (c.w2.getLsbD 48) off with
    | (.error k, s1) => ([], k, s1)
    | (.ok (p, e), s1) =>
      let (b, bad, s2) := copyByte s1 c e p
      if bad then ([], 6, s2)
      else
        let (bs, k, s3) := copyRead c n (off + 1) s2
        (b :: bs, k, s3)

/-- A destination in memory as a write finds it: its page no longer replicated, its halves recalled, at its new
    home (R161, R162, R164). -/
def copyDest (s : State) (c : CopyOp) (e : Option TlbEntry) (n : Nat) : Place → Place × State
  | .mem pa0 =>
    let s1 := match e with
      | some x => agentCollapse s x
      | none => s
    (.mem (chase s1 pa0), recallRange s1 c.key (chase s1 pa0) n)
  | p => (p, s)

/-- Bytes written at the destination: a home write or a stash write (R189, R262). -/
def copyWrite (s : State) (c : CopyOp) (bytes : List Byte) : Place → State
  | .stash k o => stashWrite s k o bytes
  | .host pa => hostWrites s pa bytes
  | .mem pa => if c.packet.isSome then homeWrites s c.key (atAddr pa bytes) [] else homeWrite s c.clu c.key pa bytes
  | .nowhere => s

/-- What stands at the destination of an element. -/
def copyOld (s : State) (c : CopyOp) (n : Nat) : Place → List Byte × Bool
  | .stash k o => (stashBytes s k o n, stashPoisoned s k o n)
  | .host pa => (hostBytes s pa n, false)
  | .mem pa => (homeBytes s c.key pa n, homeBad s pa n)
  | .nowhere => ([], false)

/-- An element applied at the destination (R262). -/
def applyElem (op : Nat) (f : Fmt) (old new : Nat) : Nat :=
  if Fmt.isInt f then
    let w := fmtWidth f
    match op with
    | 1 => (old + new) % 2 ^ w
    | 2 => if intOf f new < intOf f old then new else old
    | _ => if intOf f old < intOf f new then new else old
  else
    match op with
    | 1 => (fpAdd f Rnd.rne old new).bits
    | 2 => (fpMinMax f false old new).bits
    | _ => (fpMinMax f true old new).bits

/-- The elements of some bytes applied at the destination, with their offsets in it. One whose old value is
    poisoned is left out (R262, R303). -/
def newElems (s : State) (c : CopyOp) (bytes : List Byte) (p : Place) : List (Nat × List Byte) :=
  (List.range (bytes.length / c.width)).filterMap fun i =>
    let old := copyOld s c c.width (p.add (i * c.width))
    let v := applyElem c.op (c.etype.getD .n64) (leNat old.1) (leNat ((bytes.drop (i * c.width)).take c.width))
    if old.2 then none else some (i * c.width, leBytes c.width v)

/-- Elements applied at the destination in one action: a home RMW, which leaves the view of the issuing cluster
    alone, or a stash action (R177, R189, R262). -/
def copyApply (s : State) (c : CopyOp) (bytes : List Byte) (p : Place) : State :=
  let es := newElems s c bytes p
  match p with
  | .mem pa => homeWrites s c.key (es.flatMap fun e => atAddr (pa + e.1) e.2) []
  | .stash k o => es.foldl (fun s e => stashWrite s k (o + e.1) e.2) s
  | .host pa => es.foldl (fun s e => hostWrites s (pa + e.1) e.2) s
  | .nowhere => s

/-- A copy that has failed at an offset: the lowest failure decides status and prefix, and the parts below it
    are still to be done (R258, R263). -/
def CopyOp.fail (c : CopyOp) (status off : Nat) : CopyOp :=
  if c.status ≠ 0 && c.stop ≤ off then c
  else
    { c with
      status := status, stop := off, chunks := c.chunks.filter fun p => p.1 < off, got := c.got.filter fun p => p.1 < off }

/-- A copy changed. -/
def putCopy (s : State) (c : CopyOp) : State :=
  let c1 := { c with ready := c.ready || (c.chunks.isEmpty && c.got.isEmpty) }
  { s with flight := { s.flight with copies := s.flight.copies.map fun x => if x.id = c.id then c1 else x } }

/-- An action of a copy: its write-back of issue, a part of its source read, or a line of its destination written
    (R189). -/
inductive CopyAct where
  | writeBack
  | read (off n : Nat)
  | write (line : Nat)
  deriving DecidableEq, Repr

/-- The line of its destination to which an offset of a copy belongs. -/
def CopyOp.line (c : CopyOp) (off : Nat) : Nat := (c.dst.toNat + off) / 128

/-- The lines of its destination that a copy may write next: those that are read, in any order, and in ascending
    order with arithmetic (R261 to R263). -/
def copyLines (c : CopyOp) : List Nat :=
  if c.op = 0 then (c.got.map fun p => c.line p.1).eraseDups.filter fun l => c.chunks.all fun p => c.line p.1 ≠ l
  else ((c.got.head?.map fun p => c.line p.1).filter fun l => c.chunks.all fun p => l < c.line p.1).toList

/-- Bytes read at an offset join those still to be written, in ascending order. -/
def CopyOp.gain (c : CopyOp) (off : Nat) (bytes : List Byte) : CopyOp :=
  if bytes.isEmpty then c
  else { c with got := (c.got.filter fun p => p.1 < off) ++ (off, bytes) :: c.got.filter fun p => off < p.1 }

/-- A part of the source is read, as far as it can be, by whole elements with arithmetic (R189, R263). Where source and
    destination fail at one offset, the source is found to fail first (log 94). -/
def copyChunk (s : State) (c : CopyOp) (off n : Nat) : State :=
  let r := copyRead c n off s
  let w := if c.op = 0 then 1 else c.width
  let bs := r.1.take (r.1.length / w * w)
  let c1 := { c with chunks := c.chunks.erase (off, n) }.gain off bs
  putCopy r.2.2 (if r.2.1 = 0 then c1 else c1.fail r.2.1 (off + bs.length))

/-- The bytes read for a line of the destination, with their offset. -/
def lineData (c : CopyOp) (line : Nat) : Nat × List Byte :=
  let ps := c.got.filter fun p => c.line p.1 = line
  ((ps.head?.map (·.1)).getD 0, ps.flatMap (·.2))

/-- A line of the destination is written, in one action (R189, R262). -/
def copyLine (s : State) (c : CopyOp) (line : Nat) : State :=
  let d := lineData c line
  let c1 := { c with got := c.got.filter fun p => c.line p.1 ≠ line }
  match copyPlace s c ⟨c.op ≠ 0, true⟩ c.dst (c.w2.getLsbD 40) d.1 with
  | (.error k, s1) => putCopy s1 (c1.fail k d.1)
  | (.ok (p, e), s1) =>
    let t := copyDest s1 c e d.2.length p
    putCopy (if c.op = 0 then copyWrite t.2 c d.2 t.1 else copyApply t.2 c d.2 t.1) c1

/-- The bank that applies the elements of a line: an L2 slice of this package or of the one that an address of space
    0b01 names, or one of sixteen of a stash (R152, R262). -/
def bankOf (s : State) : Place → Option Nat
  | .mem pa0 =>
    let pa := chase s pa0
    some (homeSlice pa + if spaceOf pa = 1 then 2 ^ 20 + 2048 * (pa / 2 ^ 40 % 1024) else 0)
  | .stash k o => some (2048 + k * 16 + o / 128 % 16)
  | _ => none

/-- The bank of the destination of a copy at an offset. -/
def copyBank (s : State) (c : CopyOp) (off : Nat) : Option Nat :=
  match (copyPlace s c ⟨true, true⟩ c.dst (c.w2.getLsbD 40) off).1 with
  | .ok (p, _) => bankOf s p
  | .error _ => none

/-- A line of an arithmetic copy with SEQ waits for the lines of the same bank of the earlier ones of its core
    (R262). -/
def seqFree (s : State) (c : CopyOp) (line : Nat) : Bool :=
  let bank := copyBank s c (lineData c line).1
  c.op = 0 || !c.seq || bank.isNone || s.flight.copies.all fun x =>
    !(x.id < c.id && x.core = c.core && x.clu = c.clu && x.packet.isNone && x.op ≠ 0 && x.seq && !x.ready)
      || (x.chunks.map (·.1) ++ x.got.map (·.1)).all fun o => copyBank s x o ≠ bank

/-- The accesses that a thread has issued before a copy and that are not performed. -/
def copyEarlier (s : State) (c : CopyOp) : List Access :=
  ((allIssued s).filter fun x => x.thread.uid = c.uid && x.acc.id < c.id).map fun x => x.acc.chased s

/-- Whether a FENCE that lies before a COPY orders its reads, and whether it orders its writes (R182). -/
def fenceCopy : FenceKind → Bool × Bool
  | .full | .eng | .acq => (true, true)
  | .rel | .ww => (false, true)
  | .rr => (true, false)

/-- Whether the reads of a copy of some bytes, or its writes, follow an access of its thread: a FENCE by its kind, an
    acquire or a collective, an access to those bytes or, as they lie, to memory at the host, and an LDC when the
    address of that side is tainted (R182, R194). -/
def CopyOp.follows (c : CopyOp) (write : Bool) (ps : List (Place × Nat)) (a : Access) : Bool :=
  (match a.kind with
    | .fence k => if write then (fenceCopy k).2 else (fenceCopy k).1
    | .coll => true
    | _ => false)
    || a.acquires || (a.atHost && ps.any (·.1.atHost)) || ((if write then c.dstTaint else c.srcTaint) && a.ldc) || a.meetsAt c.key ps

/-- Whether an earlier copy of a thread still reads or writes bytes of some stretches, or acts at the host as they do
    (R182, R194). -/
def copyMeets (s : State) (c : CopyOp) (ps : List (Place × Nat)) (x : CopyOp) : Bool :=
  let qs := x.readsLeft s ++ x.writesLeft s
  (qs.any (·.1.atHost) && ps.any (·.1.atHost)) || ps.any fun p =>
    { Access.blank with key := c.key, place := p.1, n := p.2 }.meetsAt x.key qs

/-- Whether a copy may read a part of its source, or write one of its destination: what its thread has issued before
    and what orders it after that is done (R180, R182, R194). A copy of a packet waits for no thread. -/
def copyFree (s : State) (c : CopyOp) (write : Bool) (off n : Nat) : Bool :=
  let ps := stretch s (if write then c.dstAt else c.srcAt) off n
  c.packet.isSome || (!(copyEarlier s c).any (c.follows write ps) && !(copiesBefore s c.uid c.id).any (copyMeets s c ps))

/-- Whether a wide scope is asked for (R257). -/
def CopyOp.wide (c : CopyOp) : Bool := let code := field c.w2 42 4; 4 ≤ code && code ≤ 8

/-- Whether the write-back of issue finds what it writes back: the earlier accesses of its thread to the bytes of both
    ranges are performed, and at a wide scope all of them are, as a FENCE of kind rel has it (R180, R182, R189). -/
def wbFree (s : State) (c : CopyOp) : Bool :=
  let ps := stretch s c.srcAt 0 c.len ++ stretch s c.dstAt 0 c.len
  !(copyEarlier s c).any fun a => c.wide || a.meetsAt c.key ps

/-- The issuing cluster's dirty bytes over both ranges go home; at a wide scope, all of them do (R189). -/
def copyIssueActs (s : State) (c : CopyOp) : State :=
  let ps := stretch s c.srcAt 0 c.len ++ stretch s c.dstAt 0 c.len
  let inside := fun (e : Nat × Nat) => e.1 = c.key && ps.any fun p => placesMeet p.1 p.2 (.mem (e.2 * 128)) 128
  let s1 := ((dirtyLines (cluster s c.clu) c.key).filter inside).foldl (fun s e => wbLine s c.clu e.1 e.2) s
  if c.wide then wbAll s1 c.clu c.key else s1

/-- The actions that a copy may take next: its write-back of issue first, and then its reads and its writes, as each
    follows what comes before it (R182, R189). -/
def copyActs (s : State) (c : CopyOp) : List CopyAct :=
  if c.wb then (if wbFree s c then [.writeBack] else [])
  else
    ((c.chunks.filter fun p => copyFree s c false p.1 p.2).map fun p => .read p.1 p.2)
      ++ ((copyLines c).filter fun l =>
            seqFree s c l && copyFree s c true (lineData c l).1 (lineData c l).2.length).map .write

/-- The collectives of the cluster of a copy's thread, which may wait for it, are tried again (R182, R191). -/
def retryAfter (s : State) (c : CopyOp) : State :=
  match if c.packet.isSome then none else locOf s c.uid with
  | some l => retryGroups s l.clu
  | none => s

/-- COPY_ELEMENT_APPLY: a copy takes one of its actions, of a free choice (R182, R189, R261 to R263). -/
def execCopyElementApply (id : Nat) (s : State) : Host.Outcome State Fault Refusal :=
  match s.flight.copies.find? fun c => c.id = id with
  | none => .next s
  | some c =>
    match takeChoice s (copyActs s c) with
    | none => .next (putCopy s c)
    | some (.writeBack, _) => .next (putCopy (drawn (copyIssueActs s c)) { c with wb := false })
    | some (.read off n, _) => .next (retryAfter (drawn (copyChunk s c off n)) c)
    | some (.write line, _) => .next (retryAfter (drawn (copyLine s c line)) c)

/-! Issue. -/

/-- The parts of a copy: its bytes cut at the lines of its destination and of its source (R189, R262). -/
def copyParts (c : CopyOp) : List (Nat × Nat) :=
  (lineParts c.dst.toNat c.len).flatMap fun q =>
    (lineParts (c.src.toNat + (q.1 - c.dst.toNat)) q.2).map fun r => (r.1 - c.src.toNat, r.2)

/-- Where one side of a copy lies, as far as it has a translation (R256). -/
def sideFound (s : State) (c : CopyOp) (a : Word) (remote : Bool) : List Piece × State :=
  if remote then ([⟨0, c.len, .stash (a.toNat / 2 ^ 32 % 256) (a.toNat % 2 ^ 21), none⟩], s) else rangeFound s c.ctx a.toNat c.len

/-- A request with its status at issue: malformed, rejected, empty, or with parts to carry out (R258,
    R259). -/
def begun (c : CopyOp) : CopyOp :=
  if !requestOk c.src c.dst c.w2 c.hnd then { c with status := 2, stop := 0, ready := true }
  else if c.len = 0 then { c with ready := true }
  else if rangeRejected c c.src (c.w2.getLsbD 48) || rangeRejected c c.dst (c.w2.getLsbD 40) then
    { c with status := 5, stop := 0, ready := true }
  else { c with chunks := copyParts c }

/-- The completion value (R258). -/
def tokenWord (xseq : BitVec 16) (status : Nat) (reg : XReg) (done : Nat) : Word :=
  BitVec.ofNat 64 (xseq.toNat * 2 ^ 48 + status * 2 ^ 40 + reg.toNat * 2 ^ 32 + done)

/-- A request register of a copy. -/
def reqWord (t : Thread) (ra : XReg) (i : Nat) : Word := xval t (ra + BitVec.ofNat 6 i)

/-- A copy is accepted: it takes an entry of the core's FIFO and a count, its token register turns empty, and the
    actions of issue are taken, by a malformed request too, unless they have to wait (R189, R260, R261). -/
def startCopy (s : State) (t t1 : Thread) (rd ra : XReg) (send : Option (PReg × BitVec 32 × Scope)) : State :=
  let l := s.cur
  let k := coreOf s l.coreIdx
  let c0 : CopyOp := {
    id := s.nextId, uid := t.uid, clu := l.clu, core := l.core, reg := rd, xseq := k.xseq, src := reqWord t ra 0
    dst := reqWord t ra 1, w2 := reqWord t ra 2, hnd := reqWord t ra 3, key := t.csr.keyid.toNat, ptbase := t.csr.ptbase
    wpriv := t.csr.wpriv, user := !supLevel l t, chunks := [], got := [], status := 0, stop := 0, send := send, packet := none
    srcTaint := xtaint t ra, dstTaint := xtaint t (ra + 1), srcAt := [], dstAt := [], wb := true, ready := false, deposited := false }
  let src := sideFound s c0 c0.src (c0.w2.getLsbD 48)
  let dst := sideFound src.2 c0 c0.dst (c0.w2.getLsbD 40)
  let c := begun { c0 with stop := c0.len, srcAt := src.1, dstAt := dst.1 }
  let s1 := setThread dst.2 l (emptyToken t1 rd)
  let s2 := setCore s1 l.coreIdx { k with xseq := k.xseq + 1, fifo := k.fifo ++ [c.id] }
  let s3 := { s2 with nextId := s2.nextId + 1, flight := { s2.flight with copies := s2.flight.copies ++ [c] } }
  if wbFree s3 c then putCopy (copyIssueActs s3 c) { c with wb := false } else s3

/-- COPY (R256, R260, R261). -/
def execCopy (d : Dep) (rd ra : XReg) (s : State) : Host.Outcome State Fault Refusal :=
  issue (.copy d rd ra) s fun t t1 s => .ok (startCopy s t t1 rd ra none)

/-- COPY.NB (R260, R261): with a full FIFO it deposits BUSY at once; a fixed-latency write that commits to the same
    register at the end of the cycle comes after it (R104, log 95). -/
def execCopyNb (d : Dep) (rd ra : XReg) (s : State) : Host.Outcome State Fault Refusal :=
  issue (.copyNb d rd ra) s fun t t1 s =>
    let k := coreOf s s.cur.coreIdx
    if k.fifo.length < 16 then .ok (startCopy s t t1 rd ra none)
    else .ok (setThread s s.cur (takeToken t1 rd (tokenWord k.xseq 1 rd 0) none))

/-- COPYQ (R261, R344): its binding is checked at issue, and the scope of its word is that of the place from which it
    issues (R190, log 102). -/
def execCopyq (d : Dep) (rd ra : XReg) (q : PReg) (s : State) : Host.Outcome State Fault Refusal :=
  issue (.copyq d rd ra q) s fun t t1 s =>
    let b := (portOf t q).desc
    if !bindingOk b then .error ⟨.operand, BitVec.ofNat 64 (64 + q.toNat)⟩
    else .ok (startCopy s t t1 rd ra (some (q, b, portScope s s.cur b)))

/-! Completion. -/

/-- The clean bytes of a view over a stretch of memory become absent (R189). -/
def dropStretch (s : State) (clu key pa n : Nat) : State :=
  let c := cluster s clu
  let inside := fun (p : Nat) => decide (pa ≤ p) && decide (p < pa + n)
  let serves := fun (o : Nat) => (mapPa c o).any fun p => inside p && decide (viewWhere c key p = some o)
  setCluster s clu (pruneView { c with
    view := mfilter (fun k v => v.dirty || !(k / 2 ^ 52 = key && inside (k % 2 ^ 52))) c.view
    mapped := mfilter (fun o d => d || !serves o) c.mapped })

/-- The token value of a finished copy (R258). A packet has neither a token register nor a core: those fields
    are free values. -/
def copyToken (s : State) (c : CopyOp) : Word :=
  match c.packet with
  | none => tokenWord c.xseq c.status c.reg c.stop
  | some _ => tokenWord ((Config.freeWord s.free).setWidth 16) c.status ((Config.freeWord (s.free + 1)).setWidth 6) c.stop

/-- The token value is sent through the binding that COPYQ captured (R190, R261, R266): the word enters the replay
    window, and goes on its way when its release has been performed. A thread that stands in no slot has performed
    its accesses; the release of the scope is then taken at once, and the word rests in the window. -/
def sendCaptured (s : State) (c : CopyOp) (v : Word) : State :=
  match c.send, liveOf s c.uid with
  | some (q, d, sc), some t =>
    let w : SentWord := { w := ⟨false, v, sc⟩, desc := d, rel := s.nextId, flying := true, due := 0, tries := 1 }
    let put := fun (w : SentWord) (t : Thread) => setPort t q { portOf t q with win := (portOf t q).win ++ [w] }
    match locOf s c.uid with
    | some l =>
      let (s1, t1) := pushAccess s t (sendAccess sc)
      setThread s1 l (put w t1)
    | none =>
      let s1 := modLive (releaseNow s c.clu c.key sc) c.uid (put { w with flying := false, tries := 0 })
      { s1 with nextId := s1.nextId + 1 }
  | _, _ => s

/-- A copy that sends its token has room for it (R266). -/
def sendRoom (s : State) (c : CopyOp) : Bool :=
  match c.send, liveOf s c.uid with
  | some (q, _, _), some t => (portOf t q).win.length < 32
  | _, _ => true

/-- A copy leaves the way. -/
def dropCopy (s : State) (id : Nat) : State :=
  { s with flight := { s.flight with copies := s.flight.copies.filter fun x => x.id ≠ id } }

/-- What a finished copy of a thread does before its token turns full (R189): nothing for a malformed request; a page
    that has moved is at its new home (R161). A
    COPYQ stays until it has sent its token. -/
def copyEnds (s : State) (c : CopyOp) : State :=
  let r := sideFound s c c.dst (c.w2.getLsbD 40)
  let drop := fun (s : State) (p : Piece) => match p.place with
    | .mem pa => dropStretch s c.clu c.key (chase s pa) p.len
    | _ => s
  let s1 := if c.status = 2 then s else r.1.foldl drop r.2
  if c.send.isSome then putCopy s1 { c with deposited := true } else dropCopy s1 c.id

/-- The light interrupt that a completion raises (R114, R261). -/
def copyIrq (c : CopyOp) (v : Word) : Option Irq := if c.hnd = 0 then none else some (.copy c.hnd v)

/-- STADDR of a packet (R274). -/
def packetStaddr (s : State) (p : Nat) : Nat :=
  match s.ctl.packets.find? fun x => x.id = p with
  | some x => (x.words.getD 4 0).toNat
  | none => 0

/-- The copy of a packet completes: its token value goes to STADDR when that is not 0 (R278). -/
def packetCopyEnds (s : State) (c : CopyOp) (p : Nat) (v : Word) : State :=
  let s1 := drawn (drawn (dropCopy s c.id))
  let a := packetStaddr s p
  packetDone (if a = 0 then s1 else agentWord s1 c.ctx a v) p

/-- COPYQ sends its token once that is deposited and the window has room, and then raises its light interrupt (R4,
    R261, R266). -/
def copySends (s : State) (c : CopyOp) : State :=
  if (s.flight.tokens.any fun m => m.copy = some c.id) || !sendRoom s c then s
  else
    let v := copyToken s c
    modLive (dropCopy (sendCaptured s c v) c.id) c.uid fun t => { t with irqs := t.irqs ++ (copyIrq c v).toList }

/-- COPY_COMPLETION: a copy whose parts are done completes its token, with its light interrupt, which COPYQ raises
    only when it has sent the token; a copy of a packet writes it to STADDR (R189, R261, R278). -/
def execCopyCompletion (id : Nat) (s : State) : Host.Outcome State Fault Refusal :=
  match s.flight.copies.find? fun c => c.id = id with
  | none => .next s
  | some c =>
    if !c.ready || c.wb then .next s
    else
      let v := copyToken s c
      match c.packet with
      | none =>
        if c.deposited then .next (copySends s c)
        else .next (sendToken (copyEnds s c) c.uid c.reg v (if c.send.isSome then none else copyIrq c v) (some c.id))
      | some p => .next (packetCopyEnds s c p v)

end Sys2Proof.Machine
end

