-- ==== Sys2Proof/Machine/Threads.lean ====
section
/-! DEFINITION. Threads: SPAWN and WAITF, the landing of results, the delivery of traps, halts and light
interrupts, fetching, slices, and the actions of accesses. -/

namespace Sys2Proof.Machine

/-! SPAWN and WAITF. -/

/-- The slot of a new member, while the gang has a right left that no member holds: the lowest free reserved
    slot of the issuer's core, then of the other cores in ascending order (R20, R22). -/
def spawnSlot (s : State) (l : Loc) (g : GangRec) : Option Loc :=
  let on := fun (k : Nat) => (List.range 128).map fun i => (⟨l.clu, k, i⟩ : Loc)
  if g.slots.length ≤ (liveMembers s g.gang g.lnch).length then none
  else (on l.core ++ ((List.range 4).filter (· ≠ l.core)).flatMap on).find? fun m => g.slots.contains m && freeToStart s m

/-- The lowest TID that no live member of a gang holds (R22). -/
def freeTid (s : State) (gang lnch : Nat) : Nat :=
  let used := (liveMembers s gang lnch).map fun t => t.csr.tid.toNat
  ((List.range (used.length + 1)).find? fun n => !used.contains n).getD 0

/-- WPRIV of a member (R287, R396). -/
def memberWpriv (g : GangRec) (tid : Nat) : Word :=
  BitVec.ofNat 64 ((g.privbase + (g.gang * g.g + tid) * 2 ^ (16 + g.plog)) % 2 ^ 56)

/-- A fence that a thread's accesses follow, itself after accesses of another thread (R185). -/
def startFence (s : State) (prior : List (Nat × Nat)) : Access :=
  { fenceAccess .full .clu with id := s.nextId, after := prior }

/-- The thread that SPAWN starts, after the accesses of its issuer and the landing of its TID (R21, R108,
    R185, R396). -/
def spawned (s : State) (t : Thread) (g : GangRec) (l : Loc) (tid : Nat) (pc arg : Word) (light : Bool) (res : Nat) : Thread :=
  let csr := Csrs.start (BitVec.ofNat 32 tid) t.csr.gsz t.csr.gang t.csr.lnch light t.csr.prio t.csr.slice t.csr.ptbase
    t.csr.keyid (memberWpriv g tid)
  let u := Thread.start s.nextUid l pc arg csr
  { u with pipe := { u.pipe with
      acc := [startFence s (t.pipe.acc.map fun a => (t.uid, a.id))]
      block := some (.landing t.uid res) } }

/-- The mould of SPAWN (R22, R396). A supervisor is a member of no gang, and gets the failure code (log 77). -/
def spawnIssue (i : Instr) (light : Bool) (rd ra rb : XReg) (s : State) : Host.Outcome State Fault Refusal :=
  issue i s fun t t1 s =>
    let fail := variableResult s t1 i.dep.sa [wrX rd (BitVec.allOnes 64)] 0
    match gangOf s t with
    | none => .ok fail
    | some g =>
      match spawnSlot s s.cur g with
      | none => .ok fail
      | some l =>
        let tid := freeTid s g.gang g.lnch
        let s1 := variableResult s t1 i.dep.sa [wrX rd (BitVec.ofNat 64 tid)] 0
        let u := spawned s1 t g l tid (xval t ra) (xval t rb) light s.nextId
        .ok { setThread s1 l u with nextUid := s1.nextUid + 1, nextId := s1.nextId + 1 }

/-- SPAWN (R396). -/
def execSpawn (d : Dep) (rd ra rb : XReg) (s : State) : Host.Outcome State Fault Refusal :=
  spawnIssue (.spawn d rd ra rb) false rd ra rb s

/-- SPAWN.L (R396): the new thread is light. -/
def execSpawnL (d : Dep) (rd ra rb : XReg) (s : State) : Host.Outcome State Fault Refusal :=
  spawnIssue (.spawnL d rd ra rb) true rd ra rb s

/-- WAITF (R423). -/
def execWaitf (d : Dep) (r : Opr) (s : State) : Host.Outcome State Fault Refusal := issueThread (.waitf d r) s fun _ t1 => t1

/-- WAITF.PARK (R423, R424). -/
def execWaitfPark (d : Dep) (r : Opr) (s : State) : Host.Outcome State Fault Refusal :=
  issueThread (.waitfPark d r) s fun _ t1 => t1

/-! Results. -/

/-- FIXED_RESULT_WRITE: the first fixed-latency result of a thread that is due at the end of the cycle is written,
    before what is deposited at the end of it (R59, R61, R104). -/
def execFixedResultWrite (l : Loc) (s : State) : Host.Outcome State Fault Refusal :=
  .next (modThread s l fun t => landFixed t (s.cycle + 1))

/-- RESULT_LANDING: the result of a variable-latency instruction lands (R63, R64, R104). -/
def execResultLanding (l : Loc) (id : Nat) (s : State) : Host.Outcome State Fault Refusal :=
  .next (modThread s l fun t =>
    match t.pipe.results.find? fun r => r.id = id with
    | some r => if r.ready then landResult t r else t
    | none => t)

/-- One turn of what a thread has under way by id: an access takes one action, a CMPK or EXPD goes on. -/
def accessTurn (s : State) (l : Loc) (id : Nat) : State :=
  match (thread? s l).bind fun t => t.pipe.pack with
  | some k => if k.id = id then packTurn s l k else performAction s l id
  | none => performAction s l id

/-- ACCESS_ACTION: an issued access takes one action, in the order within its thread (R177, R178, R180); a CMPK
    or EXPD goes on with its reads and stores (R191, R239, R355). What waits on the accesses of its thread is looked
    at again. -/
def execAccessAction (l : Loc) (id : Nat) (s : State) : Host.Outcome State Fault Refusal :=
  let s1 := accessTurn s l id
  let s2 := match thread? s1 l with
    | some t => retryWaits s1 l.clu t
    | none => s1
  .next (retireEnded s2)

/-! Traps, halts and light interrupts. -/

/-- TRAP_DELIVERY: a trap that was raised, or else a fault of the thread's group, is delivered once the thread
    is at rest (R67, R112, R218, R295). A fault of the group waits for a pending annulment (R40). -/
def execTrapDelivery (l : Loc) (s : State) : Host.Outcome State Fault Refusal :=
  match thread? s l with
  | none => .next s
  | some t =>
    if !drained t s.cycle || t.mode ≠ .running then .next s
    else match t.trap with
      | some r => .next (if r.alone then s else takeTrap s l t r)
      | none =>
        match t.gfault with
        | some k =>
          if t.pipe.annul ≠ 0 then .next s
          else .next (raiseTrap s l { t with gfault := none } (groupFault k))
        | none => .next s

/-- What lets a thread that stands at no instruction of its line halt at once: a pending annulment, or that
    nothing holds it back (R40, R54). -/
def mayHalt (s : State) (l : Loc) (t : Thread) : Bool :=
  mayRun t && (t.pipe.annul ≠ 0
    || (t.pipe.pack.isNone && !beingSaved s l t && blockMet s t (.nop false) && (!t.pipe.sWait || settled t s.cycle)))

/-- Whether the waits of an illegal word are met: those of every halt, and the PD, SC and SA waits of its dependence
    byte (R26, R27, R58). -/
def illegalReady (s : State) (l : Loc) (t : Thread) (w : Nat) : Bool :=
  mayHalt s l t && pdMet t (wordDep w).pd s.cycle && tagsMet t (wordDep w)

/-- HALT_ALONE: a thread whose instruction is illegal, or whose PC names none, raises its halt; a halt that
    has been raised takes effect once the thread is at rest (R40, R54, R67, R72, R87). -/
def execHaltAlone (l : Loc) (s : State) : Host.Outcome State Fault Refusal :=
  match thread? s l with
  | none => .next s
  | some t =>
    match t.trap with
    | some r => .next (if r.alone && drained t s.cycle then takeTrap s l t r else s)
    | none =>
      if !mayHalt s l t then .next s
      else match nextOf s l t with
        | .target => .next (raiseTarget s l t)
        | .illegal w _ => .next (if illegalReady s l t w then raiseIllegal s l t w else s)
        | _ => .next s

/-- A light interrupt is delivered to its handler (R114). -/
def enterLight (t : Thread) : Thread :=
  match t.irqs with
  | [] => t
  | q :: qs =>
    let c := { t.csr with uepc := t.pc, tcause := t.csr.tcause ||| BitVec.twoPow 64 62 }
    let t1 := { t with irqs := qs, present := none, pipe := t.pipe.fresh 0 }
    match q with
    | .copy h v => { t1 with csr := { c with xferid := v }, pc := h }
    | .ctl v => { t1 with csr := { c with qctlv := v }, pc := t.csr.qhnd }

/-- LIGHT_INTERRUPT_DELIVERY: the light interrupt held longest is delivered once the thread is at rest and
    nothing comes before it (R67, R114, R295). -/
def execLightInterruptDelivery (l : Loc) (s : State) : Host.Outcome State Fault Refusal :=
  match thread? s l with
  | none => .next s
  | some t =>
    if t.mode = .running && t.trap.isNone && t.gfault.isNone && irqReady t && drained t s.cycle then
      .next (setThread s l (enterLight t))
    else .next s

/-! Fetching and slices. -/

/-- The line at the PC is fetched, or its fetch fails (R70, R169, R171). A malformed line is ILLEGAL also where its
    page permits no fetch (R54, R72). -/
def fetchAt (s : State) (l : Loc) (t : Thread) : State :=
  if t.pc.toNat / 2 ^ 56 ≠ 0 then raiseIfetch s l t
  else
    let c := threadCtx l t
    match translate s c (pcLine t.pc) with
    | (.leaf e, s1) =>
      let pa := readPa s1 c e (pcLine t.pc)
      let (k, s2) := codeFetch s1 l c.key pa
      if fetchAllowed c e then fillCode s2 l.coreIdx (codeKey t pa) k
      else match lineAt k.bytes 0 with
        | .error _ => drawn (raiseTarget s2 l t)
        | .ok _ => drawn (raiseIfetch s2 l t)
    | (_, s1) => raiseIfetch s1 l t

/-- LINE_FETCH: the code line at a thread's PC is fetched; IFETCH when it cannot be, POISON when it is
    poisoned (R70, R169, R171, R303). A thread that is being saved takes no more part in it, but for an annulment
    still pending (R40). -/
def execLineFetch (l : Loc) (s : State) : Host.Outcome State Fault Refusal :=
  match thread? s l with
  | none => .next s
  | some t =>
    if !mayRun t || (beingSaved s l t && t.pipe.annul = 0) then .next s
    else match nextOf s l t with
      | .fetch => .next (fetchAt s l t)
      | .poison => .next (raiseTrap s l t ⟨.poison, t.pc⟩)
      | _ => .next s

/-- SLICE_EXPIRY: the count of a resident thread reaches SLICE (R25, R289). -/
def execSliceExpiry (l : Loc) (s : State) : Host.Outcome State Fault Refusal :=
  .next (modThread s l fun t =>
    if t.mode = .running && t.csr.slice ≠ 0 && t.csr.slice.toNat ≤ t.sliceCount && t.expired.isNone then expire s l t else t)

end Sys2Proof.Machine
end

