-- ==== Sys2Proof/Machine/Host.lean ====
section
/-! DEFINITION. The host and the Novyada functions: BAR0 registers, BAR2 and CXL.mem, mailboxes, security
requests, power, errors, loss of a package, boot and reset (R301 to R322, R445). -/

namespace Sys2Proof.Machine

/-- BAR0 changed. -/
def setBar (s : State) (b : Bar0) : State := { s with ctl := { s.ctl with bar := b } }

/-- After a failed verification only offsets of BAR0 below 0x1_0000 respond (R316). -/
def bar0Open (s : State) (off : Nat) : Bool := off < 0x10000 || !bootFailed s

/-! Host accesses to device memory. -/

/-- What a read of the host returns. -/
def hostReply (s : State) (bytes : List Byte) : State := { s with ctl := { s.ctl with hostData := bytes } }

/-- A host access to bytes of space 0b00 at their home, under HOSTKEY: a write collapses a replicated page first,
    and both recall the halves that the host holds. An access that goes elsewhere has no effect and reads as all
    ones (R162, R164, R193, R314); one after a failed verification gets no response: a write has no effect, and a read
    gives a free value (R316, log 84). -/
def hostAccess (s : State) (write : Bool) (pa n : Nat) (data : BitVec 512) : State :=
  if 64 < n || n = 0 then s
  else if bootFailed s then (if write then s else drawnBy 4 (hostReply s ((leBytes 64 (freeBlock s.free).toNat).take n)))
  else if 2 ^ 40 < pa + n then (if write then s else hostReply s (List.replicate n 0xFF))
  else
    let key := s.ctl.bar.hostkey
    let s1 := if write then collapseAt (collapseAt s pa) (pa + n - 1) else s
    let s2 := recallRange s1 key pa n
    if write then homeWrites s2 key (atAddr pa (leBytes n data.toNat)) []
    else let s3 := l2Reach s2 key pa n; drawn (hostReply s3 (homeBytes s3 key pa n))

/-- HOST_BAR2_ACCESS (R312, R314): BAR2 ends with its size. -/
def execHostBar2Access (write : Bool) (off n : Nat) (data : BitVec 512) (s : State) : Host.Outcome State Fault Refusal :=
  .next (if s.ctl.bar.bar2size < off + n then s else hostAccess s write (s.ctl.bar.bar2win + off) n data)

/-- HOST_CXL_MEM_ACCESS (R310, R314): the HDM decoder covers the 1 TiB of HBM from the base that the host
    programs. -/
def execHostCxlMemAccess (write : Bool) (hpa n : Nat) (data : BitVec 512) (s : State) : Host.Outcome State Fault Refusal :=
  let b := s.ctl.bar.hdmBase
  .next (if hpa < b || b + 2 ^ 40 < hpa + n then s else hostAccess s write (hpa - b) n data)

/-- An address in BAR2WIN: a multiple of the size of BAR2 in space 0b00 to 0b11 (R312, R313). -/
def winAligned (size a : Nat) : Nat := a % 2 ^ 52 / size * size

/-- The host sets the size of BAR2: a power of two from 256 MiB to 1 TiB (R312). BAR2WIN stays aligned to it. -/
def setBar2Size (s : State) (n : Nat) : State :=
  if ((List.range 13).map fun i => 2 ^ (28 + i)).contains n then
    setBar s { s.ctl.bar with bar2size := n, bar2win := winAligned n s.ctl.bar.bar2win }
  else s

/-- The host programs the base of the HDM decoder (R310). -/
def setHdmBase (s : State) (a : Nat) : State := setBar s { s.ctl.bar with hdmBase := a }

/-- HOSTKEY_WRITE (R313, R314). -/
def execHostkeyWrite (v : Word) (s : State) : Host.Outcome State Fault Refusal :=
  .next (setBar s { s.ctl.bar with hostkey := v.toNat % 64 })

/-! Queue registers. -/

/-- Whether a packet of a queue has been taken and is not complete. -/
def queueBusy (s : State) (q : Nat) : Bool := s.ctl.packets.any fun p => p.queue = q && p.phase ≠ .done

/-- How far DOORBELL is ahead of RDIDX (R273). -/
def Queue.waiting (x : Queue) : Nat := (x.doorbell - x.rdidx).toNat

/-- DOORBELL_WRITE (R273, R276): ignored for a device-owned queue that is enabled; with EN = 0 it sets RDIDX
    too; a value out of range puts the queue in state 3. -/
def execDoorbellWrite (q : Nat) (v : Word) (s : State) : Host.Outcome State Fault Refusal :=
  let x := queueOf s q
  let d := v.setWidth 32
  if 128 ≤ q || !bar0Open s 0x100000 then .next s
  else if !x.en then .next (setQueue s q { x with doorbell := d, rdidx := d })
  else if x.dev then .next s
  else
    let y := { x with doorbell := d }
    .next (setQueue s q (if 2 ^ x.logn < y.waiting then { y with qstate := 3 } else
      if y.qstate = 0 then { y with qstate := 1 } else y))

/-- QCFG_WRITE (R273, R276): EN needs a legal LOGN. A queue whose DOORBELL is too far ahead for its ring is in
    state 3. -/
def execQcfgWrite (q : Nat) (v : Word) (s : State) : Host.Outcome State Fault Refusal :=
  let x := queueOf s q
  let logn := field v 0 4
  let en := v.getLsbD 7 && decide (4 ≤ logn) && logn ≤ 15
  let y := { x with en := en, dev := v.getLsbD 6, prio := field v 4 2, logn := logn }
  if 128 ≤ q || !bar0Open s 0x100000 then .next s
  else if en then
    let held := s.ctl.packets.any fun p => p.queue = q && p.phase ≠ .done && x.qstate = 2
    .next (setQueue s q { y with qstate := if x.qstate = 3 || 2 ^ logn < y.waiting then 3 else if held then 2 else 1 })
  else
    let st := if x.qstate = 2 then 2 else if queueBusy s q then x.qstate else 0
    .next (setQueue s q { y with qstate := st })

/-! Other registers of BAR0. -/

/-- A word written into the reply buffer of the host mailbox. -/
def setReply (b : Bar0) (i : Nat) (v : Word) : Bar0 := { b with hmreply := b.hmreply.set (i % 8) v (Nat.mod_lt _ (by decide)) }

/-- A write into a register of a queue block other than DOORBELL and QCFG: while EN = 0 (R273, R276). -/
def queueRegWrite (s : State) (off : Nat) (v : Word) : State :=
  let q := (off - 0x100000) / 64
  let x := queueOf s q
  if x.en then s
  else match off % 64 with
    | 0x00 => setQueue s q { x with qbase := field v 6 46 * 64 }
    | 0x10 => setQueue s q { x with qptb := v }
    | 0x18 => setQueue s q { x with qkey := v.toNat % 64 }
    | 0x30 => setQueue s q { x with holdlim := v.toNat % 2 ^ 32 }
    | _ => s

/-- A write of a counter of a die or of its select (R320). -/
def dieRegWrite (s : State) (off : Nat) (v : Word) : State :=
  let d := (off - 0x200000) / 0x1000
  let o := off % 0x1000
  let x := dieOf s d
  if o < 0x100 then setDie s d { x with ctr := mset x.ctr (o / 8) v }
  else if o < 0x200 then setDie s d { x with sel := mset x.sel ((o - 0x100) / 8) (storedSel true v) }
  else s

/-- A security request starts; one of an unknown command, or with a reserved bit, is refused (R319). -/
def startRequest (b : Bar0) (v : Word) : Bar0 :=
  let b1 := { b with scmd := v.toNat % 256, srlen := 0, sreply := [], sreason := 0 }
  if 256 ≤ v.toNat || v.toNat < 1 || 3 < v.toNat then { b1 with sstate := 3, sreason := 1 } else { b1 with sstate := 1 }

/-- REGISTER_WRITE: a host write of an aligned register of BAR0 without an event of its own; unlisted and
    read-only ones ignore it (R307, R308, R313, R319, R320). -/
def execRegisterWrite (off : Nat) (v : Word) (s : State) : Host.Outcome State Fault Refusal :=
  let b := s.ctl.bar
  if off % 8 ≠ 0 || !bar0Open s off then .next s
  else if off = 0x10 then .next (setBar s { b with bar2win := winAligned b.bar2size (field v 28 24 * 2 ^ 28) })
  else if off = 0x80000 then .next (setBar s { b with jbase := field v 6 46 * 64 })
  else if off = 0x80008 then .next (setBar s { b with jlog := v.toNat % 32 })
  else if off = 0x80048 then .next (setBar s { b with hmbase := field v 6 46 * 64, hmlog := v.toNat % 16 })
  else if off = 0x80058 then .next (setBar s { b with hmrd := v.toNat })
  else if 0x80100 ≤ off ∧ off < 0x80140 then .next (setBar s (setReply b ((off - 0x80100) / 8) v))
  else if 0x100000 ≤ off ∧ off < 0x102000 then .next (queueRegWrite s off v)
  else if 0x200000 ≤ off ∧ off < 0x208000 then .next (dieRegWrite s off v)
  else if 0x400000 ≤ off ∧ off < 0x401000 then
    .next (if b.sstate = 1 then s else setBar s { b with sreq := mset b.sreq ((off - 0x400000) / 8) v })
  else if off = 0x401000 then .next (if b.sstate = 1 then s else setBar s (startRequest b v))
  else .next s

/-! Mailboxes. -/

/-- FMODE_WRITE (R308): bit 4 stays 0. -/
def execFmodeWrite (v : Word) (s : State) : Host.Outcome State Fault Refusal :=
  .next (if bar0Open s 0x80040 then setBar s { s.ctl.bar with fmode := v.setWidth 8 &&& 0xEF } else s)

/-- The host sends HMREPLY to a function: an entry enters the path to its mailbox, noted as one that goes there even
    in host-assisted mode (R308, log 36). -/
def sendReply (s : State) (f : Nat) : State :=
  let m := mailOf s.ctl.bar.hmreply.toList
  sendMail { s with ctl := { s.ctl with replies := s.ctl.replies ++ [(f, m)] } } f m

/-- HMRDB_WRITE (R308): HMREPLY is sent to the function that is named; there are eight. -/
def execHmrdbWrite (v : Word) (s : State) : Host.Outcome State Fault Refusal :=
  .next (if bar0Open s 0x80140 && v.toNat % 256 < 8 then sendReply s (v.toNat % 256) else s)

/-- An entry reaches the mailbox of a function, or the ring of the host in host-assisted mode unless the host has sent
    it; it waits while there is no room (R13, R308). -/
def deliverMail (s : State) (f : Nat) (data : BitVec 512) : Option State :=
  let b := s.ctl.bar
  if b.fmode.getLsbD f && !s.ctl.replies.contains (f, data) then
    if 2 ^ b.hmlog ≤ b.hmwr - b.hmrd then none
    else
      let s1 := hostWrites s (3 * 2 ^ 50 + b.hmbase + 64 * (b.hmwr % 2 ^ b.hmlog)) (leBytes 64 data.toNat)
      some (setBar s1 { b with hmwr := b.hmwr + 1 })
  else
    let box := (mget s.ctl.mailboxes f).getD []
    if 16 ≤ box.length then none
    else some { s with ctl := { s.ctl with
      mailboxes := mset s.ctl.mailboxes f (box ++ [data]), replies := s.ctl.replies.erase (f, data) } }

/-- MAILBOX_ENTRY: an entry for a function is delivered, or joins those that wait for room (R13, R308, log 42). -/
def execMailboxEntry (f : Nat) (data : BitVec 512) (s : State) : Host.Outcome State Fault Refusal :=
  match deliverMail s (f % 8) data with
  | none => .next (if s.ctl.outbox.contains (f % 8, data) then s
      else { s with ctl := { s.ctl with outbox := s.ctl.outbox ++ [(f % 8, data)] } })
  | some s1 => .next { s1 with ctl := { s1.ctl with outbox := s1.ctl.outbox.erase (f % 8, data) } }

/-- A Novyada function takes the oldest entry of its mailbox (R13). -/
def takeMail (s : State) (f : Nat) : State :=
  match mget s.ctl.mailboxes f with
  | some (m :: ms) => { s with ctl := { s.ctl with mailboxes := mset s.ctl.mailboxes f ms, taken := s.ctl.taken ++ [(f, m)] } }
  | _ => s

/-! Security requests. -/

/-- Bytes of the request buffer (R319). A word that the host has not written holds no promised value. -/
def reqBytes (s : State) (from_ n : Nat) : List Byte :=
  (List.range n).map fun i =>
    let o := from_ + i
    match mget s.ctl.bar.sreq (o / 8) with
    | some w => BitVec.ofNat 8 (w.toNat / 2 ^ (8 * (o % 8)))
    | none => Config.unwritten (2 ^ 61 + o) s.free

/-- What a request leaves: done with a reply, or refused with a reason (R319). -/
def endRequest (s : State) (state reason : Nat) (reply : List Byte) : State :=
  setBar s { s.ctl.bar with sstate := state, sreason := reason, srlen := reply.length, sreply := reply }

/-- What the six measurement registers measure (R317) of the state: the functions' configuration, the routing
    and the key slots change; the boot ROM, the firmware and the fuses are the image's (log 46). -/
def measured (s : State) : Nat → List Nat
  | 2 => [s.ctl.bar.fmode.toNat]
  | 4 => s.ctl.bar.pkgnum :: s.ctl.bar.links.toList.flatMap fun e => [e.1, e.2]
  | 5 => s.ctl.keys.map Prod.fst
  | _ => []

/-- Items 1 to 4 of the reply to ATTEST (R317, R319). -/
def attestItems (s : State) : List Byte :=
  reqBytes s 0 32
    ++ (List.range 6).flatMap (fun m => (List.range 48).map (Config.measurement s.ctl.bar.image m (measured s m)))
    ++ leBytes 8 s.ctl.bar.pkgnum ++ leBytes 8 s.ctl.bar.bootstat
    ++ (List.range 1568).map Config.mlkemKey

/-- Whether a request of a command is under way. -/
def requested (s : State) (cmd : Nat) : Bool := s.ctl.bar.sstate = 1 && s.ctl.bar.scmd = cmd

/-- ATTEST (R317, R319). -/
def execAttest (s : State) : Host.Outcome State Fault Refusal :=
  if !requested s 1 then .next s
  else
    let a := attestItems s
    .next (drawn (endRequest s 2 0 (a ++ (List.range 16608).map (Config.signature s.free a))))

/-- The key that a request names, when it names one of 1 to 63 (R318, R319). -/
def requestKey (s : State) : Option Nat :=
  let k := leNat (reqBytes s 0 8)
  if k = 0 || 63 < k then none else some k

/-- A key is retired as KEYRET does it, and then the pair of that number is `pair` (R166, R318). -/
def replaceKey (s : State) (k : Nat) (pair : Option (BitVec 512)) : State :=
  let s1 := retireKey s k
  let keys := match pair with
    | some p => mset s1.ctl.keys k p
    | none => mdel s1.ctl.keys k
  { s1 with
    ctl := { s1.ctl with keys := keys }
    store := { s1.store with homeKey := mfilter (fun _ x => x ≠ k) s1.store.homeKey } }

/-- LOADKEY (R318, R319). What was written under the key before is decrypted by the new pair: it has no
    promised value (R165). -/
def execLoadkey (s : State) : Host.Outcome State Fault Refusal :=
  if !requested s 2 then .next s
  else match requestKey s with
    | none => .next (endRequest s 3 2 [])
    | some k =>
      match Config.unwrapKey (reqBytes s 8 1660) with
      | none => .next (endRequest s 3 3 [])
      | some p => .next (endRequest (replaceKey s k (some p)) 2 0 [])

/-- CLEARKEY (R318, R319). -/
def execClearkey (s : State) : Host.Outcome State Fault Refusal :=
  if !requested s 3 then .next s
  else match requestKey s with
    | none => .next (endRequest s 3 2 [])
    | some k => .next (endRequest (replaceKey s k none) 2 0 [])

/-! Reads of BAR0. -/

/-- A flag at a bit. -/
def flagBit (b : Bool) (k : Nat) : Nat := if b then 2 ^ k else 0

/-- A register of the block of a queue (R273). -/
def queueRegRead (s : State) (off : Nat) : Nat :=
  let x := queueOf s ((off - 0x100000) / 64)
  match off % 64 with
  | 0x00 => x.qbase
  | 0x08 => flagBit x.en 7 + flagBit x.dev 6 + x.prio * 16 + x.logn
  | 0x10 => x.qptb.toNat
  | 0x18 => x.qkey
  | 0x20 => x.doorbell.toNat
  | 0x28 => x.rdidx.toNat
  | 0x30 => x.holdlim
  | _ => x.qstate

/-- A counter of a die, or its select (R320). -/
def dieRegRead (s : State) (off : Nat) : Nat :=
  let x := dieOf s ((off - 0x200000) / 0x1000)
  let o := off % 0x1000
  if o < 0x100 then ((mget x.ctr (o / 8)).getD 0).toNat
  else if o < 0x200 then ((mget x.sel ((o - 0x100) / 8)).getD 0).toNat
  else 0

/-- The value of a register of BAR0; one at an unlisted offset reads as 0 (R273, R307, R308, R313, R315, R319, R320,
    R322). What HMRDB reads as is not stated: a free value (log 84). -/
def bar0Word (s : State) (off : Nat) : Nat :=
  let b := s.ctl.bar
  if off = 0x00 then b.bootstat
  else if off = 0x08 then b.pkgnum
  else if off = 0x10 then b.bar2win
  else if off = 0x18 then b.hostkey
  else if 0x100 ≤ off ∧ off < 0x180 then let e := b.links.toList.getD ((off - 0x100) / 8) (0, 0); e.1 * 2 ^ 10 + e.2
  else if off = 0x80000 then b.jbase
  else if off = 0x80008 then b.jlog
  else if off = 0x80010 then b.jwr
  else if off = 0x80040 then b.fmode.toNat
  else if off = 0x80048 then b.hmbase + b.hmlog
  else if off = 0x80050 then b.hmwr
  else if off = 0x80058 then b.hmrd
  else if 0x80100 ≤ off ∧ off < 0x80140 then (b.hmreply.toList.getD ((off - 0x80100) / 8) 0).toNat
  else if off = 0x80140 then (Config.freeWord s.free).toNat % 2 ^ 8
  else if 0x100000 ≤ off ∧ off < 0x102000 then queueRegRead s off
  else if 0x200000 ≤ off ∧ off < 0x208000 then dieRegRead s off
  else if off = 0x300000 then b.pwrlim
  else if off = 0x300008 then b.clkcur
  else if off = 0x300010 then b.tmax
  else if off = 0x300018 then b.lowcyc.toNat
  else if 0x400000 ≤ off ∧ off < 0x401000 then leNat (reqBytes s (off - 0x400000) 8)
  else if off = 0x401000 then b.scmd
  else if off = 0x401008 then b.sreason * 2 ^ 8 + b.sstate
  else if off = 0x401010 then b.srlen
  else if 0x408000 ≤ off ∧ off < 0x410000 then leNat ((b.sreply.drop (off - 0x408000)).take 8)
  else 0

/-- A read of BAR0 by the host: an aligned access of eight bytes returns the register, any other access 0 (R313). An
    offset that does not respond returns a free value (R316, log 84). -/
def bar0Read (s : State) (off n : Nat) : State :=
  let v := if bar0Open s off then (if n = 8 ∧ off % 8 = 0 then bar0Word s off else 0) else (Config.freeWord s.free).toNat
  if 64 < n then s else drawn (hostReply s (leBytes n v))

/-! Power and temperature. -/

/-- PWRLIM_WRITE (R322). -/
def execPwrlimWrite (v : Word) (s : State) : Host.Outcome State Fault Refusal :=
  let w := v.toNat % 4096
  .next (if bar0Open s 0x300000 then setBar s { s.ctl.bar with pwrlim := if 1200 ≤ w ∧ w ≤ 3600 then w else 3600 } else s)

/-- CLOCK_CHANGE (R322): in steps of 25 MHz, and to 500 MHz alone while TMAX is 105 or more. -/
def execClockChange (mhz : Nat) (s : State) : Host.Outcome State Fault Refusal :=
  let b := s.ctl.bar
  if 500 ≤ mhz && mhz ≤ 1500 && mhz % 25 = 0 && (b.tmax < 105 || mhz = 500) then .next (setBar s { b with clkcur := mhz })
  else .next s

/-- The package signals a fatal error, and is lost (R302, R309, R322): launches with gangs on it are aborted. -/
def signalFatal (s : State) : State := { s with ctl := { s.ctl with fatal := true } }

/-- The hottest sensor reads a temperature: from 105 °C the clock goes to 500 MHz, from 115 °C the package signals a
    fatal error (R322). -/
def heatTo (s : State) (temp : Nat) : State :=
  let b := { s.ctl.bar with tmax := temp % 256 }
  let s1 := setBar s (if 105 ≤ b.tmax then { b with clkcur := 500 } else b)
  if 115 ≤ b.tmax then signalFatal s1 else s1

/-- THERMAL_THROTTLE (R322). -/
def execThermalThrottle (temp : Nat) (s : State) : Host.Outcome State Fault Refusal := .next (heatTo s temp)

/-- THERMAL_FATAL (R309, R322). -/
def execThermalFatal (temp : Nat) (s : State) : Host.Outcome State Fault Refusal := .next (heatTo s temp)

/-! Errors. -/

/-- A machine check record goes to the error-handling function (R305). How many errors it merges is a free
    value. -/
def machineCheck (s : State) (kind unit die clu addr : Nat) (syn : Word) : State :=
  let merged := ((Config.freeWord s.free).setWidth 32).toNat
  drawn (sendMail s 3 (mailOf
    [BitVec.ofNat 64 (merged * 2 ^ 32 + clu % 256 * 2 ^ 19 + die % 8 * 2 ^ 16 + unit % 256 * 2 ^ 8 + kind),
     BitVec.ofNat 64 (addr % 2 ^ 52), syn, BitVec.ofNat 64 s.cycle]))

/-- CORRECTED_ERROR (R301, R305). Codes of UNIT above 8 are reserved. -/
def execCorrectedError (unit die clu addr : Nat) (syn : Word) (s : State) : Host.Outcome State Fault Refusal :=
  .next (if 8 < unit then s else machineCheck (tallyDie s (die % 8) 0x105 1) 1 unit die clu addr syn)

/-- Words of eight bytes at home poisoned. -/
def poisonHome (s : State) (ws : List Nat) : State :=
  { s with store := { s.store with homePoison := (s.store.homePoison ++ ws).eraseDups } }

/-- An uncorrectable error in a word of a cluster data cache: dirty bytes are poisoned, a clean copy is
    discarded (R302). -/
def poisonView (s : State) (clu addr : Nat) : State × Bool :=
  let bytes := (List.range 8).map fun i => addr / 8 * 8 + i
  let keys := (((cluster s clu).view.filter fun e => e.1 % 2 ^ 52 / 128 = addr / 128).map fun e => e.1 / 2 ^ 52).eraseDups
  keys.foldl
    (fun r k =>
      if bytes.any (viewDirty r.1 clu k) then (viewPoisonSet r.1 clu k addr true, true)
      else (viewDels r.1 clu k bytes, r.2)) (s, false)

/-- An uncorrectable error in a word of the slice of a die that serves it: of a dirty line of its home slice the word is
    poisoned, and a clean line of that slice, or a read copy in the slice of another die, is discarded (R160, R302). -/
def poisonL2 (s : State) (die addr : Nat) : State × Bool :=
  let slice := 256 * die + sliceOf addr
  let held := (l2Of s slice).filter fun e => decide (e.1 % 2 ^ 45 = addr / 128)
  if hasHome addr && homeSlice addr = slice && held.any (·.2) then (poisonHome s [addr / 8], true)
  else (held.foldl (fun s e => l2Del s slice e.1) s, false)

/-- An uncorrectable error in a 32-byte word of HBM: its words are poisoned; under a line that its home slice holds that
    shows only when the line leaves the slice clean (R302). -/
def poisonHbm (s : State) (addr : Nat) : State :=
  let ws := (List.range 4).map fun i => addr / 32 * 4 + i
  if hasHome addr && (l2Of s (homeSlice addr)).any (fun e => decide (e.1 % 2 ^ 45 = addr / 128)) then
    { s with store := { s.store with hbmPoison := (s.store.hbmPoison ++ ws).eraseDups } }
  else poisonHome s ws

/-- A register of a thread poisoned: bits [15:8] of the index give the slot, [17:16] the core, and the low byte
    an x register, or a v register from 64 on (R304). -/
def poisonReg (s : State) (clu addr : Nat) : State :=
  let l : Loc := ⟨clu, addr / 65536 % 4, addr / 256 % 256⟩
  let n := addr % 64
  modThread s l fun t =>
    if addr % 256 < 64 then { t with regs := { t.regs with xpoison := putBit t.regs.xpoison n true &&& ~~~ 1#64 } }
    else { t with regs := { t.regs with vpoison := putBit t.regs.vpoison n true } }

/-- Copies of translations and code in a cluster, and those of translations in its die, are discarded and fetched
    again (R302). -/
def discardCopies (s0 : State) (die clu : Nat) : State :=
  let s := setDie s0 die { dieOf s0 die with tlb := [] }
  let s1 := setCluster s clu { cluster s clu with tlb := [] }
  (List.range 4).foldl (fun s k => setCore s (clu * 4 + k) { coreOf s (clu * 4 + k) with icache := [] }) s1

/-- A word of eight bytes of a matrix unit poisoned: of the 32 operand slots, or beyond them of the accumulator
    (R302). -/
def poisonUnit (m : Matrix) (addr : Nat) : Matrix :=
  let w := addr / 8
  if w < 32 * 512 then { m with badWords := (w :: m.badWords).eraseDups }
  else { m with acc := { m.acc with badWords := ((w - 32 * 512) :: m.acc.badWords).eraseDups } }

/-- What an uncorrectable error does by the unit in which it is found, and the KIND of its record (R302,
    R304, R305). -/
def errorEffect (s : State) (unit die clu addr : Nat) : State × Nat :=
  let c := cluster s clu
  match unit with
  | 0 => (poisonHbm s addr, 2)
  | 1 => let r := poisonL2 s die addr; (r.1, if r.2 then 2 else 1)
  | 2 => let r := poisonView s clu addr; (r.1, if r.2 then 2 else 1)
  | 3 => (setCluster s clu { c with stashPoison := (addr % 2 ^ 21 / 8 :: c.stashPoison).eraseDups }, 2)
  | 4 =>
    let hit := fun (o : Nat) (r : HeathRec) => decide (o ≤ addr % 2 ^ 20) && decide (addr % 2 ^ 20 < o + r.size)
    (setCluster s clu { c with heath := c.heath.map fun e => if hit e.1 e.2 then (e.1, { e.2 with broken := true }) else e }, 2)
  | 5 => (setCluster s clu { c with mx := poisonUnit c.mx addr }, 2)
  | 6 => (poisonReg s clu addr, 2)
  | 7 => (discardCopies s die clu, 1)
  | _ => (signalFatal s, 3)

/-- UNCORRECTABLE_ERROR (R302, R305): one that is reported as corrected counts as such (R321). Codes of UNIT above 8 are
    reserved. -/
def execUncorrectableError (unit die clu addr : Nat) (syn : Word) (s : State) : Host.Outcome State Fault Refusal :=
  if 8 < unit then .next s
  else
    let r := errorEffect s unit (die % 8) (clu % 256) addr
    .next (machineCheck (if r.2 = 1 then tallyDie r.1 (die % 8) 0x105 1 else r.1) r.2 unit die clu addr syn)

/-- HBM_SCRUB: the scrub corrects errors, and programs see nothing of it (R301). -/
def execHbmScrub (s : State) : Host.Outcome State Fault Refusal := .next s

/-- RTRES_SET (R293). -/
def execRtresSet (clu n : Nat) (s : State) : Host.Outcome State Fault Refusal :=
  if n ≤ 64 then .next (setCluster s clu { cluster s clu with rtres := n }) else .next s

/-- SUPERVISOR_RESUME: the error-handling function resumes a halted cluster supervisor, and the cluster takes
    task records again (R297, R300). -/
def execSupervisorResume (clu : Nat) (s : State) : Host.Outcome State Fault Refusal :=
  let s1 := setCluster s clu { cluster s clu with closed := false }
  let l : Loc := ⟨clu, 0, 0⟩
  match thread? s1 l with
  | some t => .next (if t.mode = .running then s1 else resumeThread s1 l t 0)
  | none => .next s1

/-! Links. -/

/-- LINK_STATE_CHANGE (R315): PEER reads 0 in states 0 and 1; a link that is up is in state 3 exactly when the
    package at its far end is fenced. -/
def execLinkStateChange (port state peer : Nat) (s : State) : Host.Outcome State Fault Refusal :=
  if h : port < 16 then
    let up := if s.ctl.fenced.contains (peer % 1024) then 3 else 2
    let v := if state % 4 < 2 then (state % 4, 0) else (up, peer % 1024)
    .next (setBar s { s.ctl.bar with links := s.ctl.bar.links.set port v h })
  else .next s

/-- A lost package has been reset and booted, and rejoins the pod: it is fenced no more (R309). -/
def rejoinPod (s : State) (pkg : Nat) : State :=
  let links := s.ctl.bar.links.map fun e => if e.1 = 3 && e.2 = pkg then (2, pkg) else e
  let s1 := setBar s { s.ctl.bar with links := links }
  { s1 with ctl := { s1.ctl with fenced := s1.ctl.fenced.filter (· ≠ pkg) } }

/-! Boot and reset. -/

/-- The resident dispatcher of a core starts in its slot 0 (R7, R20, R111; log 9). -/
def startSupervisor (s : State) (k : Nat) : State :=
  let e := Config.supervisorStart k
  let t := Thread.start s.nextUid ⟨k / 4, k % 4, 0⟩ e.1 0 (Csrs.start 0 0 0 0 false 0 0 e.2.1 e.2.2 0)
  { setThread s ⟨k / 4, k % 4, 0⟩ t with nextUid := s.nextUid + 1 }

/-- What boot leaves of the memories: no poison, caches and TLBs without a line or an entry, and no value that is
    promised (R445). -/
def bootMemories (s : State) : State :=
  { s with
    clusters := s.clusters.map fun e => (e.1, { e.2 with
      view := [], viewPoison := [], stash := [], stashPoison := [], mapped := [], mapKey := [], tlb := []
      heath := e.2.heath.map fun r => (r.1, { r.2 with broken := false })
      mx := { e.2.mx with slots := [], slotPoison := [], badWords := [], acc := clearAcc e.2.mx.acc } })
    cores := s.cores.map fun e => (e.1, { e.2 with icache := [] })
    dies := s.dies.map fun e => (e.1, { e.2 with tlb := [] })
    store := { s.store with home := [], homeKey := [], homePoison := [], hbmPoison := [], l2 := [], repl := [] } }

/-- BOOT: the boot ROM has checked the firmware, and BOOTSTAT reads the result (R313, R316); before it reads 1 the
    memories are as boot leaves them (R445). -/
def execBoot (pkgnum : Nat) (s : State) : Host.Outcome State Fault Refusal :=
  if s.ctl.bar.bootstat ≠ 0 then .next s
  else
    let r := 1 + Config.bootResult s.free % 4
    let s1 := drawn (setBar s { s.ctl.bar with bootstat := r, image := s.free })
    if r ≠ 1 then .next s1
    else
      let s2 := bootMemories (setBar s1 { s1.ctl.bar with pkgnum := pkgnum % 576 })
      let keys := (List.range 64).map fun k => (k, Config.bootKey s.free k)
      .next ((List.range 1024).foldl startSupervisor { s2 with ctl := { s2.ctl with keys := keys } })

/-- DEVICE_RESET: the package is as after reset; the host's memory, what the outside world will do and the
    counters of the model stay (R196, R313, R445). -/
def execDeviceReset (s : State) : Host.Outcome State Fault Refusal :=
  .next { State.reset with
    store := { State.reset.store with hostMem := s.store.hostMem }
    inputs := s.inputs
    free := s.free + 1
    nextId := s.nextId
    nextUid := s.nextUid }

end Sys2Proof.Machine
end

