-- ==== Sys2Proof/Machine/Sha384.lean ====
section
/-! DEFINITION. SHA-384 as FIPS 180-4 defines it (log 46). R307 names the hash; the standard, which the
spec does not repeat, is taken from outside it. -/

namespace Sys2Proof.Machine

/-- The largest r below 2^b with r^k ≤ n, `r` found so far. -/
def rootBits (k n : Nat) : (b : Nat) → (r : Nat) → Nat
  | 0, r => r
  | b + 1, r => rootBits k n b (if (r + 2 ^ b) ^ k ≤ n then r + 2 ^ b else r)

/-- The first 64 bits of the fraction of the k-th root of p. -/
def rootFraction (k p : Nat) : Word := BitVec.ofNat 64 (rootBits k (p * 2 ^ (64 * k)) 70 0)

/-- The first 80 primes, 2 to 409. -/
def shaPrimes : List Nat := (List.range 410).filter fun p => 2 ≤ p && (List.range 19).all fun d => d + 2 = p || p % (d + 2) ≠ 0

/-- The 80 round constants: fractions of cube roots. -/
def shaConstants : List Word := shaPrimes.map (rootFraction 3)

/-- The initial hash value of SHA-384: fractions of the square roots of the ninth to sixteenth primes. -/
def shaInitial : List Word := ((shaPrimes.drop 8).take 8).map (rootFraction 2)

/-- One round. -/
def shaRound (v : List Word) (kw : Word) : List Word :=
  match v with
  | [a, b, c, d, e, f, g, h] =>
    let t1 := h + (e.rotateRight 14 ^^^ e.rotateRight 18 ^^^ e.rotateRight 41) + ((e &&& f) ^^^ (~~~e &&& g)) + kw
    let t2 := (a.rotateRight 28 ^^^ a.rotateRight 34 ^^^ a.rotateRight 39) + ((a &&& b) ^^^ (a &&& c) ^^^ (b &&& c))
    [t1 + t2, a, b, c, d + t1, e, f, g]
  | other => other

/-- More words of the message schedule, the newest first. -/
def shaSchedule : Nat → List Word → List Word
  | 0, ws => ws
  | n + 1, ws =>
    let x := ws.getD 14 0
    let y := ws.getD 1 0
    let s0 := x.rotateRight 1 ^^^ x.rotateRight 8 ^^^ (x >>> 7)
    let s1 := y.rotateRight 19 ^^^ y.rotateRight 61 ^^^ (y >>> 6)
    shaSchedule n ((s1 + ws.getD 6 0 + s0 + ws.getD 15 0) :: ws)

/-- Bytes as a big-endian word. -/
def bigWord (bs : List Byte) : Word := bs.foldl (fun w b => w <<< 8 ||| b.setWidth 64) 0

/-- Words of eight bytes each, the first `n`. -/
def bigWords : Nat → List Byte → List Word
  | 0, _ => []
  | n + 1, bs => bigWord (bs.take 8) :: bigWords n (bs.drop 8)

/-- One block of 128 bytes. -/
def shaBlock (v : List Word) (block : List Byte) : List Word :=
  let w := (shaSchedule 64 (bigWords 16 block).reverse).reverse
  List.zipWith (· + ·) v ((List.zipWith (· + ·) shaConstants w).foldl shaRound v)

/-- Blocks in their order. -/
def shaBlocks : Nat → List Word → List Byte → List Word
  | 0, v, _ => v
  | n + 1, v, bs => shaBlocks n (shaBlock v (bs.take 128)) (bs.drop 128)

/-- The padded message: a one bit, zeros, and the length in bits as 128 bits. -/
def shaPad (bs : List Byte) : List Byte :=
  bs ++ 0x80#8 :: List.replicate ((239 - bs.length % 128) % 128) 0
    ++ (List.range 16).map fun i => BitVec.ofNat 8 (8 * bs.length / 256 ^ (15 - i))

/-- The 48 bytes of SHA-384. -/
def sha384 (bs : List Byte) : List Byte :=
  let m := shaPad bs
  ((shaBlocks (m.length / 128) shaInitial m).take 6).flatMap fun w =>
    (List.range 8).map fun i => BitVec.ofNat 8 (w.toNat / 256 ^ (7 - i))

end Sys2Proof.Machine
end

