-- ==== Sys2Proof/Machine/Queues.lean ====
section
/-! DEFINITION. Hardware queues and the packet parser: the check of packets, TQ, arbitration, the journal, and
the packets themselves (R273 to R281, R288, R307). -/

namespace Sys2Proof.Machine

/-! Packets. -/

/-- The words of a packet. -/
def word (ws : List Word) (i : Nat) : Word := ws.getD i 0

/-- TYPE of a packet (R274). -/
def packetType (ws : List Word) : Nat := field (word ws 0) 0 8

/-- CONC of a packet (R274). -/
def packetConc (ws : List Word) : Bool := (word ws 0).getLsbD 9

/-- RBM of a packet (R274). -/
def packetRbm (ws : List Word) : Bool := (word ws 0).getLsbD 8

/-- The words of a packet from some number on are zero. -/
def zeroFrom (ws : List Word) (i : Nat) : Bool := (ws.drop i).all (· = 0)

/-- A LAUNCH whose fields keep R17 and R274. -/
def launchOk (ws : List Word) : Bool :=
  let w6 := word ws 6
  let g := field w6 32 9
  let s := field w6 41 9
  field (word ws 3) 56 8 = 0 && field (word ws 3) 4 12 = 0 && field w6 54 10 = 0 && field (word ws 7) 32 32 = 0
    && field w6 0 32 ≠ 0 && 1 ≤ g && g ≤ (if w6.getLsbD 50 then 252 else 508) && 1 ≤ s && s ≤ g
    && field (word ws 1) 0 3 = 0 && field (word ws 4) 0 3 = 0 && field (word ws 5) 0 3 = 0

/-- A packet that is not malformed (R274, R275). `inside` for one of an indirect buffer. -/
def packetOk (ws : List Word) (inside : Bool) : Bool :=
  let h := word ws 0
  field h 23 41 = 0 && field h 10 6 = 0 && (!packetRbm ws || packetType ws = 5)
    && (match packetType ws with
      | 1 => launchOk ws
      | 2 => field (word ws 1) 0 3 = 0 && zeroFrom ws 3
      | 3 => field (word ws 1) 0 3 = 0 && field (word ws 3) 1 63 = 0 && zeroFrom ws 4
      | 4 => requestOk (word ws 1) (word ws 2) (word ws 3) 0 && field (word ws 4) 0 3 = 0 && zeroFrom ws 5
      | 5 => field (word ws 1) 0 3 = 0 && zeroFrom ws 3
      | 6 =>
        !inside && field (word ws 1) 0 6 = 0 && field (word ws 2) 13 51 = 0 && 1 ≤ field (word ws 2) 0 13
          && field (word ws 2) 0 13 ≤ 4096 && zeroFrom ws 3
      | _ => false)

/-- The words of 64 bytes. -/
def packetWords (bytes : List Byte) : List Word := (wordsLe 8 bytes).map (BitVec.ofNat 64)

/-- Where packet `n` of a ring lies (R273). -/
def ringPa (x : Queue) (n : BitVec 32) : Nat := x.qbase + 64 * (n.toNat % 2 ^ x.logn)

/-- The packet of a queue at RDIDX. -/
def ringHead (s : State) (x : Queue) : List Word := packetWords (physBytes s x.qkey (ringPa x x.rdidx) 64)

/-! TQ. -/

/-- The 64 bytes of a packet as TQ reads them: each word by one home read (R288). -/
def tqBytes (s : State) (l : Loc) (t : Thread) : Place → List Byte
  | .stash c o => stashBytes s c o 64
  | .host pa => hostBytes s pa 64
  | .mem pa => (homeRead s l.clu t.csr.keyid.toNat (chase s pa) 64).1
  | .nowhere => []

/-- What TQ does with a packet: its status, and the state (R288). The ring is written under the queue's key, under which
    the parser reads it (R165, R275; log 98). -/
def tqSubmit (s : State) (ws : List Word) : Nat × State :=
  let q := field (word ws 0) 16 7
  let x := queueOf s q
  if !x.en || !x.dev then (2, s)
  else if packetType ws = 6 || !packetOk ws false then (3, s)
  else if x.waiting = 2 ^ x.logn then (1, s)
  else
    let h := word ws 0 &&& ~~~ 0x7F_0000#64
    let bytes := (h :: ws.drop 1).flatMap fun w => leBytes 8 w.toNat
    (0, setQueue (physWrite s x.qkey (ringPa x x.doorbell) bytes []) q { x with doorbell := x.doorbell + 1 })

/-- TQ (R288): a release at package scope, and the packet into the ring of a device-owned queue. -/
def execTq (d : Dep) (rd ra : XReg) (s : State) : Host.Outcome State Fault Refusal :=
  issue (.tq d rd ra) s fun t t1 s =>
    match accessCheck s (threadCtx s.cur t) (xval t ra).toNat 64 64 ⟨true, false⟩ with
    | (.error v, s1) => .ok (raiseTrap s1 s.cur t v)
    | (.ok g, s1) =>
      let s2 := wbAll s1 s1.cur.clu t.csr.keyid.toNat
      let s3 := match g.place with
        | .mem pa => recallRange s2 t.csr.keyid.toNat pa 64
        | _ => s2
      let r := tqSubmit s3 (packetWords (tqBytes s3 s3.cur t g.place))
      .ok (variableResult (drawn r.2) t1 d.sa [wrX rd (BitVec.ofNat 64 r.1)] 0)

/-! The journal. -/

/-- Where an entry of the journal lies (R307). -/
def journalPa (s : State) (n : Nat) : Nat := s.ctl.bar.jbase + 32 * (n % 2 ^ s.ctl.bar.jlog)

/-- A new entry of the journal, and then JWR (R307). The journal is written under HOSTKEY (log 14). -/
def journalNew (s : State) (queue : Nat) (indir : Bool) (state rdidx : Nat) (ws : List Word) : State :=
  let n := s.ctl.bar.jwr
  let bytes := ws.flatMap fun w => leBytes 8 w.toNat
  let entry := leBytes 8 n ++ [BitVec.ofNat 8 (queue + if indir then 128 else 0), BitVec.ofNat 8 state, 0, 0]
    ++ leBytes 4 rdidx ++ (sha384 bytes).take 16
  let s1 := physWrite s s.ctl.bar.hostkey (journalPa s n) entry []
  setBar s1 { s1.ctl.bar with jwr := n + 1 }

/-- STATE of an entry updated in place (R307). -/
def journalState (s : State) (n state : Nat) : State :=
  physWrite s s.ctl.bar.hostkey (journalPa s n + 9) [BitVec.ofNat 8 state] []

/-- The parser accepts a packet only when the entry that it overwrites has finished (R307). -/
def journalFree (s : State) : Bool :=
  s.ctl.packets.all fun p => (p.jseq :: p.extra).all fun n => n + 2 ^ s.ctl.bar.jlog ≠ s.ctl.bar.jwr

/-- Packets changed. -/
def putPacket (s : State) (p : Packet) : State :=
  { s with ctl := { s.ctl with packets := s.ctl.packets.map fun x => if x.id = p.id then p else x } }

/-- A packet has started: its journal entry says so (R307). -/
def startPacket (s : State) (p : Packet) : State := putPacket (journalState s p.jseq 1) { p with phase := .started }

/-- The place of a packet in the order of its queue: packets of an indirect buffer stand where it stands. -/
def Packet.place (p : Packet) : Nat := p.parent.getD p.id

/-- Whether a packet comes before another one of its queue. -/
def Packet.before (p q : Packet) : Bool :=
  p.queue = q.queue && (p.place < q.place || (p.place = q.place && p.parent.isSome && q.parent.isSome && p.id < q.id))

/-- Every earlier packet of the queue is complete (R277). -/
def earlierDone (s : State) (p : Packet) : Bool := s.ctl.packets.all fun x => !x.before p || x.phase = .done

/-- Whether a packet may start (R277). -/
def mayStart (s : State) (p : Packet) : Bool := packetConc p.words || earlierDone s p

/-- A packet is accepted: journalled, and taken from its queue (R275, R307). -/
def acceptPacket (s : State) (q rdidx : Nat) (ws : List Word) (parent : Option Nat) : State :=
  let p : Packet := {
    id := s.nextId, queue := q, words := ws, rdidx := rdidx, jseq := s.ctl.bar.jwr, indir := parent.isSome, parent := parent
    phase := .accepted, next := 0, recheck := s.cycle, extra := [], faulted := false }
  let s1 := journalNew s q parent.isSome 0 rdidx ws
  { s1 with nextId := s1.nextId + 1, ctl := { s1.ctl with packets := s1.ctl.packets ++ [p] } }

/-- A malformed packet: journalled as faulted, its queue in state 3, and the error-handling function told
    (R275). What it is told is a free value. -/
def faultPacket (s : State) (q rdidx : Nat) (ws : List Word) (indir : Bool) : State :=
  let s1 := journalNew s q indir 3 rdidx ws
  let s2 := setQueue s1 q { queueOf s1 q with qstate := 3 }
  drawnBy 4 (sendMail s2 3 (freeBlock s2.free))

/-! Arbitration. -/

/-- A MARKER with RBM that is not complete keeps the parser from packets beyond it (R278). -/
def behindRbm (s : State) (q : Nat) : Bool :=
  s.ctl.packets.any fun p => p.queue = q && packetType p.words = 5 && packetRbm p.words && p.phase ≠ .done

/-- Whether a queue is eligible (R277, R281). -/
def eligible (s : State) (q : Nat) : Bool :=
  let x := queueOf s q
  x.en && x.qstate = 1 && decide (0 < x.waiting) && x.waiting ≤ 2 ^ x.logn && !behindRbm s q
    && (packetConc (ringHead s x) || !queueBusy s q)

/-- The queue of a priority that comes next after the last one granted (R281). -/
def nextQueue (s : State) (prio : Nat) : Option Nat :=
  let last := s.ctl.lastq.getD prio 127
  ((List.range 128).map fun i => (last + 1 + i) % 128).find? fun q =>
    (mget s.ctl.queues q).isSome && (queueOf s q).prio = prio && eligible s q

/-- The grant of a round: the first level with grants left and an eligible queue, from priority 0 on (log 104); the
    grants that a level cannot use pass to the next one. The queue, its level and the grants left (R281). -/
def grantIn (s : State) : (levels : List Nat) → (left : List Nat) → (carry : Nat) → Option (Nat × Nat × List Nat)
  | [], _, _ => none
  | p :: ps, left, carry =>
    let n := left.getD p 0 + carry
    match (if n = 0 then none else nextQueue s p) with
    | some q => some (q, p, left.set p (n - 1))
    | none => grantIn s ps (left.set p 0) n

/-- The next grant, in this round or in a new one (R281). -/
def nextGrant (s : State) : Option (Nat × Nat × List Nat) :=
  (grantIn s [0, 1, 2, 3] s.ctl.round 0).or (grantIn s [0, 1, 2, 3] [8, 4, 2, 1] 0)

/-- The queues in which a packet waits for the parser. -/
def headQueues (s : State) : List Queue :=
  (s.ctl.queues.map (·.2)).filter fun x => x.en && x.qstate = 1 && decide (0 < x.waiting) && x.waiting ≤ 2 ^ x.logn

/-- The parser reads the packets at the heads of the queues: their halves are recalled from the host (R160, R162,
    R275). -/
def readHeads (s : State) : State := (headQueues s).foldl (fun s x => (physRead s x.qkey (ringPa x x.rdidx) 64).2) s

/-- ARBITRATION_GRANT: the parser takes one packet from the queue whose turn it is, checks it, and journals it
    (R275, R281, R307). -/
def execArbitrationGrant (s0 : State) : Host.Outcome State Fault Refusal :=
  let s := readHeads s0
  if !journalFree s then .next s
  else match nextGrant s with
    | none => .next s
    | some (q, p, left) =>
      let x := queueOf s q
      let ws := ringHead s x
      let s1 := drawn { s with ctl := { s.ctl with round := left, lastq := s.ctl.lastq.set p q } }
      if !packetOk ws false then .next (faultPacket s1 q x.rdidx.toNat ws false)
      else .next (setQueue (acceptPacket s1 q x.rdidx.toNat ws none) q { x with rdidx := x.rdidx + 1 })

/-! The packets. -/

/-- The first accepted packet of a type that may start. -/
def accepted (s : State) (type : Nat) : Option Packet :=
  s.ctl.packets.find? fun p => p.phase = .accepted && packetType p.words = type && mayStart s p

/-- The addresses of a packet are translated under its queue's root and key, by die 0 (R275). -/
def packetCtx (s : State) (p : Packet) : Ctx := agentCtx 0 (queueOf s p.queue).qptb (queueOf s p.queue).qkey

/-- The queue of a packet is held on the missing translation of an address (R279). One in state 3 stays there, and one
    that is held already stays held for what it is held for; the packet is tried again (R276). -/
def holdQueue (s : State) (p : Packet) (va : Nat) : State :=
  let x := queueOf s p.queue
  if x.qstate = 3 || x.qstate = 2 then s
  else setQueue s p.queue { x with qstate := 2, heldAt := s.cycle, heldVa := va, heldPkt := p.id, reported := false }

/-- The read of a WAIT: it is complete when the word is at least VALUE; with no translation its queue is held
    (R278, R279). -/
def readWait (s : State) (p : Packet) : State :=
  match agentRead s (packetCtx s p) (word p.words 1).toNat with
  | (none, s1) => holdQueue s1 p (word p.words 1).toNat
  | (some v, s1) =>
    putPacket s1 { p with
      phase := if (word p.words 2).toNat ≤ v.toNat then .done else .started, recheck := s1.cycle + 1024 }

/-- PACKET_WAIT (R278). -/
def execPacketWait (s : State) : Host.Outcome State Fault Refusal :=
  match accepted s 2 with
  | none => .next s
  | some p => .next (readWait (startPacket s p) { p with phase := .started })

/-- WAIT_RECHECK: the parser reads the word of a WAIT again (R278). -/
def execWaitRecheck (id : Nat) (s : State) : Host.Outcome State Fault Refusal :=
  match s.ctl.packets.find? fun p => p.id = id with
  | none => .next s
  | some p =>
    if p.phase = .started && packetType p.words = 2 && (queueOf s p.queue).qstate ≠ 2 then .next (readWait s p) else .next s

/-- PACKET_SIGNAL (R278): a store or an add at sys scope. -/
def execPacketSignal (s : State) : Host.Outcome State Fault Refusal :=
  match accepted s 3 with
  | none => .next s
  | some p =>
    let s1 := startPacket s p
    let a := (word p.words 1).toNat
    let v := word p.words 2
    let s2 := if (word p.words 3).getLsbD 0 then agentAdd s1 (packetCtx s p) a v.toNat else agentWord s1 (packetCtx s p) a v
    .next (packetDone s2 p.id)

/-- PACKET_COPY (R278): a COPY request with w3 = 0, from die 0. -/
def execPacketCopy (s : State) : Host.Outcome State Fault Refusal :=
  match accepted s 4 with
  | none => .next s
  | some p =>
    let s1 := startPacket s p
    let c0 : CopyOp := {
      id := s1.nextId, uid := 0, clu := 0, core := 0, reg := 0, xseq := 0, src := word p.words 1, dst := word p.words 2
      w2 := word p.words 3, hnd := 0, key := (queueOf s p.queue).qkey, ptbase := (queueOf s p.queue).qptb, wpriv := 0
      user := false, chunks := [], got := [], status := 0, stop := 0, send := none, packet := some p.id, srcTaint := false
      dstTaint := false, srcAt := [], dstAt := [], wb := false, ready := false, deposited := false }
    let c := begun { c0 with stop := c0.len }
    .next { s1 with nextId := s1.nextId + 1, flight := { s1.flight with copies := s1.flight.copies ++ [c] } }

/-- PACKET_MARKER (R278): after every earlier packet it stores VALUE at SIGADDR. -/
def execPacketMarker (s : State) : Host.Outcome State Fault Refusal :=
  match s.ctl.packets.find? fun p => p.phase = .accepted && packetType p.words = 5 && earlierDone s p with
  | none => .next s
  | some p =>
    let s1 := startPacket s p
    let a := (word p.words 1).toNat
    .next (packetDone (if a = 0 then s1 else agentWord s1 (packetCtx s p) a (word p.words 2)) p.id)

/-- Sixty-four bytes of an indirect buffer, if their page is there (R279, R280). -/
def fetchPacket (s : State) (c : Ctx) (va : Nat) : Option (List Word) × State :=
  match agentPa s c ⟨true, false⟩ va with
  | (some (pa, _), s1) =>
    let r := physRead s1 c.key pa 64
    (some (packetWords r.1), r.2)
  | (none, s1) => (none, s1)

/-- The packets of an indirect buffer that are not complete. -/
def childrenOf (s : State) (p : Packet) : List Packet := s.ctl.packets.filter fun x => x.parent = some p.id

/-- The next packet of an indirect buffer (R278, R279). A malformed one ends the INDIRECT as faulted. -/
def nextChild (s : State) (p : Packet) : State :=
  let va := (word p.words 1).toNat + 64 * p.next
  match fetchPacket s (packetCtx s p) va with
  | (none, s1) => holdQueue s1 p va
  | (some ws, s1) =>
    if !packetOk ws true then
      putPacket (faultPacket s1 p.queue p.rdidx ws true) { p with phase := .done, faulted := true, next := field (word p.words 2) 0 13 }
    else acceptPacket (putPacket s1 { p with next := p.next + 1 }) p.queue p.rdidx ws (some p.id)

/-- A MARKER with RBM that is not complete stands before the next packet of an INDIRECT: in its own buffer, or
    earlier in its queue (R278). -/
def markerAhead (s : State) (p : Packet) : Bool :=
  s.ctl.packets.any fun x => packetType x.words = 5 && packetRbm x.words && x.phase ≠ .done && (x.parent = some p.id || x.before p)

/-- The INDIRECTs that can go on: started, or accepted and free to start (R278 to R280). -/
def indirects (s : State) : List Packet :=
  s.ctl.packets.filter fun p =>
    packetType p.words = 6 && (queueOf s p.queue).qstate ≠ 2
      && (p.phase = .started || (p.phase = .accepted && mayStart s p))
      && (decide (p.next < field (word p.words 2) 0 13) || (childrenOf s p).isEmpty)
      && !markerAhead s p

/-- The INDIRECT that goes on, of a free choice among those that can. -/
def indirectNow (s : State) : Option Packet := (takeChoice s (indirects s)).map (·.1)

/-- PACKET_INDIRECT: the parser takes the next packet of an indirect buffer, or finds them all complete
    (R278, R280). -/
def execPacketIndirect (s : State) : Host.Outcome State Fault Refusal :=
  match indirectNow s with
  | none => .next s
  | some p =>
    let s1 := drawn (if p.phase = .accepted then startPacket s p else s)
    let p1 := { p with phase := .started }
    if field (word p.words 2) 0 13 ≤ p.next then .next (packetDone s1 p.id)
    else if journalFree s1 then .next (nextChild s1 p1)
    else .next s1

/-- PACKET_COMPLETION: a packet has ended, and its journal entry says completed or faulted; a disabled queue without
    packets is idle (R276, R277, R307). -/
def execPacketCompletion (id : Nat) (s : State) : Host.Outcome State Fault Refusal :=
  match s.ctl.packets.find? fun p => p.id = id with
  | none => .next s
  | some p =>
    if p.phase ≠ .done then .next s
    else
      let s1 := (p.jseq :: p.extra).foldl (fun s n => journalState s n (if p.faulted then 3 else 2)) s
      let s2 := { s1 with ctl := { s1.ctl with
        packets := s1.ctl.packets.filter fun x => x.id ≠ id
        launches := s1.ctl.launches.filter fun x => x.packet ≠ id || x.aborted } }
      let x := queueOf s2 p.queue
      .next (if !x.en && !queueBusy s2 p.queue then setQueue s2 p.queue { x with qstate := 0 } else s2)

/-- QUEUE_HOLD_RETRY: once the page of a held queue is there, the queue tries its packet again (R276, R279). -/
def execQueueHoldRetry (q : Nat) (s : State) : Host.Outcome State Fault Refusal :=
  let x := queueOf s q
  if x.qstate = 2 && x.en then
    match agentPa s (agentCtx 0 x.qptb x.qkey) ⟨true, false⟩ x.heldVa with
    | (some _, s1) => .next (setQueue s1 q { x with qstate := 1 })
    | (none, s1) => .next s1
  else .next s

/-- HOLDLIM_EXPIRY: a queue held for longer than HOLDLIM is reported once, in the journal and to the
    error-handling function, when the journal has room for an entry (R279, R307). The entry is one of the packet for which
    the queue is held, started, and ends with it (log 34). What the function is told is a free value. -/
def execHoldlimExpiry (q : Nat) (s : State) : Host.Outcome State Fault Refusal :=
  let x := queueOf s q
  if x.qstate = 2 && x.holdlim ≠ 0 && !x.reported && x.holdlim < s.cycle - x.heldAt && journalFree s then
    match s.ctl.packets.find? fun p => p.id = x.heldPkt with
    | none => .next s
    | some p =>
      let s1 := putPacket (journalNew s q p.indir 1 p.rdidx p.words) { p with extra := s.ctl.bar.jwr :: p.extra }
      let s2 := setQueue s1 q { queueOf s1 q with reported := true }
      .next (drawnBy 4 (sendMail s2 3 (freeBlock s2.free)))
  else .next s

end Sys2Proof.Machine
end

