-- ==== Sys2Proof/Machine/Launch.lean ====
section
/-! DEFINITION. Launches: progress records, the launch engines of the dies, task records, dispatchers, the abort
of a launch and the loss of a package (R282 to R287, R306, R309). -/

namespace Sys2Proof.Machine

/-! A LAUNCH. -/

/-- The progress record of a launch (R274, R284). -/
def Launch.prog (x : Launch) : Nat := (word x.words 4).toNat

/-- NGANG of a launch (R274). -/
def Launch.ngang (x : Launch) : Nat := field (word x.words 6) 0 32

/-- The accesses of a die to the progress record of a launch (R275). -/
def Launch.ctx (x : Launch) (die : Nat) : Ctx := agentCtx die x.ptbase x.key

/-- A launch changed. -/
def putLaunch (s : State) (x : Launch) : State :=
  { s with ctl := { s.ctl with launches := s.ctl.launches.map fun y => if y.packet = x.packet then x else y } }

/-- The range of a die in a launch: the first gang and the one after the last (R282). -/
def Launch.range (x : Launch) (die : Nat) : Nat × Nat := x.ranges.getD die (0, 0)

/-- How many gangs the range of a die holds. -/
def Launch.left (x : Launch) (die : Nat) : Nat := (x.range die).2 - (x.range die).1

/-- A LAUNCH that the parser has accepted and not looked at yet. -/
def newLaunch (s : State) : Option Packet :=
  s.ctl.packets.find? fun p =>
    p.phase = .accepted && packetType p.words = 1 && !(s.ctl.launches.any fun x => x.packet = p.id)

/-- PACKET_LAUNCH: the parser has accepted a LAUNCH, and writes STATE = 0 in its progress record (R282). -/
def execPacketLaunch (s : State) : Host.Outcome State Fault Refusal :=
  match newLaunch s with
  | none => .next s
  | some p =>
    let q := queueOf s p.queue
    let x : Launch := {
      packet := p.id, lnch := 0, started := false, words := p.words, ptbase := q.qptb, key := q.qkey, ranges := []
      retired := 0, aborted := false }
    let s1 := agentWord s (x.ctx 0) (x.prog + 16) 0
    .next { s1 with ctl := { s1.ctl with launches := s1.ctl.launches ++ [x] } }

/-- The ranges of the eight dies (R282). -/
def dieRanges (ngang : Nat) : List (Nat × Nat) := (List.range 8).map fun d => (d * ngang / 8, (d + 1) * ngang / 8)

/-- The progress record of a launch that starts: LNCH, NGANG, both bitmaps zero, and then STATE = 1
    (R282, R284). -/
def startRecord (s : State) (x : Launch) : State :=
  let c := x.ctx 0
  let s1 := agentWord s c x.prog (BitVec.ofNat 64 x.lnch)
  let s2 := agentWord s1 c (x.prog + 8) (BitVec.ofNat 64 x.ngang)
  let s3 := (List.range (2 * bitmapWords x.ngang)).foldl (fun s i => agentWord s c (x.prog + 64 + 8 * i) 0) s2
  agentWord s3 c (x.prog + 16) 1

/-- LAUNCH_START: a launch that may start gets LNCH, its record says that it runs, and each die has its range
    (R277, R282). Launches stand in the order in which they start. -/
def execLaunchStart (id : Nat) (s : State) : Host.Outcome State Fault Refusal :=
  match s.ctl.launches.find? fun x => x.packet = id, s.ctl.packets.find? fun p => p.id = id with
  | some x, some p =>
    if x.started || x.aborted || !mayStart s p then .next s
    else
      let y := { x with lnch := s.ctl.lnchCount % 2 ^ 32, started := true, ranges := dieRanges x.ngang }
      let s1 := startRecord (startPacket s p) y
      .next { s1 with ctl := { s1.ctl with
        lnchCount := s1.ctl.lnchCount + 1
        launches := (s1.ctl.launches.filter fun z => z.packet ≠ id) ++ [y] } }
  | _, _ => .next s

/-! The engines of the dies. -/

/-- The task record of a gang of a launch (R286). -/
def taskOf (x : Launch) (gang : Nat) : TaskRec :=
  let w3 := word x.words 3
  let w6 := word x.words 6
  { entry := word x.words 1, arg := word x.words 2, ptbase := x.ptbase, privbase := field w3 16 40 * 2 ^ 16
    plog := field w3 0 4, prog := x.prog, lnch := x.lnch, gang := gang, keyid := x.key, prio := field w6 52 2
    light := w6.getLsbD 51, part := w6.getLsbD 50, s := field w6 41 9, g := field w6 32 9
    slice := field (word x.words 7) 0 32 }

/-- The first started launch with gangs left for a die (R282). -/
def ownLaunch (s : State) (die : Nat) : Option Launch :=
  s.ctl.launches.find? fun x => x.started && !x.aborted && decide (0 < x.left die)

/-- The gang that a die places next: one that a dispatcher has returned, or the lowest of its range
    (R282, R287). -/
def nextGang (s : State) (die : Nat) : Option TaskRec :=
  match (dieOf s die).back with
  | r :: _ => some r
  | [] => (ownLaunch s die).map fun x => taskOf x (x.range die).1

/-- The free full slots of a core (R285). -/
def freeOnCore (s : State) (clu core : Nat) : List Loc := (clusterSlots s clu).filter fun l => l.core = core && freeToReserve s l

/-- The free full slots of a cluster (R285). -/
def freeOn (s : State) (clu : Nat) : List Loc := (clusterSlots s clu).filter (freeToReserve s)

/-- The four cores of a cluster are in the partition of a gang (R19). -/
def inPartition (s : State) (r : TaskRec) (clu : Nat) : Bool :=
  (List.range 4).all fun k => (coreOf s (clu * 4 + k)).p64 = r.part

/-- A cluster that may take a gang: its four cores are in the gang's partition, and it takes records and has
    enough free slots beyond its class-0 reservation (R19, R285, R293, R297). -/
def qualifies (s : State) (r : TaskRec) (clu : Nat) : Bool :=
  inPartition s r clu && !(cluster s clu).closed && r.g + rtKept s clu ≤ (freeOn s clu).length

/-- The core of a cluster with the most free slots, the lower number on ties (R285). -/
def roomiest (s : State) (clu : Nat) : Nat :=
  (List.range 4).foldl (fun b k => if (freeOnCore s clu b).length < (freeOnCore s clu k).length then k else b) 0

/-- A gang leaves what its die has still to place. -/
def takeGang (s : State) (die : Nat) : State :=
  let x := dieOf s die
  match x.back with
  | _ :: rs => setDie s die { x with back := rs }
  | [] =>
    match ownLaunch s die with
    | some y => putLaunch s { y with ranges := y.ranges.set die ((y.range die).1 + 1, (y.range die).2) }
    | none => s

/-- LAUNCH_ENGINE_PLACE: the engine of a die chooses a cluster for its next gang and sends a task record, or
    waits when none qualifies (R285). -/
def execLaunchEnginePlace (die : Nat) (s : State) : Host.Outcome State Fault Refusal :=
  let d := die % 8
  if (dieOf s d).task.isSome then .next s
  else match nextGang s d with
    | none => .next s
    | some r =>
      match ((List.range 32).map (32 * d + ·)).find? (qualifies s r) with
      | none => .next s
      | some clu =>
        let s1 := takeGang s d
        let m : TaskMsg := { task := r, clu := clu, core := roomiest s clu, flying := true, due := 0, tries := 1 }
        .next (setDie s1 d { dieOf s1 d with task := some m })

/-- The earliest started launch that has a range of two gangs or more on some die (R283). -/
def stealable (s : State) : Option Launch :=
  s.ctl.launches.find? fun x => x.started && !x.aborted && (List.range 8).any fun d => 2 ≤ x.left d

/-- The die that holds the largest range of a launch, the lowest on ties (R283). -/
def largest (x : Launch) : Nat := (List.range 8).foldl (fun b d => if x.left b < x.left d then d else b) 0

/-- LAUNCH_STEAL: a die whose ranges are all empty takes the upper half of the largest range (R283). -/
def execLaunchSteal (die : Nat) (s : State) : Host.Outcome State Fault Refusal :=
  let d := die % 8
  if (nextGang s d).isSome then .next s
  else match stealable s with
    | none => .next s
    | some x =>
      let v := largest x
      let cut := (x.range v).2 - x.left v / 2
      .next (putLaunch s { x with ranges := (x.ranges.set v ((x.range v).1, cut)).set d (cut, (x.range v).2) })

/-- TASK_RECORD_ARRIVAL: a task record reaches the inbox of its core, which takes it or, full, refuses it
    (R268, R285). -/
def execTaskRecordArrival (die : Nat) (s : State) : Host.Outcome State Fault Refusal :=
  let d := die % 8
  match (dieOf s d).task with
  | none => .next s
  | some m =>
    let k := coreOf s (m.clu * 4 + m.core)
    if !m.flying then .next s
    else if k.inbox.length < 4 then
      let s1 := setCore s (m.clu * 4 + m.core) { k with inbox := k.inbox ++ [m.task] }
      .next (setDie s1 d { dieOf s1 d with task := none })
    else .next (setDie s d { dieOf s d with
      task := some { m with flying := false, due := s.cycle + backoff 0x4_0010 m.tries } })

/-- TASK_RECORD_REPLAY: a refused task record is sent again to the same core, after its delay (R268, R285). -/
def execTaskRecordReplay (die : Nat) (s : State) : Host.Outcome State Fault Refusal :=
  let d := die % 8
  match (dieOf s d).task with
  | none => .next s
  | some m =>
    if m.flying || s.cycle < m.due then .next s
    else .next (setDie s d { dieOf s d with task := some { m with flying := true, tries := m.tries + 1 } })

/-! Dispatchers. -/

/-- The slots of a gang in the order of R287: those of the dispatcher's core, then of the other cores. -/
def slotsInOrder (s : State) (clu core : Nat) : List Loc :=
  freeOnCore s clu core ++ ((List.range 4).filter (· ≠ core)).flatMap (freeOnCore s clu)

/-- The record of a gang that is placed (R287). -/
def recordOf (s : State) (r : TaskRec) (slots : List Loc) : GangRec where
  gang := r.gang
  lnch := r.lnch
  g := r.g
  privbase := r.privbase
  plog := r.plog
  prog := r.prog
  ngang := ((s.ctl.launches.find? fun x => x.started && x.lnch = r.lnch).map Launch.ngang).getD 0
  ptbase := r.ptbase
  keyid := r.keyid
  slots := slots
  visited := []
  ended := false

/-- A member of a gang starts in a slot (R21, R287). -/
def startMember (s : State) (r : TaskRec) (g : GangRec) (tid : Nat) (l : Loc) : State :=
  let csr := Csrs.start (BitVec.ofNat 32 tid) (BitVec.ofNat 32 r.g) (BitVec.ofNat 32 r.gang) (BitVec.ofNat 32 r.lnch)
    r.light (BitVec.ofNat 2 r.prio) (BitVec.ofNat 32 r.slice) r.ptbase (BitVec.ofNat 6 r.keyid) (memberWpriv g tid)
  { setThread s l (Thread.start s.nextUid l r.entry r.arg csr) with nextUid := s.nextUid + 1 }

/-- A gang is placed: its record, its STARTED bit, and S members after an acquire at package scope
    (R185, R284, R287). -/
def placeGang (s : State) (clu : Nat) (r : TaskRec) (slots : List Loc) : State :=
  let g := recordOf s r slots
  let c := cluster s clu
  let s1 := setProgBit (setCluster s clu { c with gangs := c.gangs ++ [g] }) (clu / 32) g 0
  ((List.range r.s).zip slots).foldl (fun s e => startMember s r g e.1 e.2) (invalidate s1 clu)

/-- DISPATCH_TASK_RECORD: the dispatcher of a core takes the record that has waited longest: it starts the
    gang, or returns the record to its die when slots are missing or a core has left the gang's partition (R19,
    R287). A cluster whose supervisor has halted takes none (R297). -/
def execDispatchTaskRecord (clu core : Nat) (s : State) : Host.Outcome State Fault Refusal :=
  let k := coreOf s (clu * 4 + core)
  match k.inbox with
  | [] => .next s
  | r :: rs =>
    if (cluster s clu).closed then .next s
    else
      let s1 := setCore s (clu * 4 + core) { k with inbox := rs }
      let slots := (slotsInOrder s clu core).take r.g
      if slots.length < r.g || !inPartition s r clu then
        let d := dieOf s1 (clu / 32)
        .next (setDie s1 (clu / 32) { d with back := d.back ++ [r] })
      else .next (placeGang s1 clu r slots)

/-! Abort. -/

/-- A member of a started launch that is not a supervisor. -/
def ofLaunch (lnch : Nat) (t : Thread) : Bool := !t.origin.supervisor && t.csr.lnch.toNat = lnch

/-- A thread in a slot is ended as XRES with ACT = 3 ends one (R300, R306). -/
def endAt (s : State) (l : Loc) (t : Thread) : State :=
  if t.exiting then s
  else
    let u := { t with trap := none, gfault := none, irqs := [], present := none }
    resumeThread (setThread s l u) l u 3

/-- The saved and the migrating threads of a launch end, and leave their groups (R215, R306). -/
def endAway (s : State) (lnch : Nat) : State :=
  let gone := s.clusters.flatMap (fun c => (c.2.heath.filter fun r => ofLaunch lnch r.2.thread).map fun r => (c.1, r.2.thread))
    ++ (s.flight.migs.filter fun m => ofLaunch lnch m.thread).map fun m => (m.thread.origin.clu, m.thread)
  let keep := fun (c : Cluster) => { c with heath := mfilter (fun _ (r : HeathRec) => !ofLaunch lnch r.thread) c.heath }
  let s1 := { s with
    clusters := s.clusters.map fun c => (c.1, keep c.2)
    flight := { s.flight with migs := s.flight.migs.filter fun m => !ofLaunch lnch m.thread } }
  let leave := fun (s : State) (e : Nat × Thread) => match e.2.grp with
    | some g => retryGroups (dropMember s e.1 g e.2.uid) e.1
    | none => s
  gone.foldl (fun s e => memberGone (leave s e) e.1 e.2) s1

/-- What has not started yet of an aborted launch does not start. -/
def dropTasks (s : State) (lnch : Nat) : State :=
  let die := fun (d : Die) => { d with
    back := d.back.filter fun r => r.lnch ≠ lnch
    task := d.task.filter fun m => m.task.lnch ≠ lnch }
  let core := fun (k : Core) => { k with inbox := k.inbox.filter fun r => r.lnch ≠ lnch }
  { s with dies := s.dies.map fun d => (d.1, die d.2), cores := s.cores.map fun k => (k.1, core k.2) }

/-- The threads of a launch begin to end. -/
def endLaunch (s : State) (lnch : Nat) : State :=
  let s1 := endAway (dropTasks s lnch) lnch
  ((allThreads s1).filter fun e => ofLaunch lnch e.2).foldl
    (fun s e => match thread? s e.1 with
      | some t => endAt s e.1 t
      | none => s) s1

/-- An aborted launch whose threads have all ended is marked faulted, in its progress record and in the journal, and 1 is
    added at SIGADDR (R306, R307). -/
def closeLaunch (s : State) (x : Launch) : State :=
  if x.started && (liveThreads s).any (ofLaunch x.lnch) then s
  else
    let s1 := agentWord s (x.ctx 0) (x.prog + 16) 3
    let sig := (word x.words 5).toNat
    packetFaults (if sig = 0 then s1 else agentAdd s1 (x.ctx 0) sig 1) x.packet

/-- The packet of a launch is not done. -/
def unfinished (s : State) (x : Launch) : Bool := s.ctl.packets.any fun p => p.id = x.packet && p.phase ≠ .done

/-- The abort of a launch begins, or goes on once its threads have ended (R306). -/
def abort (s : State) (x : Launch) : State :=
  if !unfinished s x then s
  else if x.aborted then closeLaunch s x
  else
    let y := { x with aborted := true, ranges := [] }
    let s1 := putLaunch s y
    closeLaunch (if x.started then endLaunch s1 x.lnch else s1) y

/-- ABORT_LAUNCH (R306): an EXIT that waits for its replay windows holds the abort up (R353). -/
def execAbortLaunch (lnch : Nat) (s : State) : Host.Outcome State Fault Refusal :=
  match s.ctl.launches.find? fun x => x.started && x.lnch = lnch && unfinished s x with
  | none => .next s
  | some x => .next (abort s x)

/-! Loss of a package. -/

/-- The bytes of the progress record of a launch, bitmaps included (R284). -/
def Launch.recordSize (x : Launch) : Nat := 64 + 16 * bitmapWords x.ngang

/-- Whether a part of the progress record of a launch lies in a package (R284, R309). -/
def recordsIn (s : State) (pkg : Nat) (x : Launch) : Bool :=
  (rangeFound s (x.ctx 0) (x.prog % 2 ^ 56) x.recordSize).1.any fun p => match p.place with
    | .mem pa => spaceOf pa = 1 && pa / 2 ^ 40 % 1024 = pkg
    | _ => false

/-- PACKAGE_LOSS: a package of the pod is lost. Another one is fenced, so that requests to it complete; the ports
    that lead to it say so; and the launches with progress records in it are aborted (R309, R315). With this package
    every launch that has gangs on it is aborted. -/
def execPackageLoss (pkg : Nat) (s : State) : Host.Outcome State Fault Refusal :=
  if 576 ≤ pkg then .next s
  else if pkg = s.ctl.bar.pkgnum then .next ((s.ctl.launches.filter (·.started)).foldl abort (signalFatal s))
  else
    let links := s.ctl.bar.links.map fun e => if e.1 = 2 && e.2 = pkg then (3, pkg) else e
    let s1 := setBar s { s.ctl.bar with links := links }
    let s2 := { s1 with ctl := { s1.ctl with fenced := pkg :: s1.ctl.fenced.filter (· ≠ pkg) } }
    .next ((s2.ctl.launches.filter (recordsIn s2 pkg)).foldl abort s2)

end Sys2Proof.Machine
end

