-- ==== Sys2Proof/Machine/Flute.lean ====
section
/-! DEFINITION. The cycle: the Flute of each core forms its issue groups (R26 to R34), the counts of the cycle
move on, and the events that may happen in the cycle are gathered. -/

namespace Sys2Proof.Machine

/-! Groups. -/

/-- A thread that is ready for a port of its core: its location, its merge key, whether its instruction is
    annulled, whether it stands on port A, and how many entries of the command FIFO are free for a COPY or COPYQ
    (R27, R29, R260). -/
structure Ready where
  loc : Loc
  key : Word × Bool × Nat × Bool
  annulled : Bool
  portA : Bool
  limit : Option Nat
  deriving DecidableEq, Repr

/-- The merge key of a thread on its core: PC, privilege, address space and light flag (R29). -/
def mergeKey (l : Loc) (t : Thread) : Word × Bool × Nat × Bool :=
  (t.pc, supLevel l t, (threadCtx l t).asid, t.csr.light)

/-- Instructions that a thread presents: they issue outside the ports (R210, R335). -/
def presentsIt (i : Instr) : Bool :=
  match i with
  | .bar .. | .convene .. => true
  | _ => isCollective i

/-- The free entries of the command FIFO for an instruction that takes one (R260). -/
def fifoLeft (s : State) (l : Loc) : Instr → Option Nat
  | .copy .. | .copyq .. => some (16 - (coreOf s l.coreIdx).fifo.length)
  | _ => none

/-- A thread as a candidate of a port, when it is ready (R26, R27, R38). -/
def readyAt (s : State) (l : Loc) (t : Thread) : Option Ready :=
  match nextOf s l t with
  | .run i w _ => if canIssue s l t i && !presentsIt i then some ⟨l, mergeKey l t, false, onPortA w, fifoLeft s l i⟩ else none
  | .annul w _ => if mayRun t then some ⟨l, mergeKey l t, true, onPortA w, none⟩ else none
  | .illegal w _ => if illegalReady s l t w then some ⟨l, mergeKey l t, false, onPortA w, none⟩ else none
  | _ => none

/-- A thread presents its next instruction (R210, R335). -/
def presentsNow (s : State) (l : Loc) (t : Thread) : Bool :=
  match nextOf s l t with
  | .run i _ _ => presentsIt i && canIssue s l t i
  | _ => false

/-- The home lane of a slot (R29). -/
def homeLane (l : Loc) : Nat := if l.migration then l.slot - 128 else l.slot % 16

/-- The rotation position of a slot (R28). -/
def positionOf (p64 : Bool) (l : Loc) : Nat :=
  if l.migration then (if p64 then 16 * (l.slot - 128) + 8 else 32 * (l.slot - 128) + 16) else l.slot

/-- Where the pointer of a core stands (R28). -/
def pointerOf (s : State) (k : Core) : Nat := (Config.pointerPhase k.phase + s.cycle) % fullSlots k.p64

/-- The place of a slot in rotation order: positions from the pointer on, and at a shared one the thread that
    lost the last contest first (R28). -/
def rotationRank (k : Core) (pointer : Nat) (l : Loc) : Nat :=
  let n := fullSlots k.p64
  let p := positionOf k.p64 l
  let migFirst := (mget k.contest p).getD false
  2 * ((p + n - pointer) % n) + if l.migration = migFirst then 0 else 1

/-- An insertion in rotation order. -/
def insertReady (rank : Loc → Nat) (r : Ready) : List Ready → List Ready
  | [] => [r]
  | x :: xs => if rank r.loc < rank x.loc then r :: x :: xs else x :: insertReady rank r xs

/-- Whether a group has a free entry of the command FIFO for one more member (R260). -/
def fifoRoom (g : List Ready) (r : Ready) : Bool := r.limit.all fun n => (g.filter (·.limit.isSome)).length < n

/-- The group that a leader gathers from the threads after it: same key, home lane not taken, and an entry of the
    command FIFO for each that needs one (R29, R260). -/
def gatherGroup (leader : Ready) (rest : List Ready) : List Ready :=
  rest.foldl
    (fun g r =>
      if r.key = leader.key && fifoRoom g r && g.all fun x => homeLane x.loc ≠ homeLane r.loc then g ++ [r] else g)
    [leader]

/-- The groups of a port in a cycle: those that are annulled for every member, and then one that issues
    (R29, R30). -/
def portGroups : (fuel : Nat) → List Ready → List (List Ready)
  | 0, _ => []
  | _ + 1, [] => []
  | n + 1, r :: rest =>
    let g := gatherGroup r rest
    if g.all (·.annulled) then g :: portGroups n (rest.filter fun x => !g.contains x) else [g]

/-- A contest at the position of the pointer: both its threads are ready for one port, and their keys differ
    (R28). -/
def contested (k : Core) (pointer : Nat) (ready : List Ready) : Bool :=
  let here := ready.filter fun r => positionOf k.p64 r.loc = pointer
  here.any fun a => here.any fun b => a.loc ≠ b.loc && a.portA = b.portA && a.key ≠ b.key

/-- The members of a group as they issue, the leader marked. -/
def inTurn : List Ready → List (Bool × Loc)
  | [] => []
  | r :: rs => (true, r.loc) :: rs.map fun x => (false, x.loc)

/-- A group that issues is counted, with its members that are not annulled (R30, R321). -/
def tallyGroup (s : State) (clu : Nat) (g : List Ready) : State :=
  let n := (g.filter fun r => !r.annulled).length
  match g with
  | r :: _ => tally (tally s clu (if r.portA then 2 else 3) (if n = 0 then 0 else 1)) clu 4 n
  | [] => s

/-- The ready threads of a core in rotation order (R27, R28). -/
def readyThreads (s : State) (core : Nat) : List Ready :=
  let k := coreOf s core
  ((allThreads s).filter fun e => e.1.coreIdx = core).foldl
    (fun l e => match readyAt s e.1 e.2 with
      | some r => insertReady (rotationRank k (pointerOf s k)) r l
      | none => l) []

/-- The threads of a core that present in a cycle, each by itself (R210, R335). -/
def presenters (s : State) (core : Nat) : List (Bool × Loc) :=
  ((allThreads s).filter fun e => e.1.coreIdx = core && presentsNow s e.1 e.2).map fun e => (true, e.1)

/-- The Flute of a core forms its groups of a cycle, port A before port B (R28 to R30); what its threads present
    stands outside the ports. The turns of a shared position alternate between its two slots, whichever threads stand
    there (log 106). -/
def fluteCore (s : State) (core : Nat) : State :=
  let k := coreOf s core
  let p := pointerOf s k
  let ready := readyThreads s core
  let gs := portGroups ready.length (ready.filter (·.portA)) ++ portGroups ready.length (ready.filter fun r => !r.portA)
  let k1 := if contested k p ready then { k with contest := mset k.contest p (!((mget k.contest p).getD false)) } else k
  let s1 := gs.foldl (fun s g => tallyGroup s (core / 4) g) (setCore s core k1)
  { s1 with issueQ := s1.issueQ ++ gs.flatMap inTurn ++ presenters s core }

/-- The cores with a thread in a slot. -/
def busyCores (s : State) : List Nat := ((allThreads s).map fun e => e.1.coreIdx).eraseDups

/-- The Flutes of the package, in the order of its cores; before the package runs no thread does (R316). Of two
    instructions of a cluster that name one slot in a cycle, that of the lower core acts first (log 97). -/
def fluteAll (s : State) : State := if s.ctl.bar.bootstat = 1 then (busyCores s).foldl fluteCore s else s

/-! The counts of a cycle. -/

/-- An expired thread that is not being saved counts its slice anew once no ready saved thread of the cluster
    lacks a slot (R289, R429). -/
def sliceAnew (s : State) (l : Loc) (t : Thread) : Bool := t.expired.isSome && !wantsSlot s l.clu && !beingSaved s l t

/-- The slice count of a resident thread, which stops while it is halted, and the cycle from which it waits
    at a parkable wait (R206, R289, R296). -/
def countThread (s : State) (l : Loc) (t : Thread) : Thread :=
  let n := if sliceAnew s l t then 0 else t.sliceCount
  { t with
    sliceCount := if t.mode = .running then n + 1 else n
    expired := if sliceAnew s l t then none else t.expired
    waitSince := if parkable s l t then some (t.waitSince.getD s.cycle) else none }

/-- The counters of a cycle: a die counts the cycles of its 32 clusters (R320, R321). -/
def countCycle (s : State) : State :=
  let s1 := s.clusters.foldl
    (fun s c => tally (setCluster s c.1 (bumpEvc (cluster s c.1) 0x1 1)) c.1 0x60 (if c.2.mx.cur.isSome then 1 else 0)) s
  s1.dies.foldl (fun s d => tallyDie s d.1 0x1 32) s1

/-- The cycle moves on: slices, waits, saves that may no longer be, LOWCYC and the counters (R289, R290, R321,
    R322). -/
def nextCycle (s : State) : State :=
  let s1 := { s with cycle := s.cycle + 1 }
  let s2 := { s1 with threads := s1.threads.map fun (e : Nat × Thread) => (e.1, countThread s1 (Loc.ofKey e.1) e.2) }
  let s3 := s2.clusters.foldl (fun s (c : Nat × Cluster) => if c.2.saves.isEmpty then s else cleanSaves s c.1) s2
  let b := s3.ctl.bar
  countCycle (setBar s3 (if b.clkcur < 1500 then { b with lowcyc := b.lowcyc + 1 } else b))

/-! Events that happen whenever they can. -/

/-- The convening points at which threads present or have formed a group. -/
def pointsOf (s : State) : List Instr :=
  let shown := (allThreads s).filterMap fun e => match e.2.present with
    | some p => (match p.instr with
      | .convene _ _ q _ => some (Instr.groupForm e.1.clu e.2.csr.gang.toNat e.2.csr.lnch.toNat q.toNat)
      | _ => none)
    | none => none
  let formed := s.clusters.flatMap fun c => c.2.forming.map fun f => Instr.groupForm c.1 f.gang f.lnch f.point
  (shown ++ formed).eraseDups

/-- The CMPK and EXPD whose cycles have passed (R239, R355). -/
def packsDue (s : State) : List Instr :=
  (allThreads s).filterMap fun e => match e.2.pipe.pack with
    | some k => if k.due ≤ s.cycle then some (.accessAction e.1 k.id) else none
    | none => none

/-- What the matrix unit of a cluster does in every cycle: its collective goes on, one that waits on a full Bracken
    reads COUNT every 64 cycles, and groups that have no collective left dissolve (R215, R220, R246). -/
def unitEvents (s : State) (c : Nat × Cluster) : List Instr :=
  (c.2.mx.groups.filter (·.dissolving)).map (fun g => .groupDissolve c.1 g.gid)
    ++ (match c.2.mx.cur with
      | some x => (if x.stalled && x.checked + 64 ≤ s.cycle then [Instr.brackenRecheck c.1] else []) ++ [.collectiveComplete c.1]
      | none => [])

/-- The events of a cycle that do not wait: slices that end, convening points, the matrix units, CMPK and EXPD, WAIT
    packets whose time has come (R211, R220, R239, R278, R289). -/
def dueEvents (s : State) : List Instr :=
  ((allThreads s).filter fun e => e.2.csr.slice ≠ 0 && e.2.csr.slice.toNat ≤ e.2.sliceCount).map (fun e => .sliceExpiry e.1)
    ++ pointsOf s
    ++ s.clusters.flatMap (unitEvents s)
    ++ packsDue s
    ++ (s.ctl.packets.filter fun p => p.phase = .started && packetType p.words = 2 && p.recheck ≤ s.cycle).map
        (fun p => .waitRecheck p.id)

/-! Events that may happen. -/

/-- The event of a thread that comes first: a trap or a halt, a fault of its group, a light interrupt, a save;
    at most one takes effect in a cycle (R295). A pending annulment holds back all but the first (R40). -/
def threadEvent (s : State) (l : Loc) (t : Thread) : List Instr :=
  match t.trap with
  | some r => [if r.alone then .haltAlone l else .trapDelivery l]
  | none =>
    if t.gfault.isSome && t.pipe.annul = 0 then [.trapDelivery l]
    else if irqReady t then [.lightInterruptDelivery l]
    else if t.pipe.annul = 0 && (beingSaved s l t || ((cluster s l.clu).saves.isEmpty && maySave s l t)) then [.heathSave l]
    else match nextOf s l t with
      | .fetch => [.pageWalk l (pcLine t.pc), .lineFetch l]
      | .poison => [.lineFetch l]
      | .target => [.haltAlone l]
      | _ => []

/-- The actions of the accesses of a thread, a CMPK or EXPD among them, and what a moved page calls for (R161,
    R180, R191). -/
def accessEvents (s : State) (e : Loc × Thread) : List Instr :=
  (e.2.pipe.acc.flatMap fun a =>
    (if a.redirected s then [Instr.redirectReplay e.1 a.id] else []) ++ [.accessAction e.1 a.id]) ++ e.2.pipe.pack.toList.map fun k => .accessAction e.1 k.id

/-- What a replay window may do: a word on its way arrives, and a refused head is sent again (R266 to R268). -/
def windowEvents (src : Sender) (win : List SentWord) : List Instr :=
  (if win.any (·.flying) then [.portWordArrival src] else [])
    ++ (if win.head?.any fun w => !w.flying then [.portReplay src] else [])

/-- What a thread's ports may do. -/
def portEvents (t : Thread) : List Instr :=
  ([0, 1, 2, 3, 4, 5, 6, 7] : List PReg).flatMap fun q => windowEvents (.port t.origin q) (portOf t q).win

/-- The events of the threads. -/
def threadEvents (s : State) : List Instr :=
  (allThreads s).flatMap (fun e =>
      threadEvent s e.1 e.2 ++ (e.2.pipe.results.filter (·.ready)).map fun r => .resultLanding e.1 r.id)
    ++ (allThreads s ++ s.flight.ghosts).flatMap (accessEvents s)
    ++ (liveThreads s).flatMap portEvents

/-- The event of a message between a home and a slot (R198, R202, R207). -/
def subEvent (m : SubMsg) : Instr :=
  match m.body with
  | .request .. => .subscribeRequest m.id
  | .answer .. => .subscribeAnswer m.id
  | .push .. => .pushArrival m.id
  | .remove .. => .unsubscribeRequest m.id
  | .marker .. => .finalMarker m.id

/-- The events of what is on its way. -/
def flightEvents (s : State) : List Instr :=
  s.flight.subMsgs.map subEvent
    ++ s.flight.copies.flatMap (fun c => [if c.ready && !c.wb then .copyCompletion c.id else .copyElementApply c.id])
    ++ s.flight.tokens.flatMap (fun m => [.completionForward m.id, .tokenCompletion m.id])
    ++ s.flight.migs.map (fun m => if m.flying then .migrationAccept m.id else .migrationReplay m.id)
    ++ (List.range s.flight.keyrets.length).map .keyretComplete

/-- Data of a half that the host may have written: the i-th of those that it holds. -/
def halfData (s : State) (i : Nat) : Option (BitVec 512) :=
  if Config.happens (s.free + 4 * i + 1) then some (freeBlock (s.free + 4 * i + 1)) else none

/-- A line of a view goes home or loses its clean bytes of its own accord (R179). -/
def cacheEvents (s : State) (c : Nat × Cluster) : List Instr :=
  match c.2.view[choose s c.2.view.length]? with
  | some e => [.spontaneousWriteback c.1 (e.1 / 2 ^ 52) (e.1 % 2 ^ 52 / 128), .spontaneousDrop c.1 (e.1 / 2 ^ 52) (e.1 % 2 ^ 52 / 128)]
  | none => []

/-- The events of a cluster. -/
def clusterEvents (s : State) (c : Nat × Cluster) : List Instr :=
  (match nextRestore s c.1 with
    | some r => [Instr.heathRestore c.1 r.1]
    | none => [])
    ++ (if c.2.faults.isEmpty then [] else [.faultMessageEnter c.1])
    ++ windowEvents (.fault c.1) c.2.faultWin
    ++ (if c.2.mx.cur.any (·.stalled) then [.brackenRecheck c.1] else [])
    ++ cacheEvents s c

/-- The events of memory. -/
def memoryEvents (s : State) : List Instr :=
  s.store.collapses.map (fun c => .collapse c.id)
    ++ ((List.range s.store.hostHeld.length).zip s.store.hostHeld).map fun h => .hostRecall h.2.half (halfData s h.1)

/-- The events of launches, engines and dispatchers. -/
def launchEvents (s : State) : List Instr :=
  (if (newLaunch s).isSome then [.packetLaunch] else [])
    ++ (s.ctl.launches.filter fun x => !x.started).map (fun x => .launchStart x.packet)
    ++ (s.ctl.launches.filter fun x => (x.aborted || (x.started && s.ctl.fatal)) && unfinished s x).map (fun x => .abortLaunch x.lnch)
    ++ (List.range 8).flatMap (fun d => match (dieOf s d).task with
      | some m => [if m.flying then .taskRecordArrival d else .taskRecordReplay d]
      | none =>
        if (nextGang s d).isSome then [.launchEnginePlace d]
        else if (stealable s).isSome then [.launchSteal d] else [])
    ++ (s.cores.filter fun k => !k.2.inbox.isEmpty).map fun k => .dispatchTaskRecord (k.1 / 4) (k.1 % 4)

/-- The events of queues and packets. -/
def queueEvents (s : State) : List Instr :=
  (if (headQueues s).isEmpty then [] else [.arbitrationGrant])
    ++ (if (accepted s 2).isSome then [.packetWait] else [])
    ++ (if (accepted s 3).isSome then [.packetSignal] else [])
    ++ (if (accepted s 4).isSome then [.packetCopy] else [])
    ++ (if (accepted s 5).isSome then [.packetMarker] else [])
    ++ (if (indirects s).isEmpty then [] else [.packetIndirect])
    ++ (s.ctl.packets.filter fun p => p.phase = .started && packetType p.words = 2).map (fun p => .waitRecheck p.id)
    ++ (s.ctl.packets.filter fun p => p.phase = .done).map (fun p => .packetCompletion p.id)
    ++ (s.ctl.queues.filter fun q => q.2.qstate = 2).flatMap fun q => [.queueHoldRetry q.1, .holdlimExpiry q.1]

/-- The events of the functions. -/
def functionEvents (s : State) : List Instr :=
  s.ctl.outbox.map (fun m => .mailboxEntry m.1 m.2)
    ++ (if s.ctl.bar.sstate = 1 then [.attest, .loadkey, .clearkey] else [])
    ++ (if s.ctl.bar.bootstat = 0 then [.boot ((Config.freeWord s.free).setWidth 16).toNat] else [])

/-- Every event that may happen in a cycle. -/
def possibleEvents (s : State) : List Instr :=
  threadEvents s ++ flightEvents s ++ s.clusters.flatMap (clusterEvents s) ++ memoryEvents s ++ launchEvents s
    ++ queueEvents s ++ functionEvents s

/-- Those of the events that happen, by draws. -/
def drawEvents : (free : Nat) → List Instr → List Instr
  | _, [] => []
  | n, i :: is => if Config.happens n then i :: drawEvents (n + 1) is else drawEvents (n + 1) is

/-! The outside world. -/

/-- Events that come from outside the package, from its functions or from the environment. -/
def external : Instr → Bool
  | .hostTakeHalf .. | .hostReleaseHalf .. | .cxlCacheHostRecall .. | .hostBar2Access .. | .hostCxlMemAccess ..
  | .hostkeyWrite .. | .doorbellWrite .. | .qcfgWrite .. | .registerWrite .. | .fmodeWrite .. | .hmrdbWrite ..
  | .mailboxEntry .. | .pwrlimWrite .. | .clockChange .. | .thermalThrottle .. | .thermalFatal .. | .correctedError ..
  | .uncorrectableError .. | .packageLoss .. | .linkStateChange .. | .boot .. | .rtresSet .. | .supervisorResume ..
  | .pageMove .. | .abortLaunch .. | .hbmScrub | .deviceReset => true
  | _ => false

/-- What comes from outside takes effect; an event joins those of the cycle (R194, R308 to R313). -/
def applyInput (s : State) : Input → State
  | .event e => if external e then { s with agenda := s.agenda ++ [e] } else s
  | .hostStore pa bytes => if spaceOf pa = 3 then hostWrites s pa bytes else s
  | .bar0Read off n => bar0Read s off n
  | .bar2Size n => setBar2Size s n
  | .hdmBase a => setHdmBase s a
  | .mailTake f => takeMail s f
  | .rejoin pkg => rejoinPod s pkg

/-- What comes next from outside, when it comes in this cycle. -/
def takeInput (s : State) : State :=
  match s.inputs with
  | [] => s
  | i :: rest =>
    if !Config.happens s.free then drawn s
    else applyInput (drawn { s with inputs := rest }) i

/-- The events of a cycle: those that are due, and those that happen. -/
def gatherEvents (s : State) : State :=
  let may := possibleEvents s
  takeInput { s with agenda := dueEvents s ++ drawEvents s.free may, free := s.free + may.length + 4 * s.store.hostHeld.length + 1 }

/-- ROTATION_POINTER_MOVE: the next cycle begins: every rotation pointer moves on by one position, the Flutes
    form their groups, and the events of the cycle are gathered (R28 to R34). -/
def execRotationPointerMove (s : State) : Host.Outcome State Fault Refusal := .next (gatherEvents (fluteAll (nextCycle s)))

end Sys2Proof.Machine
end

