-- ==== Sys2Proof/Machine/FpScalar.lean ====
section
/-! DEFINITION. Floating-point arithmetic on scalars (R356, R359), special functions (R354) and
conversions (R346, R417). -/

namespace Sys2Proof.Machine

/-- A value of an FP width, zero-extended. -/
def fpWord (r : FRes) : Word := BitVec.ofNat 64 r.bits

/-- A Fixed-kind instruction that rounds once: RAND steps at issue under RS (R126, R356). -/
def fixedRounded (i : Instr) (rm : RM) (rd : Opr) (f : Thread → FRes) (s : State) : Host.Outcome State Fault Refusal :=
  issue i s fun t t1 s =>
    .ok (fixedResult s (stepRand t1 rm 1) rd (fpWord (f t)) (readTaint t.regs (usesOf i)) (f t).flags)

/-- A Variable-kind instruction that rounds once. -/
def variableRounded (i : Instr) (rm : RM) (rd : XReg) (f : Thread → FRes) (s : State) :
    Host.Outcome State Fault Refusal :=
  issue i s fun t t1 s =>
    .ok (variableResult s (stepRand t1 rm 1) i.dep.sa [wrX rd (fpWord (f t))] (f t).flags)

/-- FADD (R356). -/
def execFadd (d : Dep) (f : FWid) (rm : RM) (rd ra rb : Opr) (s : State) : Host.Outcome State Fault Refusal :=
  fixedRounded (.fadd d f rm rd ra rb) rm rd
    (fun t => fpAdd (fwidFmt f) (rndOf t rm false) (fwidBits f (oval t ra)) (fwidBits f (oval t rb))) s

/-- FSUB (R356). -/
def execFsub (d : Dep) (f : FWid) (rm : RM) (rd ra rb : Opr) (s : State) : Host.Outcome State Fault Refusal :=
  fixedRounded (.fsub d f rm rd ra rb) rm rd
    (fun t => fpSub (fwidFmt f) (rndOf t rm false) (fwidBits f (oval t ra)) (fwidBits f (oval t rb))) s

/-- FMUL (R356). -/
def execFmul (d : Dep) (f : FWid) (rm : RM) (rd ra rb : Opr) (s : State) : Host.Outcome State Fault Refusal :=
  fixedRounded (.fmul d f rm rd ra rb) rm rd
    (fun t => fpMul (fwidFmt f) (rndOf t rm false) (fwidBits f (oval t ra)) (fwidBits f (oval t rb))) s

/-- FFMA (R356). -/
def execFfma (d : Dep) (f : FWid) (rm : RM) (rd ra rb rc : Opr) (s : State) : Host.Outcome State Fault Refusal :=
  fixedRounded (.ffma d f rm rd ra rb rc) rm rd
    (fun t => fpFma (fwidFmt f) (rndOf t rm false) (fwidBits f (oval t ra)) (fwidBits f (oval t rb))
      (fwidBits f (oval t rc))) s

/-- An FP32 immediate in the format of the instruction; widening is exact (R123). -/
def widenImm (f : FWid) (imm : BitVec 32) : Nat :=
  match f with
  | .f32 => imm.toNat
  | .f64 => if (numOf .fp32 imm.toNat).snan then signallingNaN64 imm.toNat
            else (cvtElem .fp32 .fp64 Rnd.rne imm.toNat).bits
where
  /-- A signalling NaN widened: it stays signalling, so that its use sets NV (R127). -/
  signallingNaN64 (b : Nat) : Nat := b / 2 ^ 31 * 2 ^ 63 + 0x7FF * 2 ^ 52 + b % 2 ^ 23 * 2 ^ 29

/-- FFMAI (R356). -/
def execFfmai (d : Dep) (f : FWid) (rm : RM) (rd : XReg) (ra : Opr) (imm : BitVec 32) (s : State) :
    Host.Outcome State Fault Refusal :=
  fixedRounded (.ffmai d f rm rd ra imm) rm (.x rd)
    (fun t => fpFma (fwidFmt f) (rndOf t rm false) (fwidBits f (oval t ra)) (widenImm f imm)
      (fwidBits f (xval t rd))) s

/-- FDIV (R356). -/
def execFdiv (d : Dep) (f : FWid) (rm : RM) (rd ra rb : XReg) (s : State) : Host.Outcome State Fault Refusal :=
  variableRounded (.fdiv d f rm rd ra rb) rm rd
    (fun t => fpDiv (fwidFmt f) (rndOf t rm false) (fwidBits f (xval t ra)) (fwidBits f (xval t rb))) s

/-- FSQRT (R356). -/
def execFsqrt (d : Dep) (f : FWid) (rm : RM) (rd ra : XReg) (s : State) : Host.Outcome State Fault Refusal :=
  variableRounded (.fsqrt d f rm rd ra) rm rd
    (fun t => fpSqrt (fwidFmt f) (rndOf t rm false) (fwidBits f (xval t ra))) s

/-- The result of an operation that rounds nothing, as word and flags. -/
def fpPlain (r : FRes) : Word × Flags := (fpWord r, r.flags)

/-- FMIN (R359). -/
def execFmin (d : Dep) (f : FWid) (rd ra rb : Opr) (s : State) : Host.Outcome State Fault Refusal :=
  issueFixed (.fmin d f rd ra rb) s rd fun t =>
    fpPlain (fpMinMax (fwidFmt f) false (fwidBits f (oval t ra)) (fwidBits f (oval t rb)))

/-- FMAX (R359). -/
def execFmax (d : Dep) (f : FWid) (rd ra rb : Opr) (s : State) : Host.Outcome State Fault Refusal :=
  issueFixed (.fmax d f rd ra rb) s rd fun t =>
    fpPlain (fpMinMax (fwidFmt f) true (fwidBits f (oval t ra)) (fwidBits f (oval t rb)))

/-- The bits of a below its sign, with the sign that the rule gives (R359). -/
def signRule (w : Nat) (k : SgnOp) (a b : Nat) : Nat :=
  let sa := a / 2 ^ (w - 1) % 2
  let sb := b / 2 ^ (w - 1) % 2
  let sign := match k with
    | .copy => sb
    | .neg => 1 - sb
    | .xor => (sa + sb) % 2
  a % 2 ^ (w - 1) + sign * 2 ^ (w - 1)

/-- FSGN (R359). -/
def execFsgn (d : Dep) (f : FWid) (k : SgnOp) (rd ra rb : Opr) (s : State) : Host.Outcome State Fault Refusal :=
  issueFixed (.fsgn d f k rd ra rb) s rd fun t =>
    (BitVec.ofNat 64 (signRule (fmtWidth (fwidFmt f)) k (fwidBits f (oval t ra)) (fwidBits f (oval t rb))), 0)

/-- A special function of an FP32 operand (R135, R354). -/
def specialFn (i : Instr) (g : Nat → FRes) (rd ra : XReg) (s : State) : Host.Outcome State Fault Refusal :=
  issueVariable i s fun t =>
    let r := g (fwidBits .f32 (xval t ra))
    ([wrX rd (fpWord r)], r.flags)

/-- EXP2 (R354). -/
def execExp2 (d : Dep) (rd ra : XReg) (s : State) : Host.Outcome State Fault Refusal :=
  specialFn (.exp2 d rd ra) fpExp2 rd ra s

/-- LOG2 (R371). -/
def execLog2 (d : Dep) (rd ra : XReg) (s : State) : Host.Outcome State Fault Refusal :=
  specialFn (.log2 d rd ra) fpLog2 rd ra s

/-- RCP (R383). -/
def execRcp (d : Dep) (rd ra : XReg) (s : State) : Host.Outcome State Fault Refusal :=
  specialFn (.rcp d rd ra) fpRcp rd ra s

/-- RSQ (R383). -/
def execRsq (d : Dep) (rd ra : XReg) (s : State) : Host.Outcome State Fault Refusal :=
  specialFn (.rsq d rd ra) fpRsq rd ra s

/-- TANH (R400). -/
def execTanh (d : Dep) (rd ra : XReg) (s : State) : Host.Outcome State Fault Refusal :=
  specialFn (.tanh d rd ra) fpTanh rd ra s

/-- CVT: an integer result of an I format is sign-extended (R346). -/
def execCvt (d : Dep) (rm : RM) (sat : Bool) (sf tf : Fmt) (rd ra : Opr) (s : State) :
    Host.Outcome State Fault Refusal :=
  issue (.cvt d rm sat sf tf rd ra) s fun t t1 s =>
    let r := cvtElem sf tf (rndOf t rm sat) ((oval t ra).toNat % 2 ^ fmtWidth sf)
    let v := if Fmt.signedInt tf then sextNat (fmtWidth tf) r.bits else BitVec.ofNat 64 r.bits
    .ok (fixedResult s (stepRand t1 rm (if cvtRounds sf tf then 1 else 0)) rd v
      (readTaint t.regs (usesOf (.cvt d rm sat sf tf rd ra))) r.flags)

/-- CVT.V (R346). -/
def execCvtV (d : Dep) (rm : RM) (sat : Bool) (sf tf : Fmt) (rd ra : VReg) (s : State) :
    Host.Outcome State Fault Refusal :=
  issue (.cvtV d rm sat sf tf rd ra) s fun t t1 s =>
    let e := 128 / max (fmtWidth sf) (fmtWidth tf)
    let mode := RMode.select rm t.csr.fpctl
    let rs := eachElem mode t.csr.rand sat (fun r k => cvtElem sf tf r (elem (fmtWidth sf) (vval t ra) k)) e 0
    let t2 := stepRand t1 rm (if cvtRounds sf tf then e else 0)
    .ok (setThread s s.cur (fixedWrites s t2 [wrV rd (vec (fmtWidth tf) (rs.map (·.bits)))] (allFlags rs)))

/-- The 32 FP32 values of a block in eight consecutive registers (R417). -/
def blockValues (t : Thread) (ra : VReg) : List Nat :=
  (List.range 32).map fun i => elem 32 (vval t (ra + BitVec.ofNat 6 (i / 4))) (i % 4)

/-- The 32 elements of a block of F (R417). -/
def blockElems (t : Thread) (f : Fmt) (ra : VReg) : List Nat :=
  if f = .e2m1 then (List.range 32).map fun i => elem 4 (vval t ra) i
  else (List.range 32).map fun i => elem 8 (vval t (ra + BitVec.ofNat 6 (i / 16))) (i % 16)

/-- The register writes of a block of F (R417). -/
def blockWrites (f : Fmt) (rd : VReg) (es : List Nat) : List Wr :=
  if f = .e2m1 then [wrV rd (vec 4 es)]
  else [wrV rd (vec 8 (es.take 16)), wrV (rd + 1) (vec 8 (es.drop 16))]

/-- VQNT (R417, R418). -/
def execVqnt (d : Dep) (f : Fmt) (rd ra : VReg) (rb : Opr) (s : State) : Host.Outcome State Fault Refusal :=
  issue (.vqnt d f rd ra rb) s fun t t1 s =>
    let p := quantBlock f (blockValues t ra)
    let ws := blockWrites f rd p.2
    match rb with
    | .x n => .ok (setThread s s.cur (fixedWrites s t1 (ws ++ [wrX n (BitVec.ofNat 64 p.1)]) 0))
    | .q q =>
      let r := sendWord s s.cur t1 q false (BitVec.ofNat 64 p.1)
      .ok (setThread r.1 s.cur (fixedWrites r.1 r.2 ws 0))

/-- VDQ (R417, R418). -/
def execVdq (d : Dep) (f : Fmt) (rd ra : VReg) (rb : Opr) (s : State) : Host.Outcome State Fault Refusal :=
  issueVector (.vdq d f rd ra rb) s fun t =>
    let vs := (blockElems t f ra).map (dequant f ((oval t rb).toNat % 256))
    ((List.range 8).map fun k => wrV (rd + BitVec.ofNat 6 k) (vec 32 ((vs.drop (4 * k)).take 4)), 0)

end Sys2Proof.Machine
end

