-- ==== Sys2Proof/Machine/Integer.lean ====
section
/-! DEFINITION. Integer arithmetic, moves of immediates and effective addresses. -/

namespace Sys2Proof.Machine

/-! Operations on unsigned numbers of `w` bits. -/

/-- The sum modulo 2^w (R328). -/
def intAdd (w a b : Nat) : Nat := (a + b) % 2 ^ w
/-- The difference modulo 2^w (R398). -/
def intSub (w a b : Nat) : Nat := (a + (2 ^ w - b % 2 ^ w)) % 2 ^ w
/-- The product modulo 2^w (R376). -/
def intMul (w a b : Nat) : Nat := a * b % 2 ^ w
/-- The high half of the signed product (R376). -/
def intMulh (w a b : Nat) : Nat := wrapInt w (sintNat w a * sintNat w b / (2 ^ w : Nat))
/-- The high half of the unsigned product (R376). -/
def intMulhn (w a b : Nat) : Nat := a * b / 2 ^ w
/-- The signed quotient, toward zero; all ones for a divisor of zero (R349). -/
def intDiv (w a b : Nat) : Nat := if b = 0 then 2 ^ w - 1 else wrapInt w ((sintNat w a).tdiv (sintNat w b))
/-- The unsigned quotient; all ones for a divisor of zero (R349). -/
def intDivn (w a b : Nat) : Nat := if b = 0 then 2 ^ w - 1 else a / b
/-- The signed remainder; the dividend for a divisor of zero (R384). -/
def intRem (w a b : Nat) : Nat := if b = 0 then a else wrapInt w ((sintNat w a).tmod (sintNat w b))
/-- The unsigned remainder; the dividend for a divisor of zero (R384). -/
def intRemn (_w a b : Nat) : Nat := if b = 0 then a else a % b
/-- Bitwise and (R333). -/
def intAnd (_w a b : Nat) : Nat := a &&& b
/-- Bitwise and with the inverse (R333). -/
def intAndn (w a b : Nat) : Nat := a &&& (2 ^ w - 1 - b % 2 ^ w)
/-- Bitwise or (R378). -/
def intOr (_w a b : Nat) : Nat := a ||| b
/-- Bitwise exclusive or (R426). -/
def intXor (_w a b : Nat) : Nat := a ^^^ b
/-- Shift left by the count modulo w (R392). -/
def intShl (w a b : Nat) : Nat := a * 2 ^ (b % w) % 2 ^ w
/-- Shift right, filling with zeros (R392). -/
def intShr (w a b : Nat) : Nat := a / 2 ^ (b % w)
/-- Shift right, filling with the sign (R392). -/
def intSra (w a b : Nat) : Nat := wrapInt w (sintNat w a / (2 ^ (b % w) : Nat))
/-- Rotate left (R388). -/
def intRot (w a b : Nat) : Nat := a * 2 ^ (b % w) % 2 ^ w + a / 2 ^ (w - b % w)
/-- The signed minimum (R372). -/
def intMinS (w a b : Nat) : Nat := if sintNat w b < sintNat w a then b else a
/-- The unsigned minimum (R372). -/
def intMinU (_w a b : Nat) : Nat := if b < a then b else a
/-- The signed maximum (R372). -/
def intMaxS (w a b : Nat) : Nat := if sintNat w a < sintNat w b then b else a
/-- The unsigned maximum (R372). -/
def intMaxU (_w a b : Nat) : Nat := if a < b then b else a

/-- Zeros below the lowest one bit, at most `w` (R340). -/
def intCtz : Nat → Nat → Nat
  | 0, _ => 0
  | w + 1, a => if a % 2 = 1 then 0 else intCtz w (a / 2) + 1

/-- One bits among the low `w` (R381). -/
def intPopc : Nat → Nat → Nat
  | 0, _ => 0
  | w + 1, a => a % 2 + intPopc w (a / 2)

/-- Bits from the highest one bit down, 0 for zero. -/
def intLen : Nat → Nat → Nat
  | 0, _ => 0
  | w + 1, a => if a = 0 then 0 else intLen w (a / 2) + 1

/-- Zeros above the highest one bit (R340). -/
def intClz (w a : Nat) : Nat := w - intLen w a

/-- Bit-field extraction from position `p` of `n` bits (R337). -/
def intBfx (w a p n : Nat) : Nat :=
  let h := min (p + n) w
  if p < h then a / 2 ^ p % 2 ^ (h - p) else 0

/-- Bit-field insertion of the low bits of `a` into `t` (R337). -/
def intBfi (w t a p n : Nat) : Nat :=
  let h := min (p + n) w
  if p < h then t % 2 ^ p + a % 2 ^ (h - p) * 2 ^ p + t / 2 ^ h * 2 ^ h else t

/-- An operation on the low W bits of two values, zero-extended. -/
def intOp (f : Nat → Nat → Nat → Nat) (wd : Wid) (a b : Word) : Word :=
  BitVec.ofNat 64 (f (widBits wd) (lowBits wd a) (lowBits wd b))

/-- A Fixed-kind instruction with two scalar operands. -/
def fixedRRR (i : Instr) (f : Nat → Nat → Nat → Nat) (wd : Wid) (rd ra rb : Opr) (s : State) :
    Host.Outcome State Fault Refusal :=
  issueFixed i s rd fun t => (intOp f wd (oval t ra) (oval t rb), 0)

/-- A Fixed-kind instruction with a scalar operand and an immediate extended to 64 bits. -/
def fixedRRI (i : Instr) (f : Nat → Nat → Nat → Nat) (wd : Wid) (rd ra : Opr) (imm : Word) (s : State) :
    Host.Outcome State Fault Refusal :=
  issueFixed i s rd fun t => (intOp f wd (oval t ra) imm, 0)

/-- A Fixed-kind instruction with one scalar operand. -/
def fixedRR (i : Instr) (f : Nat → Nat → Nat) (wd : Wid) (rd ra : Opr) (s : State) :
    Host.Outcome State Fault Refusal :=
  issueFixed i s rd fun t => (BitVec.ofNat 64 (f (widBits wd) (lowBits wd (oval t ra))), 0)

/-- A Variable-kind instruction with two x operands. -/
def variableRRR (i : Instr) (f : Nat → Nat → Nat → Nat) (wd : Wid) (rd ra rb : XReg) (s : State) :
    Host.Outcome State Fault Refusal :=
  issueVariable i s fun t => ([wrX rd (intOp f wd (xval t ra) (xval t rb))], 0)

/-- ADD (R328). -/
def execAdd (d : Dep) (wd : Wid) (rd ra rb : Opr) (s : State) : Host.Outcome State Fault Refusal :=
  fixedRRR (.add d wd rd ra rb) intAdd wd rd ra rb s

/-- SUB (R398). -/
def execSub (d : Dep) (wd : Wid) (rd ra rb : Opr) (s : State) : Host.Outcome State Fault Refusal :=
  fixedRRR (.sub d wd rd ra rb) intSub wd rd ra rb s

/-- MUL (R376). -/
def execMul (d : Dep) (wd : Wid) (rd ra rb : Opr) (s : State) : Host.Outcome State Fault Refusal :=
  fixedRRR (.mul d wd rd ra rb) intMul wd rd ra rb s

/-- MULH (R376). -/
def execMulh (d : Dep) (wd : Wid) (rd ra rb : Opr) (s : State) : Host.Outcome State Fault Refusal :=
  fixedRRR (.mulh d wd rd ra rb) intMulh wd rd ra rb s

/-- MULHN (R376). -/
def execMulhn (d : Dep) (wd : Wid) (rd ra rb : Opr) (s : State) : Host.Outcome State Fault Refusal :=
  fixedRRR (.mulhn d wd rd ra rb) intMulhn wd rd ra rb s

/-- AND (R333). -/
def execAnd (d : Dep) (wd : Wid) (rd ra rb : Opr) (s : State) : Host.Outcome State Fault Refusal :=
  fixedRRR (.and d wd rd ra rb) intAnd wd rd ra rb s

/-- ANDN (R333). -/
def execAndn (d : Dep) (wd : Wid) (rd ra rb : Opr) (s : State) : Host.Outcome State Fault Refusal :=
  fixedRRR (.andn d wd rd ra rb) intAndn wd rd ra rb s

/-- OR (R378). -/
def execOr (d : Dep) (wd : Wid) (rd ra rb : Opr) (s : State) : Host.Outcome State Fault Refusal :=
  fixedRRR (.or d wd rd ra rb) intOr wd rd ra rb s

/-- XOR (R426). -/
def execXor (d : Dep) (wd : Wid) (rd ra rb : Opr) (s : State) : Host.Outcome State Fault Refusal :=
  fixedRRR (.xor d wd rd ra rb) intXor wd rd ra rb s

/-- SHL (R392). -/
def execShl (d : Dep) (wd : Wid) (rd ra rb : Opr) (s : State) : Host.Outcome State Fault Refusal :=
  fixedRRR (.shl d wd rd ra rb) intShl wd rd ra rb s

/-- SHR (R392). -/
def execShr (d : Dep) (wd : Wid) (rd ra rb : Opr) (s : State) : Host.Outcome State Fault Refusal :=
  fixedRRR (.shr d wd rd ra rb) intShr wd rd ra rb s

/-- SRA (R392). -/
def execSra (d : Dep) (wd : Wid) (rd ra rb : Opr) (s : State) : Host.Outcome State Fault Refusal :=
  fixedRRR (.sra d wd rd ra rb) intSra wd rd ra rb s

/-- ROT (R388). -/
def execRot (d : Dep) (wd : Wid) (rd ra rb : Opr) (s : State) : Host.Outcome State Fault Refusal :=
  fixedRRR (.rot d wd rd ra rb) intRot wd rd ra rb s

/-- MIN (R372). -/
def execMin (d : Dep) (wd : Wid) (rd ra rb : Opr) (s : State) : Host.Outcome State Fault Refusal :=
  fixedRRR (.min d wd rd ra rb) intMinS wd rd ra rb s

/-- MINN (R372). -/
def execMinn (d : Dep) (wd : Wid) (rd ra rb : Opr) (s : State) : Host.Outcome State Fault Refusal :=
  fixedRRR (.minn d wd rd ra rb) intMinU wd rd ra rb s

/-- MAX (R372). -/
def execMax (d : Dep) (wd : Wid) (rd ra rb : Opr) (s : State) : Host.Outcome State Fault Refusal :=
  fixedRRR (.max d wd rd ra rb) intMaxS wd rd ra rb s

/-- MAXN (R372). -/
def execMaxn (d : Dep) (wd : Wid) (rd ra rb : Opr) (s : State) : Host.Outcome State Fault Refusal :=
  fixedRRR (.maxn d wd rd ra rb) intMaxU wd rd ra rb s

/-- DIV (R349). -/
def execDiv (d : Dep) (wd : Wid) (rd ra rb : XReg) (s : State) : Host.Outcome State Fault Refusal :=
  variableRRR (.div d wd rd ra rb) intDiv wd rd ra rb s

/-- DIVN (R349). -/
def execDivn (d : Dep) (wd : Wid) (rd ra rb : XReg) (s : State) : Host.Outcome State Fault Refusal :=
  variableRRR (.divn d wd rd ra rb) intDivn wd rd ra rb s

/-- REM (R384). -/
def execRem (d : Dep) (wd : Wid) (rd ra rb : XReg) (s : State) : Host.Outcome State Fault Refusal :=
  variableRRR (.rem d wd rd ra rb) intRem wd rd ra rb s

/-- REMN (R384). -/
def execRemn (d : Dep) (wd : Wid) (rd ra rb : XReg) (s : State) : Host.Outcome State Fault Refusal :=
  variableRRR (.remn d wd rd ra rb) intRemn wd rd ra rb s

/-- CLZ (R340). -/
def execClz (d : Dep) (wd : Wid) (rd ra : Opr) (s : State) : Host.Outcome State Fault Refusal :=
  fixedRR (.clz d wd rd ra) intClz wd rd ra s

/-- CTZ (R340). -/
def execCtz (d : Dep) (wd : Wid) (rd ra : Opr) (s : State) : Host.Outcome State Fault Refusal :=
  fixedRR (.ctz d wd rd ra) intCtz wd rd ra s

/-- POPC (R381). -/
def execPopc (d : Dep) (wd : Wid) (rd ra : Opr) (s : State) : Host.Outcome State Fault Refusal :=
  fixedRR (.popc d wd rd ra) intPopc wd rd ra s

/-- BFX with an immediate field; `len` is one less than the length (R337). -/
def execBfx (d : Dep) (wd : Wid) (rd ra : Opr) (pos len : BitVec 6) (s : State) : Host.Outcome State Fault Refusal :=
  fixedRR (.bfx d wd rd ra pos len) (fun w a => intBfx w a pos.toNat (len.toNat + 1)) wd rd ra s

/-- BFX with the field in registers (R337). -/
def execBfxR (d : Dep) (wd : Wid) (rd ra rb rc : Opr) (s : State) : Host.Outcome State Fault Refusal :=
  issueFixed (.bfxR d wd rd ra rb rc) s rd fun t =>
    let w := widBits wd
    (BitVec.ofNat 64
      (intBfx w (lowBits wd (oval t ra)) ((oval t rb).toNat % w) ((oval t rc).toNat % w + 1)), 0)

/-- BFI with an immediate field (R337). -/
def execBfi (d : Dep) (wd : Wid) (rd : XReg) (ra : Opr) (pos len : BitVec 6) (s : State) :
    Host.Outcome State Fault Refusal :=
  issueFixed (.bfi d wd rd ra pos len) s (.x rd) fun t =>
    (BitVec.ofNat 64
      (intBfi (widBits wd) (lowBits wd (xval t rd)) (oval t ra).toNat pos.toNat (len.toNat + 1)), 0)

/-- BFI with the field in registers (R337). -/
def execBfiR (d : Dep) (wd : Wid) (rd : XReg) (ra rb rc : Opr) (s : State) : Host.Outcome State Fault Refusal :=
  issueFixed (.bfiR d wd rd ra rb rc) s (.x rd) fun t =>
    let w := widBits wd
    (BitVec.ofNat 64
      (intBfi w (lowBits wd (xval t rd)) (oval t ra).toNat ((oval t rb).toNat % w)
        ((oval t rc).toNat % w + 1)), 0)

/-- SEL (R391). -/
def execSel (d : Dep) (rd ra rb rc : Opr) (s : State) : Host.Outcome State Fault Refusal :=
  issueFixed (.sel d rd ra rb rc) s rd fun t => (if oval t rc ≠ 0 then oval t ra else oval t rb, 0)

/-- ADDI with a 10-bit immediate (R328). -/
def execAddiFrri (d : Dep) (wd : Wid) (rd ra : Opr) (imm : BitVec 10) (s : State) : Host.Outcome State Fault Refusal :=
  fixedRRI (.addiFrri d wd rd ra imm) intAdd wd rd ra (sextNat 10 imm.toNat) s

/-- ADDI with a 32-bit immediate (R328). -/
def execAddiFi32 (d : Dep) (wd : Wid) (rd ra : Opr) (imm : BitVec 32) (s : State) : Host.Outcome State Fault Refusal :=
  fixedRRI (.addiFi32 d wd rd ra imm) intAdd wd rd ra (sextNat 32 imm.toNat) s

/-- ANDI with a 10-bit immediate (R333). -/
def execAndiFrri (d : Dep) (wd : Wid) (rd ra : Opr) (imm : BitVec 10) (s : State) : Host.Outcome State Fault Refusal :=
  fixedRRI (.andiFrri d wd rd ra imm) intAnd wd rd ra (sextNat 10 imm.toNat) s

/-- ANDI with a 32-bit immediate (R333). -/
def execAndiFi32 (d : Dep) (wd : Wid) (rd ra : Opr) (imm : BitVec 32) (s : State) : Host.Outcome State Fault Refusal :=
  fixedRRI (.andiFi32 d wd rd ra imm) intAnd wd rd ra (sextNat 32 imm.toNat) s

/-- ORI with a 10-bit immediate (R378). -/
def execOriFrri (d : Dep) (wd : Wid) (rd ra : Opr) (imm : BitVec 10) (s : State) : Host.Outcome State Fault Refusal :=
  fixedRRI (.oriFrri d wd rd ra imm) intOr wd rd ra (sextNat 10 imm.toNat) s

/-- ORI with a 32-bit immediate (R378). -/
def execOriFi32 (d : Dep) (wd : Wid) (rd ra : Opr) (imm : BitVec 32) (s : State) : Host.Outcome State Fault Refusal :=
  fixedRRI (.oriFi32 d wd rd ra imm) intOr wd rd ra (sextNat 32 imm.toNat) s

/-- XORI with a 10-bit immediate (R426). -/
def execXoriFrri (d : Dep) (wd : Wid) (rd ra : Opr) (imm : BitVec 10) (s : State) : Host.Outcome State Fault Refusal :=
  fixedRRI (.xoriFrri d wd rd ra imm) intXor wd rd ra (sextNat 10 imm.toNat) s

/-- XORI with a 32-bit immediate (R426). -/
def execXoriFi32 (d : Dep) (wd : Wid) (rd ra : Opr) (imm : BitVec 32) (s : State) : Host.Outcome State Fault Refusal :=
  fixedRRI (.xoriFi32 d wd rd ra imm) intXor wd rd ra (sextNat 32 imm.toNat) s

/-- SHLI (R392). -/
def execShli (d : Dep) (wd : Wid) (rd ra : Opr) (n : BitVec 6) (s : State) : Host.Outcome State Fault Refusal :=
  fixedRRI (.shli d wd rd ra n) intShl wd rd ra (n.setWidth 64) s

/-- SHRI (R392). -/
def execShri (d : Dep) (wd : Wid) (rd ra : Opr) (n : BitVec 6) (s : State) : Host.Outcome State Fault Refusal :=
  fixedRRI (.shri d wd rd ra n) intShr wd rd ra (n.setWidth 64) s

/-- SRAI (R392). -/
def execSrai (d : Dep) (wd : Wid) (rd ra : Opr) (n : BitVec 6) (s : State) : Host.Outcome State Fault Refusal :=
  fixedRRI (.srai d wd rd ra n) intSra wd rd ra (n.setWidth 64) s

/-- LI (R370). -/
def execLi (d : Dep) (rd : Opr) (imm : BitVec 48) (s : State) : Host.Outcome State Fault Refusal :=
  issueClear (.li d rd imm) s rd fun _ => (sextNat 48 imm.toNat, 0)

/-- LI.H: the high 16 bits replaced; the taint is cleared (R370). -/
def execLiH (d : Dep) (rd : XReg) (imm : BitVec 16) (s : State) : Host.Outcome State Fault Refusal :=
  issueClear (.liH d rd imm) s (.x rd) fun t =>
    (BitVec.ofNat 64 (imm.toNat * 2 ^ 48 + (xval t rd).toNat % 2 ^ 48), 0)

/-- LEA (R369). -/
def execLea (d : Dep) (rd ra : Opr) (sh : BitVec 3) (imm : BitVec 32) (s : State) : Host.Outcome State Fault Refusal :=
  issueFixed (.lea d rd ra sh imm) s rd fun t => (oval t ra + sextNat 32 imm.toNat <<< sh.toNat, 0)

/-- LEA.PC (R369). -/
def execLeaPc (d : Dep) (rd : Opr) (imm : BitVec 32) (s : State) : Host.Outcome State Fault Refusal :=
  issueFixed (.leaPc d rd imm) s rd fun t => (BitVec.ofNat 64 (pcLine t.pc) + sextNat 32 imm.toNat, 0)

/-- MOV (R375). -/
def execMov (d : Dep) (rd ra : Opr) (s : State) : Host.Outcome State Fault Refusal :=
  issueFixed (.mov d rd ra) s rd fun t => (oval t ra, 0)

end Sys2Proof.Machine
end

