-- ==== Sys2Proof/Machine/Vector.lean ====
section
/-! DEFINITION. Vector arithmetic, reductions, permutations and the moves between scalar and vector
registers (R411 to R422). -/

namespace Sys2Proof.Machine

/-- Elements of a format in a v register (R411). -/
def lanesOf (f : Fmt) : Nat := 128 / fmtWidth f

/-- Integer elements: the order of an I format is signed, that of an N format unsigned (R413). -/
def elemLess (f : Fmt) (a b : Nat) : Bool := decide (intOf f a < intOf f b)

/-- The result elements of an operation on E elements, each rounded with its own draw (R126, R412). -/
def elemResults (f : Fmt) (t : Thread) (op : Rnd → Nat → FRes) : List FRes :=
  eachElem (RMode.select .dyn t.csr.fpctl) t.csr.rand false op (lanesOf f) 0

/-- The roundings of an element-wise FP operation. -/
def elemRounds (f : Fmt) : Nat := if f.vecFloat then lanesOf f else 0

/-- An instruction that writes a v register element by element; `n` counts its roundings. -/
def vectorOp (i : Instr) (f : Fmt) (vd : VReg) (n : Nat) (op : Thread → Rnd → Nat → FRes) (s : State) :
    Host.Outcome State Fault Refusal :=
  issue i s fun t t1 s =>
    let rs := elemResults f t (op t)
    .ok (setThread s s.cur
      (fixedWrites s (stepRand t1 .dyn n) [wrV vd (vec (fmtWidth f) (rs.map (·.bits)))] (allFlags rs)))

/-- An operation on the elements of two registers: FP with rounding, or integers modulo 2^w (R412). -/
def elemOp2 (f : Fmt) (fp : Fmt → Rnd → Nat → Nat → FRes) (int : Nat → Nat → Nat → Nat) (r : Rnd) (a b : Nat) :
    FRes :=
  if f.vecFloat then fp f r a b else ⟨int (fmtWidth f) a b % 2 ^ fmtWidth f, 0⟩

/-- Element `i` of VA and of VB. -/
def elemPair (f : Fmt) (t : Thread) (va vb : VReg) (i : Nat) : Nat × Nat :=
  (elem (fmtWidth f) (vval t va) i, elem (fmtWidth f) (vval t vb) i)

/-- The sum of two elements (R413). -/
def elemAdd (f : Fmt) (r : Rnd) (a b : Nat) : FRes := elemOp2 f fpAdd (fun _ a b => a + b) r a b

/-- The difference of two elements (R413). -/
def elemSub (f : Fmt) (r : Rnd) (a b : Nat) : FRes := elemOp2 f fpSub (fun w a b => a + (2 ^ w - b)) r a b

/-- The product of two elements (R413). -/
def elemMul (f : Fmt) (r : Rnd) (a b : Nat) : FRes := elemOp2 f fpMul (fun _ a b => a * b) r a b

/-- The smaller of two elements (R413). -/
def elemMin (f : Fmt) (r : Rnd) (a b : Nat) : FRes :=
  elemOp2 f (fun f _ a b => fpMinMax f false a b) (fun _ a b => if elemLess f b a then b else a) r a b

/-- The larger of two elements (R413). -/
def elemMax (f : Fmt) (r : Rnd) (a b : Nat) : FRes :=
  elemOp2 f (fun f _ a b => fpMinMax f true a b) (fun _ a b => if elemLess f a b then b else a) r a b

/-- VADD (R413). -/
def execVadd (d : Dep) (f : Fmt) (vd va vb : VReg) (s : State) : Host.Outcome State Fault Refusal :=
  vectorOp (.vadd d f vd va vb) f vd (elemRounds f)
    (fun t r i => elemAdd f r (elemPair f t va vb i).1 (elemPair f t va vb i).2) s

/-- VSUB (R413). -/
def execVsub (d : Dep) (f : Fmt) (vd va vb : VReg) (s : State) : Host.Outcome State Fault Refusal :=
  vectorOp (.vsub d f vd va vb) f vd (elemRounds f)
    (fun t r i => elemSub f r (elemPair f t va vb i).1 (elemPair f t va vb i).2) s

/-- VMUL (R413). -/
def execVmul (d : Dep) (f : Fmt) (vd va vb : VReg) (s : State) : Host.Outcome State Fault Refusal :=
  vectorOp (.vmul d f vd va vb) f vd (elemRounds f)
    (fun t r i => elemMul f r (elemPair f t va vb i).1 (elemPair f t va vb i).2) s

/-- VFMA: VD is the addend (R413). -/
def execVfma (d : Dep) (f : Fmt) (vd va vb : VReg) (s : State) : Host.Outcome State Fault Refusal :=
  vectorOp (.vfma d f vd va vb) f vd (elemRounds f)
    (fun t r i => fpFma f r (elemPair f t va vb i).1 (elemPair f t va vb i).2
      (elem (fmtWidth f) (vval t vd) i)) s

/-- VMIN (R413). -/
def execVmin (d : Dep) (f : Fmt) (vd va vb : VReg) (s : State) : Host.Outcome State Fault Refusal :=
  vectorOp (.vmin d f vd va vb) f vd 0
    (fun t r i => elemMin f r (elemPair f t va vb i).1 (elemPair f t va vb i).2) s

/-- VMAX (R413). -/
def execVmax (d : Dep) (f : Fmt) (vd va vb : VReg) (s : State) : Host.Outcome State Fault Refusal :=
  vectorOp (.vmax d f vd va vb) f vd 0
    (fun t r i => elemMax f r (elemPair f t va vb i).1 (elemPair f t va vb i).2) s

/-- VCMP: all ones where the condition holds (R415). -/
def execVcmp (d : Dep) (c : FCond) (f : Fmt) (vd va vb : VReg) (s : State) : Host.Outcome State Fault Refusal :=
  vectorOp (.vcmp d c f vd va vb) f vd 0 (fun t _ i => compareElem f c (elemPair f t va vb i).1 (elemPair f t va vb i).2) s
where
  /-- The mask of one pair of elements. -/
  compareElem (f : Fmt) (c : FCond) (a b : Nat) : FRes :=
    let r := if f.vecFloat then fpCompare f c a b else (intCompare f c a b, 0)
    ⟨if r.1 then 2 ^ fmtWidth f - 1 else 0, r.2⟩
  /-- The order of an I format is signed, that of an N format unsigned. -/
  intCompare (f : Fmt) (c : FCond) (a b : Nat) : Bool :=
    match c with
    | .eq => a = b
    | .ne => a ≠ b
    | .lt => elemLess f a b
    | .ge => !elemLess f a b
    | .le => !elemLess f b a
    | .gt => elemLess f b a
    | .uo | .ord => false

/-- The eight products of VDOT with the addend, rounded once by RNE (R142). -/
def dotFloat (f : Fmt) (a b : VWord) (c : Nat) : FRes :=
  let w := fmtWidth f
  let s0 := Sum.add Sum.start (numOf .fp32 c, nvIf (numOf .fp32 c).snan)
  let sum := (List.range 8).foldl
    (fun s i => Sum.add s (mulNum (numOf f (elem w a i)) (numOf f (elem w b i)))) s0
  let r := sum.result
  let v := roundNum .fp32 Rnd.rne r.1
  ⟨v.bits, v.flags ||| r.2⟩

/-- The integer dot product of I8 elements, modulo 2^32 (R142, R416). -/
def dotInt (a b : VWord) (c : Nat) : Nat :=
  wrapInt 32 ((List.range 8).foldl (fun s i => s + sintNat 8 (elem 8 a i) * sintNat 8 (elem 8 b i)) (c : Int))

/-- VDOT (R416). -/
def execVdot (d : Dep) (f : Fmt) (vd va vb : VReg) (s : State) : Host.Outcome State Fault Refusal :=
  issueVector (.vdot d f vd va vb) s fun t =>
    let c := elem 32 (vval t vd) 0
    if f = .i8 then ([wrV vd (BitVec.ofNat 128 (dotInt (vval t va) (vval t vb) c))], 0)
    else
      let r := dotFloat f (vval t va) (vval t vb) c
      ([wrV vd (BitVec.ofNat 128 r.bits)], r.flags)

/-- A reduction in ascending order, each step rounded with its own draw (R126, R420). -/
def reduceElems (mode : RMode) (step : Rnd → Nat → Nat → FRes) (rand : BitVec 32) (acc : FRes) :
    List Nat → FRes
  | [] => acc
  | e :: es =>
    let r := step ⟨mode, (randUse rand).toNat, false⟩ acc.bits e
    reduceElems mode step (randAfter mode 1 rand) ⟨r.bits, acc.flags ||| r.flags⟩ es

/-- A reduction of VA into element 0 of VD (R420). -/
def vectorReduce (i : Instr) (f : Fmt) (vd va : VReg) (n : Nat) (step : Rnd → Nat → Nat → FRes) (s : State) :
    Host.Outcome State Fault Refusal :=
  issue i s fun t t1 s =>
    let es := (List.range (lanesOf f)).map fun k => elem (fmtWidth f) (vval t va) k
    let r := reduceElems (RMode.select .dyn t.csr.fpctl) step t.csr.rand ⟨es.headD 0, 0⟩ es.tail
    .ok (setThread s s.cur (fixedWrites s (stepRand t1 .dyn n) [wrV vd (BitVec.ofNat 128 r.bits)] r.flags))

/-- VRED.ADD (R420). -/
def execVredAdd (d : Dep) (f : Fmt) (vd va : VReg) (s : State) : Host.Outcome State Fault Refusal :=
  vectorReduce (.vredAdd d f vd va) f vd va (if f.vecFloat then lanesOf f - 1 else 0) (elemAdd f) s

/-- VRED.MIN (R420). -/
def execVredMin (d : Dep) (f : Fmt) (vd va : VReg) (s : State) : Host.Outcome State Fault Refusal :=
  vectorReduce (.vredMin d f vd va) f vd va 0 (elemMin f) s

/-- VRED.MAX (R420). -/
def execVredMax (d : Dep) (f : Fmt) (vd va : VReg) (s : State) : Host.Outcome State Fault Refusal :=
  vectorReduce (.vredMax d f vd va) f vd va 0 (elemMax f) s

/-- A v register from its elements by index. -/
def vecOf (w : Nat) (f : Nat → Nat) : VWord := vec w ((List.range (128 / w)).map f)

/-- VSHUF (R422). -/
def execVshuf (d : Dep) (f : Fmt) (vd va vb : VReg) (s : State) : Host.Outcome State Fault Refusal :=
  issueVector (.vshuf d f vd va vb) s fun t =>
    let w := fmtWidth f
    ([wrV vd (vecOf w fun i => elem w (vval t va) (elem w (vval t vb) i % lanesOf f))], 0)

/-- VSEL (R421). -/
def execVsel (d : Dep) (f : Fmt) (vd va vb : VReg) (s : State) : Host.Outcome State Fault Refusal :=
  issueVector (.vsel d f vd va vb) s fun t =>
    let w := fmtWidth f
    ([wrV vd (vecOf w fun i =>
      if elem w (vval t vd) i ≠ 0 then elem w (vval t va) i else elem w (vval t vb) i)], 0)

/-- VBCAST (R414). -/
def execVbcast (d : Dep) (size : Size) (vd : VReg) (ra : Opr) (s : State) : Host.Outcome State Fault Refusal :=
  issueVector (.vbcast d size vd ra) s fun t =>
    ([wrV vd (vecOf (8 * sizeBytes size) fun _ => (oval t ra).toNat)], 0)

/-- VINS (R414). -/
def execVins (d : Dep) (size : Size) (lane : BitVec 4) (vd : VReg) (ra : Opr) (s : State) :
    Host.Outcome State Fault Refusal :=
  issueVector (.vins d size lane vd ra) s fun t =>
    let w := 8 * sizeBytes size
    ([wrV vd (vecOf w fun i => if i = lane.toNat then (oval t ra).toNat else elem w (vval t vd) i)], 0)

/-- VEXT (R414). -/
def execVext (d : Dep) (size : Size) (lane : BitVec 4) (rd : Opr) (va : VReg) (s : State) :
    Host.Outcome State Fault Refusal :=
  issueClear (.vext d size lane rd va) s rd fun t =>
    (BitVec.ofNat 64 (elem (8 * sizeBytes size) (vval t va) lane.toNat), 0)

end Sys2Proof.Machine
end

