-- ==== Sys2Proof/Machine/Dispatch.lean ====
section
/-! DEFINITION. What each instruction does: one arm for each constructor. -/

namespace Sys2Proof.Machine

def exec (i : Instr) (s : State) : Host.Outcome State Fault Refusal :=
  match i with
  | .nop b => Sys2Proof.Machine.execNop b s
  | .br d disp idx => Sys2Proof.Machine.execBr d disp idx s
  | .call d disp idx => Sys2Proof.Machine.execCall d disp idx s
  | .callr d r => Sys2Proof.Machine.execCallr d r s
  | .jr d r => Sys2Proof.Machine.execJr d r s
  | .ret b => Sys2Proof.Machine.execRet b s
  | .trap d r => Sys2Proof.Machine.execTrap d r s
  | .eret b => Sys2Proof.Machine.execEret b s
  | .reth b => Sys2Proof.Machine.execReth b s
  | .yield b => Sys2Proof.Machine.execYield b s
  | .pfi d disp => Sys2Proof.Machine.execPfi d disp s
  | .halt b => Sys2Proof.Machine.execHalt b s
  | .exit b => Sys2Proof.Machine.execExit b s
  | .csrr d csr rd => Sys2Proof.Machine.execCsrr d csr rd s
  | .csrw d csr r => Sys2Proof.Machine.execCsrw d csr r s
  | .repart d rd p => Sys2Proof.Machine.execRepart d rd p s
  | .spill d rd ra => Sys2Proof.Machine.execSpill d rd ra s
  | .rstr d rd ra => Sys2Proof.Machine.execRstr d rd ra s
  | .xrd d rd ra => Sys2Proof.Machine.execXrd d rd ra s
  | .xwr d ra rb => Sys2Proof.Machine.execXwr d ra rb s
  | .xres d r => Sys2Proof.Machine.execXres d r s
  | .tlbi d ra rb kind => Sys2Proof.Machine.execTlbi d ra rb kind s
  | .keyret d rd ra => Sys2Proof.Machine.execKeyret d rd ra s
  | .keyretComplete idx => Sys2Proof.Machine.execKeyretComplete idx s
  | .add d wd rd ra rb => Sys2Proof.Machine.execAdd d wd rd ra rb s
  | .sub d wd rd ra rb => Sys2Proof.Machine.execSub d wd rd ra rb s
  | .mul d wd rd ra rb => Sys2Proof.Machine.execMul d wd rd ra rb s
  | .mulh d wd rd ra rb => Sys2Proof.Machine.execMulh d wd rd ra rb s
  | .mulhn d wd rd ra rb => Sys2Proof.Machine.execMulhn d wd rd ra rb s
  | .div d wd rd ra rb => Sys2Proof.Machine.execDiv d wd rd ra rb s
  | .divn d wd rd ra rb => Sys2Proof.Machine.execDivn d wd rd ra rb s
  | .rem d wd rd ra rb => Sys2Proof.Machine.execRem d wd rd ra rb s
  | .remn d wd rd ra rb => Sys2Proof.Machine.execRemn d wd rd ra rb s
  | .and d wd rd ra rb => Sys2Proof.Machine.execAnd d wd rd ra rb s
  | .andn d wd rd ra rb => Sys2Proof.Machine.execAndn d wd rd ra rb s
  | .or d wd rd ra rb => Sys2Proof.Machine.execOr d wd rd ra rb s
  | .xor d wd rd ra rb => Sys2Proof.Machine.execXor d wd rd ra rb s
  | .shl d wd rd ra rb => Sys2Proof.Machine.execShl d wd rd ra rb s
  | .shr d wd rd ra rb => Sys2Proof.Machine.execShr d wd rd ra rb s
  | .sra d wd rd ra rb => Sys2Proof.Machine.execSra d wd rd ra rb s
  | .rot d wd rd ra rb => Sys2Proof.Machine.execRot d wd rd ra rb s
  | .min d wd rd ra rb => Sys2Proof.Machine.execMin d wd rd ra rb s
  | .minn d wd rd ra rb => Sys2Proof.Machine.execMinn d wd rd ra rb s
  | .max d wd rd ra rb => Sys2Proof.Machine.execMax d wd rd ra rb s
  | .maxn d wd rd ra rb => Sys2Proof.Machine.execMaxn d wd rd ra rb s
  | .clz d wd rd ra => Sys2Proof.Machine.execClz d wd rd ra s
  | .ctz d wd rd ra => Sys2Proof.Machine.execCtz d wd rd ra s
  | .popc d wd rd ra => Sys2Proof.Machine.execPopc d wd rd ra s
  | .bfx d wd rd ra pos len => Sys2Proof.Machine.execBfx d wd rd ra pos len s
  | .bfxR d wd rd ra rb rc => Sys2Proof.Machine.execBfxR d wd rd ra rb rc s
  | .bfi d wd rd ra pos len => Sys2Proof.Machine.execBfi d wd rd ra pos len s
  | .bfiR d wd rd ra rb rc => Sys2Proof.Machine.execBfiR d wd rd ra rb rc s
  | .sel d rd ra rb rc => Sys2Proof.Machine.execSel d rd ra rb rc s
  | .addiFrri d wd rd ra imm => Sys2Proof.Machine.execAddiFrri d wd rd ra imm s
  | .addiFi32 d wd rd ra imm => Sys2Proof.Machine.execAddiFi32 d wd rd ra imm s
  | .andiFrri d wd rd ra imm => Sys2Proof.Machine.execAndiFrri d wd rd ra imm s
  | .andiFi32 d wd rd ra imm => Sys2Proof.Machine.execAndiFi32 d wd rd ra imm s
  | .oriFrri d wd rd ra imm => Sys2Proof.Machine.execOriFrri d wd rd ra imm s
  | .oriFi32 d wd rd ra imm => Sys2Proof.Machine.execOriFi32 d wd rd ra imm s
  | .xoriFrri d wd rd ra imm => Sys2Proof.Machine.execXoriFrri d wd rd ra imm s
  | .xoriFi32 d wd rd ra imm => Sys2Proof.Machine.execXoriFi32 d wd rd ra imm s
  | .shli d wd rd ra n => Sys2Proof.Machine.execShli d wd rd ra n s
  | .shri d wd rd ra n => Sys2Proof.Machine.execShri d wd rd ra n s
  | .srai d wd rd ra n => Sys2Proof.Machine.execSrai d wd rd ra n s
  | .li d rd imm => Sys2Proof.Machine.execLi d rd imm s
  | .liH d rd imm => Sys2Proof.Machine.execLiH d rd imm s
  | .lea d rd ra sh imm => Sys2Proof.Machine.execLea d rd ra sh imm s
  | .leaPc d rd imm => Sys2Proof.Machine.execLeaPc d rd imm s
  | .mov d rd ra => Sys2Proof.Machine.execMov d rd ra s
  | .cmp d wd c skip rdx ra rb => Sys2Proof.Machine.execCmp d wd c skip rdx ra rb s
  | .cmpi d wd c skip rd ra imm => Sys2Proof.Machine.execCmpi d wd c skip rd ra imm s
  | .fcmp d f c skip rdx ra rb => Sys2Proof.Machine.execFcmp d f c skip rdx ra rb s
  | .annulPass l => Sys2Proof.Machine.execAnnulPass l s
  | .fadd d f rm rd ra rb => Sys2Proof.Machine.execFadd d f rm rd ra rb s
  | .fsub d f rm rd ra rb => Sys2Proof.Machine.execFsub d f rm rd ra rb s
  | .fmul d f rm rd ra rb => Sys2Proof.Machine.execFmul d f rm rd ra rb s
  | .ffma d f rm rd ra rb rc => Sys2Proof.Machine.execFfma d f rm rd ra rb rc s
  | .ffmai d f rm rd ra imm => Sys2Proof.Machine.execFfmai d f rm rd ra imm s
  | .fdiv d f rm rd ra rb => Sys2Proof.Machine.execFdiv d f rm rd ra rb s
  | .fsqrt d f rm rd ra => Sys2Proof.Machine.execFsqrt d f rm rd ra s
  | .fmin d f rd ra rb => Sys2Proof.Machine.execFmin d f rd ra rb s
  | .fmax d f rd ra rb => Sys2Proof.Machine.execFmax d f rd ra rb s
  | .fsgn d f k rd ra rb => Sys2Proof.Machine.execFsgn d f k rd ra rb s
  | .exp2 d rd ra => Sys2Proof.Machine.execExp2 d rd ra s
  | .log2 d rd ra => Sys2Proof.Machine.execLog2 d rd ra s
  | .rcp d rd ra => Sys2Proof.Machine.execRcp d rd ra s
  | .rsq d rd ra => Sys2Proof.Machine.execRsq d rd ra s
  | .tanh d rd ra => Sys2Proof.Machine.execTanh d rd ra s
  | .cvt d rm sat sf tf rd ra => Sys2Proof.Machine.execCvt d rm sat sf tf rd ra s
  | .cvtV d rm sat sf tf rd ra => Sys2Proof.Machine.execCvtV d rm sat sf tf rd ra s
  | .vqnt d f rd ra rb => Sys2Proof.Machine.execVqnt d f rd ra rb s
  | .vdq d f rd ra rb => Sys2Proof.Machine.execVdq d f rd ra rb s
  | .vadd d f vd va vb => Sys2Proof.Machine.execVadd d f vd va vb s
  | .vsub d f vd va vb => Sys2Proof.Machine.execVsub d f vd va vb s
  | .vmul d f vd va vb => Sys2Proof.Machine.execVmul d f vd va vb s
  | .vfma d f vd va vb => Sys2Proof.Machine.execVfma d f vd va vb s
  | .vmin d f vd va vb => Sys2Proof.Machine.execVmin d f vd va vb s
  | .vmax d f vd va vb => Sys2Proof.Machine.execVmax d f vd va vb s
  | .vdot d f vd va vb => Sys2Proof.Machine.execVdot d f vd va vb s
  | .vredAdd d f vd va => Sys2Proof.Machine.execVredAdd d f vd va s
  | .vredMin d f vd va => Sys2Proof.Machine.execVredMin d f vd va s
  | .vredMax d f vd va => Sys2Proof.Machine.execVredMax d f vd va s
  | .vshuf d f vd va vb => Sys2Proof.Machine.execVshuf d f vd va vb s
  | .vbcast d size vd ra => Sys2Proof.Machine.execVbcast d size vd ra s
  | .vsel d f vd va vb => Sys2Proof.Machine.execVsel d f vd va vb s
  | .vins d size lane vd ra => Sys2Proof.Machine.execVins d size lane vd ra s
  | .vext d size lane rd va => Sys2Proof.Machine.execVext d size lane rd va s
  | .vcmp d c f vd va vb => Sys2Proof.Machine.execVcmp d c f vd va vb s
  | .vld d vd a => Sys2Proof.Machine.execVld d vd a s
  | .vst d vd a => Sys2Proof.Machine.execVst d vd a s
  | .ld d m size rd a => Sys2Proof.Machine.execLd d m size rd a s
  | .ldS d m size rd a => Sys2Proof.Machine.execLdS d m size rd a s
  | .st d m size rd a => Sys2Proof.Machine.execSt d m size rd a s
  | .ldc d size rd a => Sys2Proof.Machine.execLdc d size rd a s
  | .lds d rd a => Sys2Proof.Machine.execLds d rd a s
  | .unsub d r => Sys2Proof.Machine.execUnsub d r s
  | .take d rd ra => Sys2Proof.Machine.execTake d rd ra s
  | .takeS d rd ra rb => Sys2Proof.Machine.execTakeS d rd ra rb s
  | .pfd d a => Sys2Proof.Machine.execPfd d a s
  | .smap d rd ra rb rc => Sys2Proof.Machine.execSmap d rd ra rb rc s
  | .sunmap d rd ra => Sys2Proof.Machine.execSunmap d rd ra s
  | .wb d scope ra rb => Sys2Proof.Machine.execWb d scope ra rb s
  | .inv d scope ra rb => Sys2Proof.Machine.execInv d scope ra rb s
  | .wbi d scope ra rb => Sys2Proof.Machine.execWbi d scope ra rb s
  | .cvta d rd ra => Sys2Proof.Machine.execCvta d rd ra s
  | .amoAdd d a rd ra rb => Sys2Proof.Machine.execAmoAdd d a rd ra rb s
  | .amoAnd d a rd ra rb => Sys2Proof.Machine.execAmoAnd d a rd ra rb s
  | .amoOr d a rd ra rb => Sys2Proof.Machine.execAmoOr d a rd ra rb s
  | .amoXor d a rd ra rb => Sys2Proof.Machine.execAmoXor d a rd ra rb s
  | .amoMin d a rd ra rb => Sys2Proof.Machine.execAmoMin d a rd ra rb s
  | .amoMinn d a rd ra rb => Sys2Proof.Machine.execAmoMinn d a rd ra rb s
  | .amoMax d a rd ra rb => Sys2Proof.Machine.execAmoMax d a rd ra rb s
  | .amoMaxn d a rd ra rb => Sys2Proof.Machine.execAmoMaxn d a rd ra rb s
  | .amoSwap d a rd ra rb => Sys2Proof.Machine.execAmoSwap d a rd ra rb s
  | .amoFadd d a rd ra rb => Sys2Proof.Machine.execAmoFadd d a rd ra rb s
  | .cas d a rd ra rb rc => Sys2Proof.Machine.execCas d a rd ra rb rc s
  | .fence d kind scope => Sys2Proof.Machine.execFence d kind scope s
  | .copy d rd ra => Sys2Proof.Machine.execCopy d rd ra s
  | .copyNb d rd ra => Sys2Proof.Machine.execCopyNb d rd ra s
  | .copyq d rd ra q => Sys2Proof.Machine.execCopyq d rd ra q s
  | .copyElementApply id => Sys2Proof.Machine.execCopyElementApply id s
  | .copyCompletion id => Sys2Proof.Machine.execCopyCompletion id s
  | .qbind d q ra => Sys2Proof.Machine.execQbind d q ra s
  | .qend d q ra => Sys2Proof.Machine.execQend d q ra s
  | .qstat d rd q => Sys2Proof.Machine.execQstat d rd q s
  | .portWordArrival src => Sys2Proof.Machine.execPortWordArrival src s
  | .portReplay src => Sys2Proof.Machine.execPortReplay src s
  | .bar d b => Sys2Proof.Machine.execBar d b s
  | .groupForm clu gang lnch point => Sys2Proof.Machine.execGroupForm clu gang lnch point s
  | .convene d rd p n1 => Sys2Proof.Machine.execConvene d rd p n1 s
  | .disband b => Sys2Proof.Machine.execDisband b s
  | .groupDissolve clu gid => Sys2Proof.Machine.execGroupDissolve clu gid s
  | .spawn d rd ra rb => Sys2Proof.Machine.execSpawn d rd ra rb s
  | .spawnL d rd ra rb => Sys2Proof.Machine.execSpawnL d rd ra rb s
  | .waitf d r => Sys2Proof.Machine.execWaitf d r s
  | .waitfPark d r => Sys2Proof.Machine.execWaitfPark d r s
  | .sig d add ra rb => Sys2Proof.Machine.execSig d add ra rb s
  | .tq d rd ra => Sys2Proof.Machine.execTq d rd ra s
  | .migh b => Sys2Proof.Machine.execMigh b s
  | .migrationAccept id => Sys2Proof.Machine.execMigrationAccept id s
  | .migrationReplay id => Sys2Proof.Machine.execMigrationReplay id s
  | .completionForward id => Sys2Proof.Machine.execCompletionForward id s
  | .tclaim d ta => Sys2Proof.Machine.execTclaim d ta s
  | .trel d ta => Sys2Proof.Machine.execTrel d ta s
  | .tld d ta ra rb => Sys2Proof.Machine.execTld d ta ra rb s
  | .tldR d ta ra rb => Sys2Proof.Machine.execTldR d ta ra rb s
  | .tldPx d ta ra rb => Sys2Proof.Machine.execTldPx d ta ra rb s
  | .tst d ta ra rb => Sys2Proof.Machine.execTst d ta ra rb s
  | .fmtctx d ra => Sys2Proof.Machine.execFmtctx d ra s
  | .mma d sh ra ta tb tc zero => Sys2Proof.Machine.execMma d sh ra ta tb tc zero s
  | .acfg d hash ra rb => Sys2Proof.Machine.execAcfg d hash ra rb s
  | .aclr d => Sys2Proof.Machine.execAclr d s
  | .drain d ra => Sys2Proof.Machine.execDrain d ra s
  | .drainT d ra => Sys2Proof.Machine.execDrainT d ra s
  | .drainV d vf ra => Sys2Proof.Machine.execDrainV d vf ra s
  | .astat d ra => Sys2Proof.Machine.execAstat d ra s
  | .join d ra rb => Sys2Proof.Machine.execJoin d ra rb s
  | .ains d ra rb => Sys2Proof.Machine.execAins d ra rb s
  | .cmpk d f rd ra rb rc => Sys2Proof.Machine.execCmpk d f rd ra rb rc s
  | .expd d f rd ra rb rc => Sys2Proof.Machine.execExpd d f rd ra rb rc s
  | .collectiveComplete clu => Sys2Proof.Machine.execCollectiveComplete clu s
  | .brackenRecheck clu => Sys2Proof.Machine.execBrackenRecheck clu s
  | .resultLanding l id => Sys2Proof.Machine.execResultLanding l id s
  | .tokenCompletion id => Sys2Proof.Machine.execTokenCompletion id s
  | .trapDelivery l => Sys2Proof.Machine.execTrapDelivery l s
  | .haltAlone l => Sys2Proof.Machine.execHaltAlone l s
  | .faultMessageEnter clu => Sys2Proof.Machine.execFaultMessageEnter clu s
  | .lightInterruptDelivery l => Sys2Proof.Machine.execLightInterruptDelivery l s
  | .lineFetch l => Sys2Proof.Machine.execLineFetch l s
  | .pageWalk l va => Sys2Proof.Machine.execPageWalk l va s
  | .sliceExpiry l => Sys2Proof.Machine.execSliceExpiry l s
  | .heathSave l => Sys2Proof.Machine.execHeathSave l s
  | .heathRestore clu off => Sys2Proof.Machine.execHeathRestore clu off s
  | .subscribeRequest id => Sys2Proof.Machine.execSubscribeRequest id s
  | .subscribeAnswer id => Sys2Proof.Machine.execSubscribeAnswer id s
  | .pushArrival id => Sys2Proof.Machine.execPushArrival id s
  | .unsubscribeRequest id => Sys2Proof.Machine.execUnsubscribeRequest id s
  | .finalMarker id => Sys2Proof.Machine.execFinalMarker id s
  | .spontaneousWriteback clu key line => Sys2Proof.Machine.execSpontaneousWriteback clu key line s
  | .spontaneousDrop clu key line => Sys2Proof.Machine.execSpontaneousDrop clu key line s
  | .pageMove src dst size => Sys2Proof.Machine.execPageMove src dst size s
  | .redirectReplay l id => Sys2Proof.Machine.execRedirectReplay l id s
  | .collapse id => Sys2Proof.Machine.execCollapse id s
  | .hostTakeHalf half => Sys2Proof.Machine.execHostTakeHalf half s
  | .hostReleaseHalf half data => Sys2Proof.Machine.execHostReleaseHalf half data s
  | .hostRecall half data => Sys2Proof.Machine.execHostRecall half data s
  | .hostBar2Access write off n data => Sys2Proof.Machine.execHostBar2Access write off n data s
  | .hostCxlMemAccess write hpa n data => Sys2Proof.Machine.execHostCxlMemAccess write hpa n data s
  | .hostkeyWrite v => Sys2Proof.Machine.execHostkeyWrite v s
  | .doorbellWrite q v => Sys2Proof.Machine.execDoorbellWrite q v s
  | .qcfgWrite q v => Sys2Proof.Machine.execQcfgWrite q v s
  | .launchStart id => Sys2Proof.Machine.execLaunchStart id s
  | .waitRecheck id => Sys2Proof.Machine.execWaitRecheck id s
  | .packetCompletion id => Sys2Proof.Machine.execPacketCompletion id s
  | .queueHoldRetry q => Sys2Proof.Machine.execQueueHoldRetry q s
  | .holdlimExpiry q => Sys2Proof.Machine.execHoldlimExpiry q s
  | .launchEnginePlace die => Sys2Proof.Machine.execLaunchEnginePlace die s
  | .launchSteal die => Sys2Proof.Machine.execLaunchSteal die s
  | .taskRecordArrival die => Sys2Proof.Machine.execTaskRecordArrival die s
  | .taskRecordReplay die => Sys2Proof.Machine.execTaskRecordReplay die s
  | .dispatchTaskRecord clu core => Sys2Proof.Machine.execDispatchTaskRecord clu core s
  | .abortLaunch lnch => Sys2Proof.Machine.execAbortLaunch lnch s
  | .fmodeWrite v => Sys2Proof.Machine.execFmodeWrite v s
  | .hmrdbWrite v => Sys2Proof.Machine.execHmrdbWrite v s
  | .mailboxEntry f data => Sys2Proof.Machine.execMailboxEntry f data s
  | .pwrlimWrite v => Sys2Proof.Machine.execPwrlimWrite v s
  | .clockChange mhz => Sys2Proof.Machine.execClockChange mhz s
  | .thermalThrottle temp => Sys2Proof.Machine.execThermalThrottle temp s
  | .thermalFatal temp => Sys2Proof.Machine.execThermalFatal temp s
  | .correctedError unit die clu addr syn => Sys2Proof.Machine.execCorrectedError unit die clu addr syn s
  | .uncorrectableError unit die clu addr syn => Sys2Proof.Machine.execUncorrectableError unit die clu addr syn s
  | .packageLoss pkg => Sys2Proof.Machine.execPackageLoss pkg s
  | .linkStateChange port state peer => Sys2Proof.Machine.execLinkStateChange port state peer s
  | .boot pkgnum => Sys2Proof.Machine.execBoot pkgnum s
  | .registerWrite off v => Sys2Proof.Machine.execRegisterWrite off v s
  | .accessAction l id => Sys2Proof.Machine.execAccessAction l id s
  | .fixedResultWrite l => Sys2Proof.Machine.execFixedResultWrite l s
  | .cxlCacheHostRecall half => Sys2Proof.Machine.execCxlCacheHostRecall half s
  | .rtresSet clu n => Sys2Proof.Machine.execRtresSet clu n s
  | .supervisorResume clu => Sys2Proof.Machine.execSupervisorResume clu s
  | .arbitrationGrant => Sys2Proof.Machine.execArbitrationGrant s
  | .packetLaunch => Sys2Proof.Machine.execPacketLaunch s
  | .packetWait => Sys2Proof.Machine.execPacketWait s
  | .packetSignal => Sys2Proof.Machine.execPacketSignal s
  | .packetCopy => Sys2Proof.Machine.execPacketCopy s
  | .packetMarker => Sys2Proof.Machine.execPacketMarker s
  | .packetIndirect => Sys2Proof.Machine.execPacketIndirect s
  | .attest => Sys2Proof.Machine.execAttest s
  | .loadkey => Sys2Proof.Machine.execLoadkey s
  | .clearkey => Sys2Proof.Machine.execClearkey s
  | .hbmScrub => Sys2Proof.Machine.execHbmScrub s
  | .deviceReset => Sys2Proof.Machine.execDeviceReset s
  | .rotationPointerMove => Sys2Proof.Machine.execRotationPointerMove s

end Sys2Proof.Machine
end

