-- ==== Sys2Proof/Machine/Step.lean ====
section
/-! DEFINITION. The step of the machine: what comes next, and its execution; and the placing of one
instruction where the next step fetches it. -/

namespace Sys2Proof.Machine

/-- The first thread with a fixed-latency result that is due at the end of the cycle (R59). -/
def dueResult (s : State) : Option Loc :=
  (s.threads.find? fun e => match e.2.pipe.fixed with
    | f :: _ => decide (f.due ≤ s.cycle + 1)
    | [] => false).map fun e => Loc.ofKey e.1

/-- What the thread at a location does when its turn to issue comes: its next instruction, or the event
    that stands in the place of one, with the N of the line. -/
def turnOf (s : State) (l : Loc) : Instr × Nat :=
  match thread? s l with
  | none => (.lineFetch l, 1)
  | some t =>
    match nextOf s l t with
    | .fetch | .poison => (.lineFetch l, 1)
    | .target | .illegal .. => (.haltAlone l, 1)
    | .annul _ n => (.annulPass l, n)
    | .run i _ n => (i, n)

/-- What happens next: the next thread of the groups formed in this cycle; a fixed-latency result that is due at its
    end; the next event of this cycle, a deposit among them, which comes after those results (R104); or the move to the
    next cycle. -/
def step (s : State) : Host.Outcome State Fault Refusal :=
  match s.issueQ with
  | (lead, l) :: rest =>
    exec (turnOf s l).1 { s with issueQ := rest, cur := l, curN := (turnOf s l).2, grpAcc := if lead then [] else s.grpAcc }
  | [] =>
    match dueResult s with
    | some l => exec (.fixedResultWrite l) s
    | none =>
      match s.agenda with
      | i :: rest => exec i { s with agenda := rest }
      | [] => exec .rotationPointerMove s

/-- The slot of the thread that runs a placed instruction. -/
def probeLoc : Loc := ⟨0, 0, 1⟩

/-- The one member of a gang of one, at address 0 (log 8). -/
def probeThread (uid : Nat) : Thread :=
  Thread.start uid probeLoc 0 0 (Csrs.start 0 1 0 0 false 2 0 0 0 0)

/-- The record of that gang. -/
def probeGang : GangRec where
  gang := 0
  lnch := 0
  g := 1
  privbase := 0
  plog := 0
  prog := 0
  ngang := 1
  ptbase := 0
  keyid := 0
  slots := [probeLoc]
  visited := []
  ended := false

/-- The translation of the page of that thread's code and data. -/
def probePage : TlbEntry where
  asid := 0
  va := 0
  size := 65536
  pa := 0
  user := true
  x := true
  w := true
  r := true
  repl := false
  pte := 0
  key := 0

/-- The state with an instruction where the next step fetches it: a running package, in it one thread of
    a gang of one in slot 1 of core 0 of cluster 0, whose turn to issue is next, its page translated, and
    the instruction alone in the code line at its PC, in memory and in the instruction cache. -/
def State.withFetchWord (s : State) (nbits w : Nat) : State :=
  let line := singleLine (w % 2 ^ nbits)
  let c := cluster s 0
  let k := coreOf s 0
  { s with
    threads := mset s.threads probeLoc.key (probeThread s.nextUid)
    nextUid := s.nextUid + 1
    clusters := mset s.clusters 0 { c with tlb := [probePage], gangs := [probeGang] }
    cores := mset s.cores 0 { k with icache := mset k.icache (vkey 0 0) ⟨line, false⟩ }
    store := { s.store with
      home := (atAddr 0 line).foldl (fun m e => mset m e.1 e.2) s.store.home
      homeKey := (atAddr 0 line).foldl (fun m e => mset m e.1 0) s.store.homeKey }
    ctl := { s.ctl with bar := { s.ctl.bar with bootstat := 1 } }
    issueQ := [(true, probeLoc)]
    agenda := [] }

end Sys2Proof.Machine
end

