-- ==== Sys2Proof/Safety.lean ====
section
/-! DEFINITION. What a safe run is, and the words that the claims about the machine use: when an instruction
issues, what its issue leaves, and what memory holds. -/

namespace Sys2Proof.Machine

/-- A step goes on: it neither faults nor refuses. -/
def State.goesOn (s : State) : Prop := ∃ t, step s = .next t

/-! Issue. -/

/-- The instruction issues for the thread whose turn it is, which is `t`: every wait of R27 is met, no
    register is absent or poisoned, the level and the slot may run it, its bindings are good, and it pops no
    control value while QHND is set (R27, R42, R47, R49, R111, R114, R266, R303). -/
def Issues (s : State) (t : Thread) (i : Instr) : Prop :=
  thread? s s.cur = some t ∧ canIssue s s.cur t i = true ∧ entryTrap s s.cur t i = none ∧ ctlPop t (usesOf i) = none

/-- The state once the acquires of the popped words have been issued (R190). -/
def afterPops (s : State) (t : Thread) (i : Instr) : State := (popAcquires s t (usesOf i).pops).1

/-- The thread as its issue leaves it, before the effect of the instruction: PC, tags, history, popped ports
    (R60 to R66, R70). -/
def issuedThread (s : State) (t : Thread) (i : Instr) : Thread :=
  charge (afterPops s t i) (popAcquires s t (usesOf i).pops).2 i

/-- The state in which an instruction without further effect leaves the machine. -/
def issuedState (s : State) (t : Thread) (i : Instr) : State := setThread (afterPops s t i) s.cur (issuedThread s t i)

/-- A result of Fixed kind is under way to its register, or sent through its port; its taint is that of the
    registers read (R59, R183, R266). -/
def fixedDone (s : State) (t : Thread) (i : Instr) (rd : Opr) (v : Word) (f : Flags) : State :=
  fixedResult (afterPops s t i) (issuedThread s t i) rd v (readTaint t.regs (usesOf i)) f

/-- The same for a result without taint (R183, R345, R370, R414). -/
def clearDone (s : State) (t : Thread) (i : Instr) (rd : Opr) (v : Word) : State :=
  fixedResult (afterPops s t i) (issuedThread s t i) rd v false 0

/-- Results of Variable kind are known and will land under the tag SA (R59, R63). -/
def variableDone (s : State) (t : Thread) (i : Instr) (ws : List Wr) (f : Flags) : State :=
  variableResult (afterPops s t i) (issuedThread s t i) i.dep.sa ws f

/-- Writes of v registers of Fixed kind are under way. -/
def vectorDone (s : State) (t : Thread) (i : Instr) (ws : List Wr) (f : Flags) : State :=
  setThread (afterPops s t i) s.cur (fixedWrites (afterPops s t i) (issuedThread s t i) ws f)

/-- An operation on words of the width of a form: 64 bits, or the low 32 with the result zero-extended. -/
def atWidth (wd : Wid) (f : (w : Nat) → BitVec w → BitVec w → BitVec w) (a b : Word) : Word :=
  match wd with
  | .d => f 64 a b
  | .w => (f 32 (a.setWidth 32) (b.setWidth 32)).setWidth 64

/-- The same for an operation on one word. -/
def atWidth1 (wd : Wid) (f : (w : Nat) → BitVec w → BitVec w) (a : Word) : Word := atWidth wd (fun w a _ => f w a) a a

/-- Bits [h−1:p] of a word of `w` bits, with h the smaller of p + n and w (R337). -/
def fieldMask (w p n : Nat) : BitVec w := (BitVec.allOnes w >>> (w - (min (p + n) w - p))) <<< p

/-- Whenever the instruction issues, its Fixed-kind result is the value stated, with no flag: it is under way
    to its register, or sent through its port, and nothing else happens but the issue. -/
def Computes (i : Instr) (rd : Opr) (v : Thread → Word) : Prop :=
  ∀ s t, Issues s t i → exec i s = .next (fixedDone s t i rd (v t) 0)

/-- The same with flags. -/
def ComputesFlagged (i : Instr) (rd : Opr) (r : Thread → Word × Flags) : Prop :=
  ∀ s t, Issues s t i → exec i s = .next (fixedDone s t i rd (r t).1 (r t).2)

/-- The same for a result that clears taint. -/
def ComputesClear (i : Instr) (rd : Opr) (v : Thread → Word) : Prop :=
  ∀ s t, Issues s t i → exec i s = .next (clearDone s t i rd (v t))

/-- Whenever the instruction issues, its results of Variable kind are the writes stated, and will land. -/
def ComputesLater (i : Instr) (ws : Thread → List Wr) : Prop :=
  ∀ s t, Issues s t i → exec i s = .next (variableDone s t i (ws t) 0)

/-- Whenever the instruction issues, the v register it names gets the value stated. -/
def ComputesVector (i : Instr) (vd : VReg) (v : Thread → VWord) : Prop :=
  ∀ s t, Issues s t i → exec i s = .next (vectorDone s t i [wrV vd (v t)] 0)

/-- The state after a compare: 1 or 0 is under way to RD, and a false condition annuls the next instructions
    (R38, R341). -/
def compareDone (s : State) (t : Thread) (i : Instr) (rd : BitVec 4) (skip : BitVec 2) (c : Bool) (f : Flags) : State :=
  let t1 := issuedThread s t i
  fixedResult (afterPops s t i) { t1 with pipe := { t1.pipe with annul := if c then 0 else skip.toNat } }
    (.x (rd.setWidth 6)) (if c then 1 else 0) (readTaint t.regs (usesOf i)) f

/-- The conditions of CMP and CMPI on words of `w` bits (R78). -/
def condOn {w : Nat} (c : Cond) (a b : BitVec w) : Bool :=
  match c with
  | .eq => a == b
  | .ne => a != b
  | .lt => a.slt b
  | .ge => b.sle a
  | .ltu => a.ult b
  | .geu => b.ule a
  | .le => a.sle b
  | .gt => b.slt a
  | .leu => a.ule b
  | .gtu => b.ult a
  | .bs => (a &&& b) != 0
  | .bc => (a &&& b) == 0

/-- A condition at the width of a form. -/
def condAt (wd : Wid) (c : Cond) (a b : Word) : Bool :=
  match wd with
  | .d => condOn c a b
  | .w => condOn c (a.setWidth 32) (b.setWidth 32)

/-- The conditions of FCMP and VCMP on what two numbers are: in order, equal or out of order, or none of these
    when one is a NaN (R78). -/
def fcondOn (c : FCond) : Option Ordering → Bool
  | none => c == .ne || c == .uo
  | some o =>
    match c with
    | .eq => o == .eq
    | .ne => o != .eq
    | .lt => o == .lt
    | .ge => o != .lt
    | .le => o != .gt
    | .gt => o == .gt
    | .uo => false
    | .ord => true

/-- Bits of the operands of an FP width. -/
def fwBits : FWid → Nat
  | .f32 => 32
  | .f64 => 64

/-- The magnitude bits of an infinity, and the bit that makes a NaN quiet (R119). -/
def fwInf : FWid → Nat × Nat
  | .f32 => (0x7F80_0000, 2 ^ 22)
  | .f64 => (0x7FF0_0000_0000_0000, 2 ^ 51)

/-- The magnitude bits of an operand. -/
def fwMag (f : FWid) (v : Word) : Nat := v.toNat % 2 ^ (fwBits f - 1)

/-- The sign bit of an operand. -/
def fwNeg (f : FWid) (v : Word) : Bool := v.getLsbD (fwBits f - 1)

/-- A NaN, and a signalling one (R119). -/
def fwNaN (f : FWid) (v : Word) : Bool := decide ((fwInf f).1 < fwMag f v)

/-- A signalling NaN (R119). -/
def fwSnan (f : FWid) (v : Word) : Bool := fwNaN f v && decide (fwMag f v < (fwInf f).1 + (fwInf f).2)

/-- The place of an operand in the order of the format: sign and magnitude, the two zeros together (R78). -/
def fwKey (f : FWid) (v : Word) : Int := if fwNeg f v then -(fwMag f v : Int) else fwMag f v

/-- How two operands compare, with none where one is a NaN (R78). -/
def fwOrder (f : FWid) (a b : Word) : Option Ordering :=
  if fwNaN f a || fwNaN f b then none else some (compare (fwKey f a) (fwKey f b))

/-- NV where an operand is a signalling NaN (R127). -/
def fwNv (f : FWid) (a b : Word) : Flags := if fwSnan f a || fwSnan f b then flagNV else 0

/-- The smaller or the larger of two operands, −0 below +0, the other where one is a NaN, and the canonical NaN
    where both are (R129). -/
def fwPick (f : FWid) (isMax : Bool) (a b : Word) : Word :=
  let low := (fun v : Word => v.setWidth (fwBits f) |>.setWidth 64)
  let key := fun v => if fwNeg f v then fwKey f v - 1 else fwKey f v
  if fwNaN f a && fwNaN f b then BitVec.ofNat 64 ((fwInf f).1 + (fwInf f).2)
  else if fwNaN f a then low b
  else if fwNaN f b then low a
  else if (if isMax then key a < key b else key b < key a) then low b else low a

/-- Whenever the instruction issues, its one rounded result of Fixed kind is the one stated, with its flags; RAND
    steps once under RS (R126, R356). -/
def ComputesRounded (i : Instr) (rm : RM) (rd : Opr) (r : Thread → FRes) : Prop :=
  ∀ s t, Issues s t i → exec i s =
    .next (fixedResult (afterPops s t i) (stepRand (issuedThread s t i) rm 1) rd (BitVec.ofNat 64 (r t).bits)
      (readTaint t.regs (usesOf i)) (r t).flags)

/-- The same for a result of Variable kind. -/
def ComputesRoundedLater (i : Instr) (rm : RM) (rd : XReg) (r : Thread → FRes) : Prop :=
  ∀ s t, Issues s t i → exec i s =
    .next (variableResult (afterPops s t i) (stepRand (issuedThread s t i) rm 1) i.dep.sa
      [wrX rd (BitVec.ofNat 64 (r t).bits)] (r t).flags)

/-- Whenever the instruction issues, each element of width `w` of the v register that it names gets the bits
    stated, and no flag is set. -/
def ComputesElems (i : Instr) (w : Nat) (vd : VReg) (e : Thread → Nat → Nat) : Prop :=
  ∀ s t, Issues s t i → ∃ v : VWord, exec i s = .next (vectorDone s t i [wrV vd v] 0)
    ∧ ∀ k, k < 128 / w → elem w v k = e t k % 2 ^ w

/-- RAND of a thread after `k` draws (R125). -/
def randDrawn (m : RMode) (rand : BitVec 32) : Nat → BitVec 32
  | 0 => rand
  | k + 1 => if m = .rs then randStep (randDrawn m rand k) else rand

/-- How element `k` of a vector instruction rounds: in the mode of FPCTL, with its own draw of RAND (R412). -/
def elemRnd (t : Thread) (k : Nat) : Rnd :=
  ⟨modeOf t.csr.fpctl, (randUse (randDrawn (modeOf t.csr.fpctl) t.csr.rand k)).toNat, false⟩

/-- Whenever the instruction issues, each element of format `f` of the v register gets the result stated, its
    flags are the OR of those of the elements, and RAND is that after `n` draws. -/
def ComputesResults (i : Instr) (f : Fmt) (vd : VReg) (n : Nat) (e : Thread → Nat → FRes) : Prop :=
  ∀ s t, Issues s t i → ∃ (v : VWord) (fl : Flags),
    exec i s = .next (setThread (afterPops s t i) s.cur
        (fixedWrites (afterPops s t i) (stepRand (issuedThread s t i) .dyn n) [wrV vd v] fl))
      ∧ (∀ k, k < 128 / fmtWidth f → elem (fmtWidth f) v k = (e t k).bits % 2 ^ fmtWidth f)
      ∧ ∀ j : Nat, fl.getLsbD j = (List.range (128 / fmtWidth f)).any fun k => (e t k).flags.getLsbD j

/-- The instructions of one thread that touch neither memory nor another unit: arithmetic, moves, compares,
    conversions and vectors. -/
def registerOnly : Instr → Bool
  | .add .. | .sub .. | .mul .. | .mulh .. | .mulhn .. | .div .. | .divn .. | .rem .. | .remn .. | .and .. | .andn ..
  | .or .. | .xor .. | .shl .. | .shr .. | .sra .. | .rot .. | .min .. | .minn .. | .max .. | .maxn .. | .clz ..
  | .ctz .. | .popc .. | .bfx .. | .bfxR .. | .bfi .. | .bfiR .. | .sel .. | .addiFrri .. | .addiFi32 .. | .andiFrri ..
  | .andiFi32 .. | .oriFrri .. | .oriFi32 .. | .xoriFrri .. | .xoriFi32 .. | .shli .. | .shri .. | .srai .. | .li ..
  | .liH .. | .lea .. | .leaPc .. | .mov .. | .cmp .. | .cmpi .. | .fcmp .. | .fadd .. | .fsub .. | .fmul .. | .ffma ..
  | .ffmai .. | .fdiv .. | .fsqrt .. | .fmin .. | .fmax .. | .fsgn .. | .exp2 .. | .log2 .. | .rcp .. | .rsq ..
  | .tanh .. | .cvt .. | .cvtV .. | .vqnt .. | .vdq .. | .vadd .. | .vsub .. | .vmul .. | .vfma .. | .vmin .. | .vmax ..
  | .vdot .. | .vredAdd .. | .vredMin .. | .vredMax .. | .vshuf .. | .vbcast .. | .vsel .. | .vins .. | .vext ..
  | .vcmp .. | .cvta .. => true
  | _ => false

/-- The target of a branch: the line `disp` lines away, in bits [55:0], and an index (R71). -/
def branchTo (pc : Word) (disp : BitVec 19) (idx : BitVec 5) : Word :=
  ((((pc >>> 6) + disp.signExtend 64) <<< 6) &&& 0x00FF_FFFF_FFFF_FFFF) ||| idx.setWidth 64

/-- The next sequential PC in a line of `n` instructions (R70). -/
def pcAfter (pc : Word) (n : Nat) : Word :=
  if (pc &&& 63).toNat + 1 < n then pc + 1 else ((pc >>> 6) + 1) <<< 6

/-- The state after an issue that only sends the thread to another address. -/
def issuedAt (s : State) (t : Thread) (i : Instr) (pc : Word) : State :=
  setThread (afterPops s t i) s.cur { issuedThread s t i with pc := pc }

/-- The same with the next sequential PC on its way to x15, 4 cycles after the issue, with the taint of the
    registers read (R61, R183, R338). -/
def linkedAt (s : State) (t : Thread) (i : Instr) (pc : Word) : State :=
  setThread (afterPops s t i) s.cur
    (fixedWrites (afterPops s t i) { issuedThread s t i with pc := pc }
      [{ wrX 15 (pcAfter t.pc s.curN) with taint := readTaint t.regs (usesOf i) }] 0)

/-! Control registers. -/

/-- Control registers that the user level writes, those that only the supervisor writes besides them, and the bits
    that a write of each stores (R109, R110). RAND takes its low 32 bits, and so on; FPCTL and TCAUSE, which keep
    other rules, stand apart. -/
def csrMask : Nat → Option Word
  | 0x009 => some 0xFFFF_FFFF
  | 0x00B | 0x00C | 0x00E | 0x00F | 0x011 => some 0xFFFF_FFFF_FFFF_FFFF
  | 0x013 => some 0x00FF_FFFF_FFFF_0000
  | 0x015 => some 0xF_FFFF
  | 0x100 => some 3
  | 0x101 => some 0xFFFF_FFFF
  | 0x120 => some 0xFFFF_FFFF_FFFF_0000
  | 0x121 => some 0x3F
  | 0x130 => some 0x8000_0000_0000_03FF
  | _ => none

/-- The sources that the counters of a cluster take (R321). -/
def clusterSources : List Nat :=
  [0, 1, 2, 3, 4, 5, 0x10, 0x11, 0x20, 0x30, 0x31, 0x40, 0x41, 0x50, 0x51, 0x60, 0x61, 0x62]

/-- The instructions that only the supervisor level runs (R111). -/
def supervisorOnly : Instr → Bool
  | .repart .. | .spill .. | .rstr .. | .xrd .. | .xwr .. | .xres .. | .tlbi .. | .keyret .. => true
  | _ => false

/-! Memory. -/

/-- The address that a memory operand names (R366). -/
def addrOf (t : Thread) (a : MemArg) : Nat := (xval t a.base + a.disp.signExtend 64).toNat

/-- What a memory instruction asks of memory: its address, its bytes, to which the address is aligned, the
    permissions of the page, and whether it is a .M form. -/
structure MemForm where
  addr : Nat
  n : Nat
  need : Need
  m : Bool

/-- What each load, store and atomic asks of memory (R331, R339, R366, R367, R393, R397, R418, R419). -/
def memForm (t : Thread) : Instr → Option MemForm
  | .vld _ _ a => some ⟨addrOf t a, 16, ⟨true, false⟩, false⟩
  | .vst _ _ a => some ⟨addrOf t a, 16, ⟨false, true⟩, false⟩
  | .ld _ m size _ a | .ldS _ m size _ a => some ⟨addrOf t a, sizeBytes size, ⟨true, false⟩, m⟩
  | .ldc _ size _ a => some ⟨addrOf t a, sizeBytes size, ⟨true, false⟩, false⟩
  | .st _ m size _ a => some ⟨addrOf t a, sizeBytes size, ⟨false, true⟩, m⟩
  | .amoAdd _ a _ ra _ | .amoAnd _ a _ ra _ | .amoOr _ a _ ra _ | .amoXor _ a _ ra _ | .amoMin _ a _ ra _
  | .amoMinn _ a _ ra _ | .amoMax _ a _ ra _ | .amoMaxn _ a _ ra _ | .amoSwap _ a _ ra _ | .amoFadd _ a _ ra _
  | .cas _ a _ ra _ _ => some ⟨(xval t ra).toNat, sizeBytes a.size, ⟨true, true⟩, a.m⟩
  | .sig _ _ ra _ => some ⟨(xval t ra).toNat, 8, ⟨true, true⟩, false⟩
  | _ => none

/-- The instruction issues, the checks of R149 give its target, with `s1` the state after them, and it does not
    migrate. -/
def Reaches (s : State) (t : Thread) (i : Instr) (g : Target) (s1 : State) : Prop :=
  Issues s t i ∧ ∃ f, memForm t i = some f
    ∧ accessCheck (afterPops s t i) (threadCtx s.cur t) f.addr f.n f.n f.need = (.ok g, s1)
    ∧ migratesTo s1 s.cur t f.m g f.addr = none

/-- The instruction reaches its target, and no register that it reads is poisoned, its data, which it reads after its
    checks, included (R4, R303). -/
def Proceeds (s : State) (t : Thread) (i : Instr) (g : Target) (s1 : State) : Prop :=
  Reaches s t i g s1 ∧ poisonedReg t.regs (usesOf i) = none

/-- A 16-byte operand in a pair of x registers, the first lower (R339, R397). -/
def pairOf (t : Thread) (n : XReg) : VWord := xval t (n + 1) ++ xval t n

/-- An access of `n` bytes of a thread at a target. -/
def accessOf (t : Thread) (kind : AccKind) (g : Target) (n : Nat) (ord : Ord) (scope : Scope) (base : XReg) : Access :=
  { Access.blank with
    kind := kind, place := g.place, n := n, ord := ord, scope := scope, key := t.csr.keyid.toNat, page := g.entry
    va := g.va, tainted := xtaint t base }

/-- The same for a load, which reads the replica of its die of a replicated page (R163). The instruction adds to
    either whether it follows earlier LDCs for its data (R182). -/
def loadOf (s1 : State) (t : Thread) (g : Target) (n : Nat) (a : MemArg) (signed ldc : Bool) : Access :=
  { accessOf t .load g n a.ord a.scope a.base with
    signed := signed, ldc := ldc, replica := replicaFor s1 s1.cur.clu t.csr.keyid.toNat g }

/-- The state once the access of an instruction has been issued, with its result, if it has one, to land under the
    tag SA when the access is done (R63, R177); with a tainted operand it follows earlier LDCs (R182). -/
def accessBegun (s : State) (t : Thread) (i : Instr) (s1 : State) (a : Access) (ws : Option (List Wr)) : State :=
  let r := pushAccess s1 (issuedThread s t i) { a with afterLdc := readTaint t.regs (usesOf i) }
  setThread r.1 s.cur (match ws with
    | some w => addResult r.2 ⟨s1.nextId, i.dep.sa, w, 0, false⟩
    | none => r.2)

/-- The registers of a result: RD, or the pair from RD on for 16 bytes (R339, R366). -/
def resultRegs (size : Size) (rd : XReg) : List Wr := if size = .q then [wrX rd 0, wrX (rd + 1) 0] else [wrX rd 0]

/-- An atomic can be performed at its target: anywhere but at a host, and at a host the three operations of a PCIe
    AtomicOp where the root complex completes them (R158, R311). -/
def canComplete (op : RmwOp) (g : Target) : Bool :=
  match g.place with
  | .host _ => (op = .add || op = .swap || op = .cas) && Config.atomicCompleter
  | _ => true

/-- The operation of each atomic (R330, R339, R393). -/
def atomicOf : Instr → Option RmwOp
  | .amoAdd .. => some .add
  | .amoAnd .. => some .and
  | .amoOr .. => some .or
  | .amoXor .. => some .xor
  | .amoMin .. => some .min
  | .amoMinn .. => some .minn
  | .amoMax .. => some .max
  | .amoMaxn .. => some .maxn
  | .amoSwap .. => some .swap
  | .amoFadd .. => some .fadd
  | .cas .. => some .cas
  | .sig _ true _ _ => some .add
  | _ => none

/-- Whenever the atomic reaches a target that can complete it, and its operands are not poisoned, its access begins, and
    its old value will land in RD. -/
def BeginsAtomic (i : Instr) (op : RmwOp) (a : AmoArg) (ra rb : XReg) (rd : XReg) : Prop :=
  ∀ s t g s1, Proceeds s t i g s1 → canComplete op g = true →
    exec i s = .next (accessBegun s t i s1
      { accessOf t (.rmw op) g (sizeBytes a.size) a.ord a.scope ra with data := (xval t rb).setWidth 128 }
      (some [wrX rd 0]))

/-- The state after TAKE of a full slot: FULL and OVR clear, an acquire at the scope of the slot begun, ordered as a
    load with ORD acq, the results to land (R205). -/
def taken (s : State) (t : Thread) (i : Instr) (n : Nat) (k : SubSlot) (ws : List Wr) : State :=
  let r := pushAccess (setSlot s s.cur.clu n { k with full := false, ovr := false }) (issuedThread s t i)
    (takeAccess (scopeOf k.scope))
  variableResult r.1 r.2 i.dep.sa ws 0

/-- What a range operation does when it issues (R159): nothing for a length of 0; ADDR for a raw stash range; the trap
    of a failed check; nothing more at a narrow scope; and at a wide one, for each stretch of memory in the range, an
    access with an action for each of its lines, which the thread's memory instructions wait for. -/
def RangeActs (i : Instr) (op : RangeOp) (scope : Scope) (ra : XReg) (n : Word) (need : Need) (s : State) (t : Thread) :
    Prop :=
  let a := xval t ra
  (n = 0 → exec i s = .next (issuedState s t i))
    ∧ (n ≠ 0 → a.toNat / 2 ^ 56 = 0xFE → exec i s = .next (raiseTrap s s.cur t ⟨.addr, a⟩))
    ∧ (n ≠ 0 → a.toNat / 2 ^ 56 ≠ 0xFE →
      (∀ v s1, rangeCheck s (threadCtx s.cur t) a.toNat n.toNat 1 need = (.error v, s1) →
        exec i s = .next (raiseTrap s1 s.cur t v))
      ∧ ∀ ps s1, rangeCheck s (threadCtx s.cur t) a.toNat n.toNat 1 need = (.ok ps, s1) →
        (scope.wide = false → exec i s = .next (setThread s1 s.cur (issuedThread s t i)))
        ∧ (scope.wide = true → ∃ s' t', exec i s = .next s' ∧ s'.threads = (setThread s s.cur t').threads
          ∧ t'.regs = t.regs
          ∧ (∀ p ∈ ps, ∀ pa, p.place = .mem pa ∨ p.place = .host pa → 0 < p.len → ∃ x ∈ t'.pipe.acc,
            x.kind = .range op ∧ x.place = p.place ∧ x.n = p.len ∧ x.scope = scope ∧ x.key = t.csr.keyid.toNat
              ∧ x.page = p.entry ∧ (xtaint t ra = true → x.tainted = true)
              ∧ x.todo = (linesOf pa p.len).map Act.rangeLine)
          ∧ ∀ x ∈ t'.pipe.acc, x ∈ t.pipe.acc ∨ ∃ ids, t'.pipe.block = some (.memory ids) ∧ x.id ∈ ids))

/-- What an operation on memory may change of the threads other than the one at `l`: their issue state only. -/
def othersKept (s s' : State) (l : Loc) : Prop :=
  ∀ m, m.key ≠ l.key → ∀ t, thread? s m = some t → ∃ p, thread? s' m = some { t with pipe := p }

/-- What the issue of a copy leaves: a copy with the request words, the count of the core and what the thread gives
    it, in the FIFO of its core; the next count; the token register empty (R260, R261). The lines that go home at its
    issue may end a replication, which the issue state of threads notes (R164, R189). -/
def CopyBegun (s : State) (t : Thread) (i : Instr) (rd ra : XReg) (send : Option (PReg × BitVec 32 × Scope))
    (s' : State) : Prop :=
  let k := coreOf s s.cur.coreIdx
  (∃ c ∈ s'.flight.copies, c.id = s.nextId ∧ c.uid = t.uid ∧ c.clu = s.cur.clu ∧ c.core = s.cur.core ∧ c.reg = rd
      ∧ c.xseq = k.xseq ∧ c.src = xval t ra ∧ c.dst = xval t (ra + 1) ∧ c.w2 = xval t (ra + 2) ∧ c.hnd = xval t (ra + 3)
      ∧ c.key = t.csr.keyid.toNat ∧ c.user = !supLevel s.cur t ∧ c.send = send ∧ c.packet = none)
    ∧ (coreOf s' s.cur.coreIdx).fifo = k.fifo ++ [s.nextId] ∧ (coreOf s' s.cur.coreIdx).xseq = k.xseq + 1
    ∧ (∃ p, thread? s' s.cur = some { emptyToken (issuedThread s t i) rd with pipe := p }) ∧ othersKept s s' s.cur

/-- What SPAWN does (R22, R396): all ones to land when no slot is free, and otherwise a new thread in the slot, as R21
    has threads start, with its TID to land. -/
def Spawns (s : State) (t : Thread) (i : Instr) (light : Bool) (rd : XReg) (pc arg : Word) : Prop :=
  ((gangOf s t).bind (spawnSlot s s.cur) = none →
      exec i s = .next (variableDone s t i [wrX rd 0xFFFFFFFFFFFFFFFF] 0))
    ∧ ∀ g l, gangOf s t = some g → spawnSlot s s.cur g = some l → ∃ s' u t', exec i s = .next s'
      ∧ thread? s' l = some u ∧ u.pc = pc ∧ u.mode = .running ∧ xval u 1 = arg ∧ (∀ n, n ≠ 1 → xval u n = 0)
      ∧ u.csr.tid = BitVec.ofNat 32 (freeTid s g.gang g.lnch) ∧ u.csr.light = light ∧ u.csr.gang = t.csr.gang
      ∧ u.csr.gsz = t.csr.gsz ∧ u.csr.lnch = t.csr.lnch ∧ u.csr.prio = t.csr.prio ∧ u.csr.slice = t.csr.slice
      ∧ u.csr.ptbase = ptbaseMask t.csr.ptbase ∧ u.csr.keyid = t.csr.keyid ∧ u.csr.tvec = 0 ∧ u.csr.grank = 0xFFFFFFFFFFFFFFFF
      ∧ u.csr.wpriv = BitVec.ofNat 64
        ((g.privbase + (g.gang * g.g + freeTid s g.gang g.lnch) * 2 ^ (16 + g.plog)) % 2 ^ 56)
      ∧ thread? s' s.cur = some t' ∧ t'.regs = t.regs
      ∧ ∃ r ∈ t'.pipe.results, r.tag = i.dep.sa ∧ r.ready = true
        ∧ r.writes = [wrX rd (BitVec.ofNat 64 (freeTid s g.gang g.lnch))]

/-- What CMPK and EXPD do when they issue: the trap of a failed check, in the state that the check leaves and with no
    other effect, or the operands captured for the reads that follow, of which `n` bytes may come to be written (R239,
    R355). -/
def Packs (s : State) (t : Thread) (i : Instr) (w n : Nat) (rd ra rb rc : XReg)
    (check : State → Except (TrapVal × State) (List Piece × State)) : Prop :=
  (∀ v s1, check (afterPops s t i) = .error (v, s1) → exec i s = .next (raiseTrap s1 s.cur t v))
    ∧ ∀ src s1, check (afterPops s t i) = .ok (src, s1) →
      exec i s = .next (startPack s1 t (issuedThread s t i) i w n rd ra rb rc src)

/-- A CMPK or EXPD is under way at a place, with its operands as they were at its issue. -/
def packingAt (s : State) (l : Loc) (t : Thread) (k : Packing) : Prop := thread? s l = some t ∧ t.pipe.pack = some k

/-- The byte that home memory holds for a physical address under a key, when it holds one: what was last
    written there, under that key (R165, R176). -/
def heldHome (s : State) (key pa : Nat) : Option Byte :=
  match mget s.store.homeKey (chase s pa), mget s.store.home (chase s pa) with
  | some k, some b => if k = key then some b else none
  | _, _ => none

/-- The byte that the stash of a cluster holds at an offset, when something has been written there. -/
def heldStash (s : State) (clu off : Nat) : Option Byte := mget (cluster s clu).stash off

/-- The byte that host memory of space 0b11 holds, when something has been written there. -/
def heldHost (s : State) (pa : Nat) : Option Byte := mget s.store.hostMem pa

/-- The byte that the data cache of a cluster holds for a physical address under a key, dirty or clean. -/
def heldView (s : State) (clu key pa : Nat) : Option VByte := mget (cluster s clu).view (vkey key pa)

/-- No byte of any memory differs between two states: home, stashes with their mappings, views, host
    memory. -/
def sameMemory (s s' : State) : Prop :=
  (∀ key pa, heldHome s' key pa = heldHome s key pa) ∧ (∀ c off, heldStash s' c off = heldStash s c off)
    ∧ (∀ pa, heldHost s' pa = heldHost s pa) ∧ (∀ c key pa, heldView s' c key pa = heldView s c key pa)
    ∧ ∀ c, (cluster s' c).mapped = (cluster s c).mapped ∧ (cluster s' c).maps = (cluster s c).maps

/-- Bytes of memory that are plain at their home: no page moved, no half that they touch held by the host, no page
    replicated, and no package lost (R161, R162, R163, R309). -/
def plainHome (s : State) (pa n : Nat) : Prop :=
  s.store.redirects = [] ∧ (∀ key, hostHolds s key pa n = false) ∧ isFenced s pa = false ∧ (∀ b, replOf s b = none)
    ∧ pa + n ≤ 2 ^ 52

/-- No word of memory, and none that a cluster holds dirty, can be a page-table entry with REPL set, and none is known
    to be one (R163, R168). -/
def replFree (s : State) : Prop :=
  s.store.repl = [] ∧ (∀ e ∈ s.store.home, e.1 % 8 = 7 → e.2.getLsbD 7 = false)
    ∧ ∀ c k pa v, heldView s c k pa = some v → v.dirty = true → pa % 8 = 7 → v.val.getLsbD 7 = false

/-- Bytes of memory that are plain at their home and for a cluster, whose stash is not mapped (R154). -/
def plainAt (s : State) (clu pa n : Nat) : Prop := (cluster s clu).maps = [] ∧ plainHome s pa n

/-- A line of memory that the stash of a cluster holds at an offset, mapped there, for accesses under a key (R154,
    R155, R165). -/
def mappedLine (s : State) (clu key line o : Nat) : Prop :=
  o % 128 = 0 ∧ ∀ i, i < 128 → viewWhere (cluster s clu) key (line * 128 + i) = some (o + i)

/-- What a cluster holds of a mapped stash byte: nothing, or whether it is dirty (R155, R176). -/
def heldMapped (s : State) (clu off : Nat) : Option Bool := mget (cluster s clu).mapped off

/-- An access waits for the collapse of a replicated page: its action is still to be taken, the collapse is called for,
    and no byte of memory changes before it (R164). -/
def stallsFor (s : State) (a : Access) (e : TlbEntry) (acts : List Act) (r : State × Access) : Prop :=
  (∃ c ∈ r.1.store.collapses, c.pte = e.pte ∧ c.pa = e.pa ∧ r.2 = { a with stalled := some c.id, todo := acts })
    ∧ sameMemory s r.1 ∧ r.1.threads = s.threads

/-- No gang waits for its last accesses before it retires (R24). -/
def noneEnded (s : State) : Prop := ∀ c ∈ s.clusters, ∀ g ∈ c.2.gangs, g.ended = false

/-- No thread but the one at `l` differs between two states. -/
def othersSame (s s' : State) (l : Loc) : Prop := ∀ k, k ≠ l.key → mget s'.threads k = mget s.threads k

/-- Every memory of the package is in canonical form: addresses rise strictly. -/
def State.canonical (s : State) : Prop :=
  Memory.wf s.store.home = true ∧ Memory.wf s.store.hostMem = true ∧ ∀ c ∈ s.clusters, mwf c.2.stash = true

end Sys2Proof.Machine
end

