-- ==== Sys2Proof/Certificates/Slice0/Obligations.lean ====
section
/-! DEFINITION. The claims about the machine, one definition each; each names the rules of the spec that it
formalises. -/

open Sys2Proof Sys2Proof.Machine

/-- O1. Whenever ADD, or ADDI with an immediate of 10 or 32 bits, issues, its result is the sum of the operands
    modulo 2^W, zero-extended; the immediate is sign-extended to 64 bits. No flag is set, no trap is raised, and
    the taint of the result is that of the registers read. The result goes to the register written 4 cycles
    later, or through the port that RD names. Rules: R328. -/
def Obligations.AddComputes : Prop :=
  ∀ (d : Dep) (wd : Wid) (rd ra rb : Opr),
    Computes (.add d wd rd ra rb) rd (fun t => atWidth wd (fun _ a b => a + b) (oval t ra) (oval t rb))
    ∧ (∀ imm : BitVec 10, Computes (.addiFrri d wd rd ra imm) rd (fun t => atWidth wd (fun _ a b => a + b) (oval t ra) (imm.signExtend 64)))
    ∧ (∀ imm : BitVec 32, Computes (.addiFi32 d wd rd ra imm) rd (fun t => atWidth wd (fun _ a b => a + b) (oval t ra) (imm.signExtend 64)))

/-- O2. Whenever AND, ANDN or ANDI (10 or 32 bits) issues, its result is a AND b, a AND NOT b, or a AND the
    immediate sign-extended to 64 bits: 64 bits in the .d forms, the low 32 bits zero-extended in the .w forms.
    The example: ANDI.D with the immediate -64 clears bits [5:0] and keeps the others. Rules: R333. -/
def Obligations.AndComputes : Prop :=
  (∀ (d : Dep) (wd : Wid) (rd ra rb : Opr),
    Computes (.and d wd rd ra rb) rd (fun t => atWidth wd (fun _ a b => a &&& b) (oval t ra) (oval t rb))
    ∧ Computes (.andn d wd rd ra rb) rd (fun t => atWidth wd (fun _ a b => a &&& ~~~ b) (oval t ra) (oval t rb))
    ∧ (∀ imm : BitVec 10, Computes (.andiFrri d wd rd ra imm) rd (fun t => atWidth wd (fun _ a b => a &&& b) (oval t ra) (imm.signExtend 64)))
    ∧ (∀ imm : BitVec 32, Computes (.andiFi32 d wd rd ra imm) rd (fun t => atWidth wd (fun _ a b => a &&& b) (oval t ra) (imm.signExtend 64))))
    ∧ ∀ (a : Word) (k : Nat), k < 64 →
      (atWidth .d (fun _ a b => a &&& b) a ((-64 : BitVec 10).signExtend 64)).getLsbD k = (decide (6 ≤ k) && a.getLsbD k)

/-- O3. Whenever SUB, MUL, MULH, MULHN, OR, ORI, XOR or XORI issues, its result at width W is a - b, the low
    half of the product, the high half of the signed or of the unsigned product, a OR b, or a XOR b, zero-
    extended, with no flag; immediates are sign-extended to 64 bits. Whenever SEL issues, its result is all 64
    bits of RA where RC is not zero and of RB otherwise, and its taint is that of all three sources; the word of
    the example decodes to SEL x5, x6, x7, x2; and after a compare left 1 in x2 it selects x6, after one that
    left 0, x7. Rules: R398, R376, R378, R426, R391. -/
def Obligations.SubMulOrXorCompute : Prop :=
  (∀ (d : Dep) (wd : Wid) (rd ra rb : Opr),
    Computes (.sub d wd rd ra rb) rd (fun t => atWidth wd (fun _ a b => a - b) (oval t ra) (oval t rb))
    ∧ Computes (.mul d wd rd ra rb) rd (fun t => atWidth wd (fun _ a b => a * b) (oval t ra) (oval t rb))
    ∧ Computes (.mulh d wd rd ra rb) rd (fun t => atWidth wd (fun w a b => ((a.signExtend (2 * w) * b.signExtend (2 * w)) >>> w).setWidth w) (oval t ra) (oval t rb))
    ∧ Computes (.mulhn d wd rd ra rb) rd (fun t => atWidth wd (fun w a b => ((a.setWidth (2 * w) * b.setWidth (2 * w)) >>> w).setWidth w) (oval t ra) (oval t rb))
    ∧ Computes (.or d wd rd ra rb) rd (fun t => atWidth wd (fun _ a b => a ||| b) (oval t ra) (oval t rb))
    ∧ Computes (.xor d wd rd ra rb) rd (fun t => atWidth wd (fun _ a b => a ^^^ b) (oval t ra) (oval t rb))
    ∧ (∀ imm : BitVec 10, Computes (.oriFrri d wd rd ra imm) rd (fun t => atWidth wd (fun _ a b => a ||| b) (oval t ra) (imm.signExtend 64)))
    ∧ (∀ imm : BitVec 32, Computes (.oriFi32 d wd rd ra imm) rd (fun t => atWidth wd (fun _ a b => a ||| b) (oval t ra) (imm.signExtend 64)))
    ∧ (∀ imm : BitVec 10, Computes (.xoriFrri d wd rd ra imm) rd (fun t => atWidth wd (fun _ a b => a ^^^ b) (oval t ra) (imm.signExtend 64)))
    ∧ (∀ imm : BitVec 32, Computes (.xoriFi32 d wd rd ra imm) rd (fun t => atWidth wd (fun _ a b => a ^^^ b) (oval t ra) (imm.signExtend 64))))
    ∧ (∀ (d : Dep) (rd ra rb rc : Opr) (s : State) (t : Thread), Issues s t (.sel d rd ra rb rc) →
      exec (.sel d rd ra rb rc) s =
        .next (fixedResult (afterPops s t (.sel d rd ra rb rc)) (issuedThread s t (.sel d rd ra rb rc)) rd
          (if oval t rc ≠ 0 then oval t ra else oval t rb) (otaint t ra || otaint t rb || otaint t rc) 0))
    ∧ decodeWord 0x0000000041C3050031D0 = .ok (.sel ⟨false, 0, 0, 0⟩ (.x 5) (.x 6) (.x 7) (.x 2))
    ∧ ∀ (d : Dep) (s : State) (t : Thread) (b : Bool), Issues s t (.sel d (.x 5) (.x 6) (.x 7) (.x 2)) →
      xval t 2 = (if b then 1 else 0) → exec (.sel d (.x 5) (.x 6) (.x 7) (.x 2)) s =
        .next (fixedDone s t (.sel d (.x 5) (.x 6) (.x 7) (.x 2)) (.x 5) (if b then xval t 6 else xval t 7) 0)

/-- O4. Whenever a shift or ROT issues, its result is the operand shifted left or right with zeros, right with
    its sign, or rotated left, by the count modulo W, zero-extended from W bits, with no flag. Rules: R392,
    R388. -/
def Obligations.ShiftsCompute : Prop :=
  ∀ (d : Dep) (wd : Wid) (rd ra rb : Opr),
    Computes (.shl d wd rd ra rb) rd (fun t => atWidth wd (fun w a b => a <<< (b.toNat % w)) (oval t ra) (oval t rb))
    ∧ Computes (.shr d wd rd ra rb) rd (fun t => atWidth wd (fun w a b => a >>> (b.toNat % w)) (oval t ra) (oval t rb))
    ∧ Computes (.sra d wd rd ra rb) rd (fun t => atWidth wd (fun w a b => a.sshiftRight (b.toNat % w)) (oval t ra) (oval t rb))
    ∧ Computes (.rot d wd rd ra rb) rd (fun t => atWidth wd (fun w a b => a.rotateLeft (b.toNat % w)) (oval t ra) (oval t rb))
    ∧ (∀ n : BitVec 6, Computes (.shli d wd rd ra n) rd (fun t => atWidth wd (fun w a b => a <<< (b.toNat % w)) (oval t ra) (n.setWidth 64)))
    ∧ (∀ n : BitVec 6, Computes (.shri d wd rd ra n) rd (fun t => atWidth wd (fun w a b => a >>> (b.toNat % w)) (oval t ra) (n.setWidth 64)))
    ∧ (∀ n : BitVec 6, Computes (.srai d wd rd ra n) rd (fun t => atWidth wd (fun w a b => a.sshiftRight (b.toNat % w)) (oval t ra) (n.setWidth 64)))

/-- O5. Whenever MIN, MINN, MAX or MAXN issues, its result is the smaller or the larger of the two operands of W
    bits, as signed integers in MIN and MAX and as unsigned ones in MINN and MAXN, zero-extended; equal operands
    give that value; no flag is set and no trap raised, and taint follows R183. Rules: R372. -/
def Obligations.MinMaxCompute : Prop :=
  ∀ (d : Dep) (wd : Wid) (rd ra rb : Opr),
    Computes (.min d wd rd ra rb) rd (fun t => atWidth wd (fun _ a b => if a.slt b then a else b) (oval t ra) (oval t rb))
    ∧ Computes (.max d wd rd ra rb) rd (fun t => atWidth wd (fun _ a b => if a.slt b then b else a) (oval t ra) (oval t rb))
    ∧ Computes (.minn d wd rd ra rb) rd (fun t => atWidth wd (fun _ a b => if a.ult b then a else b) (oval t ra) (oval t rb))
    ∧ Computes (.maxn d wd rd ra rb) rd (fun t => atWidth wd (fun _ a b => if a.ult b then b else a) (oval t ra) (oval t rb))

/-- O6. Whenever DIV, DIVN, REM or REMN issues, the quotient (toward zero when signed; all ones for a divisor of
    zero) or the remainder (sign of the dividend; the dividend for a divisor of zero) is on its way to RD, zero-
    extended from W bits, and lands later, with no trap and no flag. For every a and b the quotient q and
    remainder r of DIV and REM satisfy a = q b + r modulo 2^W. Rules: R349, R384. -/
def Obligations.DivisionComputes : Prop :=
  (∀ (d : Dep) (wd : Wid) (rd ra rb : XReg),
    ComputesLater (.div d wd rd ra rb) (fun t => [wrX rd (atWidth wd (fun w a b => if b = 0 then BitVec.allOnes w else a.sdiv b) (xval t ra) (xval t rb))])
    ∧ ComputesLater (.divn d wd rd ra rb) (fun t => [wrX rd (atWidth wd (fun w a b => if b = 0 then BitVec.allOnes w else a / b) (xval t ra) (xval t rb))])
    ∧ ComputesLater (.rem d wd rd ra rb) (fun t => [wrX rd (atWidth wd (fun _ a b => if b = 0 then a else a.srem b) (xval t ra) (xval t rb))])
    ∧ ComputesLater (.remn d wd rd ra rb) (fun t => [wrX rd (atWidth wd (fun _ a b => if b = 0 then a else a % b) (xval t ra) (xval t rb))]))
    ∧ ∀ (w : Nat) (a b : BitVec w),
      a = (if b = 0 then BitVec.allOnes w else a.sdiv b) * b + (if b = 0 then a else a.srem b)

/-- O7. Whenever CLZ, CTZ or POPC issues, its result is the number of zero bits above the highest one bit of the
    operand of W bits, or below the lowest one bit, or the number of its one bits. A zero operand gives W for
    CLZ and CTZ. Rules: R340, R381. -/
def Obligations.CountsCompute : Prop :=
  (∀ (d : Dep) (wd : Wid) (rd ra : Opr),
    Computes (.clz d wd rd ra) rd (fun t => atWidth1 wd (fun _ a => a.clz) (oval t ra))
    ∧ Computes (.ctz d wd rd ra) rd (fun t => atWidth1 wd (fun _ a => a.ctz) (oval t ra))
    ∧ Computes (.popc d wd rd ra) rd (fun t => atWidth1 wd (fun _ a => a.cpop) (oval t ra)))
    ∧ ∀ wd : Wid, atWidth1 wd (fun _ a => a.clz) 0 = BitVec.ofNat 64 (widBits wd)
      ∧ atWidth1 wd (fun _ a => a.ctz) 0 = BitVec.ofNat 64 (widBits wd)

/-- O8. Whenever BFX or BFI issues, with the field from position p of n bits given by immediates or by registers
    taken modulo W (the length one more), BFX gives bits [h-1:p] of the operand, zero-extended, and BFI gives RD
    with bits [h-1:p] replaced by the low bits of the operand, where h is the smaller of p + n and W; an empty
    field gives 0 and RD unchanged. Rules: R337. -/
def Obligations.BitFieldsCompute : Prop :=
  ∀ (d : Dep) (wd : Wid) (rd ra rb rc : Opr) (r : XReg) (pos len : BitVec 6),
    Computes (.bfx d wd rd ra pos len) rd (fun t => atWidth1 wd (fun w a => (a >>> pos.toNat) &&& (fieldMask w pos.toNat (len.toNat + 1) >>> pos.toNat)) (oval t ra))
    ∧ Computes (.bfxR d wd rd ra rb rc) rd (fun t => atWidth1 wd (fun w a => (a >>> ((oval t rb).toNat % widBits wd)) &&& (fieldMask w ((oval t rb).toNat % widBits wd) ((oval t rc).toNat % widBits wd + 1) >>> ((oval t rb).toNat % widBits wd))) (oval t ra))
    ∧ Computes (.bfi d wd r ra pos len) (.x r) (fun t => atWidth wd (fun w b a => (b &&& ~~~ fieldMask w pos.toNat (len.toNat + 1)) ||| ((a <<< pos.toNat) &&& fieldMask w pos.toNat (len.toNat + 1))) (xval t r) (oval t ra))
    ∧ Computes (.bfiR d wd r ra rb rc) (.x r) (fun t => atWidth wd (fun w b a => (b &&& ~~~ fieldMask w ((oval t rb).toNat % widBits wd) ((oval t rc).toNat % widBits wd + 1)) ||| ((a <<< ((oval t rb).toNat % widBits wd)) &&& fieldMask w ((oval t rb).toNat % widBits wd) ((oval t rc).toNat % widBits wd + 1))) (xval t r) (oval t ra))

/-- O9. The plan of TST writes the bytes of its slot row by row, that of DRAIN and DRAIN.T the records or rows
    of R253 at RA. An MMA gives every entry of its target the old one, or +0, plus the sum of its products: in
    I32 modulo 2^32, in FP32 the exact sum of finite terms rounded once; no other entry changes. When they
    complete, ACFG gives the file to its group with the fields of its word, keeps the entries of an unchanged
    mode and clears them otherwise, and in hash mode writes a zero header; DRAIN and DRAIN.T leave no entry;
    DRAIN.V gives each member its row in four v registers and leaves those entries +0; JOIN and AINS poison the
    file where a source was poisoned; TST changes nothing more. A value that JOIN or AINS adds is added once
    rounded to its entry in direct mode; in hash mode to the resident key, or takes a free way, or is appended
    to the Bracken: COUNT is read, the record written, and then COUNT + 1; a full one stalls the unit. AINS
    reads one record before each. JOIN adds the products of the streams that it has read. Modelled choices: the
    actions are taken one by one (assumption log 12); AINS reads no further than its checks (log 93). Rules:
    R326, R329, R350, R363, R374, R409, R229, R232, R233, R244, R246, R253. -/
def Obligations.CollectivesAct : Prop :=
  (∀ (x : Scene) (p : Plan), planOf x = .ok p → let u := unitOf x.s x.clu
      (∀ d ta ra rb, x.lead.shown.instr = .tst d ta ra rb → ∃ r ps s1, rowDesc true (x.reg rb) = some r
        ∧ checkRanges x.s ⟨false, true⟩ 8 (rowsAt x (x.reg ra) r) = (.ok ps, s1)
        ∧ p.todo = ((List.range r.nrow).zip ps).flatMap fun e => writesOf e.2 (slotBytes u ta.toNat (e.1 * r.len) r.len))
      ∧ (∀ d ra, x.lead.shown.instr = .drain d ra → ∃ ps s1,
        rangeCheck x.s x.lead.ctx (x.reg ra).toNat (drainBytes u.acc false) 8 ⟨false, true⟩ = (.ok ps, s1)
        ∧ p.todo = writesOf ps ((drainWords u.acc x.fmt.c).flatMap (leBytes 8)))
      ∧ ∀ d ra, x.lead.shown.instr = .drainT d ra → ∃ ps s1,
        rangeCheck x.s x.lead.ctx (x.reg ra).toNat (drainBytes u.acc true) 8 ⟨false, true⟩ = (.ok ps, s1)
        ∧ p.todo = writesOf ps ((drainTWords u.acc).flatMap (leBytes 8)))
    ∧ (∀ (u : Matrix) (g : MmaArgs) (zero : Bool) (r c : Nat), let m := (dimsOf g.sh).1
      let n := (dimsOf g.sh).2.1
      c + n ≤ 128 → (∀ i j, i < m → j < n → let e := (r + i) * 128 + (c + j)
        let old := if zero then 0 else winGet u.acc e
        winGet (mmaRun u g zero r c) e = (if g.x.c = .i32 then mmaInt u g old i j else mmaFloat u g old i j) % 2 ^ 32)
      ∧ ∀ e, (∀ i j, i < m → j < n → e ≠ (r + i) * 128 + (c + j)) → winGet (mmaRun u g zero r c) e = winGet u.acc e)
    ∧ (∀ (u : Matrix) (g : MmaArgs) (old i j : Nat), let k := (dimsOf g.sh).2.2
      let ta := fun q => tileElem u g.ta (fmtWidth g.x.a) (i * k + q)
      let tb := fun q => tileElem u g.tb (fmtWidth g.x.b) (j * k + q)
      (g.x.a = .i8 → g.x.b = .i8 → (mmaInt u g old i j : Int) = ((old : Int) + ((List.range k).map fun q =>
        (BitVec.ofNat 8 (ta q)).toInt * (BitVec.ofNat 8 (tb q)).toInt).sum) % 2 ^ 32)
      ∧ ∀ (n0 : Bool) (m0 : Nat) (e0 : Int) (na nb : Nat → Bool) (ma mb : Nat → Nat) (ea eb : Nat → Int), g.x.scale = false →
        numOf .fp32 old = .fin n0 m0 e0 →
        (∀ q, q < k → numOf g.x.a (ta q) = .fin (na q) (ma q) (ea q) ∧ numOf g.x.b (tb q) = .fin (nb q) (mb q) (eb q)) →
        ∃ z : Int, z ≤ e0 ∧ (∀ q, q < k → z ≤ ea q + eb q) ∧
          let signed := fun (n : Bool) (v : Nat) => if n then -(v : Int) else v
          let v := signed n0 (m0 * 2 ^ (e0 - z).toNat)
            + ((List.range k).map fun q => signed (na q != nb q) (ma q * mb q * 2 ^ (ea q + eb q - z).toNat)).sum
          mmaFloat u g old i j = (roundNum .fp32 Rnd.rne (if v = 0 then
              .fin (decide (n0 = true ∧ m0 = 0 ∧ ∀ q, q < k → (na q != nb q) = true ∧ ma q * mb q = 0)) 0 0
            else .fin (decide (v < 0)) v.natAbs z)).bits)
    ∧ (∀ w : Word, directWord w = if w.toNat / 2 ^ 48 = 0 ∧ w.toNat % 2 ^ 24 ≤ 2 ^ 24 - 128
        ∧ w.toNat / 2 ^ 24 % 2 ^ 24 ≤ 2 ^ 24 - 128 then some (w.toNat % 2 ^ 24, w.toNat / 2 ^ 24 % 2 ^ 24) else none)
    ∧ (∀ (s : State) (clu : Nat) (c : Coll), let a := (unitOf s clu).acc
      let s' := performColl s clu c
      let b := (unitOf s' clu).acc
      (∀ d ra rb r col, c.instr = .acfg d false ra rb → directWord c.xa = some (r, col) →
        b.owner = some c.gid ∧ b.hash = false ∧ b.row0 = r ∧ b.col0 = col ∧ b.spill = 0
          ∧ (a.owner = some c.gid → a.hash = false → b.direct = a.direct)
          ∧ (a.owner ≠ some c.gid ∨ a.hash = true → ∀ e, winGet b e = 0))
      ∧ (∀ d ra rb lb ways bcap, c.instr = .acfg d true ra rb → hashWord c.xa c.xb = some (lb, ways, bcap) →
        b.owner = some c.gid ∧ b.hash = true ∧ b.lb = lb ∧ b.ways = ways ∧ b.bcap = bcap ∧ b.bbase = c.xb.toNat ∧ b.spill = 0
          ∧ (a.owner = some c.gid → a.hash = true → a.lb = lb → a.ways = ways → b.table = a.table)
          ∧ (a.owner ≠ some c.gid ∨ a.hash = false ∨ a.lb ≠ lb ∨ a.ways ≠ ways → b.table = [])
          ∧ ∀ x off, heldStash s' x off =
            if x = clu ∧ c.xb.toNat ≤ off ∧ off < c.xb.toNat + 16 then some 0 else heldStash s x off)
      ∧ (∀ d ta ra rb, c.instr = .tst d ta ra rb → s' = s)
      ∧ (∀ d ra, c.instr = .drain d ra ∨ c.instr = .drainT d ra → (∀ e, winGet b e = 0) ∧ b.table = [] ∧ b.owner = a.owner
        ∧ b.row0 = a.row0 ∧ b.col0 = a.col0 ∧ b.hash = a.hash)
      ∧ (∀ d ra rb, c.instr = .join d ra rb ∨ c.instr = .ains d ra rb → b = { a with poison := a.poison || c.bad })
      ∧ ∀ d vf ra, c.instr = .drainV d vf ra → c.members.Nodup → c.ranks.length = c.members.length →
        let r := c.xa.toNat % 2 ^ 24 - a.row0
        let col := c.xa.toNat / 2 ^ 24 % 2 ^ 24 - a.col0
        (∀ e, (∃ k ∈ c.ranks, (r + k) * 128 + col ≤ e ∧ e < (r + k) * 128 + col + 16) → winGet b e = 0)
        ∧ (∀ e, (∀ k ∈ c.ranks, ¬((r + k) * 128 + col ≤ e ∧ e < (r + k) * 128 + col + 16)) → winGet b e = winGet a e)
        ∧ ∀ (l : Loc) (t : Thread) (res : Result) (i k : Nat), thread? s l = some t → res ∈ t.pipe.results → c.members[i]? = some (t.uid, res.id) → c.ranks[i]? = some k →
          ∃ t' ws, thread? s' l = some t' ∧ t'.regs = t.regs ∧ { res with writes := ws } ∈ t'.pipe.results ∧ ws.length = 4
            ∧ ∀ q, q < 4 → ∃ w, ws[q]? = some w ∧ w.dest = .v (vf + BitVec.ofNat 6 q)
              ∧ ∀ e, e < 4 → elem 32 w.val e = winGet a ((r + k) * 128 + (col + 4 * q + e)))
    ∧ (∀ (a : Accum) (k : Nat) (v : BitVec 32),
      (a.hash = false → ∀ i, winIdx a (k / 2 ^ 24) (k % 2 ^ 24) = some i → ∃ b, accumulate a k v.toNat = some b
        ∧ winGet b i = (fpAdd .fp32 Rnd.rne (winGet a i) v.toNat).bits % 2 ^ 32 ∧ ∀ j, j ≠ i → winGet b j = winGet a j)
      ∧ (a.hash = true → ∀ i e, hashFind a k = some i → mget a.table i = some e → accumulate a k v.toNat =
        some { a with table := mset a.table i ⟨e.key, BitVec.ofNat 32 (fpAdd .fp32 Rnd.rne e.val.toNat v.toNat).bits⟩ })
      ∧ (a.hash = true → hashFind a k = none →
        (∀ i, hashFree a k = some i → accumulate a k v.toNat = some { a with table := mset a.table i ⟨k, v⟩ })
        ∧ (hashFree a k = none → accumulate a k v.toNat = none)))
    ∧ ∀ (s : State) (clu : Nat) (c : Coll), (unitOf s clu).cur = some c → c.waits = none → c.stalled = false → c.todo = [] →
      let a := (unitOf s clu).acc
      let goes := fun (d : Coll) (s' : State) => collStep s clu = some s' ∧ (unitOf s' clu).cur = some d
      (∀ k v rest, c.app = none → c.adds = (k, v) :: rest →
        (∀ b, accumulate a k v.toNat = some b → ∃ s', goes { c with adds := rest } s' ∧ (unitOf s' clu).acc = b)
        ∧ (accumulate a k v.toNat = none → ∃ s', goes { c with adds := rest, app := some ⟨k, v, none, false⟩ } s'
          ∧ (unitOf s' clu).acc = a))
      ∧ (∀ p, c.app = some p → let n := leNat (stashBytes s clu a.bbase 4)
        (p.count = none → a.bcap ≤ n → ∃ s', goes { c with stalled := true, since := s.cycle, checked := s.cycle } s')
        ∧ (p.count = none → n < a.bcap → ∃ s', goes { c with app := some { p with count := some n } } s')
        ∧ ∀ m, p.count = some m → let at' := a.bbase + 16 * (m + 1)
          (p.written = false → ∃ s', goes { c with app := some { p with written := true } } s' ∧ ∀ x off, heldStash s' x off =
            if x = clu ∧ at' ≤ off ∧ off < at' + 16 then some ((keyedRec p.key p.val.toNat).getD (off - at') 0) else heldStash s x off)
          ∧ (p.written = true → ∃ s', goes { c with app := none, spilled := c.spilled + 1 } s'
            ∧ (unitOf s' clu).acc.spill = m + 1 ∧ ∀ x off, heldStash s' x off = if x = clu ∧ a.bbase ≤ off ∧ off < a.bbase + 4 then
              some ((leBytes 4 (m + 1)).getD (off - a.bbase) 0) else heldStash s x off))
      ∧ ∀ d ra rb p x o, c.instr = .ains d ra rb → c.app = none → c.adds = [] → (c.rows.flatten.drop c.pos).head? = some p →
        p.place = .stash x o → let bs := stashBytes s x o p.len
        let bad := c.bad || stashPoisoned s x o p.len
        let w := keyedOf (leNat (bs.take 8)) (leNat (bs.drop 8))
        (∀ k v, w = some (false, k, v) → ∃ s', goes { c with adds := [(k, BitVec.ofNat 32 v)], pos := c.pos + 1, bad := bad } s')
        ∧ ((∀ k v, w ≠ some (false, k, v)) → ∃ s', goes { c with pos := c.rows.flatten.length, bad := bad } s')

/-- O10. Whenever it issues: MOV gives all 64 bits of its operand; LEA gives x[RA] plus the sign-extended
    immediate shifted left; LEA.PC gives the address of its own line plus the immediate; LI gives its 48-bit
    immediate sign-extended and LI.H replaces bits [63:48] of RD, both without taint. Modelled reading: LI.H
    clears taint (assumption log 11). Rules: R375, R369, R370, R183. -/
def Obligations.MovesCompute : Prop :=
  ∀ (d : Dep) (rd ra : Opr) (r : XReg) (sh : BitVec 3) (imm : BitVec 32) (i48 : BitVec 48) (i16 : BitVec 16),
    Computes (.mov d rd ra) rd (fun t => oval t ra)
    ∧ Computes (.lea d rd ra sh imm) rd (fun t => oval t ra + imm.signExtend 64 <<< sh.toNat)
    ∧ Computes (.leaPc d rd imm) rd (fun t => (t.pc &&& ~~~ 63) + imm.signExtend 64)
    ∧ ComputesClear (.li d rd i48) rd (fun _ => i48.signExtend 64)
    ∧ ComputesClear (.liH d r i16) (.x r) (fun t => i16 ++ (xval t r).setWidth 48)

/-- O11. Whenever CMP or CMPI issues, 1 or 0 is on its way to the result register, as the condition of R78 holds
    or not of the two operands of W bits (the immediate sign-extended), with the taint of the registers read and
    no flag; a false condition annuls the next SKIP instructions of the thread, and a true one none. Rules:
    R341, R78, R38, R183. -/
def Obligations.ComparesWriteAndAnnul : Prop :=
  ∀ (d : Dep) (wd : Wid) (c : Cond) (skip : BitVec 2) (rd : BitVec 4) (ra rb : Opr) (imm : BitVec 32) (s : State) (t : Thread),
    (Issues s t (.cmp d wd c skip rd ra rb) → exec (.cmp d wd c skip rd ra rb) s =
      .next (compareDone s t (.cmp d wd c skip rd ra rb) rd skip (condAt wd c (oval t ra) (oval t rb)) 0))
    ∧ (Issues s t (.cmpi d wd c skip rd ra imm) → exec (.cmpi d wd c skip rd ra imm) s =
      .next (compareDone s t (.cmpi d wd c skip rd ra imm) rd skip (condAt wd c (oval t ra) (imm.signExtend 64)) 0))

/-- O12. Whenever FCMP issues, it acts as CMP does with the condition of the FCMP column of R78 on the two
    operands of w bits, where -0 equals +0, a NaN makes the pair unordered, and other values are ordered by sign
    and magnitude. NV is set exactly when an operand is a signalling NaN; no other flag is set. Rules: R357,
    R78, R119. -/
def Obligations.FcmpOrdersByValue : Prop :=
  ∀ (d : Dep) (f : FWid) (c : FCond) (skip : BitVec 2) (rd : BitVec 4) (ra rb : Opr) (s : State) (t : Thread),
    Issues s t (.fcmp d f c skip rd ra rb) → exec (.fcmp d f c skip rd ra rb) s =
      .next (compareDone s t (.fcmp d f c skip rd ra rb) rd skip (fcondOn c (fwOrder f (oval t ra) (oval t rb)))
        (fwNv f (oval t ra) (oval t rb)))

/-- O13. Whenever FMIN or FMAX issues, its result is the smaller or the larger operand, bit for bit, -0 below
    +0, the other operand where one is a NaN and the canonical NaN where both are, with NV exactly for a
    signalling NaN. Whenever FSGN issues, its result is the first operand with the sign bit of the second, its
    inverse, or the XOR of both signs, with no flag. Rules: R359, R129, R122. -/
def Obligations.FpOrderAndSign : Prop :=
  ∀ (d : Dep) (f : FWid) (k : SgnOp) (rd ra rb : Opr),
    ComputesFlagged (.fmin d f rd ra rb) rd (fun t => (fwPick f false (oval t ra) (oval t rb), fwNv f (oval t ra) (oval t rb)))
    ∧ ComputesFlagged (.fmax d f rd ra rb) rd (fun t => (fwPick f true (oval t ra) (oval t rb), fwNv f (oval t ra) (oval t rb)))
    ∧ ComputesFlagged (.fsgn d f k rd ra rb) rd (fun t =>
        let a := oval t ra
        let b := oval t rb
        let sign := match k with
          | .copy => fwNeg f b
          | .neg => !fwNeg f b
          | .xor => fwNeg f a != fwNeg f b
        (BitVec.ofNat 64 (fwMag f a + if sign then 2 ^ (fwBits f - 1) else 0), 0))

/-- O14. In FP64, FP32, FP16 and BF16, in every rounding mode: a sum, difference, product, quotient or root with
    a NaN operand is the canonical NaN of the format, and NV is set exactly when an operand is a signalling NaN;
    a fused multiply-add with a NaN operand is the canonical NaN, and NV is set exactly when an operand is
    signalling or the product is an infinity times zero. Rules: R119, R127, R128. -/
def Obligations.FpNaNsAreCanonical : Prop :=
  ∀ (f : Fmt) (r : Rnd) (a b c : Nat), f.vecFloat = true →
    let sn := fun x => (numOf f x).snan
    let nan := fun x => (numOf f x).isNaN = true
    let inf := fun x => ∃ n, numOf f x = .inf n
    let zero := fun x => ∃ n e, numOf f x = .fin n 0 e
    (nan a ∨ nan b → fpAdd f r a b = ⟨canonNaN f, nvIf (sn a || sn b)⟩ ∧ fpSub f r a b = ⟨canonNaN f, nvIf (sn a || sn b)⟩
      ∧ fpMul f r a b = ⟨canonNaN f, nvIf (sn a || sn b)⟩ ∧ fpDiv f r a b = ⟨canonNaN f, nvIf (sn a || sn b)⟩)
    ∧ (nan a → fpSqrt f r a = ⟨canonNaN f, nvIf (sn a)⟩)
    ∧ (nan a ∨ nan b ∨ nan c → (fpFma f r a b c).bits = canonNaN f
      ∧ ((fpFma f r a b c).flags = flagNV ↔ sn a = true ∨ sn b = true ∨ sn c = true ∨ (inf a ∧ zero b) ∨ (zero a ∧ inf b))
      ∧ ((fpFma f r a b c).flags = flagNV ∨ (fpFma f r a b c).flags = 0))

/-- O15. In FP64, FP32, FP16 and BF16, and in every rounding mode and for every draw of RAND: rounding the value
    of any bits that are no NaN gives those bits, with no flag. Subnormal values are kept. Rules: R123, R124,
    R125, R118. -/
def Obligations.RoundingKeepsRepresentable : Prop :=
  ∀ (f : Fmt) (r : Rnd) (b : Nat), f.vecFloat = true → (numOf f b).isNaN = false →
    roundNum f r (numOf f b) = ⟨b % 2 ^ fmtWidth f, 0⟩

/-- O16. Whenever FADD, FSUB, FMUL, FFMA or FFMAI issues, its result of Fixed kind is the rounded sum,
    difference, product, or product plus addend of its operands, rounded in the mode of RM or of FPCTL, with its
    flags; FDIV and FSQRT give theirs as results that land later. RAND steps once under RS. Whenever one of the
    five special functions issues, its FP32 result and flags are on their way to RD. Zeros and infinities give
    the table of R135 with DZ and NV as it says; every NaN gives the canonical NaN, with NV exactly when it is
    signalling; LOG2 and RSQ of a negative non-zero finite value give the canonical NaN and NV. For finite
    operands the sum, difference, product and product plus addend are the exact ones, rounded once; quotient and
    root are rounded once from all their bits to beyond the precision and a last bit that tells whether anything
    is left; so are RCP and RSQ. EXP2 of an integer and LOG2 of a power of two round the exact result, and TANH
    is odd (the nearest value of the other results is not stated here). Rules: R356, R124, R126, R135, R354,
    R371, R383, R400. -/
def Obligations.FpOperationsComplete : Prop :=
  (∀ (d : Dep) (f : FWid) (rm : RM) (rd ra rb rc : Opr) (r a b : XReg) (imm : BitVec 32),
    ComputesRounded (.fadd d f rm rd ra rb) rm rd (fun t => fpAdd (fwidFmt f) (rndOf t rm false) (fwidBits f (oval t ra)) (fwidBits f (oval t rb)))
    ∧ ComputesRounded (.fsub d f rm rd ra rb) rm rd (fun t => fpSub (fwidFmt f) (rndOf t rm false) (fwidBits f (oval t ra)) (fwidBits f (oval t rb)))
    ∧ ComputesRounded (.fmul d f rm rd ra rb) rm rd (fun t => fpMul (fwidFmt f) (rndOf t rm false) (fwidBits f (oval t ra)) (fwidBits f (oval t rb)))
    ∧ ComputesRounded (.ffma d f rm rd ra rb rc) rm rd (fun t => fpFma (fwidFmt f) (rndOf t rm false) (fwidBits f (oval t ra)) (fwidBits f (oval t rb)) (fwidBits f (oval t rc)))
    ∧ ComputesRounded (.ffmai d f rm r ra imm) rm (.x r) (fun t => fpFma (fwidFmt f) (rndOf t rm false) (fwidBits f (oval t ra)) (widenImm f imm) (fwidBits f (xval t r)))
    ∧ ComputesRoundedLater (.fdiv d f rm r a b) rm r (fun t => fpDiv (fwidFmt f) (rndOf t rm false) (fwidBits f (xval t a)) (fwidBits f (xval t b)))
    ∧ ComputesRoundedLater (.fsqrt d f rm r a) rm r (fun t => fpSqrt (fwidFmt f) (rndOf t rm false) (fwidBits f (xval t a))))
    ∧ (∀ (d : Dep) (rd ra : XReg),
    (∀ s t, Issues s t (.exp2 d rd ra) → exec (.exp2 d rd ra) s = .next (variableDone s t (.exp2 d rd ra) [wrX rd (BitVec.ofNat 64 (fpExp2 (fwidBits .f32 (xval t ra))).bits)] (fpExp2 (fwidBits .f32 (xval t ra))).flags))
    ∧ (∀ s t, Issues s t (.log2 d rd ra) → exec (.log2 d rd ra) s = .next (variableDone s t (.log2 d rd ra) [wrX rd (BitVec.ofNat 64 (fpLog2 (fwidBits .f32 (xval t ra))).bits)] (fpLog2 (fwidBits .f32 (xval t ra))).flags))
    ∧ (∀ s t, Issues s t (.rcp d rd ra) → exec (.rcp d rd ra) s = .next (variableDone s t (.rcp d rd ra) [wrX rd (BitVec.ofNat 64 (fpRcp (fwidBits .f32 (xval t ra))).bits)] (fpRcp (fwidBits .f32 (xval t ra))).flags))
    ∧ (∀ s t, Issues s t (.rsq d rd ra) → exec (.rsq d rd ra) s = .next (variableDone s t (.rsq d rd ra) [wrX rd (BitVec.ofNat 64 (fpRsq (fwidBits .f32 (xval t ra))).bits)] (fpRsq (fwidBits .f32 (xval t ra))).flags))
    ∧ (∀ s t, Issues s t (.tanh d rd ra) → exec (.tanh d rd ra) s = .next (variableDone s t (.tanh d rd ra) [wrX rd (BitVec.ofNat 64 (fpTanh (fwidBits .f32 (xval t ra))).bits)] (fpTanh (fwidBits .f32 (xval t ra))).flags)))
    ∧ fpExp2 0x0000_0000 = ⟨0x3F80_0000, 0⟩
    ∧ fpExp2 0x8000_0000 = ⟨0x3F80_0000, 0⟩
    ∧ fpExp2 0x7F80_0000 = ⟨0x7F80_0000, 0⟩
    ∧ fpExp2 0xFF80_0000 = ⟨0, 0⟩
    ∧ fpLog2 0 = ⟨0xFF80_0000, flagDZ⟩
    ∧ fpLog2 0x8000_0000 = ⟨0xFF80_0000, flagDZ⟩
    ∧ fpLog2 0x7F80_0000 = ⟨0x7F80_0000, 0⟩
    ∧ fpLog2 0xFF80_0000 = ⟨0x7FC0_0000, flagNV⟩
    ∧ fpRcp 0 = ⟨0x7F80_0000, flagDZ⟩
    ∧ fpRcp 0x8000_0000 = ⟨0xFF80_0000, flagDZ⟩
    ∧ fpRcp 0x7F80_0000 = ⟨0, 0⟩
    ∧ fpRcp 0xFF80_0000 = ⟨0x8000_0000, 0⟩
    ∧ fpRsq 0 = ⟨0x7F80_0000, flagDZ⟩
    ∧ fpRsq 0x8000_0000 = ⟨0xFF80_0000, flagDZ⟩
    ∧ fpRsq 0x7F80_0000 = ⟨0, 0⟩
    ∧ fpRsq 0xFF80_0000 = ⟨0x7FC0_0000, flagNV⟩
    ∧ fpTanh 0 = ⟨0, 0⟩
    ∧ fpTanh 0x8000_0000 = ⟨0x8000_0000, 0⟩
    ∧ fpTanh 0x7F80_0000 = ⟨0x3F80_0000, 0⟩
    ∧ fpTanh 0xFF80_0000 = ⟨0xBF80_0000, 0⟩
    ∧ (∀ b, (numOf .fp32 b).isNaN = true → ∀ g ∈ [fpExp2, fpLog2, fpRcp, fpRsq, fpTanh], g b = ⟨0x7FC0_0000, nvIf (numOf .fp32 b).snan⟩)
    ∧ (∀ b m e, numOf .fp32 b = .fin true m e → m ≠ 0 →
      fpLog2 b = ⟨0x7FC0_0000, flagNV⟩ ∧ fpRsq b = ⟨0x7FC0_0000, flagNV⟩)
    ∧ (∀ (f : Fmt) (r : Rnd) (a b c : Nat) (na nb nc : Bool) (ma mb mc : Nat) (ea eb ec : Int),
      numOf f a = .fin na ma ea → numOf f b = .fin nb mb eb → numOf f c = .fin nc mc ec →
      let signed := fun (n : Bool) (v : Nat) => if n then -(v : Int) else v
      let exact := fun (n1 : Bool) (m1 : Nat) (e1 : Int) (n2 : Bool) (m2 : Nat) (e2 : Int) =>
        let q := min e1 e2
        let v := signed n1 (m1 * 2 ^ (e1 - q).toNat) + signed n2 (m2 * 2 ^ (e2 - q).toNat)
        roundNum f r (if v = 0 then .fin (if m1 = 0 ∧ m2 = 0 ∧ n1 = n2 then n1 else decide (r.mode = .rdn)) 0 0
          else .fin (decide (v < 0)) v.natAbs q)
      fpAdd f r a b = exact na ma ea nb mb eb ∧ fpSub f r a b = exact na ma ea (!nb) mb eb
      ∧ fpMul f r a b = roundNum f r (.fin (na != nb) (ma * mb) (ea + eb))
      ∧ fpFma f r a b c = exact (na != nb) (ma * mb) (ea + eb) nc mc ec
      ∧ (mb ≠ 0 → ∃ sc q : Nat, mb.log2 + 128 ≤ sc ∧ q / 2 = ma * 2 ^ sc / mb ∧ (q % 2 = 0 ↔ ma * 2 ^ sc % mb = 0)
        ∧ fpDiv f r a b = roundNum f r (.fin (na != nb) q (ea - eb - sc - 1)))
      ∧ (na = false → ma ≠ 0 → ∃ sc x : Nat, 256 ≤ sc ∧ (ea - sc) % 2 = 0 ∧ x * x ≤ ma * 2 ^ sc ∧ ma * 2 ^ sc < (x + 1) * (x + 1)
        ∧ fpSqrt f r a = roundNum f r (.fin false (2 * x + if x * x = ma * 2 ^ sc then 0 else 1) ((ea - sc) / 2 - 1))))
    ∧ ∀ (a m : Nat) (neg : Bool) (e : Int), numOf .fp32 a = .fin neg m e → m ≠ 0 →
      (∃ sc q : Nat, m.log2 + 128 ≤ sc ∧ q / 2 = 2 ^ 23 * 2 ^ sc / m ∧ (q % 2 = 0 ↔ 2 ^ 23 * 2 ^ sc % m = 0)
        ∧ fpRcp a = roundNum .fp32 Rnd.rne (.fin neg q (-23 - e - sc - 1)))
      ∧ (neg = false → ∃ (x m' : Nat) (e' : Int), e' % 2 = 0 ∧ (m' = m ∧ e' = e ∨ m' = 2 * m ∧ e' = e - 1)
        ∧ x * x * m' ≤ 2 ^ 512 ∧ 2 ^ 512 < (x + 1) * (x + 1) * m'
        ∧ fpRsq a = roundNum .fp32 Rnd.rne (.fin false (2 * x + if x * x * m' = 2 ^ 512 then 0 else 1) (-e' / 2 - 257)))
      ∧ (∀ k : Nat, (0 ≤ e → m * 2 ^ e.toNat = k) → (e < 0 → m = k * 2 ^ (-e).toNat) →
        fpExp2 a = roundNum .fp32 Rnd.rne (.fin false 1 (if neg then -(k : Int) else k)))
      ∧ (∀ k : Nat, neg = false → m = 2 ^ k → fpLog2 a = roundNum .fp32 Rnd.rne (.fin (decide (e + k < 0)) (e + k).natAbs 0))
      ∧ (a < 2 ^ 31 → fpTanh (a + 2 ^ 31) = ⟨(fpTanh a).bits + 2 ^ 31, (fpTanh a).flags⟩)

/-- O17. Whenever CVT issues, its result is the converted operand (sign-extended for an I target), with its
    flags, and RAND steps once under RS where the conversion rounds; CVT.V converts each element it has room
    for, each with its own draw, and clears the others; VQNT writes the block of elements and sends or writes
    its scale; VDQ writes the 32 values of a block. A conversion between integer formats without SAT keeps the
    low bits of the extended source and sets no flag. Modelled choice: a conversion to E8M0 draws no RAND
    (assumption log 50). Rules: R417, R418, R346, R126, R130, R133, R136, R137. -/
def Obligations.ConversionsComplete : Prop :=
  (∀ (d : Dep) (rm : RM) (sat : Bool) (sf tf f : Fmt) (rd ra : Opr) (vd va : VReg) (n : XReg) (q : PReg) (s : State) (t : Thread),
    (Issues s t (.cvt d rm sat sf tf rd ra) → exec (.cvt d rm sat sf tf rd ra) s =
      let r := cvtElem sf tf (rndOf t rm sat) ((oval t ra).toNat % 2 ^ fmtWidth sf)
      .next (fixedResult (afterPops s t (.cvt d rm sat sf tf rd ra))
        (stepRand (issuedThread s t (.cvt d rm sat sf tf rd ra)) rm (if cvtRounds sf tf then 1 else 0)) rd
        (if Fmt.signedInt tf then (BitVec.ofNat (fmtWidth tf) r.bits).signExtend 64 else BitVec.ofNat 64 r.bits)
        (readTaint t.regs (usesOf (.cvt d rm sat sf tf rd ra))) r.flags))
    ∧ (Issues s t (.cvtV d rm sat sf tf vd va) → ∃ (v : VWord) (fl : Flags), exec (.cvtV d rm sat sf tf vd va) s =
        .next (setThread (afterPops s t (.cvtV d rm sat sf tf vd va)) s.cur
          (fixedWrites (afterPops s t (.cvtV d rm sat sf tf vd va))
            (stepRand (issuedThread s t (.cvtV d rm sat sf tf vd va)) rm
              (if cvtRounds sf tf then 128 / max (fmtWidth sf) (fmtWidth tf) else 0)) [wrV vd v] fl))
      ∧ (∀ k, elem (fmtWidth tf) v k = if k < 128 / max (fmtWidth sf) (fmtWidth tf) then
          (cvtElem sf tf ⟨RMode.select rm t.csr.fpctl, (randUse (randDrawn (RMode.select rm t.csr.fpctl) t.csr.rand k)).toNat, sat⟩
            (elem (fmtWidth sf) (vval t va) k)).bits % 2 ^ fmtWidth tf else 0))
    ∧ (Issues s t (.vqnt d f vd va (.x n)) → exec (.vqnt d f vd va (.x n)) s =
      .next (vectorDone s t (.vqnt d f vd va (.x n))
        (blockWrites f vd (quantBlock f (blockValues t va)).2 ++ [wrX n (BitVec.ofNat 64 (quantBlock f (blockValues t va)).1)]) 0))
    ∧ (Issues s t (.vqnt d f vd va (.q q)) → exec (.vqnt d f vd va (.q q)) s =
      let p := sendWord (afterPops s t (.vqnt d f vd va (.q q))) s.cur (issuedThread s t (.vqnt d f vd va (.q q))) q false
        (BitVec.ofNat 64 (quantBlock f (blockValues t va)).1)
      .next (setThread p.1 s.cur (fixedWrites p.1 p.2 (blockWrites f vd (quantBlock f (blockValues t va)).2) 0)))
    ∧ (Issues s t (.vdq d f vd va ra) → ∃ ws : List Wr, exec (.vdq d f vd va ra) s = .next (vectorDone s t (.vdq d f vd va ra) ws 0)
      ∧ ws.length = 8 ∧ ∀ k, k < 32 → ∃ w, ws[k / 4]? = some w ∧ w.dest = .v (vd + BitVec.ofNat 6 (k / 4)) ∧ w.poison = false
        ∧ elem 32 w.val (k % 4) = dequant f ((oval t ra).toNat % 256)
          (if f = .e2m1 then elem 4 (vval t va) k else elem 8 (vval t (va + BitVec.ofNat 6 (k / 16))) (k % 16)) % 2 ^ 32))
    ∧ ∀ (sf tf : Fmt) (r : Rnd) (a : BitVec (fmtWidth sf)), sf.isInt = true → tf.isInt = true → r.sat = false →
      cvtElem sf tf r a.toNat =
        ⟨((if Fmt.signedInt sf then a.signExtend 64 else a.setWidth 64).setWidth (fmtWidth tf)).toNat, 0⟩

/-- O18. Whenever VADD, VSUB, VMUL, VFMA, VMIN, VMAX or VCMP issues, every element of the format gets the
    operation of its row on the elements of the sources (VFMA adds the old element of VD), an FP element rounded
    in the mode of FPCTL with its own draw of RAND; the flags are the OR of those of the elements; RAND steps
    once an FP element rounded, in ascending order. Rules: R411, R412, R413, R126. -/
def Obligations.VectorArithmeticCompletes : Prop :=
  ∀ (d : Dep) (f : Fmt) (c : FCond) (vd va vb : VReg),
    ComputesResults (.vadd d f vd va vb) f vd (if f.vecFloat then 128 / fmtWidth f else 0) (fun t k => if f.vecFloat then fpAdd f (elemRnd t k) (elem (fmtWidth f) (vval t va) k) (elem (fmtWidth f) (vval t vb) k) else elemAdd f (elemRnd t k) (elem (fmtWidth f) (vval t va) k) (elem (fmtWidth f) (vval t vb) k))
    ∧ ComputesResults (.vsub d f vd va vb) f vd (if f.vecFloat then 128 / fmtWidth f else 0) (fun t k => if f.vecFloat then fpSub f (elemRnd t k) (elem (fmtWidth f) (vval t va) k) (elem (fmtWidth f) (vval t vb) k) else elemSub f (elemRnd t k) (elem (fmtWidth f) (vval t va) k) (elem (fmtWidth f) (vval t vb) k))
    ∧ ComputesResults (.vmul d f vd va vb) f vd (if f.vecFloat then 128 / fmtWidth f else 0) (fun t k => if f.vecFloat then fpMul f (elemRnd t k) (elem (fmtWidth f) (vval t va) k) (elem (fmtWidth f) (vval t vb) k) else elemMul f (elemRnd t k) (elem (fmtWidth f) (vval t va) k) (elem (fmtWidth f) (vval t vb) k))
    ∧ ComputesResults (.vfma d f vd va vb) f vd (if f.vecFloat then 128 / fmtWidth f else 0) (fun t k => fpFma f (elemRnd t k) (elem (fmtWidth f) (vval t va) k) (elem (fmtWidth f) (vval t vb) k) (elem (fmtWidth f) (vval t vd) k))
    ∧ ComputesResults (.vmin d f vd va vb) f vd (0) (fun t k => if f.vecFloat then fpMinMax f false (elem (fmtWidth f) (vval t va) k) (elem (fmtWidth f) (vval t vb) k) else elemMin f (elemRnd t k) (elem (fmtWidth f) (vval t va) k) (elem (fmtWidth f) (vval t vb) k))
    ∧ ComputesResults (.vmax d f vd va vb) f vd (0) (fun t k => if f.vecFloat then fpMinMax f true (elem (fmtWidth f) (vval t va) k) (elem (fmtWidth f) (vval t vb) k) else elemMax f (elemRnd t k) (elem (fmtWidth f) (vval t va) k) (elem (fmtWidth f) (vval t vb) k))
    ∧ ComputesResults (.vcmp d c f vd va vb) f vd 0 (fun t k => if f.vecFloat then (⟨if (fpCompare f c (elem (fmtWidth f) (vval t va) k) (elem (fmtWidth f) (vval t vb) k)).1 then 2 ^ fmtWidth f - 1 else 0, (fpCompare f c (elem (fmtWidth f) (vval t va) k) (elem (fmtWidth f) (vval t vb) k)).2⟩ : FRes) else ⟨if execVcmp.intCompare f c (elem (fmtWidth f) (vval t va) k) (elem (fmtWidth f) (vval t vb) k) then 2 ^ fmtWidth f - 1 else 0, 0⟩)

/-- O19. For an integer format of width w: VADD, VSUB and VMUL give the sum, difference and product modulo 2^w;
    VMIN and VMAX choose, and VCMP compares, as signed integers for an I format and as unsigned ones for an N
    format; none of them sets a flag. Rules: R412, R413, R415, R121. -/
def Obligations.VectorIntegersAreModular : Prop :=
  ∀ (f : Fmt) (r : Rnd) (a b : BitVec (fmtWidth f)), f.isInt = true →
    let less := if Fmt.signedInt f then a.slt b else a.ult b
    let more := if Fmt.signedInt f then b.slt a else b.ult a
    elemAdd f r a.toNat b.toNat = ⟨(a + b).toNat, 0⟩ ∧ elemSub f r a.toNat b.toNat = ⟨(a - b).toNat, 0⟩
    ∧ elemMul f r a.toNat b.toNat = ⟨(a * b).toNat, 0⟩
    ∧ elemMin f r a.toNat b.toNat = ⟨(if more then b else a).toNat, 0⟩
    ∧ elemMax f r a.toNat b.toNat = ⟨(if less then b else a).toNat, 0⟩
    ∧ ∀ c : FCond, c ≠ .uo → c ≠ .ord → execVcmp.intCompare f c a.toNat b.toNat =
      fcondOn c (some (if less then .lt else if more then .gt else .eq))

/-- O20. Whenever VSHUF issues, element i of VD becomes element (VB_i mod E) of VA; whenever VSEL issues,
    element i becomes that of VA where the old element of VD is not zero and that of VB otherwise, every element
    being sampled at issue and copied bit for bit, whatever format it is read as; no flag is set. The example of
    VSHUF holds. Rules: R421, R422. -/
def Obligations.PermutesAndSelects : Prop :=
  (∀ (d : Dep) (f : Fmt) (vd va vb : VReg),
    ComputesElems (.vshuf d f vd va vb) (fmtWidth f) vd (fun t k =>
      elem (fmtWidth f) (vval t va) ((elem (fmtWidth f) (vval t vb) k) % (128 / fmtWidth f)))
    ∧ ComputesElems (.vsel d f vd va vb) (fmtWidth f) vd (fun t k => if (elem (fmtWidth f) (vval t vd) k) ≠ 0 then (elem (fmtWidth f) (vval t va) k) else (elem (fmtWidth f) (vval t vb) k)))
    ∧ ∀ (d : Dep) (s : State) (t : Thread), Issues s t (.vshuf d .i32 1 2 3) →
      vval t 2 = BitVec.ofNat 128 (10 + 20 * 2 ^ 32 + 30 * 2 ^ 64 + 40 * 2 ^ 96) →
      vval t 3 = BitVec.ofNat 128 (3 + 2 * 2 ^ 32 + 1 * 2 ^ 64 + 4 * 2 ^ 96) →
      exec (.vshuf d .i32 1 2 3) s = .next (vectorDone s t (.vshuf d .i32 1 2 3)
        [wrV 1 (BitVec.ofNat 128 (40 + 30 * 2 ^ 32 + 20 * 2 ^ 64 + 10 * 2 ^ 96))] 0)

/-- O21. Whenever it issues: VBCAST puts the low bits of the scalar into every element; VINS replaces one
    element and keeps the others; VEXT gives one element, zero-extended and without taint; VDOT writes bits
    [31:0] of VD, from the eight products and the addend VD[31:0] rounded once by RNE or, for I8, summed modulo
    2^32, and clears the others; VRED.ADD, VRED.MIN and VRED.MAX reduce the elements in ascending order, each
    step rounded with its own draw, into element 0 and clear the others. The rounded sum of VDOT: for finite
    terms the exact sum of the addend and the eight products, rounded once, a zero being −0 only when every term
    is −0; a NaN among the terms, or infinities of both signs, gives the canonical NaN, with NV for a signalling
    NaN, an infinity times zero or infinities of both signs; an infinity of one sign gives it. A reduction takes
    one element after another, each with the draw of its place and the flags ORed; its steps are those of VADD,
    VMIN and VMAX. Both examples hold. For integer formats VRED.ADD gives the sum modulo 2^w with no flag.
    Rules: R414, R416, R420, R142, R143, R126, R128, R413. -/
def Obligations.VectorMovesComplete : Prop :=
  (∀ (d : Dep) (size : Size) (lane : BitVec 4) (f : Fmt) (vd va vb : VReg) (rd ra : Opr) (s : State) (t : Thread),
    ComputesElems (.vbcast d size vd ra) (8 * sizeBytes size) vd (fun t _ => (oval t ra).toNat)
    ∧ ComputesElems (.vins d size lane vd ra) (8 * sizeBytes size) vd (fun t k =>
        if k = lane.toNat then (oval t ra).toNat else elem (8 * sizeBytes size) (vval t vd) k)
    ∧ ComputesClear (.vext d size lane rd va) rd (fun t =>
        ((vval t va >>> (8 * sizeBytes size * lane.toNat)).setWidth (8 * sizeBytes size)).setWidth 64)
    ∧ (Issues s t (.vdot d f vd va vb) → exec (.vdot d f vd va vb) s =
      let r : FRes := if f = .i8 then ⟨(BitVec.ofInt 32 (((vval t vd).setWidth 32).toInt
          + ((List.range 8).map fun i => ((vval t va).extractLsb' (8 * i) 8).toInt * ((vval t vb).extractLsb' (8 * i) 8).toInt).sum)).toNat, 0⟩
        else dotFloat f (vval t va) (vval t vb) ((vval t vd).setWidth 32).toNat
      .next (vectorDone s t (.vdot d f vd va vb) [wrV vd (BitVec.ofNat 128 r.bits)] r.flags))
    ∧ (Issues s t (.vredAdd d f vd va) → exec (.vredAdd d f vd va) s =
      let es := (List.range (lanesOf f)).map fun k => elem (fmtWidth f) (vval t va) k
      let r := reduceElems (modeOf t.csr.fpctl) (elemAdd f) t.csr.rand ⟨es.headD 0, 0⟩ es.tail
      .next (setThread (afterPops s t (.vredAdd d f vd va)) s.cur (fixedWrites (afterPops s t (.vredAdd d f vd va))
        (stepRand (issuedThread s t (.vredAdd d f vd va)) .dyn (if f.vecFloat then 128 / fmtWidth f - 1 else 0)) [wrV vd (BitVec.ofNat 128 r.bits)] r.flags)))
    ∧ (Issues s t (.vredMin d f vd va) → exec (.vredMin d f vd va) s =
      let es := (List.range (lanesOf f)).map fun k => elem (fmtWidth f) (vval t va) k
      let r := reduceElems (modeOf t.csr.fpctl) (elemMin f) t.csr.rand ⟨es.headD 0, 0⟩ es.tail
      .next (setThread (afterPops s t (.vredMin d f vd va)) s.cur (fixedWrites (afterPops s t (.vredMin d f vd va))
        (stepRand (issuedThread s t (.vredMin d f vd va)) .dyn (0)) [wrV vd (BitVec.ofNat 128 r.bits)] r.flags)))
    ∧ (Issues s t (.vredMax d f vd va) → exec (.vredMax d f vd va) s =
      let es := (List.range (lanesOf f)).map fun k => elem (fmtWidth f) (vval t va) k
      let r := reduceElems (modeOf t.csr.fpctl) (elemMax f) t.csr.rand ⟨es.headD 0, 0⟩ es.tail
      .next (setThread (afterPops s t (.vredMax d f vd va)) s.cur (fixedWrites (afterPops s t (.vredMax d f vd va))
        (stepRand (issuedThread s t (.vredMax d f vd va)) .dyn (0)) [wrV vd (BitVec.ofNat 128 r.bits)] r.flags))))
    ∧ (∀ (f : Fmt) (a b : VWord) (c : Nat),
      let ta := fun q => numOf f (elem (fmtWidth f) a q)
      let tb := fun q => numOf f (elem (fmtWidth f) b q)
      (∀ (n0 : Bool) (m0 : Nat) (e0 : Int) (na nb : Nat → Bool) (ma mb : Nat → Nat) (ea eb : Nat → Int),
        numOf .fp32 c = .fin n0 m0 e0 →
        (∀ q, q < 8 → ta q = .fin (na q) (ma q) (ea q) ∧ tb q = .fin (nb q) (mb q) (eb q)) →
        ∃ z : Int, z ≤ e0 ∧ (∀ q, q < 8 → z ≤ ea q + eb q) ∧
          let signed := fun (n : Bool) (v : Nat) => if n then -(v : Int) else v
          let v := signed n0 (m0 * 2 ^ (e0 - z).toNat)
            + ((List.range 8).map fun q => signed (na q != nb q) (ma q * mb q * 2 ^ (ea q + eb q - z).toNat)).sum
          dotFloat f a b c = roundNum .fp32 Rnd.rne (if v = 0 then
              .fin (n0 && m0 = 0 && (List.range 8).all fun q => (na q != nb q) && ma q * mb q = 0) 0 0
            else .fin (decide (v < 0)) v.natAbs z))
      ∧ (let terms := numOf .fp32 c :: (List.range 8).map fun q => (mulNum (ta q) (tb q)).1
        let invalid := (numOf .fp32 c).snan = true ∨ ∃ q, q < 8 ∧ (mulNum (ta q) (tb q)).2 = flagNV
        let nan := ∃ x ∈ terms, x.isNaN = true
        let both := .inf false ∈ terms ∧ .inf true ∈ terms
        (nan ∨ both → (dotFloat f a b c).bits = 0x7FC0_0000
          ∧ ((dotFloat f a b c).flags = flagNV ↔ invalid ∨ both) ∧ (¬(invalid ∨ both) → (dotFloat f a b c).flags = 0))
        ∧ (¬ nan → ¬ both → .inf false ∈ terms → dotFloat f a b c = ⟨0x7F80_0000, 0⟩)
        ∧ (¬ nan → ¬ both → .inf true ∈ terms → dotFloat f a b c = ⟨0xFF80_0000, 0⟩)))
    ∧ dotFloat .bf16 (BitVec.ofNat 128 0x3980398039803980_3980398039803980) (BitVec.ofNat 128 0x3900390039003900_3900390039003900)
      0x3F80_0000 = ⟨0x3F80_0002, 0⟩
    ∧ (∀ (m : RMode) (step : Rnd → Nat → Nat → FRes) (rand : BitVec 32) (acc : FRes) (es : List Nat) (e : Nat),
      let p := reduceElems m step rand acc es
      let r := step ⟨m, (randUse (randDrawn m rand es.length)).toNat, false⟩ p.bits e
      reduceElems m step rand acc [] = acc ∧ reduceElems m step rand acc (es ++ [e]) = ⟨r.bits, p.flags ||| r.flags⟩)
    ∧ (∀ (f : Fmt) (r : Rnd) (a b : Nat), f.vecFloat = true → elemAdd f r a b = fpAdd f r a b
      ∧ elemMin f r a b = fpMinMax f false a b ∧ elemMax f r a b = fpMinMax f true a b)
    ∧ reduceElems .rne (elemAdd .fp32) 0 ⟨0x3F80_0000, 0⟩ [0x3380_0000, 0x3380_0000, 0x3380_0000] = ⟨0x3F80_0000, flagNX⟩
    ∧ ∀ (f : Fmt) (m : RMode) (rand : BitVec 32) (a : Nat) (es : List Nat), f.isInt = true → a < 2 ^ fmtWidth f →
      reduceElems m (elemAdd f) rand ⟨a, 0⟩ es = ⟨(a + es.sum) % 2 ^ fmtWidth f, 0⟩

/-- O22. Whenever BR or CALL issues, the program counter becomes the target of R71: the line DISP lines away in
    [55:0], with the index in [5:0]. CALLR and JR go to x[REG] as read before x15 is written, RET to x15, and
    NOP to the next sequential instruction (R70). CALL and CALLR write the next sequential PC to x15 as a Fixed-
    kind result; its taint is that of the registers read. Nothing else happens but the issue. Rules: R338, R364,
    R386, R377, R70, R71. -/
def Obligations.ControlFlowGoes : Prop :=
  (∀ (d : Dep) (disp : BitVec 19) (idx : BitVec 5) (s : State) (t : Thread), Issues s t (.br d disp idx) →
      exec (.br d disp idx) s = .next (issuedAt s t (.br d disp idx) (branchTo t.pc disp idx)))
    ∧ (∀ (d : Dep) (disp : BitVec 19) (idx : BitVec 5) (s : State) (t : Thread), Issues s t (.call d disp idx) →
      exec (.call d disp idx) s = .next (linkedAt s t (.call d disp idx) (branchTo t.pc disp idx)))
    ∧ (∀ (d : Dep) (r : XReg) (s : State) (t : Thread), Issues s t (.callr d r) →
      exec (.callr d r) s = .next (linkedAt s t (.callr d r) (xval t r)))
    ∧ (∀ (d : Dep) (r : XReg) (s : State) (t : Thread), Issues s t (.jr d r) →
      exec (.jr d r) s = .next (issuedAt s t (.jr d r) (xval t r)))
    ∧ (∀ (b : Bool) (s : State) (t : Thread), Issues s t (.ret b) →
      exec (.ret b) s = .next (issuedAt s t (.ret b) (xval t 15)))
    ∧ ∀ (b : Bool) (s : State) (t : Thread), Issues s t (.nop b) →
      exec (.nop b) s = .next (issuedState s t (.nop b)) ∧ (issuedThread s t (.nop b)).pc = pcAfter t.pc s.curN

/-- O23. Whenever ERET issues, PC becomes TEPC, TCAUSE loses TH (bit 63) and its field SKP (bits 9:8) and keeps
    every other bit, LH among them, and the pending annulment count becomes SKP; this holds at every level and
    when TH is clear. Whenever RETH issues, PC becomes UEPC and TCAUSE loses LH (bit 62) and keeps every other
    bit. Registers, ports and the other control registers stay as they were. Rules: R113, R115, R352, R387. -/
def Obligations.ReturnsGoBack : Prop :=
  (∀ (b : Bool) (s : State) (t : Thread), Issues s t (.eret b) → ∃ t' : Thread,
      exec (.eret b) s = .next (setThread s s.cur t') ∧ t'.pc = t.csr.tepc
        ∧ t'.csr = { t.csr with tcause := t.csr.tcause &&& 0x7FFFFFFFFFFFFCFF }
        ∧ t'.pipe.annul = (t.csr.tcause.extractLsb' 8 2).toNat
        ∧ t'.regs = t.regs ∧ t'.ports = t.ports ∧ t'.mode = t.mode)
    ∧ ∀ (b : Bool) (s : State) (t : Thread), Issues s t (.reth b) → ∃ t' : Thread,
      exec (.reth b) s = .next (setThread s s.cur t') ∧ t'.pc = t.csr.uepc
        ∧ t'.csr = { t.csr with tcause := t.csr.tcause &&& 0xBFFFFFFFFFFFFFFF }
        ∧ t'.pipe.annul = t.pipe.annul
        ∧ t'.regs = t.regs ∧ t'.ports = t.ports ∧ t'.mode = t.mode

/-- O24. Whenever TRAP issues, the trap TRAP is raised with x[REG] as its value, at the PC of the instruction.
    HALT raises a halt without TVEC: cause 0x0F, TVAL 0, TEPC its own PC. YIELD ends the time slice of its
    thread and has no other effect; in slot 0, in a migration slot, in a member of a blocked gang and in one of
    an issued collective it has none. WAITF and WAITF.PARK, which issue once their register is full or their
    port holds a word, only go on. PFI changes neither its thread beyond the issue nor another one. EXIT of a
    thread in no group that has nothing to send any more (its replay windows are empty, and no COPYQ of it has
    still to send its token) ends the thread in a slot other than 0, after which the barriers of its gang are
    looked at; in slot 0 it halts. A thread that ends leaves its slot empty, and while its gang has other
    members it is gone from the live threads, which frees its TID, its accesses stay to be performed, and no
    other thread, no memory and no cache changes. Rules: R407, R361, R429, R353, R423, R380, R112. -/
def Obligations.ThreadsYieldWaitAndEnd : Prop :=
  (∀ (d : Dep) (r : XReg) (s : State) (t : Thread), Issues s t (.trap d r) →
      exec (.trap d r) s = .next (raiseTrap s s.cur t ⟨.trap, xval t r⟩))
    ∧ (∀ (b : Bool) (s : State) (t : Thread), Issues s t (.halt b) →
      exec (.halt b) s = .next (raiseReq s s.cur t
        { cause := 0x0F, tval := 0, pc := t.pc, skp := 0, alone := true, hi := 0 }))
    ∧ (∀ (b : Bool) (s : State) (t : Thread), Issues s t (.yield b) →
      exec (.yield b) s = .next (setThread s s.cur (
        if s.cur.slot = 0 ∨ 128 ≤ s.cur.slot ∨ gangBlocked s s.cur.clu t = true ∨ inCollective s s.cur.clu t = true then
          issuedThread s t (.yield b)
        else expire s s.cur (issuedThread s t (.yield b)))))
    ∧ (∀ (d : Dep) (r : Opr) (s : State) (t : Thread), Issues s t (.waitf d r) →
      exec (.waitf d r) s = .next (issuedState s t (.waitf d r)))
    ∧ (∀ (d : Dep) (r : Opr) (s : State) (t : Thread), Issues s t (.waitfPark d r) →
      exec (.waitfPark d r) s = .next (issuedState s t (.waitfPark d r)))
    ∧ (∀ (d : Dep) (disp : BitVec 19) (s : State) (t : Thread), Issues s t (.pfi d disp) →
      ∃ s', exec (.pfi d disp) s = .next s' ∧ s'.threads = (issuedState s t (.pfi d disp)).threads)
    ∧ (∀ (b : Bool) (s : State) (t : Thread), Issues s t (.exit b) → t.grp = none →
      t.ports.toList.all (fun p => p.win.isEmpty) = true →
      (∀ c ∈ s.flight.copies, c.uid = t.uid → c.deposited = false) →
        exec (.exit b) s = .next (
          if s.cur.slot = 0 then
            raiseReq s s.cur t { cause := 0x0F, tval := 0, pc := t.pc, skp := 0, alone := true, hi := 0 }
          else tryBarriers (endThread s s.cur t) t.csr.gang.toNat t.csr.lnch.toNat))
    ∧ ∀ (s : State) (l : Loc) (t : Thread), mwf s.threads = true →
      thread? (endThread s l t) l = none
      ∧ (noneEnded s → liveMembers (delThread s l) t.csr.gang.toNat t.csr.lnch.toNat ≠ [] →
        (endThread s l t).threads = mdel s.threads l.key ∧ (endThread s l t).store = s.store
        ∧ (t.pipe.acc ≠ [] → (l, t) ∈ (endThread s l t).flight.ghosts) ∧ sameMemory s (endThread s l t)
        ∧ (∀ u, u ∈ liveThreads (endThread s l t) ↔ u ∈ liveThreads (delThread s l))
        ∧ ∀ gang lnch, freeTid (endThread s l t) gang lnch = freeTid (delThread s l) gang lnch)

/-- O25. Whenever VLD, LD, LD.S or LDC issues, passes the checks of R149 at (x[BASE] + sext(DISP)) mod 2^64 and
    does not migrate, a load access of its bytes begins at the target, with its order, its scope, the key of the
    thread, and the replica of its die for a replicated page; it is marked tainted when BASE is (R184). The
    result will land under the tag SA: in RD, in RD and RD+1 for 16 bytes, or in VD; sign-extended for LD.S,
    tainted for LDC. Rules: R366, R367, R419, R149, R63, R163, R184. -/
def Obligations.LoadsBegin : Prop :=
  (∀ (d : Dep) (vd : VReg) (a : MemArg) (s : State) (t : Thread) (g : Target) (s1 : State),
      Reaches s t (.vld d vd a) g s1 →
      exec (.vld d vd a) s = .next (accessBegun s t (.vld d vd a) s1 (loadOf s1 t g 16 a false false) (some [wrV vd 0])))
    ∧ (∀ (d : Dep) (m : Bool) (size : Size) (rd : XReg) (a : MemArg) (s : State) (t : Thread) (g : Target) (s1 : State),
      Reaches s t (.ld d m size rd a) g s1 →
      exec (.ld d m size rd a) s = .next (accessBegun s t (.ld d m size rd a) s1
        (loadOf s1 t g (sizeBytes size) a false false) (some (resultRegs size rd))))
    ∧ (∀ (d : Dep) (m : Bool) (size : Size) (rd : XReg) (a : MemArg) (s : State) (t : Thread) (g : Target) (s1 : State),
      Reaches s t (.ldS d m size rd a) g s1 →
      exec (.ldS d m size rd a) s = .next (accessBegun s t (.ldS d m size rd a) s1
        (loadOf s1 t g (sizeBytes size) a true false) (some (resultRegs size rd))))
    ∧ ∀ (d : Dep) (size : Size) (rd : XReg) (a : MemArg) (s : State) (t : Thread) (g : Target) (s1 : State),
      Reaches s t (.ldc d size rd a) g s1 →
      exec (.ldc d size rd a) s = .next (accessBegun s t (.ldc d size rd a) s1
        (loadOf s1 t g (sizeBytes size) a false true) (some (resultRegs size rd)))

/-- O26. Whenever VST, ST or SIG with op 0 issues, passes the checks of R149 and does not migrate, with no
    poisoned register that it reads, a store access begins at the target, with its order and scope and the key
    of the thread: VST stores its v register, ST the low bytes of its x register, of the word popped from its
    port, or for 16 bytes of the pair of x registers, the first lower, and SIG, at an address outside the raw
    stash window, x[RB] as 8 bytes with a release at sys scope. The access is marked when its address is
    tainted, and when one of its operands is. Stores have no result. Whenever FENCE issues, a fence access of
    its kind and scope begins. Whenever PFD issues, its thread is as the issue leaves it but for at most one
    prefetch access, no other thread changes, no trap results, and no memory changes unless the host gives back
    what it wrote to a half of a page table. Rules: R397, R419, R393, R149, R184, R358, R178, R379. -/
def Obligations.StoresBegin : Prop :=
  (∀ (d : Dep) (vd : VReg) (a : MemArg) (s : State) (t : Thread) (g : Target) (s1 : State),
      Reaches s t (.vst d vd a) g s1 →
      exec (.vst d vd a) s = .next (accessBegun s t (.vst d vd a) s1
        { accessOf t .store g 16 a.ord a.scope a.base with data := vval t vd } none))
    ∧ (∀ (d : Dep) (m : Bool) (size : Size) (rd : Opr) (a : MemArg) (s : State) (t : Thread) (g : Target) (s1 : State),
      Proceeds s t (.st d m size rd a) g s1 →
      exec (.st d m size rd a) s = .next (accessBegun s t (.st d m size rd a) s1
        { accessOf t .store g (sizeBytes size) a.ord a.scope a.base with
          data := match size, rd with
            | .q, .x n => pairOf t n
            | _, _ => (oval t rd).setWidth 128 } none))
    ∧ (∀ (d : Dep) (ra rb : XReg) (s : State) (t : Thread) (g : Target) (s1 : State),
      Reaches s t (.sig d false ra rb) g s1 → (∀ c o, g.place ≠ .stash c o) →
      exec (.sig d false ra rb) s = .next (accessBegun s t (.sig d false ra rb) s1
        { accessOf t .store g 8 .rel .sys ra with data := (xval t rb).setWidth 128 } none))
    ∧ (∀ (d : Dep) (kind : FenceKind) (scope : Scope) (s : State) (t : Thread), Issues s t (.fence d kind scope) →
      exec (.fence d kind scope) s = .next (accessBegun s t (.fence d kind scope) (afterPops s t (.fence d kind scope))
        { Access.blank with kind := .fence kind, scope := scope } none))
    ∧ ∀ (d : Dep) (a : MemArg) (s : State) (t : Thread), Issues s t (.pfd d a) →
      ∃ s' acc, exec (.pfd d a) s = .next s' ∧ (s.store.hostHeld = [] → sameMemory s s') ∧ acc.length ≤ t.pipe.acc.length + 1
        ∧ (∀ x, x ∈ acc → x ∈ t.pipe.acc ∨ x.kind = .prefetch)
        ∧ s'.threads = (setThread s s.cur { issuedThread s t (.pfd d a) with
          pipe := { (issuedThread s t (.pfd d a)).pipe with acc := acc } }).threads

/-- O27. Whenever an AMO, CAS or SIG with op 1 issues, passes the checks of R149 with both permissions, does not
    migrate, reads no poisoned register and has a target at which it can be performed (for SIG, outside the raw
    stash window), one read-modify-write access begins there, with its operation, operand, order, scope and key;
    CAS carries x[RC] as the new value and x[RB] as the expected one, as pairs for 16 bytes. The old value will
    land in RD, in RD and RD+1 for 16 bytes, and nowhere for SIG. Rules: R330, R331, R339, R393, R158, R311. -/
def Obligations.AtomicsBegin : Prop :=
  (∀ (d : Dep) (a : AmoArg) (rd ra rb : XReg),
    BeginsAtomic (.amoAdd d a rd ra rb) .add a ra rb rd
    ∧ BeginsAtomic (.amoAnd d a rd ra rb) .and a ra rb rd
    ∧ BeginsAtomic (.amoOr d a rd ra rb) .or a ra rb rd
    ∧ BeginsAtomic (.amoXor d a rd ra rb) .xor a ra rb rd
    ∧ BeginsAtomic (.amoMin d a rd ra rb) .min a ra rb rd
    ∧ BeginsAtomic (.amoMinn d a rd ra rb) .minn a ra rb rd
    ∧ BeginsAtomic (.amoMax d a rd ra rb) .max a ra rb rd
    ∧ BeginsAtomic (.amoMaxn d a rd ra rb) .maxn a ra rb rd
    ∧ BeginsAtomic (.amoSwap d a rd ra rb) .swap a ra rb rd
    ∧ BeginsAtomic (.amoFadd d a rd ra rb) .fadd a ra rb rd)
    ∧ (∀ (d : Dep) (a : AmoArg) (rd ra rb rc : XReg) (s : State) (t : Thread) (g : Target) (s1 : State),
      Proceeds s t (.cas d a rd ra rb rc) g s1 → canComplete .cas g = true →
      exec (.cas d a rd ra rb rc) s = .next (accessBegun s t (.cas d a rd ra rb rc) s1
        { accessOf t (.rmw .cas) g (sizeBytes a.size) a.ord a.scope ra with
          data := if a.size = .q then pairOf t rc else (xval t rc).setWidth 128
          expd := if a.size = .q then pairOf t rb else (xval t rb).setWidth 128 }
        (some (resultRegs a.size rd))))
    ∧ ∀ (d : Dep) (ra rb : XReg) (s : State) (t : Thread) (g : Target) (s1 : State),
      Reaches s t (.sig d true ra rb) g s1 → (∀ c o, g.place ≠ .stash c o) → canComplete .add g = true →
      exec (.sig d true ra rb) s = .next (accessBegun s t (.sig d true ra rb) s1
        { accessOf t (.rmw .add) g 8 .rel .sys ra with data := (xval t rb).setWidth 128 } none)

/-- O28. A load, store, atomic or SIG that issues and fails a check of R149 raises the trap of that check, in
    the state that its translation leaves and with nothing else done. An AMO or CAS whose target is at a host
    and cannot be completed there raises HOSTAMO with the address. SIG with a raw stash address that passes them
    raises ADDR. One that passes these checks with a poisoned register among those that it reads, the data of
    ST, AMO and CAS included, raises POISON with its number. A .M form whose home cluster is another one: in a
    member of a convened group it raises MIGR; in a thread that holds a poisoned x register it raises POISON,
    with the lowest one; otherwise it departs for it, once its results have landed and its accesses are done,
    and changes nothing before that. Modelled choices: MIGR before POISON in a .M form, and where POISON stands
    among the traps (assumption log 10). Rules: R149, R158, R393, R397, R331, R339, R4, R43, R214, R303, R271. -/
def Obligations.AccessesTrap : Prop :=
  (∀ (i : Instr) (f : MemForm) (s : State) (t : Thread) (v : TrapVal) (s1 : State),
      Issues s t i → memForm t i = some f →
      accessCheck (afterPops s t i) (threadCtx s.cur t) f.addr f.n f.n f.need = (.error v, s1) →
      exec i s = .next (raiseTrap s1 s.cur t v))
    ∧ (∀ (i : Instr) (op : RmwOp) (f : MemForm) (s : State) (t : Thread) (g : Target) (s1 : State),
      Reaches s t i g s1 → atomicOf i = some op → memForm t i = some f → canComplete op g = false →
      exec i s = .next (raiseTrap s1 s.cur t ⟨.hostamo, BitVec.ofNat 64 f.addr⟩))
    ∧ (∀ (d : Dep) (add : Bool) (ra rb : XReg) (s : State) (t : Thread) (g : Target) (s1 : State) (c o : Nat),
      Reaches s t (.sig d add ra rb) g s1 → g.place = .stash c o →
      exec (.sig d add ra rb) s = .next (raiseTrap s1 s.cur t ⟨.addr, xval t ra⟩))
    ∧ (∀ (i : Instr) (s : State) (t : Thread) (g : Target) (s1 : State) (n : Word), Reaches s t i g s1 →
      (∀ op, atomicOf i = some op → canComplete op g = true) → poisonedReg t.regs (usesOf i) = some n →
      exec i s = .next (raiseTrap s1 s.cur t ⟨.poison, n⟩))
    ∧ ∀ (i : Instr) (f : MemForm) (s : State) (t : Thread) (g : Target) (s1 : State) (dest : Nat),
      Issues s t i → memForm t i = some f →
      accessCheck (afterPops s t i) (threadCtx s.cur t) f.addr f.n f.n f.need = (.ok g, s1) →
      migratesTo s1 s.cur t f.m g f.addr = some dest →
      exec i s = .next (
        if t.grp.isSome then raiseTrap s1 s.cur t ⟨.migr, 0⟩
        else match least ((List.range 64).filter fun n => n ≠ 0 && t.regs.xpoison.getLsbD n) with
          | some n => raiseTrap s1 s.cur t ⟨.poison, BitVec.ofNat 64 n⟩
          | none => if settled t s.cycle && t.pipe.acc.isEmpty then depart s1 s.cur t dest else s)

/-- O29. The check of an access of n bytes at a: ADDR when the first byte lies in no window, WINDOW when the
    last byte has other top bits, ADDR when the last byte lies beyond its window, ALIGN when a is not a multiple
    of the alignment; then a stash offset passes, and a global byte is translated: XLATE without a translation,
    ADDR for a leaf that names no memory, PROT without the permission, and otherwise the physical byte behind
    the leaf. TVAL is a. Modelled choice: ADDR where the last byte has the same top byte and an offset beyond
    its window (assumption log 51). Rules: R148, R149, R169. -/
def Obligations.AddressChecksInOrder : Prop :=
  ∀ (s : State) (c : Ctx) (a n align : Nat) (need : Need),
    (window c.wpriv a = .bad → accessCheck s c a n align need = (.error ⟨.addr, BitVec.ofNat 64 a⟩, s))
    ∧ (window c.wpriv a ≠ .bad → (a + n - 1) % 2 ^ 64 / 2 ^ 56 ≠ a / 2 ^ 56 →
      accessCheck s c a n align need = (.error ⟨.window, BitVec.ofNat 64 a⟩, s))
    ∧ ((a + n - 1) % 2 ^ 64 / 2 ^ 56 = a / 2 ^ 56 → window c.wpriv ((a + n - 1) % 2 ^ 64) = .bad →
      accessCheck s c a n align need = (.error ⟨.addr, BitVec.ofNat 64 a⟩, s))
    ∧ (window c.wpriv a ≠ .bad → window c.wpriv ((a + n - 1) % 2 ^ 64) ≠ .bad →
      (a + n - 1) % 2 ^ 64 / 2 ^ 56 = a / 2 ^ 56 →
      (a % align ≠ 0 → accessCheck s c a n align need = (.error ⟨.align, BitVec.ofNat 64 a⟩, s))
      ∧ (a % align = 0 →
        (∀ off, window c.wpriv a = .raw off →
          accessCheck s c a n align need = (.ok ⟨.stash (c.clu.getD 0) off, a, none⟩, s))
        ∧ ∀ va s1, window c.wpriv a = .glob va →
          (translate s c va = (.miss, s1) →
            accessCheck s c a n align need = (.error ⟨.xlate, BitVec.ofNat 64 a⟩, s1))
          ∧ (translate s c va = (.badLeaf, s1) →
            accessCheck s c a n align need = (.error ⟨.addr, BitVec.ofNat 64 a⟩, s1))
          ∧ ∀ e, translate s c va = (.leaf e, s1) →
            accessCheck s c a n align need =
              if (c.user && !e.user) || (need.r && !e.r) || (need.w && !e.w) then
                (.error ⟨.prot, BitVec.ofNat 64 a⟩, s1)
              else (.ok ⟨placeOf (normPa s1 (e.pa + (va - e.va))), va, some e⟩, s1)))

/-- O30. Whenever CVTA issues, the value on its way to RD is the address itself when its bits [63:56] are 0x00,
    the base of the private window plus [55:0] when they are 0xFF and the sum is below 2^56, and all ones
    otherwise. It translates nothing, makes no access and raises no trap. Rules: R347. -/
def Obligations.CvtaConverts : Prop :=
  ∀ (d : Dep) (rd ra : XReg), ComputesLater (.cvta d rd ra) (fun t =>
    let g := xval t ra
    let sum := t.csr.wpriv.toNat + (g &&& 0x00FFFFFFFFFFFFFF).toNat
    [wrX rd (
      if g >>> 56 = 0 then g
      else if g >>> 56 = 0xFF ∧ sum < 2 ^ 56 then t.csr.wpriv + (g &&& 0x00FFFFFFFFFFFFFF)
      else BitVec.allOnes 64)])

/-- O31. Whenever CSRR of an assigned register issues, at supervisor level for registers from 0x100 on, the
    value of the register is on its way to RD, without taint. Whenever CSRW of a writable register issues, at
    supervisor level for those the user may not write, the register takes x[REG]. A register of the thread read
    after a write of v holds v in its writable bits and zero in the others; FPCTL stores MODE 0 for the reserved
    modes; TCAUSE takes its bits [9:0] and keeps TH and LH; every other register of the thread stays as it was.
    Registers of the thread and of its place read as R109 says: CYCLE, one value on a die, is at most 32 ahead
    of the cycles since reset; LIGHT and PART read the light flag and the partition of the core; an event
    counter reads its count, at user level 0 while its selector does not let it be read, and takes what the
    supervisor writes; a selector stores the enables and the source, a source that is no source of a cluster as
    0. Modelled choices: the lead of a die is a free value, and a source of a die alone is reserved for a
    cluster (assumption log 108). Rules: R109, R110, R345, R320, R321. -/
def Obligations.CsrsReadAndWrite : Prop :=
  (∀ (d : Dep) (csr : BitVec 12) (rd : Opr) (s : State) (t : Thread), Issues s t (.csrr d csr rd) →
      csrAssigned csr.toNat = true → (0x100 ≤ csr.toNat → supLevel s.cur t = true) →
      exec (.csrr d csr rd) s = .next (clearDone s t (.csrr d csr rd) rd (csrRead s s.cur t csr.toNat)))
    ∧ (∀ (d : Dep) (csr : BitVec 12) (r : XReg) (s : State) (t : Thread), Issues s t (.csrw d csr r) →
      csrAssigned csr.toNat = true → csrReadOnly csr.toNat = false →
      (csrUserWrites csr.toNat = false → supLevel s.cur t = true) →
      exec (.csrw d csr r) s = .next (csrWrite s s.cur (issuedThread s t (.csrw d csr r)) csr.toNat (xval t r)))
    ∧ (∀ (s : State) (l : Loc) (t : Thread) (n : Nat) (m v : Word), csrMask n = some m →
      csrWrite s l t n v = setThread s l { t with csr := csrSet t.csr n v }
        ∧ csrValue s l { t with csr := csrSet t.csr n v } n = v &&& m)
    ∧ (∀ (s : State) (l : Loc) (t : Thread) (v : Word),
      csrValue s l { t with csr := csrSet t.csr 0x00A v } 0x00A = (if (v &&& 7).toNat < 5 then v &&& 0xFF else v &&& 0xF8)
        ∧ csrValue s l { t with csr := csrSet t.csr 0x00D v } 0x00D = (t.csr.tcause &&& 0xC000000000000000) ||| (v &&& 0x3FF))
    ∧ (∀ (s : State) (l : Loc) (t : Thread) (n k : Nat) (v : Word), k ≠ n →
      csrValue s l { t with csr := csrSet t.csr n v } k = csrValue s l t k)
    ∧ ∀ (s : State) (l : Loc) (t : Thread),
      csrValue s l t 0 = t.csr.tid.setWidth 64 ∧ csrValue s l t 1 = t.csr.gsz.setWidth 64
        ∧ csrValue s l t 2 = t.csr.gang.setWidth 64 ∧ csrValue s l t 3 = t.csr.lnch.setWidth 64
        ∧ csrValue s l t 4 = BitVec.ofNat 64 l.slot ∧ csrValue s l t 5 = BitVec.ofNat 64 l.core
        ∧ csrValue s l t 6 = BitVec.ofNat 64 (l.clu % 32) ∧ csrValue s l t 7 = BitVec.ofNat 64 (l.clu / 32)
        ∧ csrValue s l t 0x10 = t.csr.xferid ∧ csrValue s l t 0x12 = t.csr.qctlv
        ∧ csrValue s l t 0x14 = 0xFE00000000000000 ∧ csrValue s l t 0x16 = t.csr.grank
        ∧ csrValue s l t 0x17 = (if t.csr.light then 1 else 0) ∧ csrValue s l t 0x110 = (if (coreOf s l.coreIdx).p64 then 1 else 0)
        ∧ (∃ k, k ≤ 32 ∧ csrValue s l t 8 = BitVec.ofNat 64 (s.cycle + k)
          ∧ ∀ (m : Loc) (u : Thread), m.clu / 32 = l.clu / 32 → csrValue s m u 8 = csrValue s l t 8)
        ∧ ∀ (i : Nat) (h : i < 8) (v : Word), let k := cluster s l.clu
          csrRead s l t (0x20 + i) = (if supLevel l t = true ∨ k.evsel[i].getLsbD 17 = true then k.evc[i] else 0)
          ∧ csrRead s l t (0x102 + i) = k.evsel[i].setWidth 64
          ∧ (let c := cluster (csrWrite s l t (0x20 + i) v) l.clu
            c.evc = k.evc.set i v ∧ c.evsel = k.evsel)
          ∧ (let c := cluster (csrWrite s l t (0x102 + i) v) l.clu
            c.evsel = k.evsel.set i (if v.toNat % 65536 ∈ clusterSources then v.setWidth 18 else v.setWidth 18 &&& 0x30000)
              ∧ c.evc = k.evc)
          ∧ ∀ n, n = 0x20 + i ∨ n = 0x102 + i → (csrWrite s l t n v).threads = (setThread s l t).threads

/-- O32. REPART, SPILL, RSTR, XRD, XWR, XRES, TLBI and KEYRET at user level, with every register they name
    present, raise PRIV when their turn comes. So do CSRR of a register from 0x100 on and CSRW of a register
    that the user level may not write. CSRR and CSRW of an unassigned register, and CSRW of a read-only one,
    halt the thread as illegal. A thread runs at supervisor level exactly in slot 0 and outside a light handler
    (LH clear). Modelled choices: that last clause, which is also of a trap handler entered from a light handler
    (assumption log 67), and the order of OPERAND, PRIV and POISON (log 10). Rules: R111, R115, R110, R86, R444. -/
def Obligations.PrivilegeIsChecked : Prop :=
  (∀ (i : Instr) (s : State) (t : Thread), supervisorOnly i = true → thread? s s.cur = some t →
      canIssue s s.cur t i = true → supLevel s.cur t = false →
      absentReg t.csr.light (coreOf s s.cur.coreIdx).p64 (usesOf i) = none →
      exec i s = .next (raiseTrap s s.cur t ⟨.priv, 0⟩))
    ∧ (∀ (d : Dep) (csr : BitVec 12) (rd : Opr) (s : State) (t : Thread), Issues s t (.csrr d csr rd) →
      csrAssigned csr.toNat = true → 0x100 ≤ csr.toNat → supLevel s.cur t = false →
      exec (.csrr d csr rd) s = .next (raiseTrap s s.cur t ⟨.priv, 0⟩))
    ∧ (∀ (d : Dep) (csr : BitVec 12) (r : XReg) (s : State) (t : Thread), Issues s t (.csrw d csr r) →
      csrAssigned csr.toNat = true → csrReadOnly csr.toNat = false → csrUserWrites csr.toNat = false → supLevel s.cur t = false →
      exec (.csrw d csr r) s = .next (raiseTrap s s.cur t ⟨.priv, 0⟩))
    ∧ (∀ (d : Dep) (csr : BitVec 12) (rd : Opr) (s : State) (t : Thread), thread? s s.cur = some t →
      canIssue s s.cur t (.csrr d csr rd) = true → csrAssigned csr.toNat = false →
      exec (.csrr d csr rd) s = .next (raiseIllegal s s.cur t (Instr.csrr d csr rd).word))
    ∧ (∀ (d : Dep) (csr : BitVec 12) (r : XReg) (s : State) (t : Thread), thread? s s.cur = some t →
      canIssue s s.cur t (.csrw d csr r) = true → csrAssigned csr.toNat = false ∨ csrReadOnly csr.toNat = true →
      exec (.csrw d csr r) s = .next (raiseIllegal s s.cur t (Instr.csrw d csr r).word))
    ∧ ∀ (l : Loc) (t : Thread), supLevel l t = true ↔ l.slot = 0 ∧ t.csr.tcause.getLsbD 62 = false

/-- O33. REPART on a quiescent core sets the partition, zeroes the registers and port descriptors of the issuer
    and lands 0; otherwise it lands 1, and nothing else changes. SPILL lands 1 for stray bits, an empty slot or
    a thread never saved, 2 without room, 3 for a thread being saved; otherwise it queues the save, and its
    result waits for it. RSTR lands 1 without such a record, 3 for one being restored, 2 without a slot;
    otherwise it puts the thread into the slot of R292 and lands the slot; a record that it names is held no
    longer. XRD lands the item of the halted thread that XWIN names, and XWR writes it: x and v registers, port
    descriptors, the full, taint and poison bits, control registers. They raise OPERAND with the index for one
    not listed, not writable by XWR, or absent in that thread, and with XWIN without such a thread. XRES raises
    OPERAND with a control word that has reserved bits, with XWIN without a halted thread, and with the control
    word when ACT = 2 cannot be delivered; otherwise it clears XWIN.V and the thread resumes, every tag FREE:
    ACT 0 at TEPC with the annulment count of TCAUSE[9:8], which is cleared, ACT 1 after TEPC with one less, ACT
    2 in its handler at TVEC with the saved trap, ACT 3 as by EXIT. A PC with a top byte other than 0, one
    without a translation or a permission to fetch, and a malformed line halt it again, with IFETCH or as
    illegal. Modelled choices: SPILL tells 2 before 3, and RSTR restores in the step that issues it (assumption
    log 24); ACT 1 looks at no line that the page denies (log 96). Rules: R50, R385, R389, R390, R299, R427,
    R300, R428, R444, R353, R70. -/
def Obligations.SupervisorInstructionsComplete : Prop :=
  (∀ (d : Dep) (rd : XReg) (p : Bool) (s : State) (t : Thread), Issues s t (.repart d rd p) →
      (quiescent s s.cur t = false →
        exec (.repart d rd p) s = .next (variableDone s t (.repart d rd p) [wrX rd 1] 0))
      ∧ (quiescent s s.cur t = true → ∃ s' t', exec (.repart d rd p) s = .next s'
        ∧ (coreOf s' s.cur.coreIdx).p64 = p ∧ s'.threads = (setThread s s.cur t').threads
        ∧ t'.regs = Regs.zero ∧ (∀ q, (portOf t' q).desc = 0) ∧ t'.csr = t.csr ∧ t'.pc = pcAfter t.pc s.curN
        ∧ (∀ k : BitVec 3, k ≠ d.sa → tagOf t' k = .free)
        ∧ ∃ r ∈ t'.pipe.results, r.tag = d.sa ∧ r.writes = [wrX rd 0] ∧ r.ready = true))
    ∧ (∀ (d : Dep) (rd ra : XReg) (s : State) (t : Thread), Issues s t (.spill d rd ra) →
      let i : Instr := .spill d rd ra
      let a := (xval t ra).toNat
      let l : Loc := ⟨s.cur.clu, a / 2 ^ 8 % 4, a % 2 ^ 8⟩
      let done := fun (k : Nat) => exec i s = .next (variableDone s t i [wrX rd (BitVec.ofNat 64 (k * 2 ^ 56))] 0)
      (2 ^ 10 ≤ a ∨ thread? s l = none → done 1)
      ∧ ∀ u, a < 2 ^ 10 → thread? s l = some u →
        (neverSaved s l u = true → done 1)
        ∧ (neverSaved s l u = false → hasRoom s l u = false → done 2)
        ∧ (neverSaved s l u = false → hasRoom s l u = true → (∃ r ∈ (cluster s s.cur.clu).saves, r.uid = u.uid) → done 3)
        ∧ (neverSaved s l u = false → hasRoom s l u = true → (∀ r ∈ (cluster s s.cur.clu).saves, r.uid ≠ u.uid) →
          ∃ s' t', exec i s = .next s' ∧ s'.threads = (setThread s s.cur t').threads
            ∧ t'.pipe.results = t.pipe.results ++ [⟨s.nextId, d.sa, [wrX rd 0], 0, false⟩] ∧ t'.regs = t.regs
            ∧ (cluster s' s.cur.clu).saves = (cluster s s.cur.clu).saves ++ [⟨u.uid, some (t.uid, s.nextId)⟩]))
    ∧ (∀ (d : Dep) (rd ra : XReg) (s : State) (t : Thread), Issues s t (.rstr d rd ra) →
      let i : Instr := .rstr d rd ra
      let a := (xval t ra).toNat
      ((2 ^ 20 ≤ a ∨ mget (cluster s s.cur.clu).heath a = none) →
        exec i s = .next (variableDone s t i [wrX rd (BitVec.ofNat 64 (2 ^ 56))] 0))
      ∧ ∀ r, a < 2 ^ 20 → mget (cluster s s.cur.clu).heath a = some r →
        let r1 := { r with held := false }
        let s1 := setCluster s s.cur.clu { cluster s s.cur.clu with heath := mset (cluster s s.cur.clu).heath a r1 }
        (r.busy = true → exec i s = .next (variableDone s1 t i [wrX rd (BitVec.ofNat 64 (3 * 2 ^ 56))] 0))
        ∧ (r.busy = false → restoreSlot s1 s.cur.clu r1 = none →
          exec i s = .next (variableDone s1 t i [wrX rd (BitVec.ofNat 64 (2 ^ 57))] 0))
        ∧ ∀ l, r.busy = false → restoreSlot s1 s.cur.clu r1 = some l →
          exec i s = .next (restoreAt (variableDone s1 t i [wrX rd (BitVec.ofNat 64 (l.core * 256 + l.slot))] 0)
            s.cur.clu a r1 l))
    ∧ (∀ (d : Dep) (rd ra rb : XReg) (s : State) (t : Thread) (i : Instr),
      i = .xrd d rd ra ∨ i = .xwr d ra rb → Issues s t i →
      (itemOf (xval t ra).toNat = none → exec i s = .next (raiseTrap s s.cur t ⟨.operand, xval t ra⟩))
      ∧ ∀ it, itemOf (xval t ra).toNat = some it →
        (i = .xwr d ra rb → itemFixed it = true → exec i s = .next (raiseTrap s s.cur t ⟨.operand, xval t ra⟩))
        ∧ ((i = .xwr d ra rb → itemFixed it = false) →
          (windowThread s s.cur t = none → exec i s = .next (raiseTrap s s.cur t ⟨.operand, t.csr.xwin⟩))
          ∧ ∀ m u, windowThread s s.cur t = some (m, u) →
            (lacksItem s m u it = true → exec i s = .next (raiseTrap s s.cur t ⟨.operand, xval t ra⟩))
            ∧ (lacksItem s m u it = false →
              (i = .xrd d rd ra → exec i s = .next (variableDone s t i [wrX rd (readItem s m u it)] 0))
              ∧ (i = .xwr d ra rb → exec i s = .next (writeItem (issuedState s t i) m u (xval t rb) it)))))
    ∧ (∀ (s : State) (l : Loc) (t : Thread) (m : Loc) (u : Thread), windowThread s l t = some (m, u) ↔
      l.clusterSup = true ∧ t.csr.xwin.getLsbD 63 = true
        ∧ m = ⟨l.clu, t.csr.xwin.toNat / 2 ^ 8 % 4, t.csr.xwin.toNat % 2 ^ 8⟩ ∧ thread? s m = some u ∧ u.mode ≠ .running)
    ∧ (∀ (s : State) (m : Loc) (u : Thread) (n : XReg) (w : Word),
      itemOf n.toNat = some (.x n) ∧ readItem s m u (.x n) = xval u n
        ∧ (n ≠ 0 → ∃ u', writeItem s m u w (.x n) = setThread s m u' ∧ xval u' n = w ∧ (∀ k, k ≠ n → xval u' k = xval u k)
          ∧ u'.regs.full.getLsbD n.toNat = true ∧ u'.csr = u.csr ∧ u'.pc = u.pc))
    ∧ (∀ (s : State) (m : Loc) (u : Thread) (w : Word) (q : PReg) (v : VReg) (hi : Bool),
      (itemOf (0x40 + q.toNat) = some (.q q) ∧ readItem s m u (.q q) = (portOf u q).desc.setWidth 64
        ∧ writeItem s m u w (.q q) = setThread s m (setPort u q { portOf u q with desc := w.setWidth 32 }))
      ∧ (itemOf (0x80 + 2 * v.toNat + hi.toNat) = some (.v v hi)
        ∧ readItem s m u (.v v hi) = (vval u v).extractLsb' (if hi then 64 else 0) 64
        ∧ ∃ u', writeItem s m u w (.v v hi) = setThread s m u'
          ∧ vval u' v = (if hi then w ++ (vval u v).extractLsb' 0 64 else (vval u v).extractLsb' 64 64 ++ w)
          ∧ (∀ k, k ≠ v → vval u' k = vval u k) ∧ u'.regs.x = u.regs.x ∧ u'.csr = u.csr ∧ u'.pc = u.pc)
      ∧ (itemOf 0x101 = some .full ∧ readItem s m u .full = u.regs.full &&& ~~~ 1#64)
      ∧ (itemOf 0x102 = some .taint ∧ readItem s m u .taint = u.regs.taint &&& ~~~ 1#64
        ∧ writeItem s m u w .taint = setThread s m { u with regs := { u.regs with taint := w &&& ~~~ 1#64 } })
      ∧ (itemOf 0x103 = some .xpoison ∧ readItem s m u .xpoison = u.regs.xpoison &&& ~~~ 1#64
        ∧ writeItem s m u w .xpoison = setThread s m { u with regs := { u.regs with xpoison := w &&& ~~~ 1#64 } })
      ∧ (itemOf 0x104 = some .vpoison ∧ readItem s m u .vpoison = u.regs.vpoison
        ∧ writeItem s m u w .vpoison = setThread s m { u with regs := { u.regs with vpoison := w } })
      ∧ ∀ n, csrAssigned n = true → itemOf (0x400 + n) = some (.csr n) ∧ readItem s m u (.csr n) = csrValue s m u n
        ∧ (itemFixed (.csr n) = false → csrReadOnly n = false → writeItem s m u w (.csr n) = csrWrite s m u n w))
    ∧ (∀ (d : Dep) (r : XReg) (s : State) (t : Thread), Issues s t (.xres d r) →
      (4 ≤ (xval t r).toNat → exec (.xres d r) s = .next (raiseTrap s s.cur t ⟨.operand, xval t r⟩))
      ∧ ((xval t r).toNat < 4 →
        (windowThread s s.cur t = none → exec (.xres d r) s = .next (raiseTrap s s.cur t ⟨.operand, t.csr.xwin⟩))
        ∧ ∀ m u, windowThread s s.cur t = some (m, u) →
          ((xval t r).toNat = 2 → u.csr.tvec = 0 ∨ u.csr.tcause.getLsbD 63 = true →
            exec (.xres d r) s = .next (raiseTrap s s.cur t ⟨.operand, xval t r⟩))
          ∧ (((xval t r).toNat = 2 → u.csr.tvec ≠ 0 ∧ u.csr.tcause.getLsbD 63 = false) →
            exec (.xres d r) s = .next (resumeThread (setThread s s.cur { issuedThread s t (.xres d r) with
              csr := { t.csr with xwin := t.csr.xwin &&& 0x7FFFFFFFFFFFFFFF } }) m u (xval t r).toNat))))
    ∧ ∀ (s : State) (m : Loc) (u : Thread),
      let again := fun (x : State) (cause pc : Word) => ∃ u', thread? x m = some u' ∧ u'.mode = .halted 0 ∧ u'.csr.tepc = pc
        ∧ u'.csr.tval = pc ∧ u'.csr.tcause &&& 0xFF = cause ∧ u'.regs = u.regs
      let goes := fun (x s1 : State) (pc : Word) (n : Nat) => ∃ u', x = setThread s1 m u' ∧ u'.mode = .running
        ∧ u'.pc = pc ∧ u'.regs = u.regs ∧ u'.ports = u.ports
        ∧ u'.csr = { u.csr with tcause := u.csr.tcause &&& 0xFFFFFFFFFFFFFCFF }
        ∧ u'.pipe.annul = n ∧ u'.pipe.hist = [] ∧ ∀ k, tagOf u' k = .free
      let lands := fun (x s0 : State) (pc : Word) (n : Nat) => let c := threadCtx m u
        (pc.toNat / 2 ^ 56 ≠ 0 → again x 7 pc)
        ∧ (pc.toNat / 2 ^ 56 = 0 →
          (∀ s1, translate s0 c (pcLine pc) = (.miss, s1) ∨ translate s0 c (pcLine pc) = (.badLeaf, s1) → again x 7 pc)
          ∧ ∀ e s1, translate s0 c (pcLine pc) = (.leaf e, s1) →
            (fetchAllowed c e = true → goes x s1 pc n)
            ∧ (fetchAllowed c e = false → let k := (codeFetch s1 m c.key (readPa s1 c e (pcLine pc))).1
              again x (if (lineAt k.bytes 0).isOk then 7 else 1) pc))
      lands (resumeThread s m u 0) s u.csr.tepc (u.csr.tcause.extractLsb' 8 2).toNat
      ∧ (∀ s1, lineOfPc s m u u.csr.tepc = (none, s1) → again (resumeThread s m u 1) 7 u.csr.tepc)
      ∧ (∀ k s1, lineOfPc s m u u.csr.tepc = (some k, s1) →
        (∀ e, lineAt k.bytes 0 = .error e → again (resumeThread s m u 1) 1 u.csr.tepc)
        ∧ ∀ w n, lineAt k.bytes 0 = .ok (w, n) →
          lands (resumeThread s m u 1) s1 (pcAfter u.csr.tepc n) ((u.csr.tcause.extractLsb' 8 2).toNat - 1))
      ∧ (u.csr.tvec ≠ 0 → u.csr.tcause.getLsbD 63 = false → ∃ u', resumeThread s m u 2 = setThread s m u'
        ∧ u'.mode = .running ∧ u'.pc = u.csr.tvec ∧ u'.regs = u.regs ∧ (∀ k, tagOf u' k = .free)
        ∧ u'.csr = { u.csr with tcause := u.csr.tcause ||| 0x8000000000000000 })
      ∧ (u.grp = none → m.slot ≠ 0 → u.ports.toList.all (fun p => p.win.isEmpty) = true →
        (∀ c ∈ s.flight.copies, c.uid = u.uid → c.deposited = false) →
        resumeThread s m u 3 = tryBarriers (endThread (setThread s m (resume u)) m (resume u)) u.csr.gang.toNat u.csr.lnch.toNat)

/-- O34. Whenever TLBI issues, no TLB of the package holds an entry that its kind removes, every other entry
    stays, no cached byte changes, and its thread is held: a thread held for some accesses issues nothing while
    one of them is to be performed, and those of TLBI include every outstanding access of a thread in a slot
    that was translated through a removed entry. Kind page with bits [63:56] of the address not 0x00 raises
    ADDR. Whenever KEYRET issues, its token register turns empty, a full fence at sys scope begins, and the
    retirement of the key waits its turn. Modelled choice: TLBI waits at issue for the accesses of its own
    thread (assumption log 75). Rules: R402, R403, R365, R166. -/
def Obligations.TranslationAndKeyInstructionsComplete : Prop :=
  (∀ (d : Dep) (ra rb : XReg) (kind : TlbiKind) (s : State) (t : Thread), Issues s t (.tlbi d ra rb kind) →
      (kind = .page → (xval t ra).toNat / 2 ^ 56 ≠ 0 →
        exec (.tlbi d ra rb kind) s = .next (raiseTrap s s.cur t ⟨.addr, xval t ra⟩))
      ∧ ((kind = .page → (xval t ra).toNat / 2 ^ 56 = 0) → ∃ s', exec (.tlbi d ra rb kind) s = .next s'
        ∧ s'.store.home = s.store.home
        ∧ (∀ c, (cluster s' c).view = (cluster s c).view ∧ (cluster s' c).stash = (cluster s c).stash)
        ∧ (∀ c e, e ∈ (cluster s' c).tlb ↔ e ∈ (cluster s c).tlb
            ∧ tlbiHits kind (xval t ra).toNat ((xval t rb).toNat % 4096) e = false)
        ∧ (∀ k e, e ∈ (dieOf s' k).tlb ↔ e ∈ (dieOf s k).tlb
            ∧ tlbiHits kind (xval t ra).toNat ((xval t rb).toNat % 4096) e = false)
        ∧ ∃ users, s'.threads = (setThread s s.cur { issuedThread s t (.tlbi d ra rb kind) with
            pipe := { (issuedThread s t (.tlbi d ra rb kind)).pipe with block := some (.all users) } }).threads
          ∧ ∀ x ∈ s.threads, ∀ a ∈ x.2.pipe.acc, ∀ e, a.page = some e → e ∈ allEntries s →
            tlbiHits kind (xval t ra).toNat ((xval t rb).toNat % 4096) e = true → (x.2.uid, a.id) ∈ users))
    ∧ (∀ (s : State) (l : Loc) (t : Thread) (d : Dep) (ra rb : XReg) (kind : TlbiKind),
      t.pipe.acc ≠ [] → canIssue s l t (.tlbi d ra rb kind) = false)
    ∧ (∀ (s : State) (l : Loc) (t : Thread) (i : Instr) (users : List (Nat × Nat)), t.pipe.block = some (.all users) →
      (∃ p ∈ users, accPending s p = true) → canIssue s l t i = false)
    ∧ ∀ (d : Dep) (rd ra : XReg) (s : State) (t : Thread), Issues s t (.keyret d rd ra) →
      ∃ s' t', exec (.keyret d rd ra) s = .next s' ∧ s'.threads = (setThread s s.cur t').threads
        ∧ t'.regs = t.regs.setFull rd false
        ∧ (∃ a ∈ t'.pipe.acc, a.id = s.nextId ∧ a.kind = .fence .full ∧ a.scope = .sys)
        ∧ s'.flight.keyrets = s.flight.keyrets ++ [⟨t.uid, rd, (xval t ra).toNat, s.nextId⟩]

/-- O35. LDS of a word that has a home in this package, into a slot neither PEND nor SUB, empties its token
    register, clears FULL, OVR, SEQ and VALUE, sets SCOPE, KEY and PEND, and sends a subscribe request to the
    home slice; a busy slot completes the token with 2 and a word without such a home with 3; a raw stash
    address raises ADDR, and a failed check its trap. UNSUB of a pending slot completes its token with 2, of an
    idle one with 1, and otherwise sets PEND and sends a removal to the slice of the subscription. TAKE of a
    full slot lands VALUE in RD, and with .S OVR and SEQ in RB, clears FULL and OVR, and begins an acquire at
    the scope of the slot; TAKE of an idle slot lands 0, and with .S bit 17 and SEQ. Rules: R198, R207, R410,
    R205, R399, R102. -/
def Obligations.StandingLoadInstructionsComplete : Prop :=
  (∀ (d : Dep) (rd : XReg) (a : MemArg) (s : State) (t : Thread), Issues s t (.lds d rd a) →
      (addrOf t a / 2 ^ 56 = 0xFE →
        exec (.lds d rd a) s = .next (raiseTrap s s.cur t ⟨.addr, BitVec.ofNat 64 (addrOf t a)⟩))
      ∧ (∀ v s1, addrOf t a / 2 ^ 56 ≠ 0xFE →
        accessCheck s (threadCtx s.cur t) (addrOf t a) 8 8 ⟨true, false⟩ = (.error v, s1) →
        exec (.lds d rd a) s = .next (raiseTrap s1 s.cur t v))
      ∧ ∀ g s1, addrOf t a / 2 ^ 56 ≠ 0xFE →
        accessCheck s (threadCtx s.cur t) (addrOf t a) 8 8 ⟨true, false⟩ = (.ok g, s1) →
        let k := slotOf s s.cur.clu (xval t rd)
        let t2 := emptyToken (issuedThread s t (.lds d rd a)) rd
        (k.pend = true ∨ k.sub = true →
          exec (.lds d rd a) s = .next (sendToken (setThread s1 s.cur t2) t.uid rd 2 none none))
        ∧ (k.pend = false → k.sub = false → (∀ pa, g.place = .mem pa → hasHome (normPa s1 pa) = false) →
          exec (.lds d rd a) s = .next (sendToken (setThread s1 s.cur t2) t.uid rd 3 none none))
        ∧ ∀ pa, k.pend = false → k.sub = false → g.place = .mem pa → hasHome (normPa s1 pa) = true →
          ∃ s' t' b, exec (.lds d rd a) s = .next s' ∧ s'.threads = (setThread s s.cur t').threads ∧ t'.regs = t2.regs
            ∧ slotOf s' s.cur.clu (xval t rd) = { k with
              full := false, ovr := false, seq := 0, value := 0, poison := false, scope := scopeBits a.scope
              key := t.csr.keyid, pend := true }
            ∧ s'.flight.subMsgs = s.flight.subMsgs ++ [b] ∧ b.slice = homeSlice (normPa s1 pa) ∧ b.clu = s.cur.clu
            ∧ b.slot = (xval t rd).toNat % 1024
            ∧ ∃ id, b.body = .request (normPa s1 pa) (scopeBits a.scope) t.csr.keyid.toNat t.uid rd id)
    ∧ (∀ (d : Dep) (r : XReg) (s : State) (t : Thread), Issues s t (.unsub d r) →
      let k := slotOf s s.cur.clu (xval t r)
      let s1 := setThread s s.cur (emptyToken (issuedThread s t (.unsub d r)) r)
      exec (.unsub d r) s = .next (
        if k.pend then sendToken s1 t.uid r 2 none none
        else if k.sub = false then sendToken s1 t.uid r 1 none none
        else sendSub (setSlot s1 s.cur.clu ((xval t r).toNat % 1024) { k with pend := true })
          (256 * k.hdie.toNat + k.hslice.toNat) s.cur.clu ((xval t r).toNat % 1024) (.remove t.uid r)))
    ∧ (∀ (d : Dep) (rd ra : XReg) (s : State) (t : Thread), Issues s t (.take d rd ra) →
      let k := slotOf s s.cur.clu (xval t ra)
      (k.full = false → exec (.take d rd ra) s = .next (variableDone s t (.take d rd ra) [wrX rd 0] 0))
      ∧ (k.full = true → exec (.take d rd ra) s = .next (taken s t (.take d rd ra) ((xval t ra).toNat % 1024) k
        [{ wrX rd k.value with poison := k.poison }])))
    ∧ ∀ (d : Dep) (rd ra rb : XReg) (s : State) (t : Thread), Issues s t (.takeS d rd ra rb) →
      let k := slotOf s s.cur.clu (xval t ra)
      (k.full = false → exec (.takeS d rd ra rb) s = .next (variableDone s t (.takeS d rd ra rb)
        [wrX rd 0, wrX rb (0x20000 ||| k.seq.setWidth 64)] 0))
      ∧ (k.full = true → exec (.takeS d rd ra rb) s = .next (taken s t (.takeS d rd ra rb) ((xval t ra).toNat % 1024) k
        [{ wrX rd k.value with poison := k.poison }, wrX rb ((if k.ovr then 0x10000 else 0) ||| k.seq.setWidth 64)]))

/-- O36. WB, INV or WBI with a length of 0, at any scope, only issues. A raw stash range raises ADDR and a range
    that fails a check of R149 its trap. At a narrow scope a good range is left as it is. At a wide scope each
    line of the range becomes one action of an access of the thread: every stretch of memory in the range has an
    access of its kind with an action for each of its lines, and the later memory instructions of the thread are
    held until these are done. INV needs W permission, WB and WBI RD permission. The action of a line of plain
    memory: WB stores every dirty byte at home and leaves it clean; WBI does so and leaves the line absent; INV
    drops the dirty bytes of the range, stores the others at home, and leaves the line absent. No other byte, at
    home or held, changes. WB of a line that a mapping of the stash holds stores its dirty bytes at home, which
    stay in the stash, clean. The action of WB or WBI on a line with dirty bytes waits while the host holds a
    half with one of them, or the page has moved, and stalls for the collapse of a replicated page. Rules: R159,
    R149, R362, R425, R155, R161, R162, R164. -/
def Obligations.RangeInstructionsComplete : Prop :=
  (∀ (d : Dep) (scope : Scope) (ra rb : XReg) (s : State) (t : Thread), Issues s t (.wb d scope ra rb) →
      RangeActs (.wb d scope ra rb) .wb scope ra (xval t rb) ⟨true, false⟩ s t)
    ∧ (∀ (d : Dep) (scope : Scope) (ra rb : XReg) (s : State) (t : Thread), Issues s t (.inv d scope ra rb) →
      RangeActs (.inv d scope ra rb) .inv scope ra (xval t rb) ⟨false, true⟩ s t)
    ∧ (∀ (d : Dep) (scope : Scope) (ra rb : XReg) (s : State) (t : Thread), Issues s t (.wbi d scope ra rb) →
      RangeActs (.wbi d scope ra rb) .wbi scope ra (xval t rb) ⟨true, false⟩ s t)
    ∧ (∀ (s : State) (clu line o : Nat) (a : Access), plainHome s (line * 128) 128 → mappedLine s clu a.key line o → a.atHost = false →
      let s' := rangeLine s clu a .wb line
      (∀ i b, i < 128 → heldMapped s clu (o + i) = some true → heldStash s clu (o + i) = some b →
        heldHome s' a.key (line * 128 + i) = some b ∧ heldMapped s' clu (o + i) = some false)
      ∧ (∀ c x b, heldStash s c x = some b → heldStash s' c x = some b)
      ∧ (∀ k pa, (pa / 128 ≠ line ∨ heldMapped s clu (o + pa % 128) ≠ some true) → heldHome s' k pa = heldHome s k pa)
      ∧ ∀ c k pa, heldView s' c k pa = heldView s c k pa)
    ∧ (∀ (s : State) (clu line pa : Nat) (a : Access) (op : RangeOp) (rest : List Act) (mates : List Access) (v : VByte),
      a.kind = .range op → op ≠ .inv → a.atHost = false → (cluster s clu).maps = [] → pa / 128 = line →
      heldView s clu a.key pa = some v → v.dirty = true →
      (halfHeld s a.key (pa / 64) = true ∨ redirectOf s (line * 128) ≠ none → actReady s clu a (.rangeLine line) = false)
      ∧ ∀ e, replOf s (line * 128) = some e →
        stallsFor s a e (.rangeLine line :: rest) (takeAct s clu a (.rangeLine line) rest mates))
    ∧ ∀ (s : State) (clu line : Nat) (a : Access), plainAt s clu (line * 128) 128 →
      mwf (cluster s clu).view = true → a.atHost = false → a.page.any (·.repl) = false → ∀ op : RangeOp,
      let s' := rangeLine s clu a op line
      (∀ pa v, pa / 128 = line → heldView s clu a.key pa = some v →
        (v.dirty = true → (op = .inv → pa < a.pa 0 ∨ a.data.toNat ≤ pa) → heldHome s' a.key pa = some v.val)
        ∧ (op = .wb → heldView s' clu a.key pa = some ⟨v.val, false⟩))
      ∧ (op ≠ .wb → ∀ pa, pa / 128 = line → heldView s' clu a.key pa = none)
      ∧ (op = .inv → ∀ k pa, pa / 128 = line → a.pa 0 ≤ pa → pa < a.data.toNat → heldHome s' k pa = heldHome s k pa)
      ∧ (∀ k pa, pa < 2 ^ 52 → (pa / 128 ≠ line ∨ ∀ v, heldView s clu a.key pa = some v → v.dirty = false) →
        heldHome s' k pa = heldHome s k pa)
      ∧ ∀ c k pa, pa < 2 ^ 52 → (c ≠ clu ∨ k ≠ a.key ∨ pa / 128 ≠ line) → heldView s' c k pa = heldView s c k pa

/-- O37. Whenever SMAP issues, its status will land in RD: 1 for a range that is empty, not aligned to 128
    bytes, or beyond the stash, 2 for an overlap with a mapping, 3 with 16 mappings in use, 4 for a global range
    that leaves the 56 bits of virtual addresses or has a part without its translation or permissions, the first
    that applies in this order; otherwise 0, and the mapping of the stash offset to the global range is among
    those of the cluster, after the others. Whenever SUNMAP issues with an offset at which no mapping begins, 1
    will land; otherwise an access begins that takes one action for each line of the region, no later
    instruction of the thread that may touch the range that was mapped issues until it is done, and 0 will land
    after it. The action of a line leaves none of its bytes in that mapping; where the mapping serves the
    accesses to the line, its dirty bytes go home, under the key of the line, and no byte of the stash changes.
    Before SMAP maps a range its lines leave the data cache of the cluster, under every key: each dirty byte
    that stands there under one key alone goes home, none of the lines is held any more, and no other byte, at
    home or held, changes. Modelled choices: the wait is decided at issue, by the range that was mapped
    (assumption log 81), and the mapping keeps the physical lines that its range has at SMAP (log 100). Rules:
    R154, R394, R395. -/
def Obligations.StashMappingsComplete : Prop :=
  (∀ (d : Dep) (rd ra rb rc : XReg) (s : State) (t : Thread), Issues s t (.smap d rd ra rb rc) →
      let off := (xval t ra).toNat
      let va := (xval t rb).toNat
      let len := (xval t rc).toNat
      let maps := (cluster s s.cur.clu).maps
      let bad1 := off % 128 ≠ 0 ∨ va % 128 ≠ 0 ∨ len % 128 ≠ 0 ∨ len = 0 ∨ 2 ^ 21 < off + len
      let bad2 := ∃ m ∈ maps, rangesMeet m.off m.len off len = true ∨ rangesMeet m.va m.len va len = true
      (bad1 → exec (.smap d rd ra rb rc) s = .next (variableDone s t (.smap d rd ra rb rc) [wrX rd 1] 0))
      ∧ (¬ bad1 → bad2 → exec (.smap d rd ra rb rc) s = .next (variableDone s t (.smap d rd ra rb rc) [wrX rd 2] 0))
      ∧ (¬ bad1 → ¬ bad2 → 16 ≤ maps.length →
        exec (.smap d rd ra rb rc) s = .next (variableDone s t (.smap d rd ra rb rc) [wrX rd 3] 0))
      ∧ (¬ bad1 → ¬ bad2 → maps.length < 16 → 2 ^ 56 < va + len →
        exec (.smap d rd ra rb rc) s = .next (variableDone s t (.smap d rd ra rb rc) [wrX rd 4] 0))
      ∧ (∀ v s1, ¬ bad1 → ¬ bad2 → maps.length < 16 → va + len ≤ 2 ^ 56 →
        rangePages s (threadCtx s.cur t) ⟨true, true⟩ ((va + len - 1) / 65536 - va / 65536 + 1) va 0 len = (.error v, s1) →
        exec (.smap d rd ra rb rc) s = .next (variableResult s1 (issuedThread s t (.smap d rd ra rb rc)) d.sa [wrX rd 4] 0))
      ∧ ∀ ps s1, ¬ bad1 → ¬ bad2 → maps.length < 16 → va + len ≤ 2 ^ 56 →
        rangePages s (threadCtx s.cur t) ⟨true, true⟩ ((va + len - 1) / 65536 - va / 65536 + 1) va 0 len = (.ok ps, s1) →
        ∃ s' t', exec (.smap d rd ra rb rc) s = .next s'
        ∧ (cluster s' s.cur.clu).maps = maps ++ [⟨off, va, len, segsOf off ps⟩]
        ∧ (let s2 := clearLines (setThread s1 s.cur (issuedThread s t (.smap d rd ra rb rc))) s.cur.clu (segsOf off ps)
          s'.store = s2.store ∧ ∀ c, (cluster s' c).view = (cluster s2 c).view)
        ∧ thread? s' s.cur = some t' ∧ t'.regs = t.regs
        ∧ ∃ r ∈ t'.pipe.results, r.tag = d.sa ∧ r.writes = [wrX rd 0] ∧ r.ready = true)
    ∧ (∀ (d : Dep) (rd ra : XReg) (s : State) (t : Thread), Issues s t (.sunmap d rd ra) →
      ((cluster s s.cur.clu).maps.find? (fun m => m.off = (xval t ra).toNat) = none →
        exec (.sunmap d rd ra) s = .next (variableDone s t (.sunmap d rd ra) [wrX rd 1] 0))
      ∧ ∀ m, (cluster s s.cur.clu).maps.find? (fun m => m.off = (xval t ra).toNat) = some m →
        ∃ s' t', exec (.sunmap d rd ra) s = .next s' ∧ s'.threads = (setThread s s.cur t').threads ∧ t'.regs = t.regs
          ∧ (m.va < 2 ^ 56 → (m.segs.flatMap fun g => linesOf g.2.1 g.2.2) ≠ [] →
            ∀ i, mayTouch t' m.va m.len i = true → canIssue s' s.cur t' i = false) ∧ ⟨s.nextId, d.sa, [wrX rd 0], 0, false⟩ ∈ t'.pipe.results
          ∧ ((m.segs.flatMap fun g => linesOf g.2.1 g.2.2) ≠ [] → ∃ a ∈ t'.pipe.acc, a.id = s.nextId ∧ a.kind = .unmap
            ∧ a.va = m.off ∧ a.key = t.csr.keyid.toNat
            ∧ a.todo = (m.segs.flatMap fun g => linesOf g.2.1 g.2.2).map Act.unmapLine))
    ∧ (∀ (s : State) (clu : Nat) (segs : List (Nat × Nat × Nat)), let lines := segs.flatMap fun g => linesOf g.2.1 g.2.2
      (cluster s clu).maps = [] → mwf (cluster s clu).view = true → (∀ line ∈ lines, plainHome s (line * 128) 128) → replFree s →
      let s' := clearLines s clu segs
      (∀ k pa, pa / 128 ∈ lines → heldView s' clu k pa = none)
      ∧ (∀ k pa v, pa / 128 ∈ lines → heldView s clu k pa = some v → v.dirty = true →
        (∀ k' v', k' ≠ k → heldView s clu k' pa = some v' → v'.dirty = false) → heldHome s' k pa = some v.val)
      ∧ (∀ k pa, pa < 2 ^ 52 → (pa / 128 ∉ lines ∨ ∀ k' v, heldView s clu k' pa = some v → v.dirty = false) →
        heldHome s' k pa = heldHome s k pa)
      ∧ ∀ c k pa, pa < 2 ^ 52 → (c ≠ clu ∨ pa / 128 ∉ lines) → heldView s' c k pa = heldView s c k pa)
    ∧ (∀ (s : State) (clu key off line : Nat), ∀ m ∈ (cluster (unmapLine s clu key off line) clu).maps, m.off = off →
      ∀ g ∈ m.segs, ¬ (g.2.1 ≤ line * 128 ∧ line * 128 < g.2.1 + g.2.2))
    ∧ ∀ (s : State) (clu key off line o : Nat), lineOff (cluster s clu) off line = some o →
      let k := (mget (cluster s clu).mapKey (o / 128)).getD key
      plainHome s (line * 128) 128 → mappedLine s clu k line o → let s' := unmapLine s clu key off line
      (∀ i b, i < 128 → heldMapped s clu (o + i) = some true → heldStash s clu (o + i) = some b →
        heldHome s' k (line * 128 + i) = some b)
      ∧ (∀ i, i < 128 → heldMapped s' clu (o + i) = none)
      ∧ (∀ c x b, heldStash s c x = some b → heldStash s' c x = some b)
      ∧ ∀ h pa, (pa / 128 ≠ line ∨ heldMapped s clu (o + pa % 128) ≠ some true) → heldHome s' h pa = heldHome s h pa

/-- O38. Whenever QBIND issues, the descriptor of its port is x[RA][31:0], and the words of the port stay.
    Whenever QEND issues, x[RA] is the last word of the replay window of its port, with CTL set, under the
    descriptor in force, after a release at the scope of the port. Whenever QSTAT issues, the descriptor, DROP,
    CTL of the head word, and the numbers of words in the window and in the buffer will land in RD, and DROP is
    clear. Rules: R265, R266, R269, R382, R190. -/
def Obligations.PortInstructionsComplete : Prop :=
  (∀ (d : Dep) (q : PReg) (ra : XReg) (s : State) (t : Thread), Issues s t (.qbind d q ra) →
      exec (.qbind d q ra) s = .next (setThread s s.cur (setPort (issuedThread s t (.qbind d q ra)) q
        { portOf t q with desc := (xval t ra).setWidth 32 })))
    ∧ (∀ (d : Dep) (q : PReg) (ra : XReg) (s : State) (t : Thread), Issues s t (.qend d q ra) →
      ∃ s' t' w, exec (.qend d q ra) s = .next s' ∧ s'.threads = (setThread s s.cur t').threads ∧ t'.regs = t.regs
        ∧ (portOf t' q).win = (portOf t q).win ++ [w] ∧ (portOf t' q).inb = (portOf t q).inb
        ∧ w.w.ctl = true ∧ w.w.word = xval t ra ∧ w.desc = (portOf t q).desc
        ∧ w.w.scope = portScope s s.cur (portOf t q).desc
        ∧ (∃ a ∈ t'.pipe.acc, a.id = w.rel ∧ a.kind = .send ∧ a.ord = .rel ∧ a.scope = w.w.scope)
        ∧ ∀ p, p ≠ q → portOf t' p = portOf t p)
    ∧ ∀ (d : Dep) (rd : XReg) (q : PReg) (s : State) (t : Thread), Issues s t (.qstat d rd q) →
      (portOf t q).win.length ≤ 32 → (portOf t q).inb.length ≤ 8 →
      exec (.qstat d rd q) s = .next (variableResult s
        (setPort (issuedThread s t (.qstat d rd q)) q { portOf t q with drop := false }) d.sa
        [wrX rd (((portOf t q).desc.setWidth 64 <<< 32) ||| (if (portOf t q).drop then 0x40000 else 0)
          ||| (if ((portOf t q).inb.head?.map (·.ctl)) = some true then 0x20000 else 0)
          ||| (BitVec.ofNat 64 (portOf t q).win.length <<< 10) ||| BitVec.ofNat 64 (portOf t q).inb.length)] 0)

/-- O39. Whenever COPY or COPYQ issues, and COPY.NB with fewer than 16 copies in the FIFO of its core, a copy
    with the four request words, the count XSEQ of the core and the key of the thread is under way, the FIFO
    holds it, XSEQ steps, and its token register turns empty. COPY.NB with a full FIFO deposits at once the
    token with status 1 and DONE 0, and starts nothing. COPYQ through a binding that R265 rejects raises OPERAND
    with 64 + n. Rules: R256, R260, R261, R258, R344. -/
def Obligations.CopyInstructionsComplete : Prop :=
  (∀ (d : Dep) (rd ra : XReg) (s : State) (t : Thread), Issues s t (.copy d rd ra) →
      ∃ s', exec (.copy d rd ra) s = .next s' ∧ CopyBegun s t (.copy d rd ra) rd ra none s')
    ∧ (∀ (d : Dep) (rd ra : XReg) (s : State) (t : Thread), Issues s t (.copyNb d rd ra) →
      ((coreOf s s.cur.coreIdx).fifo.length < 16 →
        ∃ s', exec (.copyNb d rd ra) s = .next s' ∧ CopyBegun s t (.copyNb d rd ra) rd ra none s')
      ∧ (16 ≤ (coreOf s s.cur.coreIdx).fifo.length → ∃ t', exec (.copyNb d rd ra) s = .next (setThread s s.cur t')
        ∧ t'.regs = (t.regs.write (wrX rd (((coreOf s s.cur.coreIdx).xseq.setWidth 64 <<< 48) ||| (1 <<< 40)
          ||| (rd.setWidth 64 <<< 32)))).setFull rd true ∧ t'.pc = pcAfter t.pc s.curN))
    ∧ ∀ (d : Dep) (rd ra : XReg) (q : PReg) (s : State) (t : Thread), Issues s t (.copyq d rd ra q) →
      (bindingOk (portOf t q).desc = true → ∃ s', exec (.copyq d rd ra q) s = .next s'
        ∧ CopyBegun s t (.copyq d rd ra q) rd ra (some (q, (portOf t q).desc, portScope s s.cur (portOf t q).desc)) s')
      ∧ (bindingOk (portOf t q).desc = false →
        exec (.copyq d rd ra q) s = .next (raiseTrap s s.cur t ⟨.operand, 64 + q.setWidth 64⟩))

/-- O40. BAR presents its barrier; while a live member of the gang does not present it nothing more happens, and
    when all do it issues for each of them. CONVENE of a thread that is no member, for at most GSZ threads,
    presents; a member raises GROUP 5 and too large a count GROUP 4. DISBAND takes its thread from its group,
    with GRANK all ones, and without a group only issues; what waits for the unit is tried again. SPAWN starts a
    thread at x[RA] with x[RB] in x1, the lowest free TID, and what R396 takes from the issuer, in the slot of
    R22, and lands the TID; without a slot it lands all ones. SPAWN.L sets the light flag of the new thread.
    Modelled choice: SPAWN of a supervisor, which belongs to no gang, lands all ones too (assumption log 77),
    and CONVENE raises GROUP 5 before GROUP 4 (log 54). Rules: R335, R336, R210, R214, R215, R348, R22, R396. -/
def Obligations.GangInstructionsComplete : Prop :=
  (∀ (d : Dep) (b : BitVec 3) (s : State) (t : Thread), Issues s t (.bar d b) → mwf s.threads = true →
      let s1 := putPresent s s.cur t (.bar d b)
      let ms := atBarrier s1 t.csr.gang.toNat t.csr.lnch.toNat b
      (ms.length ≠ (liveMembers s1 t.csr.gang.toNat t.csr.lnch.toNat).length → exec (.bar d b) s = .next s1)
      ∧ (ms.length = (liveMembers s1 t.csr.gang.toNat t.csr.lnch.toNat).length →
        ∃ s', exec (.bar d b) s = .next s'
          ∧ ∀ e ∈ ms, ∃ p u, e.2.present = some p ∧ thread? s' e.1 = some u ∧ u.present = none
            ∧ u.pc = pcAfter e.2.pc p.lineN ∧ u.regs = e.2.regs ∧ u.csr = e.2.csr))
    ∧ (∀ (d : Dep) (rd : XReg) (p : BitVec 3) (n1 : BitVec 6) (s : State) (t : Thread), Issues s t (.convene d rd p n1) →
      exec (.convene d rd p n1) s = .next (
        if t.grp.isSome then raiseTrap s s.cur t ⟨.group, 5⟩
        else if t.csr.gsz.toNat < n1.toNat + 1 then raiseTrap s s.cur t ⟨.group, 4⟩
        else putPresent s s.cur t (.convene d rd p n1)))
    ∧ (∀ (b : Bool) (s : State) (t : Thread), Issues s t (.disband b) →
      (t.grp = none → exec (.disband b) s = .next (issuedState s t (.disband b)))
      ∧ ∀ gid, t.grp = some gid → ∃ s1, exec (.disband b) s = .next (retryGroups s1 s.cur.clu)
        ∧ thread? s1 s.cur = some { issuedThread s t (.disband b) with
          grp := none, csr := { t.csr with grank := 0xFFFFFFFFFFFFFFFF } }
        ∧ ∀ g, groupOf s1 s.cur.clu gid = some g → ∀ m ∈ g.members, m.1 ≠ t.uid)
    ∧ (∀ (d : Dep) (rd ra rb : XReg) (s : State) (t : Thread), Issues s t (.spawn d rd ra rb) →
      Spawns s t (.spawn d rd ra rb) false rd (xval t ra) (xval t rb))
    ∧ ∀ (d : Dep) (rd ra rb : XReg) (s : State) (t : Thread), Issues s t (.spawnL d rd ra rb) →
      Spawns s t (.spawnL d rd ra rb) true rd (xval t ra) (xval t rb)

/-- O41. Whenever TQ issues, a bad address raises its trap; otherwise a release at package scope is followed by
    the packet read and submitted, and the status lands: 2 for a queue that is disabled or not device-owned, 3
    for an INDIRECT or malformed packet, 1 for a full ring, and else 0, with the packet, its queue number
    cleared, in the ring, DOORBELL stepped by one and every other queue as it was. MIGH in a thread that has not
    migrated only issues; a migrated one returns to the cluster of its return slot once its accesses are done,
    and raises POISON instead when an x register is poisoned. Modelled choice: the ring is written under QKEY
    (assumption log 98). Rules: R288, R48, R373, R303. -/
def Obligations.TqAndMighComplete : Prop :=
  (∀ (d : Dep) (rd ra : XReg) (s : State) (t : Thread), Issues s t (.tq d rd ra) →
      (∀ v s1, accessCheck s (threadCtx s.cur t) (xval t ra).toNat 64 64 ⟨true, false⟩ = (.error v, s1) →
        exec (.tq d rd ra) s = .next (raiseTrap s1 s.cur t v))
      ∧ ∀ g s1, accessCheck s (threadCtx s.cur t) (xval t ra).toNat 64 64 ⟨true, false⟩ = (.ok g, s1) →
        let s2 := wbAll s1 s.cur.clu t.csr.keyid.toNat
        let s3 := match g.place with
          | .mem pa => recallRange s2 t.csr.keyid.toNat pa 64
          | _ => s2
        let r := tqSubmit s3 (packetWords (tqBytes s3 s.cur t g.place))
        exec (.tq d rd ra) s = .next (variableResult (drawn r.2) (issuedThread s t (.tq d rd ra)) d.sa
          [wrX rd (BitVec.ofNat 64 r.1)] 0))
    ∧ (∀ (s : State) (ws : List Word),
      let q := (word ws 0).toNat / 2 ^ 16 % 128
      let x := queueOf s q
      (x.en = false ∨ x.dev = false → tqSubmit s ws = (2, s))
      ∧ (x.en = true → x.dev = true → packetType ws = 6 ∨ packetOk ws false = false → tqSubmit s ws = (3, s))
      ∧ (x.en = true → x.dev = true → packetType ws ≠ 6 → packetOk ws false = true →
        (x.waiting = 2 ^ x.logn → tqSubmit s ws = (1, s))
        ∧ (x.waiting ≠ 2 ^ x.logn → (tqSubmit s ws).1 = 0
          ∧ (queueOf (tqSubmit s ws).2 q).doorbell = x.doorbell + 1
          ∧ (let a := ringPa x x.doorbell
            ws.length = 8 → spaceOf a ≠ 3 → s.store.redirects = [] → (∀ key, hostHolds s key a 64 = false) →
            isFenced s a = false → ∀ i j, i < 8 → j < 8 → heldHome (tqSubmit s ws).2 x.qkey (a + 8 * i + j) =
              some ((if i = 0 then word ws 0 &&& ~~~ 0x7F_0000#64 else word ws i).extractLsb' (8 * j) 8))
          ∧ ∀ p, p ≠ q → queueOf (tqSubmit s ws).2 p = queueOf s p)))
    ∧ ∀ (b : Bool) (s : State) (t : Thread), Issues s t (.migh b) →
      (t.ret = none → exec (.migh b) s = .next (issuedState s t (.migh b)))
      ∧ ∀ r, t.ret = some r →
        (∀ n, least ((List.range 64).filter fun n => n ≠ 0 && t.regs.xpoison.getLsbD n) = some n →
          exec (.migh b) s = .next (raiseTrap s s.cur t ⟨.poison, BitVec.ofNat 64 n⟩))
        ∧ (t.regs.xpoison &&& ~~~ 1#64 = 0 →
          (t.pipe.acc = [] → exec (.migh b) s = .next (depart s s.cur (issuedThread s t (.migh b)) r.clu))
          ∧ (t.pipe.acc ≠ [] → exec (.migh b) s = .next s))

/-- O42. TCLAIM, TREL, TLD, TLD.R, TLD.PX, TST, FMTCTX, MMA, ACFG, ACLR, DRAIN, DRAIN.T, DRAIN.V, JOIN and AINS,
    when their turn comes in a member of a group, are presented: the thread holds the instruction, and the
    collective is tried. While a member does not present, the presentation is all that happens. A thread that is
    in no group raises GROUP 3. Once every member presents, members with another OPC than the lead, the one of
    the lowest rank, give all of them GROUP 1; with one OPC, the unit free and the earlier accesses of all
    members done, the collective waits only where TCLAIM or ACFG has to; then all members take OPERAND for a
    register that the lead lacks, or a member of DRAIN.V or TLD.R its own, POISON for one that is poisoned, or
    the trap of its checks, of which only translations are left, and otherwise it issues for all of them; with
    copies of its members under way that it follows it waits instead. Modelled choices: it issues only once the
    unit is free, and what faults it is looked at only then (assumption logs 12, 27, 92), and which copies it
    follows (log 101). Rules: R210, R216, R217, R218, R219, R221. -/
def Obligations.CollectivesArePresented : Prop :=
  (∀ (i : Instr) (s : State) (t : Thread), isCollective i = true → thread? s s.cur = some t →
      canIssue s s.cur t i = true →
      (t.grp = none → absentReg t.csr.light (coreOf s s.cur.coreIdx).p64 (usesOf i) = none →
        exec i s = .next (raiseTrap s s.cur t ⟨.group, 3⟩))
      ∧ ∀ gid, t.grp = some gid → exec i s = .next (tryGroup (putPresent s s.cur t i) s.cur.clu gid)
        ∧ ∀ g, groupOf s s.cur.clu gid = some g → membersAll (putPresent s s.cur t i) g.members = none →
          exec i s = .next (putPresent s s.cur t i))
    ∧ (∀ (s : State) (clu gid : Nat) (g : Group) (m : Member) (ms : List Member), groupOf s clu gid = some g →
      g.dissolving = false → membersAll s g.members = some (m :: ms) →
      ((∃ n ∈ ms, opcOf n.shown.instr ≠ opcOf m.shown.instr) → tryGroup s clu gid = trapMembers s (m :: ms) ⟨.group, 1⟩)
      ∧ ((∀ n ∈ ms, opcOf n.shown.instr = opcOf m.shown.instr) →
        let x : Scene := ⟨s, clu, g, m :: ms, m⟩
        ((unitOf s clu).cur ≠ none ∨ (∃ n ∈ m :: ms, n.thread.pipe.acc ≠ []) ∨ mustStay x = true → tryGroup s clu gid = s)
        ∧ ((unitOf s clu).cur = none → (∀ n ∈ m :: ms, n.thread.pipe.acc = []) → mustStay x = false →
          (∀ v, lacksReg x = some v → tryGroup s clu gid = trapMembers s (m :: ms) v)
          ∧ (lacksReg x = none → readsPoison x = true → tryGroup s clu gid = trapMembers s (m :: ms) ⟨.poison, 0⟩)
          ∧ (lacksReg x = none → readsPoison x = false →
            (copiesFirst x (planOf x) = true → tryGroup s clu gid = s)
            ∧ (copiesFirst x (planOf x) = false →
              (∀ v s1, planOf x = .error (v, s1) → tryGroup s clu gid = trapMembers (checksLeft s s1 clu) (m :: ms) v)
              ∧ ∀ p, planOf x = .ok p → tryGroup s clu gid = issueColl x p)
            ∧ ((∀ c ∈ s.flight.copies, c.packet = none → c.ready = false → ∀ n ∈ m :: ms, n.uid ≠ c.uid) →
              copiesFirst x (planOf x) = false)))))
    ∧ (∀ (s s1 : State) (clu : Nat), (checksLeft s s1 clu).threads = s.threads ∧ sameMemory s (checksLeft s s1 clu))
    ∧ ∀ (d : Dep) (ta tb tc : TSlot) (ra rb : XReg) (vf : VReg) (sh : Shape) (b : Bool),
      isCollective (.tclaim d ta) = true
      ∧ isCollective (.trel d ta) = true
      ∧ isCollective (.tld d ta ra rb) = true
      ∧ isCollective (.tldR d ta ra rb) = true
      ∧ isCollective (.tldPx d ta ra rb) = true
      ∧ isCollective (.tst d ta ra rb) = true
      ∧ isCollective (.fmtctx d ra) = true
      ∧ isCollective (.mma d sh ra ta tb tc b) = true
      ∧ isCollective (.acfg d b ra rb) = true
      ∧ isCollective (.aclr d) = true
      ∧ isCollective (.drain d ra) = true
      ∧ isCollective (.drainT d ra) = true
      ∧ isCollective (.drainV d vf ra) = true
      ∧ isCollective (.join d ra rb) = true
      ∧ isCollective (.ains d ra rb) = true

/-- O43. Whenever CMPK or EXPD issues, the checks on its operands come first: CMPK raises COORD for stray bits
    in x[RC] and for more than 2^24 elements and checks its source range, EXPD raises COORD for stray bits in
    x[RC] or a length above 2^24. When they pass it has captured its operands, and its thread issues nothing
    until it has finished. A CMPK that has read its elements raises COORD for a non-zero element whose
    coordinate is 2^24 or more, and the trap of its destination range; when both pass its records are stored and
    its count is known. When that is so, its last store done and its cycle come, the count is in RD, poisoned
    when a source word was, and the thread is free to go on. That cycle, for operands in the stash, is the sum
    of R239. An EXPD that has read its records raises the trap of its destination range or POISON, and otherwise
    its elements are stored and its thread is held until its cycle. Neither stores while earlier members of its
    group may still touch those bytes. A trap of either is raised at the PC of the instruction. Whenever ASTAT
    issues, the word of R254 will land in RA: COUNT of the Bracken in [51:32], STALL in bit 31, HASH in bit 30,
    HELD in bit 29, and in [14:0] the resident entries, or 16,384 in direct mode (which the model takes before
    the first ACFG as well, log 2). Modelled choices: a poisoned element poisons RD, and EXPD raises POISON 0
    after its other checks (log 30); no range of length 0 is checked (log 55); the reads are made one by one
    from the issue on (log 12). Rules: R238, R239, R240, R342, R355, R254, R334. -/
def Obligations.CompactAndExpandComplete : Prop :=
  (∀ (d : Dep) (f : Fmt) (rd ra rb rc : XReg) (s : State) (t : Thread), Issues s t (.cmpk d f rd ra rb rc) →
      Packs s t (.cmpk d f rd ra rb rc) (fmtWidth f / 8) (8 * ((xval t rb).toNat + 2)) rd ra rb rc (fun s1 =>
        if xval t rc &&& 0xFF000000FF000000 ≠ 0 then .error (⟨.coord, xval t rc⟩, s1)
        else if 2 ^ 24 < (xval t rb).toNat then .error (⟨.coord, xval t rb⟩, s1)
        else match rangeCheck s1 (threadCtx s.cur t) (xval t ra).toNat ((xval t rb).toNat * (fmtWidth f / 8))
            (fmtWidth f / 8) ⟨true, false⟩ with
          | (.error v, s2) => .error (v, s2)
          | (.ok ps, s2) => .ok (ps, s2)))
    ∧ (∀ (d : Dep) (f : Fmt) (rd ra rb rc : XReg) (s : State) (t : Thread), Issues s t (.expd d f rd ra rb rc) →
      Packs s t (.expd d f rd ra rb rc) (fmtWidth f / 8) ((xval t rc).toNat % 2 ^ 32 * (fmtWidth f / 8)) rd ra rb rc (fun s1 =>
        if 2 ^ 56 ≤ (xval t rc).toNat ∨ 2 ^ 24 < (xval t rc).toNat % 2 ^ 32 then .error (⟨.coord, xval t rc⟩, s1) else .ok ([], s1)))
    ∧ (∀ (s : State) (l : Loc) (t : Thread) (k : Packing) (i : Instr), t.pipe.pack = some k → canIssue s l t i = false)
    ∧ (∀ (s : State) (l : Loc) (t : Thread) (k : Packing), packingAt s l t k → k.packs = true → k.count = none → k.todo = [] →
      (storesWait s t k = true → packStep s l = none) ∧ (storesWait s t k = false →
      let base := k.rc % 2 ^ 24
      let nz := ((List.range k.rb).zip (elemsOf k.width k.rb k.got)).filter fun e => !isZeroElem k.fmt e.2
      let recs := if nz.isEmpty then [] else fibreRecs k.fmt (k.rc / 2 ^ 32 % 2 ^ 24) base nz
      let out := rangeCheck s (threadCtx l t) k.rd (8 * recs.length) 8 ⟨false, true⟩
      (∀ e, nz.find? (fun e => decide (2 ^ 24 ≤ base + e.1)) = some e →
        packStep s l = some (packTrap s l t k ⟨.coord, BitVec.ofNat 64 (base + e.1)⟩))
      ∧ (nz.find? (fun e => decide (2 ^ 24 ≤ base + e.1)) = none →
        (∀ v s1, out = (.error v, s1) → packStep s l = some (packTrap s1 l t k v))
        ∧ ∀ ps s1, out = (.ok ps, s1) → ∃ s' t' k' last, packStep s l = some s' ∧ packingAt s' l t' k' ∧ t'.regs = t.regs
          ∧ k'.count = some (last, recs.length) ∧ k'.bad = k.bad ∧ k'.instr = k.instr)))
    ∧ (∀ (s : State) (l : Loc) (t : Thread) (k : Packing) (last c : Nat) (d : Dep) (f : Fmt) (rd ra rb rc : XReg),
      packingAt s l t k → k.instr = .cmpk d f rd ra rb rc → k.count = some (last, c) → k.due ≤ s.cycle →
      (∀ a ∈ t.pipe.acc, a.id ≠ last) →
      packStep s l = some (setThread s l { t with
        regs := t.regs.write ⟨.x rd, BitVec.ofNat 128 c, false, k.bad⟩, pipe := { t.pipe with pack := none } }))
    ∧ (∀ k : Packing, k.packs = true → inStash k.used = true →
      k.due = k.start + ((k.rb * k.width + 63) / 64 + (k.rb + 2 + 7) / 8 + 16))
    ∧ (∀ (s : State) (l : Loc) (t : Thread) (k : Packing), packingAt s l t k → k.packs = false → k.count = none → (k.rb ≤ k.n ∨ k.ended = true) →
      storesWait s t k = false →
      let out := rangeCheck s (threadCtx l t) k.rd (k.rc % 2 ^ 32 * k.width) k.width ⟨false, true⟩
      (∀ v s1, out = (.error v, s1) → packStep s l = some (packTrap s1 l t k v))
      ∧ (∀ ps s1, out = (.ok ps, s1) → k.bad = true → packStep s l = some (packTrap s1 l t k ⟨.poison, 0⟩))
      ∧ ∀ ps s1, out = (.ok ps, s1) → k.bad = false → ∃ s' t', packStep s l = some s' ∧ thread? s' l = some t'
        ∧ t'.regs = t.regs ∧ t'.pipe.pack = none ∧ t'.pipe.block = some (.until k.due))
    ∧ (∀ (s : State) (l : Loc) (t : Thread) (k : Packing) (v : TrapVal), packTrap s l t k v =
      raiseReq s l { t with pipe := { t.pipe with pack := none } }
        { cause := v.cause.code, tval := v.val, pc := k.pc, skp := 0, alone := false, hi := 0 })
    ∧ ∀ (d : Dep) (ra : XReg) (s : State) (t : Thread), Issues s t (.astat d ra) →
    (unitOf s s.cur.clu).acc.table.length ≤ 16384 → (unitOf s s.cur.clu).acc.spill < 2 ^ 20 →
    let u := unitOf s s.cur.clu
    exec (.astat d ra) s = .next (variableDone s t (.astat d ra) [wrX ra (
      (BitVec.ofNat 64 u.acc.spill <<< 32) ||| (if (u.cur.map (·.stalled)) = some true then 1 <<< 31 else 0)
        ||| (if u.acc.hash then 1 <<< 30 else 0) ||| (if u.acc.owner.isSome then 1 <<< 29 else 0)
        ||| BitVec.ofNat 64 (if u.acc.hash then u.acc.table.length else 16384))] 0)

/-- O44. An instruction whose turn comes while a wait of R27 is not met changes nothing. One whose waits are
    met, and that one of the traps of every instruction stops (an absent register, privilege, a migration slot,
    a send without a good binding, a poisoned register that it reads before its own checks), raises that trap
    and has none of its effects; a collective in a thread of no group raises OPERAND for an absent register. An
    instruction on registers, or ST with a port as its data, that would pop a control value while QHND is set
    does not issue: the value leaves the port and is held as a light interrupt. Modelled choices: what an
    instruction does whose wait is not met (assumption log 65), the order of these traps (log 10), and that a
    collective of a group takes them with its effect (log 27). Rules: R27, R323, R42, R49, R47, R266, R303,
    R114, R219. -/
def Obligations.InstructionsWaitAndTrap : Prop :=
  (∀ (i : Instr) (s : State) (t : Thread), (encode i).isSome = true → thread? s s.cur = some t →
      canIssue s s.cur t i = false → exec i s = .next s)
    ∧ (∀ (i : Instr) (s : State) (t : Thread) (v : TrapVal), (encode i).isSome = true → isCollective i = false →
      (∀ d csr rd, i = .csrr d csr rd → csrAssigned csr.toNat = true) →
      (∀ d csr r, i = .csrw d csr r → csrAssigned csr.toNat = true ∧ csrReadOnly csr.toNat = false) →
      thread? s s.cur = some t →
      canIssue s s.cur t i = true → entryTrap s s.cur t i = some v → exec i s = .next (raiseTrap s s.cur t v))
    ∧ (∀ (i : Instr) (s : State) (t : Thread) (v : Word), isCollective i = true → thread? s s.cur = some t →
      canIssue s s.cur t i = true → t.grp = none → absentReg t.csr.light (coreOf s s.cur.coreIdx).p64 (usesOf i) = some v →
      exec i s = .next (raiseTrap s s.cur t ⟨.operand, v⟩))
    ∧ ∀ (i : Instr) (s : State) (t : Thread) (q : PReg) (w : PWord) (ws : List PWord),
      (registerOnly i = true ∨ ∃ d m size a, i = .st d m size (.q q) a) → thread? s s.cur = some t → canIssue s s.cur t i = true → entryTrap s s.cur t i = none →
      ctlPop t (usesOf i) = some q → (portOf t q).inb = w :: ws → ∃ s' t', exec i s = .next s'
        ∧ s'.threads = (setThread s s.cur t').threads ∧ t'.pc = t.pc ∧ t'.regs = t.regs
        ∧ (portOf t' q).inb = ws ∧ t'.irqs = t.irqs ++ [.ctl w.word]

/-- O45. A synchronous trap waits until the thread is at rest, every tag is then FREE, and TEPC takes the PC,
    TCAUSE[7:0] the cause, TCAUSE[9:8] the pending annulment count for an IFETCH and 0 for any other trap, TVAL
    the value. With TVEC = 0, with TH set, or for the illegal cases of R87, the thread halts alone and its fault
    message is queued at its cluster; otherwise TH is set and PC is TVEC. Registers, ports and LH stay.
    TRAP_DELIVERY and HALT_ALONE deliver what was held; HALT_ALONE also halts a thread whose PC names no
    instruction or an illegal one, once nothing holds it back; an annulment pending does not. A word that is
    illegal waits for its dependence byte too. Modelled choice: word 3 of the fault message is 0 for a PC that
    names no instruction (assumption log 60). Rules: R112, R297, R54, R72, R87, R40, R218. -/
def Obligations.TrapsAreTaken : Prop :=
  (∀ (s : State) (l : Loc) (t : Thread) (r : TrapReq), ∃ t', thread? (takeTrap s l t r) l = some t'
      ∧ t'.csr.tepc = r.pc ∧ t'.csr.tcause &&& 0xFF = r.cause.setWidth 64 ∧ t'.csr.tcause.extractLsb' 8 2 = r.skp
      ∧ t'.csr.tval = r.tval ∧ t'.csr.tcause.getLsbD 62 = t.csr.tcause.getLsbD 62
      ∧ t'.regs = t.regs ∧ t'.ports = t.ports ∧ (∀ k, tagOf t' k = .free) ∧ t'.pipe.annul = 0 ∧ t'.trap = none
      ∧ (r.alone = true ∨ t.csr.tvec = 0 ∨ t.csr.tcause.getLsbD 63 = true →
        t'.mode = .halted r.hi ∧ t'.pc = t.pc ∧ (l.clusterSup = false → (cluster (takeTrap s l t r) l.clu).faults =
          (cluster s l.clu).faults ++ [faultMessage l t' (if r.alone && r.cause = 0x0F then 2 else 1) r.hi]))
      ∧ (r.alone = false → t.csr.tvec ≠ 0 → t.csr.tcause.getLsbD 63 = false →
        t'.mode = t.mode ∧ t'.pc = t.csr.tvec ∧ t'.csr.tcause.getLsbD 63 = true))
    ∧ (∀ (s : State) (l : Loc) (t : Thread) (v : TrapVal),
      let r : TrapReq := ⟨v.cause.code, v.val, t.pc, 0, false, 0⟩
      raiseTrap s l t v = if drained t s.cycle then takeTrap s l { t with trap := some r, present := none } r
        else setThread s l { t with trap := some r, present := none })
    ∧ (∀ (s : State) (l : Loc) (t : Thread),
      let r : TrapReq := ⟨0x07, t.pc, t.pc, BitVec.ofNat 2 t.pipe.annul, false, 0⟩
      raiseIfetch s l t = if drained t s.cycle then takeTrap s l { t with trap := some r, present := none } r
        else setThread s l { t with trap := some r, present := none })
    ∧ (∀ (s : State) (l : Loc) (t : Thread) (r : TrapReq), thread? s l = some t → t.mode = .running →
      t.trap = some r → drained t s.cycle = true →
      exec (if r.alone then .haltAlone l else .trapDelivery l) s = .next (takeTrap s l t r))
    ∧ (∀ (s : State) (l : Loc) (t : Thread) (k : Nat), thread? s l = some t → t.mode = .running → t.trap = none →
      t.gfault = some k → t.pipe.annul = 0 → drained t s.cycle = true →
      exec (.trapDelivery l) s = .next (raiseTrap s l { t with gfault := none } ⟨.group, BitVec.ofNat 64 k⟩))
    ∧ ∀ (s : State) (l : Loc) (t : Thread), thread? s l = some t → mayHalt s l t = true →
      (nextOf s l t = .target → exec (.haltAlone l) s = .next (raiseReq s l { t with pipe := { t.pipe with annul := 0 } }
        ⟨0x01, t.pc, t.pc, 0, true, 0⟩))
      ∧ ∀ w n, nextOf s l t = .illegal w n → illegalReady s l t w = true →
        exec (.haltAlone l) s = .next (raiseReq s l t ⟨0x01, BitVec.ofNat 64 w, t.pc, 0, true, BitVec.ofNat 16 (w / 2 ^ 64)⟩)

/-- O46. FIXED_RESULT_WRITE writes the first result of a thread that is due by the end of the cycle, with its
    flags; RESULT_LANDING writes a ready result, sets its flags and makes its tag LANDED. TOKEN_COMPLETION
    writes the token register of a resident thread and turns it full, and holds its light interrupt;
    COMPLETION_FORWARD sends one for a migrated thread on to where it stands. ANNUL_PASS moves the PC on and
    lowers the count. LINE_FETCH fills the instruction cache, if its set holds fewer than four lines or one that
    may be replaced, or raises IFETCH; a malformed line on a page without permission halts as ILLEGAL, and a
    poisoned line raises POISON; a thread that is being saved fetches only under a pending annulment. PAGE_WALK
    fills the TLBs, SLICE_EXPIRY ends a slice, LIGHT_INTERRUPT_DELIVERY enters the handler with UEPC and LH, and
    ROTATION_POINTER_MOVE begins the next cycle, with every pointer one position on and no thread changed in
    registers, PC or control registers. Modelled choice: a fill waits while every line of its set stands at the
    PC of a ready thread (assumption log 90). Rules: R59, R63, R64, R38, R105, R106, R114, R170, R171, R28,
    R289. -/
def Obligations.PipelineEventsHappen : Prop :=
  (∀ (s : State) (l : Loc) (t : Thread) (w : FixedWrite) (ws : List FixedWrite), thread? s l = some t →
      t.pipe.fixed = w :: ws → w.due ≤ s.cycle + 1 →
      exec (.fixedResultWrite l) s = .next (setThread s l { t with
        regs := t.regs.writes w.writes
        csr := { t.csr with fpctl := t.csr.fpctl ||| (w.flags.setWidth 8 <<< 3) }
        pipe := { t.pipe with fixed := ws } }))
    ∧ (∀ (s : State) (l : Loc) (t : Thread) (r : Result), thread? s l = some t →
      t.pipe.results.find? (fun x => x.id = r.id) = some r → r.ready = true →
      ∃ t', exec (.resultLanding l r.id) s = .next (setThread s l t') ∧ t'.regs = t.regs.writes r.writes
        ∧ t'.csr = { t.csr with fpctl := t.csr.fpctl ||| (r.flags.setWidth 8 <<< 3) } ∧ t'.pc = t.pc
        ∧ (r.tag ≠ 0 → tagOf t' r.tag = .landed) ∧ (∀ k, k ≠ r.tag → tagOf t' k = tagOf t k)
        ∧ ∀ x ∈ t'.pipe.results, x.id ≠ r.id)
    ∧ (∀ (s : State) (l : Loc) (t : Thread) (m : TokenMsg), s.flight.tokens.find? (fun x => x.id = m.id) = some m →
      m.stage = .bound → thread? s l = some t → liveOf s m.uid = some t → t.ret = none →
      ∃ s', exec (.tokenCompletion m.id) s = .next s' ∧ (∀ x ∈ s'.flight.tokens, x.id ≠ m.id)
        ∧ thread? s' l = some { t with
          regs := (t.regs.write (wrX m.reg m.value)).setFull m.reg true, irqs := t.irqs ++ m.irq.toList })
    ∧ (∀ (s : State) (l : Loc) (t : Thread) (m : TokenMsg), s.flight.tokens.find? (fun x => x.id = m.id) = some m →
      m.stage = .bound → liveOf s m.uid = some t → locOf s m.uid = some l → t.ret ≠ none →
      ∃ s', exec (.completionForward m.id) s = .next s' ∧ { m with stage := .forwarded l } ∈ s'.flight.tokens
        ∧ s'.threads = s.threads)
    ∧ (∀ (s : State) (l : Loc) (t : Thread) (w n : Nat), thread? s l = some t → nextOf s l t = .annul w n → mayRun t = true →
      ∃ s' t', exec (.annulPass l) s = .next s' ∧ s'.threads = (setThread s l t').threads ∧ t'.pc = pcAfter t.pc n
        ∧ t'.pipe.annul = t.pipe.annul - 1 ∧ t'.regs = t.regs ∧ t'.csr = t.csr ∧ t'.pipe.tags = t.pipe.tags)
    ∧ (∀ (s : State) (l : Loc) (t : Thread), thread? s l = some t → mayRun t = true →
      (beingSaved s l t = false ∨ t.pipe.annul ≠ 0) →
      (nextOf s l t = .poison → exec (.lineFetch l) s = .next (raiseTrap s l t ⟨.poison, t.pc⟩))
      ∧ (nextOf s l t = .fetch →
        (t.pc.toNat / 2 ^ 56 ≠ 0 → exec (.lineFetch l) s = .next (raiseIfetch s l t))
        ∧ (t.pc.toNat / 2 ^ 56 = 0 →
          (∀ s1, translate s (threadCtx l t) (pcLine t.pc) = (.miss, s1) ∨ translate s (threadCtx l t) (pcLine t.pc) = (.badLeaf, s1) →
            exec (.lineFetch l) s = .next (raiseIfetch s1 l t))
          ∧ ∀ e s1 pa s2, translate s (threadCtx l t) (pcLine t.pc) = (.leaf e, s1) →
            pa = readPa s1 (threadCtx l t) e (pcLine t.pc) → s2 = (codeFetch s1 l t.csr.keyid.toNat pa).2 →
            (fetchAllowed (threadCtx l t) e = true → let ways := codeWays (coreOf s2 l.coreIdx) (codeKey t pa)
              ∃ s', exec (.lineFetch l) s = .next s' ∧ s'.threads = s.threads
                ∧ (ways.length < 4 ∨ codeKey t pa ∈ ways ∨ codeVictims s2 l.coreIdx ways ≠ [] →
                  mget (coreOf s' l.coreIdx).icache (codeKey t pa) = some (codeBytes s2 t.csr.keyid.toNat pa)))
            ∧ (fetchAllowed (threadCtx l t) e = false →
              ((lineAt (codeBytes s2 t.csr.keyid.toNat pa).bytes 0).isOk = false →
                exec (.lineFetch l) s = .next (drawn (raiseTarget s2 l t)))
              ∧ ((lineAt (codeBytes s2 t.csr.keyid.toNat pa).bytes 0).isOk = true →
                exec (.lineFetch l) s = .next (drawn (raiseIfetch s2 l t)))))))
    ∧ (∀ (s : State) (l : Loc) (va : Nat) (t : Thread) (e : TlbEntry) (s1 : State), thread? s l = some t →
      translate s (threadCtx l t) va = (.leaf e, s1) →
      exec (.pageWalk l va) s = .next s1 ∧ (∃ e', heldEntry s1 (threadCtx l t) va = some e') ∧ s1.threads = s.threads)
    ∧ (∀ (s : State) (l : Loc) (t : Thread), thread? s l = some t → t.mode = .running → t.csr.slice ≠ 0 →
      t.csr.slice.toNat ≤ t.sliceCount → t.expired = none → exec (.sliceExpiry l) s = .next (setThread s l (expire s l t)))
    ∧ (∀ (s : State) (l : Loc) (t : Thread) (q : Irq) (qs : List Irq), thread? s l = some t → t.mode = .running →
      t.trap = none → t.gfault = none → t.irqs = q :: qs → irqReady t = true → drained t s.cycle = true →
      ∃ t', exec (.lightInterruptDelivery l) s = .next (setThread s l t') ∧ t'.csr.uepc = t.pc ∧ t'.irqs = qs
        ∧ t'.csr.tcause = t.csr.tcause ||| 0x4000000000000000 ∧ t'.regs = t.regs ∧ (∀ k, tagOf t' k = .free)
        ∧ (∀ h v, q = .copy h v → t'.pc = h ∧ t'.csr.xferid = v)
        ∧ ∀ v, q = .ctl v → t'.pc = t.csr.qhnd ∧ t'.csr.qctlv = v)
    ∧ ∀ s : State, ∃ s', exec .rotationPointerMove s = .next s' ∧ s'.cycle = s.cycle + 1 ∧ s'.store.home = s.store.home
      ∧ (∀ k, pointerOf s' k = (pointerOf s k + 1) % fullSlots k.p64)
      ∧ ∀ l t, thread? s l = some t → ∃ t', thread? s' l = some t' ∧ t'.regs = t.regs ∧ t'.pc = t.pc ∧ t'.csr = t.csr

/-- O47. At a convening point the presentations of earlier cycles are counted in order; as many as each of them
    names form a group, which takes the lowest free context, with format word 0x303 and ranks in ascending TID;
    CONVENE then issues for each, its rank will land in RD, and its later accesses follow those that the members
    issued before. A dissolving group loses its context, slots and accumulator, and its members, saved ones too,
    GRANK. A collective reads, writes and adds by one action after another, and only a JOIN has values to add
    from its plan on, which its last read replaces by those of the streams read; in the cycle in which its
    cycles have passed and no action is left it acts and ends: TCLAIM takes and zeroes a slot, TREL frees it, a
    load puts what it has read into its slot, FMTCTX sets the word, MMA adds to the accumulator, ACLR clears it;
    a stalled one goes on when the Bracken is read again and has room. HEATH_SAVE begins a save or writes the
    record; HEATH_RESTORE begins a restore or puts the record into its slot. MIGRATION_ACCEPT sets a thread into
    a slot with an acquire, with the PC and x1 to x15 of its message, or refuses it until its delay has passed;
    MIGRATION_REPLAY sends it again. A thread departs with what its slot held, its dirty lines written back, as
    a message to the cluster; its slot is empty. Modelled choice: a collective takes its actions one after
    another in order, and slots and accumulator change in the step that completes it (assumption log 12). Rules:
    R211, R212, R213, R215, R220, R246, R44, R45, R268, R290, R291, R292. -/
def Obligations.GroupAndMoveEventsHappen : Prop :=
  (∀ (clu gang lnch point : Nat) (as : List AtPoint) (s : State), as ≠ [] → (∀ a ∈ as, a.n = as.length) →
      gather clu gang lnch point as 0 [] s = setCluster s clu { cluster s clu with
        forming := (cluster s clu).forming ++ [⟨gang, lnch, point, as.map AtPoint.mark⟩] })
    ∧ (∀ (clu gang lnch point : Nat) (s : State),
      (∀ f ∈ (cluster s clu).forming, ∀ m ∈ f.members,
        ∃ e ∈ clusterThreads s clu, ∃ p, e.2.present = some p ∧ m = (e.2.uid, p.order)) →
      (∀ a ∈ (clusterThreads s clu).filterMap (pointOf gang lnch point), a.mark ∈ (cluster s clu).forming.flatMap (·.members)) →
      ∃ s0 : State, s0.cycle = s.cycle ∧ s0.threads = s.threads ∧ (∀ c, cluster s0 c = cluster s c) ∧
        exec (.groupForm clu gang lnch point) s = .next ((List.range 8).foldl (fun x _ => bindFirst x clu) s0))
    ∧ (∀ (s : State) (clu ctx : Nat) (f : Forming) (rest : List Forming) (ms : List (Loc × Thread)),
      (cluster s clu).forming = f :: rest →
      ms = ((clusterThreads s clu).filter fun e => e.2.present.any fun p => f.members.contains (e.2.uid, p.order)).foldl
        (fun l e => insertTid e l) [] →
      ms.length = f.members.length →
      ctx < 8 → (∀ g ∈ (cluster s clu).mx.groups, g.ctx ≠ ctx) →
      (∀ k, k < ctx → ∃ g ∈ (cluster s clu).mx.groups, g.ctx = k) →
      ∃ g : Group, g.gid = s.nextId ∧ g.ctx = ctx ∧ g.word = 0x303 ∧ g.gang = f.gang ∧ g.lnch = f.lnch ∧ g.dissolving = false
        ∧ g.members = (ms.zip (List.range ms.length)).map (fun m => (m.1.2.uid, m.2))
        ∧ bindFirst s clu = tally ((ms.zip (List.range ms.length)).foldl (fun x m => joinGroup x g.gid (accsOf (ms.map (·.2))) m)
          { setCluster s clu { cluster s clu with
              forming := rest, mx := { (cluster s clu).mx with groups := (cluster s clu).mx.groups ++ [g] } } with
            nextId := s.nextId + 1 }) clu 0x4 ms.length)
    ∧ (∀ (s : State) (gid r : Nat) (l : Loc) (t : Thread) (p : Presented) (d : Dep) (rd : XReg) (q : BitVec 3) (n1 : BitVec 6)
        (accs : List (Nat × Nat)),
      t.present = some p → p.instr = .convene d rd q n1 → ∃ t', thread? (joinGroup s gid accs ((l, t), r)) l = some t'
        ∧ t'.grp = some gid ∧ t'.csr.grank = BitVec.ofNat 64 r ∧ t'.present = none ∧ t'.regs = t.regs
        ∧ t'.pc = pcAfter t.pc p.lineN ∧ ∃ x ∈ t'.pipe.results, x.tag = d.sa ∧ x.ready = true
          ∧ x.writes = [wrX rd (BitVec.ofNat 64 r)]
        ∧ (accs ≠ [] → ∃ a ∈ t'.pipe.acc, a.kind = .fence .full ∧ ∀ k ∈ accs, k ∈ a.after))
    ∧ (∀ (s : State) (clu gid : Nat) (g : Group), groupOf s clu gid = some g → g.dissolving = true →
      (∀ c, (unitOf s clu).cur = some c → c.gid ≠ gid) →
      exec (.groupDissolve clu gid) s = .next (retryGroups (dissolve s clu g) clu)
        ∧ (∀ h ∈ (unitOf (dissolve s clu g) clu).groups, h.gid ≠ g.gid)
        ∧ (∀ k, mget (unitOf (dissolve s clu g) clu).owners k ≠ some g.gid)
        ∧ (unitOf (dissolve s clu g) clu).acc.owner ≠ some g.gid
        ∧ (∀ k, ∀ e ∈ (cluster (dissolve s clu g) k).heath, e.2.thread.grp ≠ some g.gid)
        ∧ ∀ l t, thread? s l = some t → ∃ t', thread? (dissolve s clu g) l = some t' ∧ t'.regs = t.regs
          ∧ (t.grp ≠ some g.gid → t' = t) ∧ (t.grp = some g.gid → t'.grp = none ∧ t'.csr.grank = 0xFFFFFFFFFFFFFFFF
            ∧ (t.mode = .running → t'.gfault = some 2)))
    ∧ (∀ (x : Scene) (p : Plan), planOf x = .ok p → (∀ d ra rb, x.lead.shown.instr ≠ .join d ra rb) → p.adds = [])
    ∧ (∀ (s : State) (clu : Nat) (c : Coll), (unitOf s clu).cur = some c →
      (c.due + c.spilled ≤ s.cycle → c.stalled = false → c.waits = none → collStep (drawn s) clu = none →
        exec (.collectiveComplete clu) s = .next (endColl (performColl (drawn s) clu c) clu c))
      ∧ (∀ p ms, c.stalled = false → c.waits = none → c.todo = .read p :: ms →
        let r := readPiece s clu c.key p
        collStep s clu = some (modColl (drawnBy c.adds.length r.2.2) clu fun x => afterRead r.2.2 x r.1 r.2.1)
          ∧ (afterRead r.2.2 c r.1 r.2.1).todo = ms ∧ (afterRead r.2.2 c r.1 r.2.1).got = c.got ++ r.1
          ∧ (afterRead r.2.2 c r.1 r.2.1).bad = (c.bad || r.2.1)
          ∧ ((∀ d ra rb, c.instr ≠ .join d ra rb) ∨ ms ≠ [] → (afterRead r.2.2 c r.1 r.2.1).adds = c.adds)
          ∧ ∀ d ra rb f g, c.instr = .join d ra rb → ms = [] → let got := c.got ++ r.1
            let n := bytesIn (c.rows.headD [])
            streamOf joinFmt (wordsLe ((got.take n).length / 8) (got.take n)) [] (.top false) = some f →
            streamOf joinFmt (wordsLe ((got.drop n).length / 8) (got.drop n)) [] (.top false) = some g →
            (afterRead r.2.2 c r.1 r.2.1).adds = productsOf f g)
      ∧ (∀ p bs ms, c.stalled = false → c.waits = none → c.todo = .write p bs :: ms → (p.entry.filter (·.repl)) = none →
        collStep s clu = some (modColl (writePiece s clu c.key p bs) clu fun x => { x with todo := x.todo.tail }))
      ∧ (c.stalled = true → brackenCount s clu (unitOf s clu).acc < (unitOf s clu).acc.bcap → exec (.brackenRecheck clu) s =
        .next (modColl s clu fun x => { x with stalled := false, due := x.due + (s.cycle - x.since) }))
      ∧ (c.stalled = true → (unitOf s clu).acc.bcap ≤ brackenCount s clu (unitOf s clu).acc → exec (.brackenRecheck clu) s =
        .next (modColl s clu fun x => { x with checked := s.cycle }))
      ∧ (∀ d ta, c.instr = .tclaim d ta → holdsSlot (unitOf s clu) c.gid ta.toNat = false →
        mget (unitOf (performColl s clu c) clu).owners ta.toNat = some c.gid
          ∧ ∀ k, k < 4096 → slotByte (unitOf (performColl s clu c) clu) ta.toNat k = 0)
      ∧ (∀ d ta, c.instr = .trel d ta →
        (unitOf (performColl s clu c) clu).owners = mdel (unitOf s clu).owners ta.toNat)
      ∧ (∀ d ta ra rb bs, (c.instr = .tld d ta ra rb ∨ c.instr = .tldR d ta ra rb) ∧ bs = c.got
          ∨ c.instr = .tldPx d ta ra rb ∧ bs = pxBlocks s c.rows.tail (c.got.drop 128) →
        (unitOf (performColl s clu c) clu).acc = (unitOf s clu).acc
          ∧ ∀ k, k < bs.length → slotByte (unitOf (performColl s clu c) clu) ta.toNat k = bs.getD k 0)
      ∧ (∀ d ra g, c.instr = .fmtctx d ra → g ∈ (unitOf s clu).groups → g.gid = c.gid →
        { g with word := c.xa } ∈ (unitOf (performColl s clu c) clu).groups)
      ∧ (∀ d sh ra ta tb tc zero g x, c.instr = .mma d sh ra ta tb tc zero → groupOf s clu c.gid = some g →
        fmtCtx g.word = some x → (unitOf (performColl s clu c) clu).acc =
          mmaRun (unitOf s clu) ⟨ta.toNat, tb.toNat, tc.toNat, sh, x⟩ zero (field c.xa 0 24 - (unitOf s clu).acc.row0)
            (field c.xa 24 24 - (unitOf s clu).acc.col0))
      ∧ ∀ d, c.instr = .aclr d → (unitOf (performColl s clu c) clu).acc = clearAcc (unitOf s clu).acc)
    ∧ (∀ (s : State) (l : Loc) (t : Thread), thread? s l = some t →
      ((cluster s l.clu).saves = [] → maySave s l t = true →
        exec (.heathSave l) s = .next (setCluster s l.clu { cluster s l.clu with saves := [⟨t.uid, none⟩] }))
      ∧ ((cluster s l.clu).saves = [⟨t.uid, none⟩] → neverSaved s l t = false → quiet t = true →
        drained t s.cycle = true → hasRoom s l t = true → ∃ s' o x, exec (.heathSave l) s = .next s' ∧ o % 64 = 0
          ∧ o + recordBytes s l t ≤ 2 ^ 20 ∧ s'.threads = mdel s.threads l.key
          ∧ (cluster s' l.clu).heath = mset (cluster s l.clu).heath o x ∧ (cluster s' l.clu).saves = []
          ∧ x.thread.regs = t.regs ∧ x.thread.pc = t.pc ∧ x.thread.csr = t.csr ∧ x.thread.ports = t.ports
          ∧ x.size = recordBytes s l t ∧ x.held = false ∧ x.core = l.coreIdx))
    ∧ (∀ (s : State) (clu off : Nat) (r : HeathRec) (l : Loc), nextRestore s clu = some (off, r) →
      restoreSlot s clu r = some l →
      (r.busy = false → exec (.heathRestore clu off) s = .next (setCluster s clu { cluster s clu with
        heath := mset (cluster s clu).heath off { r with busy := true } }))
      ∧ (r.busy = true → r.broken = false → ∃ s' t', exec (.heathRestore clu off) s = .next s'
        ∧ s'.threads = (setThread s l t').threads ∧ (cluster s' clu).heath = mdel (cluster s clu).heath off
        ∧ t'.regs = r.thread.regs ∧ t'.pc = r.thread.pc ∧ t'.csr = r.thread.csr ∧ t'.sliceCount = 0
        ∧ (∀ q, (portOf t' q).inb = (portOf r.thread q).inb ∧ (portOf t' q).desc = (portOf r.thread q).desc)
        ∧ s'.store = s.store))
    ∧ (∀ (s : State) (l : Loc) (t : Thread) (dest : Nat), mwf s.threads = true → let s' := depart s l t dest
      thread? s' l = none ∧ (∃ m, s'.flight.migs = s.flight.migs ++ [m] ∧ m.dest = dest ∧ m.flying = true ∧ m.tries = 1
        ∧ m.thread.regs = t.regs ∧ m.thread.pc = t.pc ∧ m.thread.csr = t.csr ∧ m.thread.ports = t.ports ∧ m.thread.uid = t.uid
        ∧ m.thread.ret = some (t.ret.getD l) ∧ ∀ k, tagOf m.thread k = .free)
      ∧ s'.store = (wbAll s l.clu t.csr.keyid.toNat).store
      ∧ ((cluster s l.clu).maps = [] → mwf (cluster s l.clu).view = true →
        ∀ k pa v, pa < 2 ^ 52 → heldView s' l.clu k pa = some v → v.dirty = false))
    ∧ ∀ (s : State) (m : MigMsg), s.flight.migs.find? (fun x => x.id = m.id) = some m →
      (m.flying = true → ∀ l, arrivalSlot s m = some l → ∃ s' t', exec (.migrationAccept m.id) s = .next s'
        ∧ s'.threads = (setThread s l t').threads ∧ (∀ x ∈ s'.flight.migs, x.id ≠ m.id)
        ∧ t' = { migLoad m.bytes m.thread with ret := if migReturn m.bytes = l then none else some (migReturn m.bytes) }
        ∧ t'.pc = m.thread.pc ∧ (∀ n : XReg, n.toNat < 16 → xval t' n = xval m.thread n)
        ∧ t'.csr.tcause = m.thread.csr.tcause
        ∧ (∀ k v, mget (cluster s' l.clu).view k = some v → v.dirty = true) ∧ s'.store = s.store)
      ∧ (m.flying = true → arrivalSlot s m = none → ∃ s', exec (.migrationAccept m.id) s = .next s'
        ∧ { m with flying := false, due := s.cycle + backoff m.thread.csr.nakbo m.tries } ∈ s'.flight.migs
        ∧ s'.threads = s.threads)
      ∧ (m.flying = false → m.due ≤ s.cycle → ∃ s', exec (.migrationReplay m.id) s = .next s'
        ∧ { m with flying := true, tries := m.tries + 1 } ∈ s'.flight.migs ∧ s'.threads = s.threads)

/-- O48. SPONTANEOUS_WRITEBACK stores every dirty byte of a line at home and leaves it clean, changing no other
    byte; SPONTANEOUS_DROP removes clean bytes of it only, any of them. PAGE_MOVE keeps every byte of home
    memory; REDIRECT_REPLAY sends an access, with its lines, to the new home; COLLAPSE releases stalled writes
    and removes the replicated entries; HBM_SCRUB changes nothing. A half taken by the host is written back
    first where its home slice holds it dirty, and is then host-held, under HOSTKEY in space 0b00; one released
    or recalled is not, and what the host wrote is at home under the key of the hold; after a failed boot no
    half changes hands. A subscribe request enters the subscriber and is answered; the answer makes the slot
    ACTIVE or IDLE and completes the token; a push fills its slot; a removal takes the subscriber out and sends
    the marker, which makes the slot IDLE. KEYRET completes its token with 0, with the bytes that a cluster
    alone holds dirty under the key at home and no line under the key left in any cache, or with 1 for a number
    that is no key. Modelled choice: a half of space 0b00 is held and merged under HOSTKEY as it was when the
    host took it (assumption log 83). Rules: R161, R162, R164, R166, R179, R199, R200, R203, R204, R207, R301,
    R365. -/
def Obligations.MemoryEventsHappen : Prop :=
  (∀ (s : State) (clu key line : Nat), plainAt s clu (line * 128) 128 →
      ∃ s', exec (.spontaneousWriteback clu key line) s = .next s'
        ∧ (∀ pa v, pa / 128 = line → heldView s clu key pa = some v →
          (v.dirty = true → heldHome s' key pa = some v.val) ∧ heldView s' clu key pa = some ⟨v.val, false⟩)
        ∧ ∀ k pa, pa < 2 ^ 52 → (pa / 128 ≠ line ∨ ∀ v, heldView s clu key pa = some v → v.dirty = false) →
          heldHome s' k pa = heldHome s k pa ∧ ∀ c, heldView s' c k pa = heldView s c k pa)
    ∧ (∀ (s : State) (clu key line : Nat), (cluster s clu).maps = [] → mwf (cluster s clu).view = true →
      line * 128 + 128 ≤ 2 ^ 52 → ∃ s', exec (.spontaneousDrop clu key line) s = .next s' ∧ s'.store = s.store
        ∧ (∀ pa, pa / 128 = line → heldView s' clu key pa = (heldView s clu key pa).filter fun v =>
          v.dirty || !(Config.freeWord s.free).getLsbD (pa % 128))
        ∧ ∀ k pa c, pa < 2 ^ 52 → (k ≠ key ∨ pa / 128 ≠ line ∨ c ≠ clu) → heldView s' c k pa = heldView s c k pa)
    ∧ (∀ (s : State) (src dst size : Nat), size ∈ [2 ^ 16, 2 ^ 21, 2 ^ 25, 2 ^ 30] → src % size = 0 → dst % size = 0 →
      src ≠ dst → hasHome src = true → hasHome dst = true → s.store.redirects = [] → s.store.subTable = [] →
      mwf s.store.home = true → mwf s.store.homeKey = true → ∃ s', exec (.pageMove src dst size) s = .next s'
        ∧ redirectOf s' src = some ⟨src, dst, size⟩
        ∧ (∀ key pa, src ≤ pa → pa < src + size → heldHome s' key pa = heldHome s key pa)
        ∧ ∀ key pa, (pa < src ∨ src + size ≤ pa) → (pa < dst ∨ dst + size ≤ pa) → heldHome s' key pa = heldHome s key pa)
    ∧ (∀ (s : State) (l : Loc) (t : Thread) (id pa : Nat) (a : Access), thread? s l = some t → a ∈ t.pipe.acc →
      a.id = id → a.place = .mem pa → ∃ s' t', exec (.redirectReplay l id) s = .next s'
        ∧ s'.threads = (setThread s l t').threads ∧ { a.chased s with replica := none } ∈ t'.pipe.acc
        ∧ ((∀ k, a.kind ≠ .range k) → (a.chased s).place = .mem (chase s pa))
        ∧ (a.chased s).lines = a.lines.map (fun line => chase s (line * 128) / 128)
        ∧ t'.regs = t.regs ∧ (∀ b ∈ t.pipe.acc, b.id ≠ id → b ∈ t'.pipe.acc) ∧ s'.store = s.store)
    ∧ (∀ (s : State) (c : Collapse), s.store.collapses.find? (fun x => x.id = c.id) = some c →
      ∃ s', exec (.collapse c.id) s = .next s' ∧ (∀ x ∈ s'.store.collapses, x.id ≠ c.id)
        ∧ (∀ k e, e ∈ (cluster s' k).tlb → ¬(e.repl = true ∧ e.pa = c.pa ∧ e.size = c.size))
        ∧ ∀ l t, thread? s l = some t → ∃ t', thread? s' l = some t' ∧ t'.regs = t.regs ∧ t'.pc = t.pc
          ∧ ∀ a e, a ∈ t.pipe.acc → a.page = some e → e.pa = c.pa → e.size = c.size → a.stalled = some c.id →
            { a with stalled := none, page := some { e with repl := false }, replica := none } ∈ t'.pipe.acc)
    ∧ (∀ s : State, exec .hbmScrub s = .next s)
    ∧ (∀ (s : State) (half : Nat), (bootFailed s = false → spaceOf (half * 64) = 0 → ∃ s', exec (.hostTakeHalf half) s = .next s'
          ∧ heldByHost s' half = true ∧ (∀ h, h ∈ s.store.hostHeld → h ∈ s'.store.hostHeld) ∧ sameMemory s s'
          ∧ (heldByHost s half = false → ⟨half, some s.ctl.bar.hostkey⟩ ∈ s'.store.hostHeld)
          ∧ (heldByHost s half = false → hasHome (half * 64) = true →
            (∃ x ∈ l2Of s (homeSlice (half * 64)), x.1 % 2 ^ 45 = half / 2 ∧ x.2 = true) → ∀ w ∈ s'.store.hbmPoison, w / 8 ≠ half))
      ∧ (bootFailed s = true → ∀ i : Instr, i = .hostTakeHalf half ∨ i = .cxlCacheHostRecall half
          ∨ (∃ data, i = .hostReleaseHalf half data ∨ i = .hostRecall half data) → exec i s = .next s)
      ∧ (bootFailed s = false → spaceOf (half * 64) = 2 → ∃ s', exec (.cxlCacheHostRecall half) s = .next s' ∧ heldByHost s' half = true
          ∧ (∀ h, h ∈ s.store.hostHeld → h ∈ s'.store.hostHeld) ∧ sameMemory s s'))
    ∧ (∀ (s : State) (half : Nat) (i : Option (BitVec 512) → Instr), i = .hostReleaseHalf half ∨ i = .hostRecall half →
      heldByHost s half = true → bootFailed s = false → (∃ s', exec (i none) s = .next s' ∧ heldByHost s' half = false ∧ sameMemory s s')
        ∧ ∀ d : BitVec 512, s.store.redirects = [] → (∀ b, replOf s b = none) → isFenced s (half * 64) = false → ∃ s' held,
          exec (i (some d)) s = .next s' ∧ heldByHost s' half = false
          ∧ (∀ hk, hk < 64 → (∀ h ∈ s.store.hostHeld, h.half = half → h.key = some hk) → held = hk)
          ∧ (∀ k, k < 64 → heldHome s' held (half * 64 + k) = some (d.extractLsb' (8 * k) 8))
          ∧ ∀ key pa, pa / 64 ≠ half → heldHome s' key pa = heldHome s key pa)
    ∧ (∀ (es es' : List SubEntry) (w i : Nat) (u : Subscriber), insertSub es w u = some (es', i) →
      ∃ e ∈ es', e.index = i ∧ e.word = w ∧ u ∈ e.subs)
    ∧ (∀ (s : State) (m : SubMsg), subMsg s m.id = some m →
      (∀ pa scope key uid reg acc, m.body = .request pa scope key uid reg acc → requestFree s uid acc = true → noneEnded s →
        let p := chase s pa
        let u : Subscriber := ⟨m.clu, m.slot, key, scope⟩
        (∀ es i, insertSub (tableOf s (homeSlice p)) (p / 8) u = some (es, i) → ∃ s', exec (.subscribeRequest m.id) s = .next s'
          ∧ tableOf s' (homeSlice p) = es.filter (fun e => !e.subs.isEmpty)
          ∧ ∃ x ∈ s'.flight.subMsgs, x.clu = m.clu ∧ x.slot = m.slot ∧ x.slice = homeSlice p ∧ x.body = .answer true i uid reg)
        ∧ (insertSub (tableOf s (homeSlice p)) (p / 8) u = none → ∃ s', exec (.subscribeRequest m.id) s = .next s'
          ∧ s'.store.subTable = s.store.subTable
          ∧ ∃ x ∈ s'.flight.subMsgs, x.clu = m.clu ∧ x.slot = m.slot ∧ x.body = .answer false 0 uid reg))
      ∧ (∀ ok hent uid reg, m.body = .answer ok hent uid reg → m.slot < 1024 → ∃ s', exec (.subscribeAnswer m.id) s = .next s'
        ∧ (slotOf s' m.clu (BitVec.ofNat 64 m.slot)).pend = false
        ∧ (slotOf s' m.clu (BitVec.ofNat 64 m.slot)).sub = (ok || (slotOf s m.clu (BitVec.ofNat 64 m.slot)).sub)
        ∧ ∀ l t, thread? s l = some t → liveOf s uid = some t → t.ret = none →
          thread? s' l = some (takeToken t reg (if ok then 0 else 1) none))
      ∧ (∀ v bad, m.body = .push v bad → m.slot < 1024 → let k := slotOf s m.clu (BitVec.ofNat 64 m.slot)
        k.sub = true → ∃ s', exec (.pushArrival m.id) s = .next s' ∧ s'.threads = s.threads
          ∧ slotOf s' m.clu (BitVec.ofNat 64 m.slot) =
            { k with value := v, poison := bad, full := true, ovr := k.ovr || k.full, seq := k.seq + 1 })
      ∧ (∀ uid reg, m.body = .remove uid reg → ∃ s', exec (.unsubscribeRequest m.id) s = .next s'
        ∧ (∀ slice, ∀ e ∈ tableOf s' slice, ∀ u ∈ e.subs, ¬(u.clu = m.clu ∧ u.slot = m.slot))
        ∧ ∃ x ∈ s'.flight.subMsgs, x.clu = m.clu ∧ x.slot = m.slot ∧ x.body = .marker uid reg)
      ∧ ∀ uid reg, m.body = .marker uid reg → m.slot < 1024 → ∃ s', exec (.finalMarker m.id) s = .next s'
        ∧ (slotOf s' m.clu (BitVec.ofNat 64 m.slot)).sub = false ∧ (slotOf s' m.clu (BitVec.ofNat 64 m.slot)).pend = false
        ∧ ∀ l t, thread? s l = some t → liveOf s uid = some t → t.ret = none →
          thread? s' l = some (takeToken t reg 0 none))
    ∧ ∀ (s : State) (idx : Nat) (k : KeyRet), s.flight.keyrets[idx]? = some k → accPending s (k.uid, k.acc) = false →
      ∃ s', exec (.keyretComplete idx) s = .next s' ∧ s'.flight.keyrets = s.flight.keyrets.eraseIdx idx
        ∧ (∃ x ∈ s'.flight.tokens, x.uid = k.uid ∧ x.reg = k.reg ∧ x.value = if 63 < k.key then 1 else 0)
        ∧ (k.key ≤ 63 → ∀ c pa, pa < 2 ^ 52 → heldView s' c k.key pa = none
          ∧ mget (coreOf s' c).icache (vkey k.key pa) = none)
        ∧ (k.key ≤ 63 → ∀ slice line, line < 2 ^ 45 → mget (l2Of s' slice) (lineKey k.key line) = none)
        ∧ (k.key ≤ 63 → s.store.redirects = [] → s.store.hostHeld = [] → replFree s → (∀ c, (cluster s c).maps = []) →
          ∀ c pa v, pa < 2 ^ 52 → isFenced s pa = false → heldView s c k.key pa = some v → v.dirty = true →
          (∀ c' v', c' ≠ c → heldView s c' k.key pa = some v' → v'.dirty = false) → heldHome s' k.key pa = some v.val)

/-- O49. A copy takes one action of a free choice: first its write-back of issue, once the earlier accesses of
    its thread are performed; then a part left is read, or a line of its destination written that is read, in
    ascending order with arithmetic, when no earlier access or copy of the thread is left that this side
    follows, and never while such an access is left; the collectives of its cluster, which may follow it, are
    tried again. Between two stashes without poison the bytes read are those of the source, and a line written
    takes them, or for each element the result of its operation on both, and no other stash byte changes. A copy
    without parts left is ready; a ready one puts its token on its way with XSEQ, status, register and prefix,
    and its light interrupt, and leaves; COPYQ stays until that is deposited, and then its word enters the
    window and its interrupt is raised; a packet is done. A word that arrives at a thread with room is appended
    to its buffer; with a full one it is refused and waits; with no thread it is discarded and DROP is set.
    PORT_REPLAY sends a refused head again after its delay. A fault message enters the window of its cluster
    whole, once four places are free. Modelled choices: parts of at most a line are read, and each line,
    elements included, is written in one action (assumption log 31). Rules: R182, R189, R258, R261, R262, R263,
    R266, R267, R268, R278, R297. -/
def Obligations.CopyAndPortEventsHappen : Prop :=
  (∀ (s : State) (c : CopyOp), s.flight.copies.find? (fun x => x.id = c.id) = some c →
      let free := fun (write : Bool) (off n : Nat) => c.packet ≠ none ∨ (copiesBefore s c.uid c.id = [] ∧
        ∀ a ∈ copyEarlier s c, c.follows write (stretch s (if write then c.dstAt else c.srcAt) off n) a = false)
      (copyActs s c ≠ [] → ∃ a ∈ copyActs s c, (∀ off n, a = .read off n →
          exec (.copyElementApply c.id) s = .next (retryAfter (drawn (copyChunk s c off n)) c))
        ∧ (∀ line, a = .write line → exec (.copyElementApply c.id) s = .next (retryAfter (drawn (copyLine s c line)) c))
        ∧ (a = .writeBack → exec (.copyElementApply c.id) s =
          .next (putCopy (drawn (copyIssueActs s c)) { c with wb := false })))
      ∧ (c.wb = true → (copyEarlier s c = [] → copyActs s c = [.writeBack]) ∧ ∀ a ∈ copyActs s c, a = .writeBack)
      ∧ (c.wb = false → ∀ p ∈ c.chunks, (free false p.1 p.2 → .read p.1 p.2 ∈ copyActs s c)
        ∧ (c.packet = none → (∃ a ∈ copyEarlier s c, c.follows false (stretch s c.srcAt p.1 p.2) a = true) →
          .read p.1 p.2 ∉ copyActs s c))
      ∧ (c.wb = false → ∀ p rest, (c.op = 0 → p ∈ c.got ∧ ∀ q ∈ c.chunks, c.line q.1 ≠ c.line p.1) →
        (c.op ≠ 0 → c.got = p :: rest ∧ (∀ q ∈ c.chunks, c.line p.1 < c.line q.1) ∧ seqFree s c (c.line p.1) = true) →
        free true (lineData c (c.line p.1)).1 (lineData c (c.line p.1)).2.length → .write (c.line p.1) ∈ copyActs s c)
      ∧ (∀ line, c.packet = none → (∃ a ∈ copyEarlier s c,
          c.follows true (stretch s c.dstAt (lineData c line).1 (lineData c line).2.length) a = true) →
        .write line ∉ copyActs s c)
      ∧ (c.wb = false → c.chunks = [] → c.got = [] → ∃ s', exec (.copyElementApply c.id) s = .next s'
        ∧ { c with ready := true } ∈ s'.flight.copies ∧ s'.store = s.store ∧ s'.clusters = s.clusters))
    ∧ (∀ (s : State) (c : CopyOp) (off n : Nat), c.w2.getLsbD 48 = true →
      let cs := c.src.toNat / 2 ^ 32 % 256
      let so := c.src.toNat % 2 ^ 21 + off
      (c.op = 0 ∨ c.width ∣ n) → (∀ i, i < n → stashPoisoned s cs (so + i) 1 = false) →
        copyChunk s c off n = putCopy s ({ c with chunks := c.chunks.erase (off, n) }.gain off (stashBytes s cs so n)))
    ∧ (∀ (s : State) (c : CopyOp) (line : Nat), c.w2.getLsbD 40 = true →
      let d := (lineData c line).2
      let cd := c.dst.toNat / 2 ^ 32 % 256
      let o := c.dst.toNat % 2 ^ 21 + (lineData c line).1
      (c.op = 0 → ∀ k a, heldStash (copyLine s c line) k a =
        if k = cd ∧ o ≤ a ∧ a < o + d.length then some (d.getD (a - o) 0) else heldStash s k a)
      ∧ (c.op ≠ 0 → 0 < c.width → stashPoisoned s cd o d.length = false → ∀ k a, heldStash (copyLine s c line) k a =
        if k = cd ∧ o ≤ a ∧ a < o + d.length / c.width * c.width then
          some (BitVec.ofNat 8 (applyElem c.op (c.etype.getD .n64)
            (leNat (stashBytes s cd (o + (a - o) / c.width * c.width) c.width))
            (leNat ((d.drop ((a - o) / c.width * c.width)).take c.width)) / 2 ^ (8 * ((a - o) % c.width))))
        else heldStash s k a))
    ∧ (∀ (s : State) (c : CopyOp), s.flight.copies.find? (fun x => x.id = c.id) = some c → c.ready = true → c.wb = false →
      (c.packet = none → c.deposited = false → ∃ s', exec (.copyCompletion c.id) s = .next s'
        ∧ (c.send = none → ∀ x ∈ s'.flight.copies, x.id ≠ c.id)
        ∧ (c.send ≠ none → { c with deposited := true } ∈ s'.flight.copies)
        ∧ ∃ m ∈ s'.flight.tokens, m.uid = c.uid ∧ m.reg = c.reg ∧ m.copy = some c.id ∧ m.stage = .bound
          ∧ m.value = BitVec.ofNat 64 (c.xseq.toNat * 2 ^ 48 + c.status * 2 ^ 40 + c.reg.toNat * 2 ^ 32 + c.stop)
          ∧ m.irq = if c.send ≠ none ∨ c.hnd = 0 then none else some (.copy c.hnd m.value))
      ∧ (c.packet = none → c.deposited = true → (∀ m ∈ s.flight.tokens, m.copy ≠ some c.id) → sendRoom s c = true →
        ∀ q d sc l t, c.send = some (q, d, sc) → locOf s c.uid = some l → liveOf s c.uid = some t → thread? s l = some t →
          ∃ s' t' w, exec (.copyCompletion c.id) s = .next s' ∧ (∀ x ∈ s'.flight.copies, x.id ≠ c.id)
            ∧ thread? s' l = some t' ∧ (portOf t' q).win = (portOf t q).win ++ [w] ∧ t'.regs = t.regs
            ∧ t'.irqs = t.irqs ++ (if c.hnd = 0 then [] else [.copy c.hnd w.w.word])
            ∧ w.desc = d ∧ w.w = ⟨false, copyToken s c, sc⟩ ∧ w.flying = true)
      ∧ ∀ p, c.packet = some p → ∃ s', exec (.copyCompletion c.id) s = .next s'
        ∧ (∀ x ∈ s'.flight.copies, x.id ≠ c.id) ∧ ∀ x ∈ s'.ctl.packets, x.id = p → x.phase = .done)
    ∧ (∀ (s : State) (l lt : Loc) (t : Thread) (q : PReg) (w : SentWord) (ws : List SentWord),
      originOf s l = some t → thread? s lt = some t → (portOf t q).win = w :: ws →
      (∀ k u, thread? s k = some u → u.exiting = false) →
      (w.flying = true → accPending s (t.uid, w.rel) = false → boundHere s w.desc = true →
        let p : PReg := w.desc.setWidth 3
        (originOf s (boundLoc w.desc) = none → ∃ s' t', exec (.portWordArrival (.port l q)) s = .next s'
          ∧ thread? s' lt = some t' ∧ (portOf t' q).win = ws ∧ (portOf t' q).drop = true ∧ t'.regs = t.regs)
        ∧ ∀ k u, originOf s (boundLoc w.desc) = some u → thread? s k = some u → u.uid ≠ t.uid →
          (∀ c ∈ s.clusters, ∀ r ∈ c.2.heath, r.2.thread.uid ≠ u.uid) →
          ((portOf u p).inb.length < 8 → ∃ s' t', exec (.portWordArrival (.port l q)) s = .next s'
            ∧ thread? s' lt = some t' ∧ (portOf t' q).win = ws ∧ (portOf t' q).drop = (portOf t q).drop
            ∧ thread? s' k = some (setPort u p { portOf u p with inb := (portOf u p).inb ++ [w.w] }))
          ∧ (8 ≤ (portOf u p).inb.length → ∃ s' t', exec (.portWordArrival (.port l q)) s = .next s'
            ∧ thread? s' lt = some t' ∧ thread? s' k = some u
            ∧ (portOf t' q).win = { w with flying := false, due := s.cycle + backoff t.csr.nakbo w.tries } :: ws))
      ∧ (w.flying = false → w.due ≤ s.cycle → (∀ c ∈ s.clusters, ∀ r ∈ c.2.heath, r.2.thread.uid ≠ t.uid) →
        ∃ s', exec (.portReplay (.port l q)) s = .next s' ∧ thread? s' lt = some (setPort t q
          { portOf t q with win := { w with flying := true, tries := w.tries + 1 } :: ws })))
    ∧ ∀ (s : State) (clu : Nat),
      (∀ w ws, (cluster s clu).faultWin = w :: ws →
        (w.flying = true → ∀ u, originOf s ⟨clu, 0, 0⟩ = some u → thread? s ⟨clu, 0, 0⟩ = some u →
          (∀ c ∈ s.clusters, ∀ r ∈ c.2.heath, r.2.thread.uid ≠ u.uid) → (portOf u 7).inb.length < 8 →
          ∃ s', exec (.portWordArrival (.fault clu)) s = .next s' ∧ (cluster s' clu).faultWin = ws
            ∧ thread? s' ⟨clu, 0, 0⟩ = some (setPort u 7 { portOf u 7 with inb := (portOf u 7).inb ++ [w.w] }))
        ∧ (w.flying = false → w.due ≤ s.cycle → ∃ s', exec (.portReplay (.fault clu)) s = .next s'
          ∧ (cluster s' clu).faultWin = { w with flying := true, tries := w.tries + 1 } :: ws ∧ s'.threads = s.threads))
      ∧ ∀ m ms, (cluster s clu).faults = m :: ms →
        (28 < (cluster s clu).faultWin.length → exec (.faultMessageEnter clu) s = .next s)
        ∧ ((cluster s clu).faultWin.length ≤ 28 → ∃ s' ws, exec (.faultMessageEnter clu) s = .next s'
          ∧ (cluster s' clu).faults = ms ∧ (cluster s' clu).faultWin = (cluster s clu).faultWin ++ ws
          ∧ ws.map (fun w => w.w.word) = m ∧ s'.threads = s.threads
          ∧ ∀ w ∈ ws.tail, w.w.ctl = false)

/-- O50. A host write of 1 to 64 bytes through BAR2, within its size, or through CXL.mem, within the HDM window,
    to plain bytes of HBM stores them at home under HOSTKEY and no other byte; a read changes no memory and
    returns what home holds under HOSTKEY; beyond the HBM a write does nothing and a read returns all ones.
    HOSTKEY, FMODE (bit 4 stays 0), PWRLIM (3,600 for a value outside 1,200 to 3,600), BAR2WIN (aligned to the
    size of BAR2), JBASE, HMRD, the registers of a disabled queue, the counters of a die and the request buffer
    take the written value; of an enabled queue QBASE, QPTB, QKEY and HOLDLIM stay; a command of 0 or above 3 is
    refused with reason 1. DOORBELL of a disabled queue sets RDIDX too; of an enabled host-owned one it starts
    the queue or, out of range, puts it in state 3; of an enabled device-owned one it is ignored. QCFG enables
    with LOGN 4 to 15 only. With BOOTSTAT 2 or 3 writes from offset 0x10000 on and to device memory do nothing,
    and a read of device memory gives a free value. A HMRDB write sends HMREPLY to the one of the eight
    functions that it names; a mailbox entry is queued, joins those that wait while there is no room, or goes to
    the ring of the host. RTRES takes 0 to 64. Modelled choices: the registers of an enabled queue that stay
    (assumption log 33), accesses beyond the HBM and after a failed boot (log 84), what becomes of an entry
    without room (log 42), and that a reply of the host bypasses FMODE (log 36). Rules: R273, R276, R293, R308,
    R312, R313, R314, R316, R319, R320, R322. -/
def Obligations.HostEventsHappen : Prop :=
  (∀ (s : State) (i : Instr) (w : Bool) (off n pa : Nat) (data : BitVec 512),
      (i = .hostBar2Access w off n data ∧ off + n ≤ s.ctl.bar.bar2size ∧ pa = s.ctl.bar.bar2win + off
        ∨ i = .hostCxlMemAccess w off n data ∧ s.ctl.bar.hdmBase ≤ off ∧ off + n ≤ s.ctl.bar.hdmBase + 2 ^ 40
          ∧ pa = off - s.ctl.bar.hdmBase) → 0 < n → n ≤ 64 →
      (bootFailed s = true → (w = true → exec i s = .next s)
        ∧ (w = false → ∃ bytes : List Byte, bytes.length = n ∧ exec i s = .next (drawnBy 4 (hostReply s bytes))))
      ∧ (bootFailed s = false → 2 ^ 40 < pa + n → (w = true → exec i s = .next s)
        ∧ (w = false → exec i s = .next (hostReply s (List.replicate n 0xFF))))
      ∧ (bootFailed s = false → pa + n ≤ 2 ^ 40 → s.store.redirects = [] → (∀ key, hostHolds s key pa n = false) →
        (w = true → (∀ b, replOf s b = none) → ∃ s', exec i s = .next s'
          ∧ (∀ k, k < n → heldHome s' s.ctl.bar.hostkey (pa + k) = some (data.extractLsb' (8 * k) 8))
          ∧ (∀ key a, (a < pa ∨ pa + n ≤ a) → heldHome s' key a = heldHome s key a) ∧ s'.threads = s.threads)
        ∧ (w = false → ∃ s', exec i s = .next s' ∧ sameMemory s s' ∧ s'.threads = s.threads ∧ s'.ctl.hostData.length = n
          ∧ ∀ k b, k < n → heldHome s s.ctl.bar.hostkey (pa + k) = some b → s'.ctl.hostData[k]? = some b)))
    ∧ (∀ (s : State) (w : Bool) (off n : Nat) (data : BitVec 512),
      (s.ctl.bar.bar2size < off + n → exec (.hostBar2Access w off n data) s = .next s)
      ∧ (off < s.ctl.bar.hdmBase ∨ s.ctl.bar.hdmBase + 2 ^ 40 < off + n → exec (.hostCxlMemAccess w off n data) s = .next s))
    ∧ (∀ (s : State) (v : Word), exec (.hostkeyWrite v) s = .next (setBar s { s.ctl.bar with hostkey := (v &&& 0x3F).toNat }))
    ∧ (∀ (s : State) (v : Word) (q off : Nat), s.ctl.bar.bootstat = 2 ∨ s.ctl.bar.bootstat = 3 →
      exec (.fmodeWrite v) s = .next s ∧ exec (.hmrdbWrite v) s = .next s ∧ exec (.pwrlimWrite v) s = .next s
        ∧ exec (.doorbellWrite q v) s = .next s ∧ exec (.qcfgWrite q v) s = .next s
        ∧ (0x10000 ≤ off → exec (.registerWrite off v) s = .next s))
    ∧ (∀ (s : State) (v : Word), s.ctl.bar.bootstat ≠ 2 → s.ctl.bar.bootstat ≠ 3 →
      exec (.fmodeWrite v) s = .next (setBar s { s.ctl.bar with fmode := (v &&& 0xEF).setWidth 8 })
      ∧ ((v &&& 0xFF).toNat < 8 → ∃ s', exec (.hmrdbWrite v) s = .next s'
        ∧ s'.ctl.replies = s.ctl.replies ++ [((v &&& 0xFF).toNat, mailOf s.ctl.bar.hmreply.toList)]
        ∧ s'.ctl.outbox = s.ctl.outbox ++ [((v &&& 0xFF).toNat, mailOf s.ctl.bar.hmreply.toList)])
      ∧ (8 ≤ (v &&& 0xFF).toNat → exec (.hmrdbWrite v) s = .next s)
      ∧ (let w := (v &&& 0xFFF).toNat
        (1200 ≤ w → w ≤ 3600 → exec (.pwrlimWrite v) s = .next (setBar s { s.ctl.bar with pwrlim := w }))
        ∧ ((w < 1200 ∨ 3600 < w) → exec (.pwrlimWrite v) s = .next (setBar s { s.ctl.bar with pwrlim := 3600 }))))
    ∧ (∀ (s : State) (q : Nat) (v : Word), q < 128 → s.ctl.bar.bootstat ≠ 2 → s.ctl.bar.bootstat ≠ 3 →
      let x := queueOf s q
      let d : BitVec 32 := v.extractLsb' 0 32
      let k := v.extractLsb' 0 4
      (x.en = false → exec (.doorbellWrite q v) s = .next (setQueue s q { x with doorbell := d, rdidx := d }))
      ∧ (x.en = true → x.dev = true → exec (.doorbellWrite q v) s = .next s)
      ∧ (x.en = true → x.dev = false → 2 ^ x.logn < (d - x.rdidx).toNat →
        exec (.doorbellWrite q v) s = .next (setQueue s q { x with doorbell := d, qstate := 3 }))
      ∧ (x.en = true → x.dev = false → (d - x.rdidx).toNat ≤ 2 ^ x.logn →
        exec (.doorbellWrite q v) s = .next (setQueue s q { x with doorbell := d, qstate := if x.qstate = 0 then 1 else x.qstate }))
      ∧ ∃ s', exec (.qcfgWrite q v) s = .next s' ∧ (queueOf s' q).en = (v.getLsbD 7 && (4 : BitVec 4).ule k)
        ∧ (queueOf s' q).dev = v.getLsbD 6 ∧ (queueOf s' q).prio = (v.extractLsb' 4 2).toNat
        ∧ (queueOf s' q).logn = k.toNat ∧ ((queueOf s' q).en = true → 2 ^ k.toNat < x.waiting → (queueOf s' q).qstate = 3)
        ∧ (queueOf s' q).doorbell = x.doorbell ∧ (queueOf s' q).rdidx = x.rdidx
        ∧ (∀ p, p ≠ q → queueOf s' p = queueOf s p) ∧ s'.threads = s.threads ∧ sameMemory s s')
    ∧ (∀ (s : State) (v : Word), s.ctl.bar.bootstat ≠ 2 → s.ctl.bar.bootstat ≠ 3 → let b := s.ctl.bar
      exec (.registerWrite 0x10 v) s = .next (setBar s { b with
        bar2win := (v &&& 0x000F_FFFF_F000_0000).toNat / b.bar2size * b.bar2size })
      ∧ exec (.registerWrite 0x80000 v) s = .next (setBar s { b with jbase := (v &&& 0x000F_FFFF_FFFF_FFC0).toNat })
      ∧ exec (.registerWrite 0x80008 v) s = .next (setBar s { b with jlog := (v &&& 31).toNat })
      ∧ exec (.registerWrite 0x80058 v) s = .next (setBar s { b with hmrd := v.toNat })
      ∧ (∀ i, (h : i < 8) → exec (.registerWrite (0x80100 + 8 * i) v) s = .next (setBar s { b with hmreply := b.hmreply.set i v h }))
      ∧ (∀ q, q < 128 → (queueOf s q).en = true → ∀ o, o < 8 → o ≠ 1 → o ≠ 4 →
        exec (.registerWrite (0x100000 + 64 * q + 8 * o) v) s = .next s)
      ∧ (∀ q, q < 128 → (queueOf s q).en = false →
        exec (.registerWrite (0x100000 + 64 * q) v) s =
          .next (setQueue s q { queueOf s q with qbase := (v &&& 0x000F_FFFF_FFFF_FFC0).toNat })
        ∧ exec (.registerWrite (0x100010 + 64 * q) v) s = .next (setQueue s q { queueOf s q with qptb := v })
        ∧ exec (.registerWrite (0x100018 + 64 * q) v) s = .next (setQueue s q { queueOf s q with qkey := (v &&& 63).toNat })
        ∧ exec (.registerWrite (0x100030 + 64 * q) v) s = .next (setQueue s q { queueOf s q with holdlim := (v &&& 0xFFFF_FFFF).toNat }))
      ∧ (∀ d k, d < 8 → k < 32 → exec (.registerWrite (0x200000 + 0x1000 * d + 8 * k) v) s =
        .next (setDie s d { dieOf s d with ctr := mset (dieOf s d).ctr k v }))
      ∧ (b.sstate ≠ 1 → ∀ k, k < 512 → exec (.registerWrite (0x400000 + 8 * k) v) s = .next (setBar s { b with sreq := mset b.sreq k v }))
      ∧ (b.sstate ≠ 1 → ∃ b', exec (.registerWrite 0x401000 v) s = .next (setBar s b')
        ∧ ((v = 1 ∨ v = 2 ∨ v = 3) → b'.sstate = 1 ∧ b'.scmd = v.toNat)
        ∧ (v ≠ 1 → v ≠ 2 → v ≠ 3 → b'.sstate = 3 ∧ b'.sreason = 1)))
    ∧ (∀ (s : State) (clu n : Nat), n ≤ 64 → ∃ s', exec (.rtresSet clu n) s = .next s' ∧ (cluster s' clu).rtres = n
      ∧ (∀ c, c ≠ clu → cluster s' c = cluster s c) ∧ s'.threads = s.threads)
    ∧ ∀ (s : State) (f : Nat) (e : BitVec 512), f < 8 → let box := (mget s.ctl.mailboxes f).getD []
      let direct := s.ctl.bar.fmode.getLsbD f = false ∨ (f, e) ∈ s.ctl.replies
      (direct → box.length < 16 → ∃ s', exec (.mailboxEntry f e) s = .next s' ∧ mget s'.ctl.mailboxes f = some (box ++ [e])
        ∧ s'.ctl.outbox = s.ctl.outbox.erase (f, e) ∧ s'.ctl.replies = s.ctl.replies.erase (f, e) ∧ s'.store = s.store)
      ∧ ((direct ∧ 16 ≤ box.length ∨ ¬ direct ∧ 2 ^ s.ctl.bar.hmlog ≤ s.ctl.bar.hmwr - s.ctl.bar.hmrd) →
        ((f, e) ∈ s.ctl.outbox → exec (.mailboxEntry f e) s = .next s)
        ∧ ((f, e) ∉ s.ctl.outbox → exec (.mailboxEntry f e) s = .next { s with ctl := { s.ctl with outbox := s.ctl.outbox ++ [(f, e)] } }))
      ∧ (¬ direct → s.ctl.bar.hmwr - s.ctl.bar.hmrd < 2 ^ s.ctl.bar.hmlog →
        ∃ s', exec (.mailboxEntry f e) s = .next s' ∧ s'.ctl.bar.hmwr = s.ctl.bar.hmwr + 1 ∧ s'.ctl.mailboxes = s.ctl.mailboxes
          ∧ s'.ctl.outbox = s.ctl.outbox.erase (f, e)
          ∧ ∀ k, k < 64 → heldHost s' (3 * 2 ^ 50 + s.ctl.bar.hmbase + 64 * (s.ctl.bar.hmwr % 2 ^ s.ctl.bar.hmlog) + k)
            = some (e.extractLsb' (8 * k) 8))

/-- O51. The parser reads the heads of the queues, with what the host holds of them recalled, and a grant goes
    to an eligible queue: a good packet is journalled and taken, a bad one is journalled, left, and puts the
    queue in state 3. A LAUNCH is accepted, and starts with the next LNCH and the ranges of R282. A WAIT is done
    when its word is at least VALUE, holds its queue, unless that is held already or in state 3, on a missing
    translation, and is read again; SIGNAL, COPY, MARKER and INDIRECT act as R278 says; a finished packet
    leaves, its journal entries marked completed, or faulted for an aborted launch. A held queue that is enabled
    goes on once the page is there, and one held beyond HOLDLIM is reported once, when the journal has room. An
    engine sends the next gang to the lowest cluster that qualifies, and an idle die takes the upper half of the
    largest range; an inbox takes four records, and a refused one is sent again. A dispatcher places the gang
    with each member as R21 starts threads, or returns the record when slots are missing or a core has left the
    partition of the gang. An abort ends the launch and, with no thread of it left, its packet, as faulted.
    Modelled choices: LNCH is the count modulo 2^32 (assumption log 43), the steps of an abort (log 44), state 3
    is not left for state 2 (log 33), a WAIT is read again in any cycle (log 47), what engines write to a page
    that is not there is dropped (log 17), and the report of HOLDLIM and its entry (log 34). Rules: R275, R277,
    R278, R279, R281, R282, R283, R285, R286, R287, R306, R307. -/
def Obligations.QueueEventsHappen : Prop :=
  (∀ (s0 : State) (q p : Nat) (left : List Nat), let s := readHeads s0
      s.threads = s0.threads ∧ s.ctl = s0.ctl ∧ (nextGrant s = some (q, p, left) →
      eligible s q = true ∧ (queueOf s q).prio = p ∧ q < 128 ∧ (journalFree s = true → let x := queueOf s q
        (packetOk (ringHead s x) false = true → ∃ s' y, exec .arbitrationGrant s0 = .next s'
          ∧ queueOf s' q = { x with rdidx := x.rdidx + 1 } ∧ s'.ctl.packets = s.ctl.packets ++ [y] ∧ y.words = ringHead s x
          ∧ y.queue = q ∧ y.phase = .accepted ∧ y.jseq = s.ctl.bar.jwr ∧ s'.ctl.bar.jwr = s.ctl.bar.jwr + 1
          ∧ s'.ctl.round = left ∧ s'.ctl.lastq = s.ctl.lastq.set p q)
        ∧ (packetOk (ringHead s x) false = false → ∃ s', exec .arbitrationGrant s0 = .next s'
          ∧ queueOf s' q = { x with qstate := 3 } ∧ s'.ctl.packets = s.ctl.packets
          ∧ s'.ctl.bar.jwr = s.ctl.bar.jwr + 1 ∧ ∃ e, s'.ctl.outbox = s.ctl.outbox ++ [(3, e)]))))
    ∧ (∀ (s : State) (p : Packet), newLaunch s = some p → ∃ s' x, exec .packetLaunch s = .next s'
      ∧ s'.ctl.launches = s.ctl.launches ++ [x] ∧ x.packet = p.id ∧ x.started = false ∧ x.words = p.words
      ∧ x.ptbase = (queueOf s p.queue).qptb ∧ x.key = (queueOf s p.queue).qkey)
    ∧ (∀ (s : State) (x : Launch) (p : Packet), s.ctl.launches.find? (fun y => y.packet = x.packet) = some x →
      s.ctl.packets.find? (fun y => y.id = x.packet) = some p → x.started = false → x.aborted = false → mayStart s p = true →
      ∃ s' y, exec (.launchStart x.packet) s = .next s' ∧ y ∈ s'.ctl.launches ∧ y.packet = x.packet ∧ y.started = true
        ∧ y.lnch = s.ctl.lnchCount % 2 ^ 32 ∧ s'.ctl.lnchCount = s.ctl.lnchCount + 1
        ∧ ∀ d, d < 8 → y.range d = (d * x.ngang / 8, (d + 1) * x.ngang / 8))
    ∧ (∀ (s : State) (p : Packet),
      (accepted s 2 = some p → exec .packetWait s = .next (readWait (startPacket s p) { p with phase := .started }))
      ∧ (s.ctl.packets.find? (fun x => x.id = p.id) = some p → p.phase = .started → packetType p.words = 2 →
        (queueOf s p.queue).qstate ≠ 2 → exec (.waitRecheck p.id) s = .next (readWait s p))
      ∧ (∀ s1, agentRead s (packetCtx s p) (word p.words 1).toNat = (none, s1) →
        ((queueOf s p.queue).qstate = 3 ∨ (queueOf s p.queue).qstate = 2 → queueOf (readWait s p) p.queue = queueOf s p.queue)
        ∧ ((queueOf s p.queue).qstate ≠ 3 → (queueOf s p.queue).qstate ≠ 2 →
          queueOf (readWait s p) p.queue = { queueOf s p.queue with
            qstate := 2, heldAt := s.cycle, heldVa := (word p.words 1).toNat, heldPkt := p.id, reported := false }))
      ∧ (∀ v s1, agentRead s (packetCtx s p) (word p.words 1).toNat = (some v, s1) → ∀ y ∈ (readWait s p).ctl.packets,
        y.id = p.id → y.phase = if (word p.words 2).ule v then .done else .started)
      ∧ (accepted s 3 = some p → let s1 := startPacket s p
        exec .packetSignal s = .next (packetDone (if (word p.words 3).getLsbD 0
          then agentAdd s1 (packetCtx s p) (word p.words 1).toNat (word p.words 2).toNat
          else agentWord s1 (packetCtx s p) (word p.words 1).toNat (word p.words 2)) p.id))
      ∧ (accepted s 4 = some p → ∃ s' c, exec .packetCopy s = .next s' ∧ s'.flight.copies = s.flight.copies ++ [c]
        ∧ c.packet = some p.id ∧ c.src = word p.words 1 ∧ c.dst = word p.words 2 ∧ c.w2 = word p.words 3 ∧ c.hnd = 0
        ∧ c.ptbase = (queueOf s p.queue).qptb ∧ c.key = (queueOf s p.queue).qkey ∧ c.user = false)
      ∧ (s.ctl.packets.find? (fun x => x.phase = .accepted && packetType x.words = 5 && earlierDone s x) = some p →
        exec .packetMarker s = .next (packetDone (if word p.words 1 = 0 then startPacket s p
          else agentWord (startPacket s p) (packetCtx s p) (word p.words 1).toNat (word p.words 2)) p.id))
      ∧ (indirectNow s = some p → p.phase = .started →
        (field (word p.words 2) 0 13 ≤ p.next → exec .packetIndirect s = .next (packetDone (drawn s) p.id))
        ∧ (p.next < field (word p.words 2) 0 13 → journalFree s = true → ∀ ws s1,
          fetchPacket (drawn s) (packetCtx s p) ((word p.words 1).toNat + 64 * p.next) = (some ws, s1) → packetOk ws true = true →
          ∃ s' y, exec .packetIndirect s = .next s' ∧ y ∈ s'.ctl.packets ∧ y.words = ws ∧ y.parent = some p.id
            ∧ y.queue = p.queue ∧ y.phase = .accepted))
      ∧ (indirectNow s = some p → p.phase = .accepted → field (word p.words 2) 0 13 ≤ p.next →
        exec .packetIndirect s = .next (packetDone (drawn (startPacket s p)) p.id))
      ∧ (s.ctl.packets.find? (fun x => x.id = p.id) = some p → p.phase = .done → ∃ s', exec (.packetCompletion p.id) s = .next s'
        ∧ s'.ctl.packets = s.ctl.packets.filter (fun x => x.id ≠ p.id) ∧ s'.threads = s.threads
        ∧ s'.store = ((p.jseq :: p.extra).foldl (fun s n => journalState s n (if p.faulted then 3 else 2)) s).store
        ∧ (queueOf s p.queue).rdidx = (queueOf s' p.queue).rdidx))
    ∧ (∀ (s : State) (q : Nat), (queueOf s q).qstate = 2 →
      ((queueOf s q).en = true → ∀ x s1,
        agentPa s (agentCtx 0 (queueOf s q).qptb (queueOf s q).qkey) ⟨true, false⟩ (queueOf s q).heldVa = (x, s1) →
        exec (.queueHoldRetry q) s = .next (if x.isSome then setQueue s1 q { queueOf s q with qstate := 1 } else s1))
      ∧ ((queueOf s q).en = false → exec (.queueHoldRetry q) s = .next s)
      ∧ ((queueOf s q).reported = true → exec (.holdlimExpiry q) s = .next s)
      ∧ ((queueOf s q).reported = false → 0 < (queueOf s q).holdlim → (queueOf s q).holdlim < s.cycle - (queueOf s q).heldAt →
        journalFree s = true →
        ∀ p, s.ctl.packets.find? (fun x => x.id = (queueOf s q).heldPkt) = some p → ∃ s', exec (.holdlimExpiry q) s = .next s'
          ∧ { p with extra := s.ctl.bar.jwr :: p.extra } ∈ s'.ctl.packets ∧ (queueOf s' q).reported = true ∧ s'.ctl.bar.jwr = s.ctl.bar.jwr + 1 ∧ ∃ e, s'.ctl.outbox = s.ctl.outbox ++ [(3, e)]))
    ∧ (∀ (s : State) (d : Nat), d < 8 →
      (∀ r clu, (dieOf s d).task = none → nextGang s d = some r → clu < 32 → qualifies s r (32 * d + clu) = true →
        (∀ k, k < clu → qualifies s r (32 * d + k) = false) → ∃ s' m, exec (.launchEnginePlace d) s = .next s'
          ∧ (dieOf s' d).task = some m ∧ m.task = r ∧ m.clu = 32 * d + clu ∧ m.core = roomiest s (32 * d + clu)
          ∧ m.flying = true ∧ m.tries = 1)
      ∧ (∀ x, nextGang s d = none → stealable s = some x → let v := largest x
        let cut := (x.range v).2 - x.left v / 2
        exec (.launchSteal d) s = .next (putLaunch s { x with
          ranges := (x.ranges.set v ((x.range v).1, cut)).set d (cut, (x.range v).2) }))
      ∧ ∀ m, (dieOf s d).task = some m → let k := m.clu * 4 + m.core
        (m.flying = true → (coreOf s k).inbox.length < 4 → ∃ s', exec (.taskRecordArrival d) s = .next s'
          ∧ (coreOf s' k).inbox = (coreOf s k).inbox ++ [m.task] ∧ (dieOf s' d).task = none)
        ∧ (m.flying = true → 4 ≤ (coreOf s k).inbox.length → ∃ s', exec (.taskRecordArrival d) s = .next s'
          ∧ coreOf s' k = coreOf s k
          ∧ (dieOf s' d).task = some { m with flying := false, due := s.cycle + 16 * 2 ^ min (m.tries - 1) 4 })
        ∧ (m.flying = false → m.due ≤ s.cycle → ∃ s', exec (.taskRecordReplay d) s = .next s'
          ∧ (dieOf s' d).task = some { m with flying := true, tries := m.tries + 1 }))
    ∧ (∀ (s : State) (clu core : Nat) (r : TaskRec) (rs : List TaskRec), (coreOf s (clu * 4 + core)).inbox = r :: rs →
      (cluster s clu).closed = false → let slots := (slotsInOrder s clu core).take r.g
      (slots.length = r.g → inPartition s r clu = true → ∃ s1, exec (.dispatchTaskRecord clu core) s = .next (placeGang s1 clu r slots)
        ∧ (coreOf s1 (clu * 4 + core)).inbox = rs ∧ s1.threads = s.threads ∧ s1.clusters = s.clusters)
      ∧ (slots.length < r.g ∨ inPartition s r clu = false → ∃ s', exec (.dispatchTaskRecord clu core) s = .next s'
        ∧ (coreOf s' (clu * 4 + core)).inbox = rs ∧ (dieOf s' (clu / 32)).back = (dieOf s (clu / 32)).back ++ [r]))
    ∧ (∀ (s : State) (r : TaskRec) (g : GangRec) (tid : Nat) (l : Loc), ∃ t, thread? (startMember s r g tid l) l = some t
      ∧ t.pc = r.entry ∧ xval t 1 = r.arg ∧ (∀ n, n ≠ 1 → xval t n = 0) ∧ t.mode = .running ∧ t.csr.tid = BitVec.ofNat 32 tid
      ∧ t.csr.gang = BitVec.ofNat 32 r.gang ∧ t.csr.lnch = BitVec.ofNat 32 r.lnch ∧ t.csr.ptbase = ptbaseMask r.ptbase
      ∧ t.csr.light = r.light ∧ t.csr.tvec = 0 ∧ t.csr.grank = 0xFFFFFFFFFFFFFFFF)
    ∧ ∀ (s : State) (x : Launch),
      (s.ctl.launches.find? (fun y => y.started && y.lnch = x.lnch && unfinished s y) = some x →
        let y := { x with aborted := true, ranges := [] }
        exec (.abortLaunch x.lnch) s = .next (if x.aborted then closeLaunch s x
          else closeLaunch (endLaunch (putLaunch s y) x.lnch) y))
      ∧ (x.started = true → (∀ t ∈ liveThreads s, ofLaunch x.lnch t = false) →
        ∀ p ∈ (closeLaunch s x).ctl.packets, p.id = x.packet → p.phase = .done ∧ p.faulted = true)
      ∧ (x.started = true → (∃ t ∈ liveThreads s, ofLaunch x.lnch t = true) → closeLaunch s x = s)

/-- O52. A request under way is done with its reply: ATTEST with the nonce first, LOADKEY and CLEARKEY with the
    pair replaced and nothing left that was written under the key, or refused with reason 2 or 3. The clock
    takes 500 to 1,500 MHz in steps of 25, and 500 alone while TMAX is 105 or more; it goes to 500 at 105
    degrees, and a fatal error is signalled at 115. A corrected error sends a record; an uncorrectable one also
    poisons the 32 bytes of HBM, which shows under a line of the home slice once that has left it, the word of a
    dirty line of the home slice, the stash word, the Heath record, the word of the matrix unit or the register
    that it names, discards the other copies of an L2 line in the slice of the die and those of the TLBs, or
    signals a fatal error. A lost package is fenced and its links say so; with the loss of this package a fatal
    error is signalled; PEER of a link reads 0 in states 0 and 1, and a link that is up is in state 3 when its
    peer is fenced. BOOT leaves a result in BOOTSTAT, and with 1 no poison and a dispatcher in slot 0 of every
    core; DEVICE_RESET leaves the state after reset but for the memory of the host; a halted cluster supervisor
    resumes. Modelled choices: assumption logs 9 (where a dispatcher starts), 40 (DEVICE_RESET), 64 (other clock
    values), 35 (reason 2), 41 (the resumed supervisor), 86 (accumulator words). Rules: R297, R301, R302, R304,
    R305, R309, R313, R315, R316, R318, R319, R322. -/
def Obligations.ControlEventsHappen : Prop :=
  (∀ s : State, s.ctl.bar.sstate = 1 →
      (s.ctl.bar.scmd = 1 → ∃ s', exec .attest s = .next s' ∧ s'.ctl.bar.sstate = 2 ∧ s'.ctl.bar.sreason = 0
        ∧ s'.ctl.bar.srlen = 18512 ∧ s'.ctl.bar.sreply.length = 18512 ∧ s'.ctl.bar.sreply.take 32 = reqBytes s 0 32)
      ∧ (s.ctl.bar.scmd = 2 ∨ s.ctl.bar.scmd = 3 → ∀ i, i = (if s.ctl.bar.scmd = 2 then Instr.loadkey else Instr.clearkey) →
        let k := leNat (reqBytes s 0 8)
        ((k = 0 ∨ 63 < k) → ∃ s', exec i s = .next s' ∧ s'.ctl.bar.sstate = 3 ∧ s'.ctl.bar.sreason = 2 ∧ s'.store = s.store)
        ∧ (k ≠ 0 → k ≤ 63 → s.ctl.bar.scmd = 2 → Config.unwrapKey (reqBytes s 8 1660) = none →
          ∃ s', exec i s = .next s' ∧ s'.ctl.bar.sstate = 3 ∧ s'.ctl.bar.sreason = 3 ∧ s'.store = s.store)
        ∧ (k ≠ 0 → k ≤ 63 → (s.ctl.bar.scmd = 2 → (Config.unwrapKey (reqBytes s 8 1660)).isSome) →
          mwf s.store.homeKey = true → ∃ s', exec i s = .next s' ∧ s'.ctl.bar.sstate = 2
            ∧ (∀ pa, heldHome s' k pa = none) ∧ (∀ c pa, pa < 2 ^ 52 → heldView s' c k pa = none)
            ∧ (s.ctl.bar.scmd = 2 → mget s'.ctl.keys k = Config.unwrapKey (reqBytes s 8 1660)))))
    ∧ (∀ (s : State) (n : Nat),
      (500 ≤ n → n ≤ 1500 → n % 25 = 0 → s.ctl.bar.tmax < 105 ∨ n = 500 →
        exec (.clockChange n) s = .next (setBar s { s.ctl.bar with clkcur := n }))
      ∧ (¬(500 ≤ n ∧ n ≤ 1500 ∧ n % 25 = 0 ∧ (s.ctl.bar.tmax < 105 ∨ n = 500)) → exec (.clockChange n) s = .next s)
      ∧ ∀ i, i = Instr.thermalThrottle n ∨ i = .thermalFatal n →
        (n < 105 → exec i s = .next (setBar s { s.ctl.bar with tmax := n }))
        ∧ (105 ≤ n → n < 115 → exec i s = .next (setBar s { s.ctl.bar with tmax := n, clkcur := 500 }))
        ∧ (115 ≤ n → n < 256 → ∃ s', exec i s = .next s' ∧ s'.ctl.fatal = true ∧ s'.ctl.bar.clkcur = 500
          ∧ s'.ctl.bar.tmax = n ∧ s'.threads = s.threads))
    ∧ (∀ (s : State) (unit die clu addr : Nat) (syn : Word),
      (unit ≤ 8 → ∃ s' e, exec (.correctedError unit die clu addr syn) s = .next s' ∧ s'.ctl.outbox = s.ctl.outbox ++ [(3, e)]
        ∧ s'.threads = s.threads ∧ s'.store = s.store ∧ e.extractLsb' 0 8 = 1)
      ∧ (8 < unit → exec (.correctedError unit die clu addr syn) s = .next s)
      ∧ (unit ≤ 8 → ∃ s' e, exec (.uncorrectableError unit die clu addr syn) s = .next s'
        ∧ s'.ctl.outbox = s.ctl.outbox ++ [(3, e)] ∧ s'.store.home = s.store.home
        ∧ (unit = 0 → e.extractLsb' 0 8 = 2 ∧
          ((hasHome addr = true ∧ ∃ x ∈ l2Of s (homeSlice addr), x.1 % 2 ^ 45 = addr / 128) →
            (∀ i, i < 4 → addr / 32 * 4 + i ∈ s'.store.hbmPoison) ∧ s'.store.homePoison = s.store.homePoison)
          ∧ (¬(hasHome addr = true ∧ ∃ x ∈ l2Of s (homeSlice addr), x.1 % 2 ^ 45 = addr / 128) →
            ∀ i, i < 4 → addr / 32 * 4 + i ∈ s'.store.homePoison))
        ∧ (unit = 1 → let slice := 256 * (die % 8) + sliceOf addr
          let spoilt := hasHome addr = true ∧ homeSlice addr = slice ∧ ∃ x ∈ l2Of s slice, x.1 % 2 ^ 45 = addr / 128 ∧ x.2 = true
          (spoilt → e.extractLsb' 0 8 = 2 ∧ addr / 8 ∈ s'.store.homePoison)
          ∧ (¬ spoilt → e.extractLsb' 0 8 = 1
            ∧ (mwf (l2Of s slice) = true → ∀ x ∈ l2Of s' slice, x.1 % 2 ^ 45 ≠ addr / 128)
            ∧ ((∀ w ∈ s.store.hbmPoison, w / 16 ≠ addr / 128) → s'.store.homePoison = s.store.homePoison)))
        ∧ (unit = 3 → e.extractLsb' 0 8 = 2 ∧ addr % 2 ^ 21 / 8 ∈ (cluster s' (clu % 256)).stashPoison)
        ∧ (unit = 4 → e.extractLsb' 0 8 = 2 ∧ ∀ o r, mget (cluster s (clu % 256)).heath o = some r → o ≤ addr % 2 ^ 20 →
          addr % 2 ^ 20 < o + r.size → mget (cluster s' (clu % 256)).heath o = some { r with broken := true })
        ∧ (unit = 5 → e.extractLsb' 0 8 = 2 ∧ (addr / 8 < 32 * 512 → addr / 8 ∈ (unitOf s' (clu % 256)).badWords)
          ∧ (32 * 512 ≤ addr / 8 → addr / 8 - 32 * 512 ∈ (unitOf s' (clu % 256)).acc.badWords))
        ∧ (unit = 6 → ∀ t, thread? s ⟨clu % 256, addr / 65536 % 4, addr / 256 % 256⟩ = some t → ∃ t',
          thread? s' ⟨clu % 256, addr / 65536 % 4, addr / 256 % 256⟩ = some t'
            ∧ (0 < addr % 256 → addr % 256 < 64 → t'.regs.xpoison.getLsbD (addr % 64) = true)
            ∧ (64 ≤ addr % 256 → t'.regs.vpoison.getLsbD (addr % 64) = true))
        ∧ (unit = 7 → e.extractLsb' 0 8 = 1 ∧ (cluster s' (clu % 256)).tlb = [])
        ∧ (unit = 8 → e.extractLsb' 0 8 = 3 ∧ s'.ctl.fatal = true)))
    ∧ (∀ (s : State) (pkg : Nat), pkg < 576 → s.ctl.launches = [] →
      (pkg = s.ctl.bar.pkgnum → exec (.packageLoss pkg) s = .next (signalFatal s))
      ∧ (pkg ≠ s.ctl.bar.pkgnum → ∃ s', exec (.packageLoss pkg) s = .next s' ∧ pkg ∈ s'.ctl.fenced ∧ s'.threads = s.threads
        ∧ ∀ k, (h : k < 16) → s'.ctl.bar.links[k] = if s.ctl.bar.links[k] = (2, pkg) then (3, pkg) else s.ctl.bar.links[k]))
    ∧ (∀ (s : State) (port state peer : Nat), (h : port < 16) → state < 4 → peer < 1024 →
      exec (.linkStateChange port state peer) s = .next (setBar s { s.ctl.bar with
        links := s.ctl.bar.links.set port
          (if state < 2 then (state, 0) else if peer ∈ s.ctl.fenced then (3, peer) else (2, peer)) h }))
    ∧ (∀ (s : State) (pkgnum : Nat), s.ctl.bar.bootstat = 0 → pkgnum < 576 → ∃ s', exec (.boot pkgnum) s = .next s'
      ∧ 1 ≤ s'.ctl.bar.bootstat ∧ s'.ctl.bar.bootstat ≤ 4 ∧ (s'.ctl.bar.bootstat = 1 → s'.ctl.bar.pkgnum = pkgnum)
      ∧ (s'.ctl.bar.bootstat ≠ 1 → s'.threads = s.threads ∧ s'.store = s.store)
      ∧ (s'.ctl.bar.bootstat = 1 → s'.store.homePoison = [] ∧ s'.store.hbmPoison = [] ∧ s'.store.hostMem = s.store.hostMem
        ∧ ∀ c, (cluster s' c).viewPoison = [] ∧ (cluster s' c).stashPoison = [] ∧ (unitOf s' c).slotPoison = []
          ∧ (unitOf s' c).badWords = [] ∧ (unitOf s' c).acc.poison = false)
      ∧ (s'.ctl.bar.bootstat = 1 → ∀ k, k < 1024 → ∃ t, thread? s' ⟨k / 4, k % 4, 0⟩ = some t ∧ t.mode = .running
        ∧ t.pc = (Config.supervisorStart k).1 ∧ ∀ n, xval t n = 0))
    ∧ (∀ s : State, ∃ s', exec .deviceReset s = .next s' ∧ s'.threads = [] ∧ s'.clusters = [] ∧ s'.ctl = State.reset.ctl
      ∧ s'.store = { State.reset.store with hostMem := s.store.hostMem } ∧ s'.inputs = s.inputs)
    ∧ ∀ (s : State) (clu : Nat), ∃ s', exec (.supervisorResume clu) s = .next s'
      ∧ ∀ t, thread? s ⟨clu, 0, 0⟩ = some t → (t.mode = .running → thread? s' ⟨clu, 0, 0⟩ = some t)
        ∧ (t.mode ≠ .running → ∃ t', thread? s' ⟨clu, 0, 0⟩ = some t' ∧ t'.mode = .running ∧ t'.regs = t.regs)

/-- O53. An access whose predecessors are done takes its next action, when that can be taken, and is finished
    after the last: its actions in order, but the lines of a range and the two halves of 16 bytes in any. With
    an atomic those of the later members of its group act in the same step. The actions of loads, stores and
    atomics are those of R178. On plain memory, with room in the set of the line: a local read gives held bytes
    and the home values of the others and leaves home alone; a local write makes its bytes held and dirty and
    changes no other byte; a home read gives dirty bytes and the home values of the others; a home write changes
    exactly its bytes at home, held copies turning clean; stash and host writes change exactly their bytes;
    invalidation removes the clean bytes. An action at home waits for halves that the host holds and for a moved
    page; a read of a replicated page reads the replica of its die, and a write stalls for the collapse; an
    access to a line that the stash holds mapped uses the bytes of the stash. A release names every line with a
    dirty byte and writes them back; the line removal of a wide atomic stores the dirty bytes at home and leaves
    the line absent. A narrow atomic whose bytes are held reads them and makes the new ones held and dirty; a
    wide one reads and writes home; neither changes another byte. Atomics compute sum, AND, OR, XOR, signed and
    unsigned minimum and maximum, and the operand for SWAP; CAS writes only when the expected value was found;
    FADD rounds the sum to nearest in FP32 or FP64. (That a home RMW removes the line of its cluster again is
    log 89.) Rules: R177, R178, R180, R184, R330, R339, R145, R158, R161, R162, R163, R164. -/
def Obligations.ActionsTouchTheirBytes : Prop :=
  (∀ (s s1 : State) (l : Loc) (t t1 u : Thread) (id : Nat) (a : Access), thread? s l = some t →
      (∀ k, t.pipe.pack = some k → k.id ≠ id) → t.pipe.acc.find? (fun x => x.id = id) = some a →
      performFor s l.clu t id = some (s1, t1) →
      let s2 := setThread s1 l t1
      let s3 := if a.atRmw && !stalledNow s2 t.uid id then (matesOf s t.uid id).foldl followMate s2 else s2
      thread? s3 l = some u → exec (.accessAction l id) s = .next (retireEnded (retryWaits s3 l.clu u)))
    ∧ (∀ (s : State) (clu : Nat) (t : Thread) (a : Access), t.pipe.acc.find? (fun x => x.id = a.id) = some a →
      let mates := matesOf s t.uid a.id
      (accessFree s t a = false ∨ teamReady s a mates = false → performFor s clu t a.id = none)
      ∧ (a.todo = [] → accessFree s t a = true → ∃ t1, performFor s clu t a.id = some (s, t1) ∧ t1.regs = t.regs
        ∧ ∀ x ∈ t1.pipe.acc, x.id ≠ a.id)
      ∧ (∀ act rest, nextAct s a.todo = some (act, rest) → actReady s clu a act = false → performFor s clu t a.id = none)
      ∧ ∀ act rest, nextAct s a.todo = some (act, rest) → accessFree s t a = true → teamReady s a mates = true →
        actReady s clu a act = true → let r := takeAct s clu a act rest (mates.map (·.acc))
        ∃ t1, performFor s clu t a.id = some (drawn r.1, t1) ∧ t1.regs = t.regs ∧ t1.pc = t.pc
          ∧ t1.csr = t.csr ∧ (r.2.todo = [] → ∀ x ∈ t1.pipe.acc, x.id ≠ r.2.id))
    ∧ (∀ (s : State) (acts : List Act), lineActs acts = true → acts ≠ [] →
      ∃ i, ∃ h : i < acts.length, nextAct s acts = some (acts[i], acts.eraseIdx i))
    ∧ (∀ (s : State) (x : Act) (rest : List Act), lineActs (x :: rest) = false →
      ((∀ y, rest.head? = some y → halfPair x y = false) → nextAct s (x :: rest) = some (x, rest))
      ∧ ∀ y more, rest = y :: more → halfPair x y = true →
        nextAct s (x :: rest) = some (x, rest) ∨ nextAct s (x :: rest) = some (y, x :: more))
    ∧ (∀ (a : Access) (pa : Nat), a.place = .mem pa → let h := fun (f : Nat → Nat → Act) =>
        if a.n = 16 then [f 0 8, f 8 8] else [f 0 a.n]
      (a.kind = .load → actsOf a =
        if a.scope.wide = true ∧ (a.ord = .acq ∨ a.ord = .ar) then h .homeRead ++ [.invalidate]
        else if a.tainted = true then h .homeRead else h .localRead)
      ∧ (a.kind = .store → actsOf a =
        if a.scope.wide = true ∧ (a.ord = .rel ∨ a.ord = .ar) then .wbStart :: h .homeWrite else h .localWrite)
      ∧ (∀ op, a.kind = .rmw op → a.scope.wide = false → actsOf a = [.localRmw])
      ∧ (∀ op, a.kind = .rmw op → a.scope.wide = true →
        (a.ord = .ar → actsOf a = [.wbStart, .lineOut, .homeRmw, .invalidate])
        ∧ (a.ord = .acq → actsOf a = [.lineOut, .homeRmw, .invalidate])
        ∧ (a.ord = .rel → actsOf a = [.wbStart, .lineOut, .homeRmw])
        ∧ (a.ord = .rlx → actsOf a = [.lineOut, .homeRmw])))
    ∧ (∀ (s : State) (clu key pa n : Nat), plainAt s clu pa n → 0 < n →
      (∀ bytes : List Byte, bytes.length = n → (setLines (cluster s clu) (vkey key (pa / 128 * 128) / 128)).length < 16 →
        (∀ c k a, a < 2 ^ 52 → heldView (localWrite s clu key pa bytes) c k a =
          (if c = clu ∧ k = key ∧ pa ≤ a ∧ a < pa + n then some ⟨bytes.getD (a - pa) 0, true⟩ else heldView s c k a))
        ∧ (localWrite s clu key pa bytes).store = s.store)
      ∧ (∀ bytes : List Byte, bytes.length = n →
        (∀ a, pa ≤ a → a < pa + n → heldHome (homeWrite s clu key pa bytes) key a = some (bytes.getD (a - pa) 0)
          ∧ heldView (homeWrite s clu key pa bytes) clu key a =
            (heldView s clu key a).map fun _ => (⟨bytes.getD (a - pa) 0, false⟩ : VByte))
        ∧ ∀ k a, (a < pa ∨ pa + n ≤ a) → a < 2 ^ 52 → heldHome (homeWrite s clu key pa bytes) k a = heldHome s k a
          ∧ ∀ c, heldView (homeWrite s clu key pa bytes) c k a = heldView s c k a)
      ∧ (∀ i, i < n → (homeRead s clu key pa n).1[i]? = some (match heldView s clu key (pa + i) with
          | some v => if v.dirty then v.val else homeGet s key (pa + i)
          | none => homeGet s key (pa + i)))
      ∧ (pa / 128 = (pa + n - 1) / 128 → (setLines (cluster s clu) (vkey key (pa / 128 * 128) / 128)).length < 16 →
        (∀ k a, heldHome (localRead s clu key pa n).2.2 k a = heldHome s k a) ∧ ∀ i, i < n →
          (∀ v, heldView s clu key (pa + i) = some v → (localRead s clu key pa n).1[i]? = some v.val)
          ∧ (heldView s clu key (pa + i) = none → ∀ b, heldHome s key (pa + i) = some b →
            (localRead s clu key pa n).1[i]? = some b)))
    ∧ (∀ (s : State) (clu pa off len : Nat) (a : Access) (rest : List Act) (mates : List Access), a.place = .mem pa →
      let q := match a.replica with
        | some d => (pa + off) / 2 ^ 40 * 2 ^ 40 + d * 2 ^ 37 + (pa + off) % 2 ^ 37
        | none => pa + off
      let done := { a with todo := rest }
      let home := homeRead s clu a.key q len
      let loc := localRead s clu a.key q len
      (takeAct s clu a (.homeRead off len) rest mates).2 = done.gain off home.1 home.2
      ∧ (takeAct s clu a (.localRead off len) rest mates).2 = done.gain off loc.1 loc.2.1
      ∧ (a.page.any (·.repl) = false →
        takeAct s clu a (.homeWrite off len) rest mates = (homeWrite s clu a.key q (dataBytes a off len), done)
        ∧ takeAct s clu a (.localWrite off len) rest mates = (localWrite s clu a.key q (dataBytes a off len), done))
      ∧ (∀ e act, a.page = some e → e.repl = true → act = .homeWrite off len ∨ act = .localWrite off len →
        stallsFor s a e a.todo (takeAct s clu a act rest mates))
      ∧ (redirectOf s q ≠ none → actReady s clu a (.localWrite off len) = false)
      ∧ (redirectOf s q ≠ none ∨ hostHolds s a.key q len = true →
        actReady s clu a (.homeRead off len) = false ∧ actReady s clu a (.homeWrite off len) = false
        ∧ (off = 0 → len = a.n → actReady s clu a .homeRmw = false))
      ∧ ∀ x, q ≤ x → x < q + len → x / 128 = q / 128 → (cluster s clu).maps = [] → heldView s clu a.key x = none →
        redirectOf s (q / 128 * 128) ≠ none ∨ halfHeld s a.key (x / 64) = true → actReady s clu a (.localRead off len) = false)
    ∧ (∀ (s : State) (clu key line o k n : Nat), mappedLine s clu key line o → 0 < n → k + n ≤ 128 →
      (∀ bytes : List Byte, bytes.length = n → let s' := localWrite s clu key (line * 128 + k) bytes
        (∀ c x, heldStash s' c x =
          if c = clu ∧ o + k ≤ x ∧ x < o + k + n then some (bytes.getD (x - (o + k)) 0) else heldStash s c x)
        ∧ (∀ i, k ≤ i → i < k + n → heldMapped s' clu (o + i) = some true)
        ∧ s'.store = s.store ∧ ∀ c h x, heldView s' c h x = heldView s c h x)
      ∧ ((∀ i, k ≤ i → i < k + n → heldMapped s clu (o + i) ≠ none) → let r := localRead s clu key (line * 128 + k) n
        r.2.2 = s ∧ ∀ i b, i < n → heldStash s clu (o + k + i) = some b → r.1[i]? = some b))
    ∧ (∀ (s : State) (clu a : Nat) (bytes : List Byte) (c k : Nat),
      heldStash (stashWrite s clu a bytes) c k =
        (if c = clu ∧ a ≤ k ∧ k < a + bytes.length then some (bytes.getD (k - a) 0) else heldStash s c k)
      ∧ heldHost (hostWrites s a bytes) k = if a ≤ k ∧ k < a + bytes.length then some (bytes.getD (k - a) 0) else heldHost s k)
    ∧ (∀ (s : State) (clu k pa : Nat), mwf (cluster s clu).view = true →
      heldView (invalidate s clu) clu k pa = (heldView s clu k pa).filter fun v => v.dirty)
    ∧ (∀ (w : Nat) (o b e : BitVec w), 0 < w →
      rmwNew .add w o.toNat b.toNat e.toNat = some (o + b).toNat ∧ rmwNew .and w o.toNat b.toNat e.toNat = some (o &&& b).toNat
      ∧ rmwNew .or w o.toNat b.toNat e.toNat = some (o ||| b).toNat ∧ rmwNew .xor w o.toNat b.toNat e.toNat = some (o ^^^ b).toNat
      ∧ rmwNew .min w o.toNat b.toNat e.toNat = some (if b.slt o then b else o).toNat
      ∧ rmwNew .minn w o.toNat b.toNat e.toNat = some (if b.ult o then b else o).toNat
      ∧ rmwNew .max w o.toNat b.toNat e.toNat = some (if o.slt b then b else o).toNat
      ∧ rmwNew .maxn w o.toNat b.toNat e.toNat = some (if o.ult b then b else o).toNat
      ∧ rmwNew .swap w o.toNat b.toNat e.toNat = some b.toNat
      ∧ rmwNew .cas w o.toNat b.toNat e.toNat = if o = e then some b.toNat else none)
    ∧ (∀ o b e : Nat, rmwNew .fadd 32 o b e = some (fpAdd .fp32 Rnd.rne o b).bits
      ∧ rmwNew .fadd 64 o b e = some (fpAdd .fp64 Rnd.rne o b).bits)
    ∧ (∀ (s : State) (clu : Nat) (a : Access) (rest : List Act) (mates : List Access),
      (takeAct s clu a .wbStart rest mates).1 = s
      ∧ (∃ ls, (∀ k pa v, pa < 2 ^ 52 → heldView s clu k pa = some v → v.dirty = true → (k, pa / 128) ∈ ls)
        ∧ (takeAct s clu a .wbStart rest mates).2.todo = if ls = [] then rest else .wbLines ls :: rest)
      ∧ ∀ ls : List (Nat × Nat), (∃ e ∈ ls, wbReady s clu e.1 e.2 = true) → ∃ e ∈ ls, wbReady s clu e.1 e.2 = true
        ∧ (lineStall s clu e.1 e.2 = none → (takeAct s clu a (.wbLines ls) rest mates).1 = wbLine s clu e.1 e.2
          ∧ (takeAct s clu a (.wbLines ls) rest mates).2.todo = if ls.erase e = [] then rest else .wbLines (ls.erase e) :: rest))
    ∧ (∀ (s : State) (clu pa : Nat) (a : Access) (rest : List Act) (mates : List Access), a.place = .mem pa → a.replica = none →
      plainAt s clu (pa / 128 * 128) 128 → mwf (cluster s clu).view = true → let s' := (takeAct s clu a .lineOut rest mates).1
      (∀ x v, x / 128 = pa / 128 → heldView s clu a.key x = some v → v.dirty = true → heldHome s' a.key x = some v.val)
      ∧ (∀ x, x / 128 = pa / 128 → heldView s' clu a.key x = none)
      ∧ (∀ k x, x < 2 ^ 52 → (x / 128 ≠ pa / 128 ∨ ∀ v, heldView s clu a.key x = some v → v.dirty = false) →
        heldHome s' k x = heldHome s k x)
      ∧ ∀ c k x, x < 2 ^ 52 → (c ≠ clu ∨ k ≠ a.key ∨ x / 128 ≠ pa / 128) → heldView s' c k x = heldView s c k x)
    ∧ ∀ (s : State) (clu pa : Nat) (a : Access) (op : RmwOp) (rest : List Act) (old : Nat → Byte), a.kind = .rmw op →
      a.place = .mem pa → a.replica = none → a.replPage = none → 0 < a.n → a.n ≤ 16 → pa / 128 = (pa + a.n - 1) / 128 →
      plainAt s clu (pa / 128 * 128) 128 →
      let o := leNat ((List.range a.n).map old)
      let new := rmwNew op (8 * a.n) o (a.data.toNat % 2 ^ (8 * a.n)) (a.expd.toNat % 2 ^ (8 * a.n))
      (a.tainted = false → (∀ i, i < a.n → (heldView s clu a.key (pa + i)).map (·.val) = some (old i)
          ∧ viewPoisoned s clu a.key (pa + i) = false) →
        let r := takeAct s clu a .localRmw rest []
        r.2.got = a.got ||| BitVec.ofNat 128 o ∧ r.2.todo = rest
        ∧ (∀ v i, new = some v → i < a.n → heldView r.1 clu a.key (pa + i) = some ⟨(leBytes a.n v).getD i 0, true⟩)
        ∧ (∀ c k x, x < 2 ^ 52 → (new = none ∨ c ≠ clu ∨ k ≠ a.key ∨ x < pa ∨ pa + a.n ≤ x) →
          heldView r.1 c k x = heldView s c k x)
        ∧ ∀ k x, heldHome r.1 k x = heldHome s k x)
      ∧ ((∀ x, x / 128 = pa / 128 → heldView s clu a.key x = none) → s.store.hbmPoison = [] → homeBad s pa a.n = false →
        (∀ i, i < a.n → heldHome s a.key (pa + i) = some (old i)) →
        let r := takeAct s clu a .homeRmw rest []
        r.2.got = a.got ||| BitVec.ofNat 128 o ∧ r.2.todo = rest
        ∧ (∀ v i, new = some v → i < a.n → heldHome r.1 a.key (pa + i) = some ((leBytes a.n v).getD i 0))
        ∧ (∀ k x, (new = none ∨ x < pa ∨ pa + a.n ≤ x) → heldHome r.1 k x = heldHome s k x)
        ∧ ∀ c k x, x < 2 ^ 52 → heldView r.1 c k x = heldView s c k x)

/-- O54. When an instruction that touches neither memory nor another unit issues and answers a next state: no
    other thread and no byte of memory changes; every register keeps its value, the result being under way; and
    of the control registers only RAND and QCTLV may change. (CVTA, which may trap, has its own statement.) When
    a result lands: a write of x0 changes nothing; of another x register its value, taint and poison, of a v
    register its value and poison; every other register and every full/empty bit stays, as do PC, mode and
    ports. Rules: R59, R70, R101, R102, R114, R125, R183, R303. -/
def Obligations.RegisterInstructionsFrame : Prop :=
  (∀ (i : Instr) (s s' : State) (t : Thread), registerOnly i = true → (∀ d a b, i ≠ .cvta d a b) →
      Issues s t i → exec i s = .next s' →
      othersSame s s' s.cur ∧ sameMemory s s' ∧ s'.store = s.store ∧ s'.ctl = s.ctl ∧ s'.cycle = s.cycle
      ∧ ∃ t', thread? s' s.cur = some t' ∧ t'.regs = t.regs ∧ t'.uid = t.uid ∧ t'.grp = t.grp
        ∧ t'.mode = t.mode ∧ t'.pc = pcAfter t.pc s.curN ∧ t'.csr = { t.csr with rand := t'.csr.rand, qctlv := t'.csr.qctlv })
    ∧ (∀ (r : Regs) (w : Wr), (w.dest = .x 0 → r.write w = r)
      ∧ (∀ n : XReg, n ≠ 0 → w.dest = .x n →
        (r.write w).x.get n.toFin = w.val.setWidth 64 ∧ (r.write w).taint.getLsbD n.toNat = w.taint
        ∧ (r.write w).xpoison.getLsbD n.toNat = w.poison ∧ (r.write w).v = r.v ∧ (r.write w).full = r.full
        ∧ (r.write w).vpoison = r.vpoison
        ∧ ∀ m : XReg, m ≠ n → (r.write w).x.get m.toFin = r.x.get m.toFin
          ∧ (r.write w).taint.getLsbD m.toNat = r.taint.getLsbD m.toNat
          ∧ (r.write w).xpoison.getLsbD m.toNat = r.xpoison.getLsbD m.toNat)
      ∧ ∀ n : VReg, w.dest = .v n → (r.write w).v.get n.toFin = w.val ∧ (r.write w).vpoison.getLsbD n.toNat = w.poison
        ∧ (r.write w).x = r.x ∧ (r.write w).full = r.full ∧ (r.write w).taint = r.taint ∧ (r.write w).xpoison = r.xpoison
        ∧ ∀ m : VReg, m ≠ n → (r.write w).v.get m.toFin = r.v.get m.toFin
          ∧ (r.write w).vpoison.getLsbD m.toNat = r.vpoison.getLsbD m.toNat)
    ∧ (∀ t : Thread, xval t 0 = 0)
    ∧ ∀ (s s' : State) (l : Loc) (id : Nat) (t : Thread) (i : Instr), i = .fixedResultWrite l ∨ i = .resultLanding l id →
      thread? s l = some t → exec i s = .next s' → ∃ t', s' = setThread s l t' ∧ t'.pc = t.pc ∧ t'.mode = t.mode
        ∧ t'.ports = t.ports ∧ t'.regs.full = t.regs.full ∧ t'.csr = { t.csr with fpctl := t'.csr.fpctl }

/-- O55. When the thread whose turn it is has, at its PC, a line held by its instruction cache whose word at the
    index decodes to an instruction, with no annulment pending and no poison, the step executes that instruction
    for that thread, the group bookkeeping advanced. After the turns come the results due by the end of the
    cycle, then its events, and then the next cycle. With an annulment pending the step passes the instruction;
    a word or line that decodes to none leads to HALT_ALONE, an unheld line, or one that the page does not
    permit to fetch, to LINE_FETCH. Modelled choices: the order of turns, due results, events and the next cycle
    (assumption log 5), and the fields that hold them (log 3). Rules: R26, R28, R38, R51, R57, R70, R112. -/
def Obligations.StepRunsTheDecodedInstruction : Prop :=
  (∀ (s : State) (lead : Bool) (l : Loc) (rest : List (Bool × Loc)) (t : Thread),
      s.issueQ = (lead, l) :: rest → thread? s l = some t →
      let turn := fun (n : Nat) => { s with issueQ := rest, cur := l, curN := n, grpAcc := if lead then [] else s.grpAcc }
      (∀ k w n i, heldLine s l t t.pc = .held k → lineAt k.bytes (t.pc.toNat % 64) = .ok (w, n) →
        (t.pipe.annul ≠ 0 → step s = exec (.annulPass l) (turn n))
        ∧ (t.pipe.annul = 0 → k.poison = true → step s = exec (.lineFetch l) (turn 1))
        ∧ (t.pipe.annul = 0 → k.poison = false → decodeWord w = .ok i → step s = exec i (turn n))
        ∧ ∀ e, t.pipe.annul = 0 → k.poison = false → decodeWord w = .error e → step s = exec (.haltAlone l) (turn 1))
      ∧ (∀ k e, heldLine s l t t.pc = .held k → lineAt k.bytes (t.pc.toNat % 64) = .error e →
        step s = exec (.haltAlone l) (turn 1))
      ∧ ((heldLine s l t t.pc = .miss ∨ heldLine s l t t.pc = .fault ∨ ∃ pa, heldLine s l t t.pc = .denied pa) → step s = exec (.lineFetch l) (turn 1)))
    ∧ (∀ (s : State) (l : Loc), s.issueQ = [] → dueResult s = some l → step s = exec (.fixedResultWrite l) s)
    ∧ (∀ (s : State) (i : Instr) (is : List Instr), dueResult s = none → s.issueQ = [] → s.agenda = i :: is →
      step s = exec i { s with agenda := is })
    ∧ ∀ s : State, dueResult s = none → s.issueQ = [] → s.agenda = [] → step s = exec .rotationPointerMove s

/-- O56. The words that the encoding section derives for LD, ADDI, FADD.F32 and ST decode to these instructions
    with their registers, displacement, size, order, scope and dependence fields; the whole line of 32 halfwords
    gives each of them at its index with N = 4; the word of the BR that follows decodes to a branch by −3 lines
    to index 2. Rules: R51, R53, R55, R57, R80, R81, R82, R85. -/
def Obligations.ExampleWordsDecode : Prop :=
  let ld := Instr.ld { s := false, pd := 0, sa := 1, sc := 0 } false .w 5 { disp := 8, base := 6, ord := .rlx, scope := .thr }
    let addi := Instr.addiFrri ⟨false, 0, 0, 0⟩ .d (.x 7) (.x 7) 1
    let fadd := Instr.fadd { s := false, pd := 0, sa := 0, sc := 1 } .f32 .dyn (.x 8) (.x 5) (.x 9)
    let st := Instr.st { s := false, pd := 1, sa := 0, sc := 0 } false .w (.x 8) { disp := 8, base := 6, ord := .rlx, scope := .thr }
    let line := halfwordsBytes ([0x0004, 0x3600, 0x2200, 0x2400, 0x3608] ++ List.replicate 17 0
      ++ [0x0801, 0x0203, 0x0080, 0x8820, 0x0242, 0x8700, 0x0043, 0x0504, 0x0203, 0x0080])
    decodeWord 0x008002030504_3600 = .ok ld ∧ decodeWord 0x00438700_2200 = .ok addi
    ∧ decodeWord 0x02428820_2400 = .ok fadd ∧ decodeWord 0x008002030801_3608 = .ok st
    ∧ decodeWord 0xFFFFA200_2008 = .ok (.br ⟨false, 0, 0, 0⟩ (-3) 2)
    ∧ decodeLine line 0 = .ok (ld, 4) ∧ decodeLine line 1 = .ok (addi, 4) ∧ decodeLine line 2 = .ok (fadd, 4)
    ∧ decodeLine line 3 = .ok (st, 4) ∧ decodeLine line 4 = .error .index

/-- O57. Every well-formed instruction, with every operand at every value that the encoding admits, has an
    encoding; the decoder reads the instruction from its logical word, and from a code line that holds that word
    alone. Device events have no encoding. Rules: R51, R53, R55, R57, R80, R81, R82, R83, R85. -/
def Obligations.DecodeAgreesWithEncode : Prop :=
  (∀ i : Instr, i.wellFormed = true → ∃ e, encode i = some e ∧ decodeWord e.word = .ok i
      ∧ decodeLine (singleLine e.word) 0 = .ok (i, 1) ∧ decodeTableWord (16 * (1 + e.fmt.tl)) e.word = some i)
    ∧ ∀ i : Instr, i.isEvent = true → encode i = none

/-- O58. Whatever word of the length of its format decodes to an instruction is that instruction’s encoding, and
    the instruction is well-formed: no bit of a word is dropped and no reserved value passes. A word whose OPC
    is not listed, or whose TL is not that of its OPC, is refused; so is a line with N = 0, with a header bit
    above 4 set, a head with TL above 4, more halfwords than fit or a padding halfword that is not zero, and an
    index not below N. Rules: R54, R56, R65, R72, R80, R85, R86. -/
def Obligations.WordsHaveOneMeaning : Prop :=
  (∀ (w : Nat) (f : Format) (i : Instr), formatOf (w % 4096) = some f → w < 2 ^ (16 * (1 + f.tl)) → decodeWord w = .ok i →
      i.wellFormed = true ∧ i.word = w)
    ∧ (∀ w : Nat, formatOf (w % 4096) = none → decodeWord w = .error .opcode)
    ∧ (∀ (w : Nat) (f : Format), formatOf (w % 4096) = some f → w / 4096 % 8 ≠ f.tl → decodeWord w = .error .tail)
    ∧ (∀ (bytes : List Byte) (idx : Nat), let h := lineHalfwords bytes
      let n := h.headD 0 % 32
      (n = 0 ∨ h.headD 0 / 32 ≠ 0 ∨ (∃ x ∈ (h.drop 1).take n, 4 < headTl x) ∨ 31 < n + tailSum ((h.drop 1).take n)
          ∨ ∃ x ∈ (h.drop (n + 1)).take (31 - n - tailSum ((h.drop 1).take n)), x ≠ 0) →
        decodeLine bytes idx = .error .line)
    ∧ ∀ (bytes : List Byte) (idx : Nat) (ws : List Nat), parseLine (lineHalfwords bytes) = some ws → ws.length ≤ idx →
      decodeLine bytes idx = .error .index

/-- O59. After reset BOOTSTAT reads 0, every subscription slot is zero, no cache and no TLB holds an entry, no
    memory holds poison or a promised value, no thread stands in a slot, and every memory is in canonical form.
    A thread starts with its PC and x1 given, every other x register and every v register zero, every register
    full, every tag FREE, its ports empty, TCAUSE, FPCTL, TVEC and QHND zero and GRANK all ones. Modelled
    choice: that the L2 slices hold no line (assumption log 2; its values for the registers of the host
    interface are not stated here). Rules: R21, R60, R108, R196, R222, R313, R445. -/
def Obligations.ResetAndStartValues : Prop :=
  (State.reset.ctl.bar.bootstat = 0 ∧ State.reset.threads = [] ∧ State.reset.store.home = [] ∧ State.reset.store.homePoison = []
      ∧ State.reset.store.hbmPoison = []
      ∧ (∀ c w, slotOf State.reset c w = SubSlot.zero)
      ∧ (∀ c, (cluster State.reset c).view = [] ∧ (cluster State.reset c).tlb = [] ∧ (cluster State.reset c).stash = []
        ∧ (cluster State.reset c).stashPoison = [])
      ∧ (∀ k, (coreOf State.reset k).icache = []) ∧ (∀ d, (dieOf State.reset d).tlb = []) ∧ State.reset.store.l2 = []
      ∧ (∀ key pa, heldHome State.reset key pa = none) ∧ State.reset.canonical)
    ∧ ∀ (uid : Nat) (l : Loc) (pc arg : Word) (tid gsz gang lnch slice : BitVec 32) (light : Bool) (prio : BitVec 2)
      (ptbase wpriv : Word) (key : BitVec 6),
      let t := Thread.start uid l pc arg (Csrs.start tid gsz gang lnch light prio slice ptbase key wpriv)
      t.pc = pc ∧ xval t 1 = arg ∧ (∀ n, n ≠ 1 → xval t n = 0) ∧ (∀ n, vval t n = 0)
      ∧ (∀ k, k < 64 → t.regs.full.getLsbD k = true) ∧ (∀ k, tagOf t k = .free)
      ∧ (∀ q, (portOf t q).desc = 0 ∧ (portOf t q).inb = [] ∧ (portOf t q).win = [])
      ∧ t.csr.tcause = 0 ∧ t.csr.fpctl = 0 ∧ t.csr.tvec = 0 ∧ t.csr.qhnd = 0 ∧ t.csr.grank = 0xFFFFFFFFFFFFFFFF
      ∧ t.csr.tid = tid ∧ t.csr.ptbase = ptbaseMask ptbase ∧ t.csr.keyid = key ∧ t.csr.wpriv = wpriv ∧ t.csr.prio = prio

/-- O60. In any state, reachable or not, whose home memory, host memory and stashes hold each address once, in
    rising order, a step that answers a next state answers one whose memories do so too: whatever instruction or
    event it executed. (How memory is represented is the model’s choice, log 4.) Rules: R172, R177, R445. -/
def Obligations.StepKeepsCanonicalMemory : Prop :=
  ∀ s s' : State, s.canonical → step s = .next s' → s'.canonical
end

