-- ==== Sys2Proof/Laws/Bytes.lean ====
section
/-! SUPPORT. Laws of little-endian bytes, and what a migration message carries of its thread. -/

namespace Sys2Proof.Machine

@[simp] theorem leBytes_length (n v : Nat) : (leBytes n v).length = n := by
  induction n generalizing v with
  | zero => rfl
  | succ n ih => simp [leBytes, ih]

/-- The number of the bytes of a number is that number, cut to their width. -/
theorem leNat_leBytes (n v : Nat) : leNat (leBytes n v) = v % 256 ^ n := by
  induction n generalizing v with
  | zero => simp [leBytes, leNat, Nat.mod_one]
  | succ n ih =>
    have h : v % 256 ^ (n + 1) = v % 256 + 256 * (v / 256 % 256 ^ n) := by rw [Nat.pow_succ', Nat.mod_mul]
    rw [leBytes, leNat, ih, BitVec.toNat_ofNat, h]

/-- Word `i` of a block of words of eight bytes. -/
theorem migWord_fieldBytes (ws : List Nat) (i : Nat) (h : i < ws.length) :
    migWord (fieldBytes (ws.map fun w => (8, w))) i = BitVec.ofNat 64 (ws[i]'h) := by
  have key : ∀ (ws : List Nat) (i : Nat) (h : i < ws.length),
      ((fieldBytes (ws.map fun w => (8, w))).drop (8 * i)).take 8 = leBytes 8 (ws[i]'h) := by
    intro ws
    induction ws with
    | nil => intro i h; simp at h
    | cons w ws ih =>
      intro i h
      cases i with
      | zero => simp [fieldBytes]
      | succ i =>
        have := ih i (by simpa using h)
        simp only [fieldBytes, List.map_cons, List.flatMap_cons] at this ⊢
        have e : 8 * (i + 1) = (leBytes 8 w).length + 8 * i := by rw [leBytes_length]; omega
        rw [e, List.drop_length_add_append]
        simpa using this
  rw [migWord, key ws i h, leNat_leBytes]
  apply BitVec.eq_of_toNat_eq
  simp

/-- The words of a migration message: x0 to x15, the PC, MFLAGS (R271). -/
theorem migBytes_words (t : Thread) (r : Loc) : migBytes t r = fieldBytes
    ((((List.range 16).map fun i => (xval t (BitVec.ofNat 6 i)).toNat) ++ [t.pc.toNat, migFlags r t]).map fun w => (8, w)) := by
  simp [migBytes, List.map_append, List.map_map, Function.comp_def]

/-- Registers x0 to x15 of a message. -/
theorem migWord_x (t : Thread) (r : Loc) (i : Nat) (h : i < 16) : migWord (migBytes t r) i = xval t (BitVec.ofNat 6 i) := by
  rw [migBytes_words, migWord_fieldBytes _ _ (by simp; omega)]
  simp [h]

/-- The PC of a message. -/
theorem migWord_pc (t : Thread) (r : Loc) : migWord (migBytes t r) 16 = t.pc := by
  rw [migBytes_words, migWord_fieldBytes _ _ (by simp)]
  simp

/-- MFLAGS of a message. -/
theorem migWord_flags (t : Thread) (r : Loc) : migWord (migBytes t r) 17 = BitVec.ofNat 64 (migFlags r t) := by
  rw [migBytes_words, migWord_fieldBytes _ _ (by simp)]
  simp

end Sys2Proof.Machine
end

