-- ==== Sys2Proof/Laws/Codec.lean ====
section
/-! SUPPORT. The codec once: fields read back what was packed, operand codes decode to their operands, and
a word that the encoder builds decodes to its instruction. -/

namespace Sys2Proof.Laws

/-- Each field is within its width. -/
def Fits : List Nat → List Nat → Prop
  | [], [] => True
  | k :: ks, f :: fs => f < 2 ^ k ∧ Fits ks fs
  | _, _ => False

@[simp] theorem fits_nil : Fits [] [] ↔ True := Iff.rfl
@[simp] theorem fits_cons (k f : Nat) (ks fs : List Nat) : Fits (k :: ks) (f :: fs) ↔ f < 2 ^ k ∧ Fits ks fs := Iff.rfl

/-- Fields within their widths read back from the number they pack to. -/
theorem unpack_pack : ∀ (ks fs : List Nat), Fits ks fs → unpack ks (pack ks fs) = fs
  | [], [], _ => rfl
  | k :: ks, f :: fs, ⟨hf, h⟩ => by
    have hp : 0 < 2 ^ k := Nat.two_pow_pos k
    simp only [unpack, pack, Nat.add_mul_mod_self_left, Nat.mod_eq_of_lt hf, Nat.add_mul_div_left _ _ hp,
      Nat.div_eq_of_lt hf, Nat.zero_add, unpack_pack ks fs h]

theorem Format.tl_lt (f : Format) : f.tl < 8 := by cases f <;> decide

/-- The parts of a word: OPC, TL, S and what stands above the head. -/
theorem word_parts (o t s p : Nat) (ho : o < 4096) (ht : t < 8) (hs : s < 2) :
    (o + 2 ^ 12 * t + 2 ^ 15 * s + 2 ^ 16 * p) % 2 ^ 12 = o ∧ (o + 2 ^ 12 * t + 2 ^ 15 * s + 2 ^ 16 * p) / 2 ^ 12 % 8 = t
      ∧ (o + 2 ^ 12 * t + 2 ^ 15 * s + 2 ^ 16 * p) / 2 ^ 15 % 2 = s
      ∧ (o + 2 ^ 12 * t + 2 ^ 15 * s + 2 ^ 16 * p) / 2 ^ 16 = p := by
  omega

/-- What an encoding states is what the decoder reads from its word. -/
theorem decodeWord_word (e : Enc) (i : Instr) (hf : formatOf e.opc = some e.fmt) (ho : e.opc < 4096)
    (hw : Fits e.fmt.widths e.fields)
    (hb : build e.opc (depOf e.s e.fields).1 (depOf e.s e.fields).2 = some i) (hi : i.wellFormed = true) :
    decodeWord e.word = .ok i := by
  have hs : bitOf e.s < 2 := by cases e.s <;> decide
  obtain ⟨h1, h2, h3, h4⟩ := word_parts e.opc e.fmt.tl (bitOf e.s) (pack e.fmt.widths e.fields) ho (Format.tl_lt _) hs
  have h5 : (bitOf e.s == 1) = e.s := by cases e.s <;> rfl
  unfold decodeWord Enc.word
  rw [h1, h2, h3, h4, hf]
  simp only [ne_eq, not_true_eq_false, if_false, unpack_pack _ _ hw, h5, hb, hi, if_true]

/-- The same for an encoding with a dependence byte. -/
theorem decodeWord_encOf {opc : Nat} {fmt : Format} {d : Dep} {rest : List Nat} {i : Instr}
    (hf : formatOf opc = some fmt) (ho : opc < 4096)
    (hw : Fits fmt.widths (d.pd.toNat :: d.sa.toNat :: d.sc.toNat :: rest)) (hb : build opc d rest = some i)
    (hi : i.wellFormed = true) : decodeWord (encOf opc fmt d rest).word = .ok i := by
  refine decodeWord_word _ i hf ho hw ?_ hi
  have hd : depOf d.s (d.pd.toNat :: d.sa.toNat :: d.sc.toNat :: rest) = (d, rest) := by simp [depOf]
  show build opc (depOf d.s (d.pd.toNat :: d.sa.toNat :: d.sc.toNat :: rest)).1
    (depOf d.s (d.pd.toNat :: d.sa.toNat :: d.sc.toNat :: rest)).2 = some i
  rw [hd]
  exact hb

/-- Encoding and decoding agree on an instruction: a word of it, when it is well formed, decodes to it. -/
def Agrees (i : Instr) : Prop := ∀ e, encode i = some e → i.wellFormed = true → decodeWord e.word = .ok i

theorem agrees_encOf {opc : Nat} {fmt : Format} {d : Dep} {rest : List Nat} {i : Instr}
    (he : encode i = some (encOf opc fmt d rest)) (hf : formatOf opc = some fmt) (ho : opc < 4096)
    (hw : Fits fmt.widths (d.pd.toNat :: d.sa.toNat :: d.sc.toNat :: rest)) (hb : build opc d rest = some i) :
    Agrees i := by
  intro e h hi
  rw [he] at h
  cases h
  exact decodeWord_encOf hf ho hw hb hi

theorem agrees_bare {opc : Nat} {s : Bool} {i : Instr} (he : encode i = some ⟨opc, .f0, s, []⟩)
    (hf : formatOf opc = some .f0) (ho : opc < 4096) (hb : build opc (Dep.bare s) [] = some i) : Agrees i := by
  intro e h hi
  rw [he] at h
  cases h
  exact decodeWord_word ⟨opc, .f0, s, []⟩ i hf ho trivial hb hi

/-- An event has no encoding. -/
theorem agrees_event {i : Instr} (he : encode i = none) : Agrees i := by
  intro e h
  rw [he] at h
  cases h

/-! Operand codes. -/

/-- One operand decodes, and the rest of the fields follow. -/
theorem bs {α β : Type} {o : Option α} {a : α} {F : α → Option β} {r : Option β} (h : o = some a) (k : F a = r) :
    (o >>= F) = r := by rw [h]; exact k

theorem oprOf_code (r : Opr) : oprOf r.code = some r := by
  cases r with
  | x n =>
    have h : n.toNat < 64 := n.isLt
    show (if n.toNat < 64 then some (Opr.x (BitVec.ofNat 6 n.toNat)) else _) = _
    rw [if_pos h, BitVec.ofNat_toNat, BitVec.setWidth_eq]
  | q n =>
    have h : n.toNat < 8 := n.isLt
    have e : 64 + n.toNat - 64 = n.toNat := by omega
    show (if 64 + n.toNat < 64 then _ else if 64 + n.toNat < 72 then some (Opr.q (BitVec.ofNat 3 (64 + n.toNat - 64))) else _) = _
    rw [if_neg (by omega), if_pos (by omega), e, BitVec.ofNat_toNat, BitVec.setWidth_eq]

theorem xregOf_toNat (n : XReg) : xregOf n.toNat = some n := by
  have h : n.toNat < 64 := n.isLt
  unfold xregOf
  rw [if_pos h, BitVec.ofNat_toNat, BitVec.setWidth_eq]

theorem pregOf_toNat (n : PReg) : pregOf (64 + n.toNat) = some n := by
  have h : n.toNat < 8 := n.isLt
  unfold pregOf
  rw [if_pos (by omega), Nat.add_sub_cancel_left, BitVec.ofNat_toNat, BitVec.setWidth_eq]

theorem rmOf_code (x : RM) : rmOf x.code = some x := by cases x <;> rfl
theorem sizeOf_code (x : Size) : sizeOf x.code = some x := by cases x <;> rfl
theorem ordOf_code (x : Ord) : ordOf x.code = some x := by cases x <;> rfl
theorem scopeOf_code (x : Scope) : scopeOf x.code = some x := by cases x <;> rfl
theorem fmtCode_code (x : Fmt) : fmtCode x.code = some x := by cases x <;> rfl
theorem condOf_code (x : Cond) : condOf x.code = some x := by cases x <;> rfl
theorem fcondOf_code (x : FCond) : fcondOf x.code = some x := by cases x <;> rfl
theorem fenceOf_code (x : FenceKind) : fenceOf x.code = some x := by cases x <;> rfl
theorem sgnOf_code (x : SgnOp) : sgnOf x.code = some x := by cases x <;> rfl
theorem tlbiOf_code (x : TlbiKind) : tlbiOf x.code = some x := by cases x <;> rfl
theorem flagOf_bit (x : Bool) : flagOf (bitOf x) = some x := by cases x <;> rfl

theorem memArgOf_code (a : MemArg) : memArgOf a.base.toNat a.disp.toNat a.ord.code a.scope.code = some a := by
  unfold memArgOf
  refine bs (xregOf_toNat _) (bs (ordOf_code _) (bs (scopeOf_code _) ?_))
  rw [BitVec.ofNat_toNat, BitVec.setWidth_eq]

theorem amoArgOf_code (a : AmoArg) : amoArgOf a.code = some a := by
  obtain ⟨size, ord, scope, m⟩ := a
  cases size <;> cases ord <;> cases scope <;> cases m <;> rfl

@[simp] theorem code_opr (r : Opr) : r.code < 128 := by
  cases r with
  | x n => have h : n.toNat < 64 := n.isLt; simp only [Opr.code]; omega
  | q n => have h : n.toNat < 8 := n.isLt; simp only [Opr.code]; omega
@[simp] theorem code_rm (x : RM) : x.code < 8 := by cases x <;> decide
@[simp] theorem code_rm_wide (x : RM) : x.code < 4096 := by cases x <;> decide
@[simp] theorem code_rm_imm (x : RM) : x.code < 1024 := by cases x <;> decide
@[simp] theorem code_rm_sat (x : RM) (b : Bool) : x.code + 8 * bitOf b < 1024 := by cases x <;> cases b <;> decide
@[simp] theorem code_size (x : Size) : x.code < 8 := by cases x <;> decide
@[simp] theorem code_size_imm (x : Size) : x.code < 1024 := by cases x <;> decide
@[simp] theorem code_ord (x : Ord) : x.code < 4 := by cases x <;> decide
@[simp] theorem code_scope (x : Scope) : x.code < 16 := by cases x <;> decide
@[simp] theorem code_scope_wide (x : Scope) : x.code < 4096 := by cases x <;> decide
@[simp] theorem code_fence (x : FenceKind) (y : Scope) : y.code + 16 * x.code < 1024 := by cases x <;> cases y <;> decide
@[simp] theorem code_fmt (x : Fmt) : x.code < 64 := by cases x <;> decide
@[simp] theorem code_fmt_wide (x : Fmt) : x.code < 4096 := by cases x <;> decide
@[simp] theorem code_fmts (x y : Fmt) : x.code + 256 * y.code < 4294967296 := by
  have := code_fmt x
  have := code_fmt y
  omega
@[simp] theorem code_cond (x : Cond) : x.code < 16 := by cases x <;> decide
@[simp] theorem code_cond_skip (x : Cond) (n : BitVec 2) : x.code + 16 * n.toNat < 1024 := by
  have := code_cond x
  have := n.isLt
  omega
@[simp] theorem code_fcond (x : FCond) : x.code < 16 := by cases x <;> decide
@[simp] theorem code_sgn (x : SgnOp) : x.code < 8 := by cases x <;> decide
@[simp] theorem code_tlbi (x : TlbiKind) : x.code < 8 := by cases x <;> decide
@[simp] theorem code_bit (x : Bool) (n : Nat) : bitOf x < n + 2 := by cases x <;> simp [bitOf]
/-- The same as a bound. -/
@[simp] theorem code_bit_le (x : Bool) : bitOf x ≤ 1 := by cases x <;> decide
@[simp] theorem code_amo (a : AmoArg) : a.code < 4096 := by
  obtain ⟨size, ord, scope, m⟩ := a
  cases size <;> cases ord <;> cases scope <;> cases m <;> decide

/-- A number of fewer bits is within a wider field. -/
theorem toNat_lt {n : Nat} (x : BitVec n) (k : Nat) (h : n ≤ k) : x.toNat < 2 ^ k :=
  Nat.lt_of_lt_of_le x.isLt (Nat.pow_le_pow_right (by decide) h)

@[simp] theorem bits2_4 (x : BitVec 2) : x.toNat < 4 := x.isLt
@[simp] theorem bits3_8 (x : BitVec 3) : x.toNat < 8 := x.isLt
@[simp] theorem bits3_imm (x : BitVec 3) : x.toNat < 1024 := toNat_lt x 10 (by decide)
@[simp] theorem bits3_port (x : BitVec 3) : 64 + x.toNat < 128 := by have := x.isLt; omega
@[simp] theorem bits4_16 (x : BitVec 4) : x.toNat < 16 := x.isLt
@[simp] theorem bits5_32 (x : BitVec 5) : x.toNat < 32 := x.isLt
@[simp] theorem bits6_64 (x : BitVec 6) : x.toNat < 64 := x.isLt
@[simp] theorem bits6_128 (x : BitVec 6) : x.toNat < 128 := toNat_lt x 7 (by decide)
@[simp] theorem bits6_256 (x : BitVec 6) : x.toNat < 256 := toNat_lt x 8 (by decide)
@[simp] theorem bits6_1024 (x : BitVec 6) : x.toNat < 1024 := toNat_lt x 10 (by decide)
@[simp] theorem bits10 (x : BitVec 10) : x.toNat < 1024 := x.isLt
@[simp] theorem bits12 (x : BitVec 12) : x.toNat < 4096 := x.isLt
@[simp] theorem bits16 (x : BitVec 16) : x.toNat < 65536 := x.isLt
@[simp] theorem bits16_32 (x : BitVec 16) : x.toNat < 4294967296 := toNat_lt x 32 (by decide)
@[simp] theorem bits4_128 (x : BitVec 4) : x.toNat < 128 := toNat_lt x 7 (by decide)
@[simp] theorem bits19 (x : BitVec 19) : x.toNat < 524288 := x.isLt
@[simp] theorem bits32 (x : BitVec 32) : x.toNat < 4294967296 := x.isLt
@[simp] theorem bits48 (x : BitVec 48) : x.toNat < 281474976710656 := x.isLt
@[simp] theorem bits_field (x y : BitVec 6) : x.toNat + 64 * y.toNat < 4096 := by
  have := x.isLt
  have := y.isLt
  omega
@[simp] theorem bits_lane (x : Size) (y : BitVec 4) : x.code + 8 * y.toNat < 1024 := by
  have := code_size x
  have := y.isLt
  omega
@[simp] theorem bits_convene (x : BitVec 3) (y : BitVec 6) : x.toNat + 8 * y.toNat < 1024 := by
  have := x.isLt
  have := y.isLt
  omega

theorem code_fmt_byte (x : Fmt) : x.code < 256 := by cases x <;> decide
theorem bits_cond (c : Cond) (n : BitVec 2) : c.code + 16 * n.toNat < 64 := by
  have := code_cond c
  have := n.isLt
  omega
theorem lane_lt (x : Size) (y : BitVec 4) : x.code + 8 * y.toNat < 128 := by
  have := code_size x
  have := y.isLt
  omega
theorem convene_lt (x : BitVec 3) (y : BitVec 6) : x.toNat + 8 * y.toNat < 512 := by
  have := x.isLt
  have := y.isLt
  omega

/-- Two fields packed in one read back. -/
theorem low_part {a m : Nat} (b : Nat) (h : a < m) : (a + m * b) % m = a := by
  rw [Nat.add_mul_mod_self_left, Nat.mod_eq_of_lt h]

theorem high_part {a m : Nat} (b : Nat) (h : a < m) : (a + m * b) / m = b := by
  rw [Nat.add_mul_div_left _ _ (Nat.lt_of_le_of_lt (Nat.zero_le _) h), Nat.div_eq_of_lt h, Nat.zero_add]

theorem at_low {α : Type} (f : Nat → Option α) {a m b : Nat} {x : α} (h : a < m) (k : f a = some x) :
    f ((a + m * b) % m) = some x := by rw [low_part b h, k]

theorem at_high {α : Type} (f : Nat → Option α) {a m b : Nat} {x : α} (h : a < m) (k : f b = some x) :
    f ((a + m * b) / m) = some x := by rw [high_part b h, k]

end Sys2Proof.Laws
end

