-- ==== Sys2Proof/Laws/Integer.lean ====
section
/-! SUPPORT. What the integer operations on numbers compute, as operations on bit vectors. -/

namespace Sys2Proof.Machine

/-- An operation on numbers that agrees with one on bit vectors gives its value at each width. -/
theorem intOp_eq {f : Nat → Nat → Nat → Nat} {g : (w : Nat) → BitVec w → BitVec w → BitVec w}
    (h : ∀ w, w = 32 ∨ w = 64 → ∀ a b : BitVec w, f w a.toNat b.toNat = (g w a b).toNat) (wd : Wid) (a b : Word) :
    intOp f wd a b = atWidth wd g a b := by
  cases wd
  · have := h 64 (.inr rfl) a b
    have ha := a.isLt
    have hb := b.isLt
    simp only [intOp, widBits, lowBits, atWidth, Nat.mod_eq_of_lt ha, Nat.mod_eq_of_lt hb, this, BitVec.ofNat_toNat,
      BitVec.setWidth_eq]
  · have := h 32 (.inl rfl) (a.setWidth 32) (b.setWidth 32)
    simp only [BitVec.toNat_setWidth] at this
    simp only [intOp, widBits, lowBits, atWidth, this, BitVec.ofNat_toNat]

variable {w : Nat} (a b : BitVec w)

theorem intAdd_eq : intAdd w a.toNat b.toNat = (a + b).toNat := by simp [intAdd]
theorem intSub_eq : intSub w a.toNat b.toNat = (a - b).toNat := by
  have := b.isLt
  simp only [intSub, BitVec.toNat_sub, Nat.mod_eq_of_lt this]
  congr 1
  omega
theorem intMul_eq : intMul w a.toNat b.toNat = (a * b).toNat := by simp [intMul]
theorem intAnd_eq : intAnd w a.toNat b.toNat = (a &&& b).toNat := by simp [intAnd]
theorem intOr_eq : intOr w a.toNat b.toNat = (a ||| b).toNat := by simp [intOr]
theorem intXor_eq : intXor w a.toNat b.toNat = (a ^^^ b).toNat := by simp [intXor]
theorem intAndn_eq : intAndn w a.toNat b.toNat = (a &&& ~~~ b).toNat := by
  have := b.isLt
  simp [intAndn, Nat.mod_eq_of_lt this]

/-- The signed value of a bit vector. -/
theorem sintNat_toNat (hw : 0 < w) : sintNat w a.toNat = a.toInt := by
  have h := a.isLt
  have e : 2 ^ w = 2 * 2 ^ (w - 1) := by rw [← Nat.pow_succ']; congr 1; omega
  simp only [sintNat, Nat.mod_eq_of_lt h, BitVec.toInt_eq_toNat_cond]
  split <;> split <;> omega

theorem wrapInt_toNat (v : Int) : wrapInt w v = (BitVec.ofInt w v).toNat := by
  simp [wrapInt, BitVec.toNat_ofInt]

theorem intMinU_eq : intMinU w a.toNat b.toNat = (if a.ult b then a else b).toNat := by
  simp only [intMinU, BitVec.ult_eq_decide, decide_eq_true_eq]
  split <;> split <;> omega
theorem intMaxU_eq : intMaxU w a.toNat b.toNat = (if a.ult b then b else a).toNat := by
  simp only [intMaxU, BitVec.ult_eq_decide, decide_eq_true_eq]
  split <;> rfl
theorem intMinS_eq (hw : 0 < w) : intMinS w a.toNat b.toNat = (if a.slt b then a else b).toNat := by
  simp only [intMinS, sintNat_toNat _ hw, BitVec.slt_eq_decide, decide_eq_true_eq]
  split <;> split <;> first | rfl | skip
  · omega
  · have : a.toInt = b.toInt := by omega
    rw [BitVec.eq_of_toInt_eq this]
theorem intMaxS_eq (hw : 0 < w) : intMaxS w a.toNat b.toNat = (if a.slt b then b else a).toNat := by
  simp only [intMaxS, sintNat_toNat _ hw, BitVec.slt_eq_decide, decide_eq_true_eq]
  split <;> rfl

theorem intShl_eq : intShl w a.toNat b.toNat = (a <<< (b.toNat % w)).toNat := by
  simp [intShl, Nat.shiftLeft_eq]
theorem intShr_eq : intShr w a.toNat b.toNat = (a >>> (b.toNat % w)).toNat := by
  simp [intShr, Nat.shiftRight_eq_div_pow]
theorem intSra_eq (hw : 0 < w) : intSra w a.toNat b.toNat = (a.sshiftRight (b.toNat % w)).toNat := by
  simp only [intSra, sintNat_toNat _ hw, wrapInt_toNat, BitVec.sshiftRight, Int.shiftRight_eq_div_pow]

theorem intRot_eq (hw : 0 < w) : intRot w a.toNat b.toNat = (a.rotateLeft (b.toNat % w)).toNat := by
  have hk : b.toNat % w < w := Nat.mod_lt _ hw
  have ha := a.isLt
  simp only [intRot, BitVec.toNat_rotateLeft, Nat.mod_mod, Nat.shiftLeft_eq, Nat.shiftRight_eq_div_pow]
  generalize b.toNat % w = k at hk
  have e : 2 ^ w = 2 ^ k * 2 ^ (w - k) := by rw [← Nat.pow_add]; congr 1; omega
  have h1 : a.toNat / 2 ^ (w - k) < 2 ^ k := by
    rw [Nat.div_lt_iff_lt_mul (Nat.two_pow_pos _), ← e]; exact ha
  rw [e, Nat.mul_comm a.toNat, Nat.mul_mod_mul_left]
  exact Nat.two_pow_add_eq_or_of_lt h1 _

theorem intDivn_eq : intDivn w a.toNat b.toNat = (if b = 0 then BitVec.allOnes w else a / b).toNat := by
  by_cases h : b = 0
  · subst h; simp [intDivn]
  · have : b.toNat ≠ 0 := fun e => h (BitVec.eq_of_toNat_eq (by simpa using e))
    rw [if_neg h]; simp [this, intDivn]
theorem intRemn_eq : intRemn w a.toNat b.toNat = (if b = 0 then a else a % b).toNat := by
  by_cases h : b = 0
  · subst h; simp [intRemn]
  · have : b.toNat ≠ 0 := fun e => h (BitVec.eq_of_toNat_eq (by simpa using e))
    rw [if_neg h]; simp [this, intRemn]
theorem intDiv_eq (hw : 0 < w) : intDiv w a.toNat b.toNat = (if b = 0 then BitVec.allOnes w else a.sdiv b).toNat := by
  by_cases h : b = 0
  · subst h; simp [intDiv]
  · have h0 : b.toNat ≠ 0 := fun e => h (BitVec.eq_of_toNat_eq (by simpa using e))
    simp only [intDiv, h, h0, if_false, sintNat_toNat _ hw, wrapInt_toNat]
    congr 1
    apply BitVec.eq_of_toInt_eq
    rw [BitVec.toInt_ofInt, BitVec.toInt_sdiv]
theorem intRem_eq (hw : 0 < w) : intRem w a.toNat b.toNat = (if b = 0 then a else a.srem b).toNat := by
  by_cases h : b = 0
  · subst h; simp [intRem]
  · have h0 : b.toNat ≠ 0 := fun e => h (BitVec.eq_of_toNat_eq (by simpa using e))
    simp only [intRem, h, h0, if_false, sintNat_toNat _ hw, wrapInt_toNat]
    congr 1
    apply BitVec.eq_of_toInt_eq
    rw [← BitVec.toInt_srem, BitVec.ofInt_toInt]

theorem intMulhn_eq : intMulhn w a.toNat b.toNat = (((a.setWidth (2 * w) * b.setWidth (2 * w)) >>> w).setWidth w).toNat := by
  have ha := a.isLt
  have hb := b.isLt
  have e : 2 ^ (2 * w) = 2 ^ w * 2 ^ w := by rw [← Nat.pow_add]; congr 1; omega
  have hp : a.toNat * b.toNat < 2 ^ w * 2 ^ w := Nat.mul_lt_mul'' ha hb
  have hle : (2 : Nat) ^ w ≤ 2 ^ (2 * w) := Nat.pow_le_pow_right (by decide) (by omega)
  have ha' := Nat.lt_of_lt_of_le ha hle
  have hb' := Nat.lt_of_lt_of_le hb hle
  simp only [intMulhn, BitVec.toNat_setWidth, BitVec.toNat_ushiftRight, BitVec.toNat_mul, Nat.shiftRight_eq_div_pow]
  rw [Nat.mod_eq_of_lt ha', Nat.mod_eq_of_lt hb', e, Nat.mod_eq_of_lt hp, Nat.mod_eq_of_lt]
  rw [Nat.div_lt_iff_lt_mul (Nat.two_pow_pos _)]
  exact hp

theorem intMulh_eq (hw : 0 < w) :
    intMulh w a.toNat b.toNat = (((a.signExtend (2 * w) * b.signExtend (2 * w)) >>> w).setWidth w).toNat := by
  have e : (2 : Nat) ^ (2 * w) = 2 ^ w * 2 ^ w := by rw [← Nat.pow_add]; congr 1; omega
  have hm : a.signExtend (2 * w) * b.signExtend (2 * w) = BitVec.ofInt (2 * w) (a.toInt * b.toInt) := by
    apply BitVec.eq_of_toInt_eq
    rw [BitVec.toInt_mul, BitVec.toInt_ofInt, BitVec.toInt_signExtend_of_le (by omega),
      BitVec.toInt_signExtend_of_le (by omega)]
  simp only [intMulh, sintNat_toNat _ hw, wrapInt, hm, BitVec.toNat_setWidth, BitVec.toNat_ushiftRight,
    BitVec.toNat_ofInt, Nat.shiftRight_eq_div_pow, e]
  generalize a.toInt * b.toInt = v
  have hp : (0 : Int) < ((2 ^ w : Nat) : Int) := Int.natCast_pos.mpr (Nat.two_pow_pos w)
  generalize 2 ^ w = m at hp
  have hq : (0 : Int) < (m : Int) * m := Int.mul_pos hp hp
  apply Int.ofNat_inj.mp
  simp only [Int.natCast_emod, Int.natCast_ediv, Int.natCast_mul]
  rw [Int.toNat_of_nonneg (Int.emod_nonneg _ (by omega)), Int.toNat_of_nonneg (Int.emod_nonneg _ (by omega))]
  conv => lhs; rw [← Int.mul_ediv_add_emod v ((m : Int) * m), Int.mul_assoc, Int.add_comm,
    Int.add_mul_ediv_left _ _ (by omega), Int.add_mul_emod_self_left]

end Sys2Proof.Machine
end

