-- ==== Sys2Proof/Laws/Storage.lean ====
section
/-! SUPPORT. Laws of sparse storage: what a read gives after a write, and the canonical form that every
operation keeps. -/

namespace Sys2Proof.Machine

variable {α : Type}

theorem mget_cons (e : Nat × α) (m : SMap α) (n : Nat) : mget (e :: m) n = if n = e.1 then some e.2 else mget m n := rfl

theorem mget_mset (m : SMap α) (k n : Nat) (a : α) : mget (mset m k a) n = if n = k then some a else mget m n := by
  induction m with
  | nil => rfl
  | cons e m ih =>
    rw [mset]
    split
    · rw [mget_cons, mget_cons, ih]
      split <;> split <;> first | rfl | omega
    · rw [mget_cons]
      split
      · rfl
      · split
        · rw [mget_cons, if_neg (by omega)]
        · rfl

@[simp] theorem mget_mset_same (m : SMap α) (k : Nat) (a : α) : mget (mset m k a) k = some a := by simp [mget_mset]

@[simp] theorem mget_mset_ne (m : SMap α) {k n : Nat} (a : α) (h : n ≠ k) : mget (mset m k a) n = mget m n := by
  simp [mget_mset, h]

/-- The canonical form as an order of the keys. -/
theorem mwf_iff (m : SMap α) : mwf m = true ↔ m.Pairwise fun a b => a.1 < b.1 := by
  induction m with
  | nil => simp [mwf]
  | cons e m ih =>
    match m, ih with
    | [], _ => simp [mwf]
    | d :: m, ih =>
      have up (h : e.1 < d.1) (p : (d :: m).Pairwise fun a b => a.1 < b.1) : ∀ x ∈ m, e.1 < x.1 := fun x hx =>
        Nat.lt_trans h (List.rel_of_pairwise_cons p hx)
      simp only [mwf, Bool.and_eq_true, decide_eq_true_eq, ih, List.pairwise_cons (a := e), List.forall_mem_cons]
      exact ⟨fun h => ⟨⟨h.1, up h.1 h.2⟩, h.2⟩, fun h => ⟨h.1.1, h.2⟩⟩

/-- What an entry of a written storage is: the new one, or one that was there. -/
theorem mem_mset (m : SMap α) (k : Nat) (a : α) {e : Nat × α} (h : e ∈ mset m k a) : e = (k, a) ∨ e ∈ m := by
  induction m with
  | nil => exact .inl (List.eq_of_mem_singleton h)
  | cons x m ih =>
    rw [mset] at h
    split at h
    · cases h with
      | head => exact .inr (.head _)
      | tail _ h => exact (ih h).imp_right (.tail _)
    · cases h with
      | head => exact .inl rfl
      | tail _ h => split at h <;> first | exact .inr h | exact .inr (.tail _ h)

theorem mwf_mset (m : SMap α) (k : Nat) (a : α) (h : mwf m = true) : mwf (mset m k a) = true := by
  rw [mwf_iff] at *
  induction m with
  | nil => simp [mset]
  | cons x m ih =>
    have hx {y} (hy : y ∈ m) : x.1 < y.1 := List.rel_of_pairwise_cons h hy
    rw [mset]
    split
    next hk =>
      exact (ih h.of_cons).cons fun y hy => (mem_mset m k a hy).elim (fun e => e ▸ hk) hx
    next hk =>
      split
      next hn => exact h.of_cons.cons fun y hy => hn ▸ hx hy
      next hn =>
        refine h.cons fun y hy => ?_
        have hkx : k < x.1 := by omega
        exact (List.mem_cons.mp hy).elim (fun e => e ▸ hkx) fun hy => Nat.lt_trans hkx (hx hy)

theorem mwf_filter (m : SMap α) (p : Nat × α → Bool) (h : mwf m = true) : mwf (m.filter p) = true := by
  rw [mwf_iff] at *
  exact h.filter p

theorem mwf_mfilter (m : SMap α) (p : Nat → α → Bool) (h : mwf m = true) : mwf (mfilter p m) = true :=
  mwf_filter m _ h

theorem mdel_sublist (m : SMap α) (k : Nat) : (mdel m k).Sublist m := by
  induction m with
  | nil => exact .slnil
  | cons e m ih =>
    rw [mdel]
    split
    · exact List.sublist_cons_self ..
    · exact ih.cons_cons _

theorem mwf_mdel (m : SMap α) (k : Nat) (h : mwf m = true) : mwf (mdel m k) = true := by
  rw [mwf_iff] at *
  exact h.sublist (mdel_sublist m k)

/-- Writes one after another keep the canonical form. -/
theorem mwf_foldl {β : Type} (f : β → Nat) (g : SMap α → β → α) (bs : List β) (m : SMap α) (h : mwf m = true) :
    mwf (bs.foldl (fun m b => mset m (f b) (g m b)) m) = true := by
  induction bs generalizing m with
  | nil => exact h
  | cons b bs ih => exact ih _ (mwf_mset _ _ _ h)

/-- Writes one after another leave every other key alone. -/
theorem mget_foldl {β : Type} (f : β → Nat) (g : β → α) (bs : List β) (m : SMap α) (n : Nat) (h : ∀ b ∈ bs, f b ≠ n) :
    mget (bs.foldl (fun m b => mset m (f b) (g b)) m) n = mget m n := by
  induction bs generalizing m with
  | nil => rfl
  | cons b bs ih =>
    rw [List.foldl_cons, ih _ (List.forall_mem_cons.mp h).2, mget_mset_ne _ _ (h b (.head _)).symm]

theorem mget_mem (m : SMap α) (k : Nat) (a : α) (h : mget m k = some a) : (k, a) ∈ m := by
  induction m with
  | nil => nomatch h
  | cons e m ih =>
    rw [mget_cons] at h
    split at h
    next hk => exact hk ▸ Option.some.inj h ▸ .head _
    next => exact .tail _ (ih h)

/-- A key that no entry has is not found. -/
theorem mget_none (m : SMap α) (k : Nat) (h : ∀ e ∈ m, e.1 ≠ k) : mget m k = none := by
  induction m with
  | nil => rfl
  | cons e m ih =>
    have h := List.forall_mem_cons.mp h
    rw [mget_cons, if_neg h.1.symm, ih h.2]

theorem mget_mdel_ne (m : SMap α) {k n : Nat} (h : n ≠ k) : mget (mdel m k) n = mget m n := by
  induction m with
  | nil => rfl
  | cons e m ih =>
    rw [mdel]
    split
    next hk => rw [mget_cons, if_neg (hk ▸ h)]
    next => rw [mget_cons, mget_cons, ih]

end Sys2Proof.Machine
end

