-- ==== Sys2Proof/Laws/State.lean ====
section
/-! SUPPORT. What each update of the state leaves of each field, so that no proof unfolds a record
update; and what is read of a thread, cluster, core, die or queue after one was set. -/

namespace Sys2Proof.Machine

/-! Fields after `setThread`. -/

@[simp] theorem setThread_cores (s : State) (l : Loc) (t : Thread) : (setThread s l t).cores = s.cores := rfl
@[simp] theorem setThread_clusters (s : State) (l : Loc) (t : Thread) : (setThread s l t).clusters = s.clusters := rfl
@[simp] theorem setThread_dies (s : State) (l : Loc) (t : Thread) : (setThread s l t).dies = s.dies := rfl
@[simp] theorem setThread_store (s : State) (l : Loc) (t : Thread) : (setThread s l t).store = s.store := rfl
@[simp] theorem setThread_flight (s : State) (l : Loc) (t : Thread) : (setThread s l t).flight = s.flight := rfl
@[simp] theorem setThread_ctl (s : State) (l : Loc) (t : Thread) : (setThread s l t).ctl = s.ctl := rfl
@[simp] theorem setThread_cycle (s : State) (l : Loc) (t : Thread) : (setThread s l t).cycle = s.cycle := rfl
@[simp] theorem setThread_cur (s : State) (l : Loc) (t : Thread) : (setThread s l t).cur = s.cur := rfl
@[simp] theorem setThread_curN (s : State) (l : Loc) (t : Thread) : (setThread s l t).curN = s.curN := rfl
@[simp] theorem setThread_issueQ (s : State) (l : Loc) (t : Thread) : (setThread s l t).issueQ = s.issueQ := rfl
@[simp] theorem setThread_grpAcc (s : State) (l : Loc) (t : Thread) : (setThread s l t).grpAcc = s.grpAcc := rfl
@[simp] theorem setThread_agenda (s : State) (l : Loc) (t : Thread) : (setThread s l t).agenda = s.agenda := rfl
@[simp] theorem setThread_inputs (s : State) (l : Loc) (t : Thread) : (setThread s l t).inputs = s.inputs := rfl
@[simp] theorem setThread_free (s : State) (l : Loc) (t : Thread) : (setThread s l t).free = s.free := rfl
@[simp] theorem setThread_nextId (s : State) (l : Loc) (t : Thread) : (setThread s l t).nextId = s.nextId := rfl
@[simp] theorem setThread_nextUid (s : State) (l : Loc) (t : Thread) : (setThread s l t).nextUid = s.nextUid := rfl

/-! Fields after `delThread`. -/

@[simp] theorem delThread_cores (s : State) (l : Loc) : (delThread s l).cores = s.cores := rfl
@[simp] theorem delThread_clusters (s : State) (l : Loc) : (delThread s l).clusters = s.clusters := rfl
@[simp] theorem delThread_dies (s : State) (l : Loc) : (delThread s l).dies = s.dies := rfl
@[simp] theorem delThread_store (s : State) (l : Loc) : (delThread s l).store = s.store := rfl
@[simp] theorem delThread_flight (s : State) (l : Loc) : (delThread s l).flight = s.flight := rfl
@[simp] theorem delThread_ctl (s : State) (l : Loc) : (delThread s l).ctl = s.ctl := rfl
@[simp] theorem delThread_cycle (s : State) (l : Loc) : (delThread s l).cycle = s.cycle := rfl
@[simp] theorem delThread_cur (s : State) (l : Loc) : (delThread s l).cur = s.cur := rfl
@[simp] theorem delThread_curN (s : State) (l : Loc) : (delThread s l).curN = s.curN := rfl
@[simp] theorem delThread_issueQ (s : State) (l : Loc) : (delThread s l).issueQ = s.issueQ := rfl
@[simp] theorem delThread_grpAcc (s : State) (l : Loc) : (delThread s l).grpAcc = s.grpAcc := rfl
@[simp] theorem delThread_agenda (s : State) (l : Loc) : (delThread s l).agenda = s.agenda := rfl
@[simp] theorem delThread_inputs (s : State) (l : Loc) : (delThread s l).inputs = s.inputs := rfl
@[simp] theorem delThread_free (s : State) (l : Loc) : (delThread s l).free = s.free := rfl
@[simp] theorem delThread_nextId (s : State) (l : Loc) : (delThread s l).nextId = s.nextId := rfl
@[simp] theorem delThread_nextUid (s : State) (l : Loc) : (delThread s l).nextUid = s.nextUid := rfl

/-! Fields after `setCluster`. -/

@[simp] theorem setCluster_threads (s : State) (c : Nat) (v : Cluster) : (setCluster s c v).threads = s.threads := rfl
@[simp] theorem setCluster_cores (s : State) (c : Nat) (v : Cluster) : (setCluster s c v).cores = s.cores := rfl
@[simp] theorem setCluster_dies (s : State) (c : Nat) (v : Cluster) : (setCluster s c v).dies = s.dies := rfl
@[simp] theorem setCluster_store (s : State) (c : Nat) (v : Cluster) : (setCluster s c v).store = s.store := rfl
@[simp] theorem setCluster_flight (s : State) (c : Nat) (v : Cluster) : (setCluster s c v).flight = s.flight := rfl
@[simp] theorem setCluster_ctl (s : State) (c : Nat) (v : Cluster) : (setCluster s c v).ctl = s.ctl := rfl
@[simp] theorem setCluster_cycle (s : State) (c : Nat) (v : Cluster) : (setCluster s c v).cycle = s.cycle := rfl
@[simp] theorem setCluster_cur (s : State) (c : Nat) (v : Cluster) : (setCluster s c v).cur = s.cur := rfl
@[simp] theorem setCluster_curN (s : State) (c : Nat) (v : Cluster) : (setCluster s c v).curN = s.curN := rfl
@[simp] theorem setCluster_issueQ (s : State) (c : Nat) (v : Cluster) : (setCluster s c v).issueQ = s.issueQ := rfl
@[simp] theorem setCluster_grpAcc (s : State) (c : Nat) (v : Cluster) : (setCluster s c v).grpAcc = s.grpAcc := rfl
@[simp] theorem setCluster_agenda (s : State) (c : Nat) (v : Cluster) : (setCluster s c v).agenda = s.agenda := rfl
@[simp] theorem setCluster_inputs (s : State) (c : Nat) (v : Cluster) : (setCluster s c v).inputs = s.inputs := rfl
@[simp] theorem setCluster_free (s : State) (c : Nat) (v : Cluster) : (setCluster s c v).free = s.free := rfl
@[simp] theorem setCluster_nextId (s : State) (c : Nat) (v : Cluster) : (setCluster s c v).nextId = s.nextId := rfl
@[simp] theorem setCluster_nextUid (s : State) (c : Nat) (v : Cluster) : (setCluster s c v).nextUid = s.nextUid := rfl

/-! Fields after `setSlot`. -/

@[simp] theorem setSlot_threads (s : State) (c k : Nat) (v : SubSlot) : (setSlot s c k v).threads = s.threads := rfl
@[simp] theorem setSlot_cores (s : State) (c k : Nat) (v : SubSlot) : (setSlot s c k v).cores = s.cores := rfl
@[simp] theorem setSlot_dies (s : State) (c k : Nat) (v : SubSlot) : (setSlot s c k v).dies = s.dies := rfl
@[simp] theorem setSlot_store (s : State) (c k : Nat) (v : SubSlot) : (setSlot s c k v).store = s.store := rfl
@[simp] theorem setSlot_flight (s : State) (c k : Nat) (v : SubSlot) : (setSlot s c k v).flight = s.flight := rfl
@[simp] theorem setSlot_ctl (s : State) (c k : Nat) (v : SubSlot) : (setSlot s c k v).ctl = s.ctl := rfl
@[simp] theorem setSlot_cycle (s : State) (c k : Nat) (v : SubSlot) : (setSlot s c k v).cycle = s.cycle := rfl
@[simp] theorem setSlot_cur (s : State) (c k : Nat) (v : SubSlot) : (setSlot s c k v).cur = s.cur := rfl
@[simp] theorem setSlot_curN (s : State) (c k : Nat) (v : SubSlot) : (setSlot s c k v).curN = s.curN := rfl
@[simp] theorem setSlot_issueQ (s : State) (c k : Nat) (v : SubSlot) : (setSlot s c k v).issueQ = s.issueQ := rfl
@[simp] theorem setSlot_grpAcc (s : State) (c k : Nat) (v : SubSlot) : (setSlot s c k v).grpAcc = s.grpAcc := rfl
@[simp] theorem setSlot_agenda (s : State) (c k : Nat) (v : SubSlot) : (setSlot s c k v).agenda = s.agenda := rfl
@[simp] theorem setSlot_inputs (s : State) (c k : Nat) (v : SubSlot) : (setSlot s c k v).inputs = s.inputs := rfl
@[simp] theorem setSlot_free (s : State) (c k : Nat) (v : SubSlot) : (setSlot s c k v).free = s.free := rfl
@[simp] theorem setSlot_nextId (s : State) (c k : Nat) (v : SubSlot) : (setSlot s c k v).nextId = s.nextId := rfl
@[simp] theorem setSlot_nextUid (s : State) (c k : Nat) (v : SubSlot) : (setSlot s c k v).nextUid = s.nextUid := rfl

/-! Fields after `setCore`. -/

@[simp] theorem setCore_threads (s : State) (k : Nat) (v : Core) : (setCore s k v).threads = s.threads := rfl
@[simp] theorem setCore_clusters (s : State) (k : Nat) (v : Core) : (setCore s k v).clusters = s.clusters := rfl
@[simp] theorem setCore_dies (s : State) (k : Nat) (v : Core) : (setCore s k v).dies = s.dies := rfl
@[simp] theorem setCore_store (s : State) (k : Nat) (v : Core) : (setCore s k v).store = s.store := rfl
@[simp] theorem setCore_flight (s : State) (k : Nat) (v : Core) : (setCore s k v).flight = s.flight := rfl
@[simp] theorem setCore_ctl (s : State) (k : Nat) (v : Core) : (setCore s k v).ctl = s.ctl := rfl
@[simp] theorem setCore_cycle (s : State) (k : Nat) (v : Core) : (setCore s k v).cycle = s.cycle := rfl
@[simp] theorem setCore_cur (s : State) (k : Nat) (v : Core) : (setCore s k v).cur = s.cur := rfl
@[simp] theorem setCore_curN (s : State) (k : Nat) (v : Core) : (setCore s k v).curN = s.curN := rfl
@[simp] theorem setCore_issueQ (s : State) (k : Nat) (v : Core) : (setCore s k v).issueQ = s.issueQ := rfl
@[simp] theorem setCore_grpAcc (s : State) (k : Nat) (v : Core) : (setCore s k v).grpAcc = s.grpAcc := rfl
@[simp] theorem setCore_agenda (s : State) (k : Nat) (v : Core) : (setCore s k v).agenda = s.agenda := rfl
@[simp] theorem setCore_inputs (s : State) (k : Nat) (v : Core) : (setCore s k v).inputs = s.inputs := rfl
@[simp] theorem setCore_free (s : State) (k : Nat) (v : Core) : (setCore s k v).free = s.free := rfl
@[simp] theorem setCore_nextId (s : State) (k : Nat) (v : Core) : (setCore s k v).nextId = s.nextId := rfl
@[simp] theorem setCore_nextUid (s : State) (k : Nat) (v : Core) : (setCore s k v).nextUid = s.nextUid := rfl

/-! Fields after `setDie`. -/

@[simp] theorem setDie_threads (s : State) (d : Nat) (v : Die) : (setDie s d v).threads = s.threads := rfl
@[simp] theorem setDie_cores (s : State) (d : Nat) (v : Die) : (setDie s d v).cores = s.cores := rfl
@[simp] theorem setDie_clusters (s : State) (d : Nat) (v : Die) : (setDie s d v).clusters = s.clusters := rfl
@[simp] theorem setDie_store (s : State) (d : Nat) (v : Die) : (setDie s d v).store = s.store := rfl
@[simp] theorem setDie_flight (s : State) (d : Nat) (v : Die) : (setDie s d v).flight = s.flight := rfl
@[simp] theorem setDie_ctl (s : State) (d : Nat) (v : Die) : (setDie s d v).ctl = s.ctl := rfl
@[simp] theorem setDie_cycle (s : State) (d : Nat) (v : Die) : (setDie s d v).cycle = s.cycle := rfl
@[simp] theorem setDie_cur (s : State) (d : Nat) (v : Die) : (setDie s d v).cur = s.cur := rfl
@[simp] theorem setDie_curN (s : State) (d : Nat) (v : Die) : (setDie s d v).curN = s.curN := rfl
@[simp] theorem setDie_issueQ (s : State) (d : Nat) (v : Die) : (setDie s d v).issueQ = s.issueQ := rfl
@[simp] theorem setDie_grpAcc (s : State) (d : Nat) (v : Die) : (setDie s d v).grpAcc = s.grpAcc := rfl
@[simp] theorem setDie_agenda (s : State) (d : Nat) (v : Die) : (setDie s d v).agenda = s.agenda := rfl
@[simp] theorem setDie_inputs (s : State) (d : Nat) (v : Die) : (setDie s d v).inputs = s.inputs := rfl
@[simp] theorem setDie_free (s : State) (d : Nat) (v : Die) : (setDie s d v).free = s.free := rfl
@[simp] theorem setDie_nextId (s : State) (d : Nat) (v : Die) : (setDie s d v).nextId = s.nextId := rfl
@[simp] theorem setDie_nextUid (s : State) (d : Nat) (v : Die) : (setDie s d v).nextUid = s.nextUid := rfl

/-! Fields after `setQueue`. -/

@[simp] theorem setQueue_threads (s : State) (q : Nat) (v : Queue) : (setQueue s q v).threads = s.threads := rfl
@[simp] theorem setQueue_cores (s : State) (q : Nat) (v : Queue) : (setQueue s q v).cores = s.cores := rfl
@[simp] theorem setQueue_clusters (s : State) (q : Nat) (v : Queue) : (setQueue s q v).clusters = s.clusters := rfl
@[simp] theorem setQueue_dies (s : State) (q : Nat) (v : Queue) : (setQueue s q v).dies = s.dies := rfl
@[simp] theorem setQueue_store (s : State) (q : Nat) (v : Queue) : (setQueue s q v).store = s.store := rfl
@[simp] theorem setQueue_flight (s : State) (q : Nat) (v : Queue) : (setQueue s q v).flight = s.flight := rfl
@[simp] theorem setQueue_cycle (s : State) (q : Nat) (v : Queue) : (setQueue s q v).cycle = s.cycle := rfl
@[simp] theorem setQueue_cur (s : State) (q : Nat) (v : Queue) : (setQueue s q v).cur = s.cur := rfl
@[simp] theorem setQueue_curN (s : State) (q : Nat) (v : Queue) : (setQueue s q v).curN = s.curN := rfl
@[simp] theorem setQueue_issueQ (s : State) (q : Nat) (v : Queue) : (setQueue s q v).issueQ = s.issueQ := rfl
@[simp] theorem setQueue_grpAcc (s : State) (q : Nat) (v : Queue) : (setQueue s q v).grpAcc = s.grpAcc := rfl
@[simp] theorem setQueue_agenda (s : State) (q : Nat) (v : Queue) : (setQueue s q v).agenda = s.agenda := rfl
@[simp] theorem setQueue_inputs (s : State) (q : Nat) (v : Queue) : (setQueue s q v).inputs = s.inputs := rfl
@[simp] theorem setQueue_free (s : State) (q : Nat) (v : Queue) : (setQueue s q v).free = s.free := rfl
@[simp] theorem setQueue_nextId (s : State) (q : Nat) (v : Queue) : (setQueue s q v).nextId = s.nextId := rfl
@[simp] theorem setQueue_nextUid (s : State) (q : Nat) (v : Queue) : (setQueue s q v).nextUid = s.nextUid := rfl

/-! Fields after `drawn`. -/

@[simp] theorem drawn_threads (s : State) : (drawn s).threads = s.threads := rfl
@[simp] theorem drawn_cores (s : State) : (drawn s).cores = s.cores := rfl
@[simp] theorem drawn_clusters (s : State) : (drawn s).clusters = s.clusters := rfl
@[simp] theorem drawn_dies (s : State) : (drawn s).dies = s.dies := rfl
@[simp] theorem drawn_store (s : State) : (drawn s).store = s.store := rfl
@[simp] theorem drawn_flight (s : State) : (drawn s).flight = s.flight := rfl
@[simp] theorem drawn_ctl (s : State) : (drawn s).ctl = s.ctl := rfl
@[simp] theorem drawn_cycle (s : State) : (drawn s).cycle = s.cycle := rfl
@[simp] theorem drawn_cur (s : State) : (drawn s).cur = s.cur := rfl
@[simp] theorem drawn_curN (s : State) : (drawn s).curN = s.curN := rfl
@[simp] theorem drawn_issueQ (s : State) : (drawn s).issueQ = s.issueQ := rfl
@[simp] theorem drawn_grpAcc (s : State) : (drawn s).grpAcc = s.grpAcc := rfl
@[simp] theorem drawn_agenda (s : State) : (drawn s).agenda = s.agenda := rfl
@[simp] theorem drawn_inputs (s : State) : (drawn s).inputs = s.inputs := rfl
@[simp] theorem drawn_nextId (s : State) : (drawn s).nextId = s.nextId := rfl
@[simp] theorem drawn_nextUid (s : State) : (drawn s).nextUid = s.nextUid := rfl

/-! Fields after `setL2`. -/

@[simp] theorem setL2_threads (s : State) (k : Nat) (m : SMap Bool) : (setL2 s k m).threads = s.threads := rfl
@[simp] theorem setL2_cores (s : State) (k : Nat) (m : SMap Bool) : (setL2 s k m).cores = s.cores := rfl
@[simp] theorem setL2_clusters (s : State) (k : Nat) (m : SMap Bool) : (setL2 s k m).clusters = s.clusters := rfl
@[simp] theorem setL2_dies (s : State) (k : Nat) (m : SMap Bool) : (setL2 s k m).dies = s.dies := rfl
@[simp] theorem setL2_flight (s : State) (k : Nat) (m : SMap Bool) : (setL2 s k m).flight = s.flight := rfl
@[simp] theorem setL2_ctl (s : State) (k : Nat) (m : SMap Bool) : (setL2 s k m).ctl = s.ctl := rfl
@[simp] theorem setL2_cycle (s : State) (k : Nat) (m : SMap Bool) : (setL2 s k m).cycle = s.cycle := rfl
@[simp] theorem setL2_cur (s : State) (k : Nat) (m : SMap Bool) : (setL2 s k m).cur = s.cur := rfl
@[simp] theorem setL2_curN (s : State) (k : Nat) (m : SMap Bool) : (setL2 s k m).curN = s.curN := rfl
@[simp] theorem setL2_issueQ (s : State) (k : Nat) (m : SMap Bool) : (setL2 s k m).issueQ = s.issueQ := rfl
@[simp] theorem setL2_grpAcc (s : State) (k : Nat) (m : SMap Bool) : (setL2 s k m).grpAcc = s.grpAcc := rfl
@[simp] theorem setL2_agenda (s : State) (k : Nat) (m : SMap Bool) : (setL2 s k m).agenda = s.agenda := rfl
@[simp] theorem setL2_inputs (s : State) (k : Nat) (m : SMap Bool) : (setL2 s k m).inputs = s.inputs := rfl
@[simp] theorem setL2_free (s : State) (k : Nat) (m : SMap Bool) : (setL2 s k m).free = s.free := rfl
@[simp] theorem setL2_nextId (s : State) (k : Nat) (m : SMap Bool) : (setL2 s k m).nextId = s.nextId := rfl
@[simp] theorem setL2_nextUid (s : State) (k : Nat) (m : SMap Bool) : (setL2 s k m).nextUid = s.nextUid := rfl

/-! Fields after `drawnBy`. -/

@[simp] theorem drawnBy_threads (n : Nat) (s : State) : (drawnBy n s).threads = s.threads := rfl
@[simp] theorem drawnBy_cores (n : Nat) (s : State) : (drawnBy n s).cores = s.cores := rfl
@[simp] theorem drawnBy_clusters (n : Nat) (s : State) : (drawnBy n s).clusters = s.clusters := rfl
@[simp] theorem drawnBy_dies (n : Nat) (s : State) : (drawnBy n s).dies = s.dies := rfl
@[simp] theorem drawnBy_store (n : Nat) (s : State) : (drawnBy n s).store = s.store := rfl
@[simp] theorem drawnBy_flight (n : Nat) (s : State) : (drawnBy n s).flight = s.flight := rfl
@[simp] theorem drawnBy_ctl (n : Nat) (s : State) : (drawnBy n s).ctl = s.ctl := rfl
@[simp] theorem drawnBy_cycle (n : Nat) (s : State) : (drawnBy n s).cycle = s.cycle := rfl
@[simp] theorem drawnBy_cur (n : Nat) (s : State) : (drawnBy n s).cur = s.cur := rfl
@[simp] theorem drawnBy_curN (n : Nat) (s : State) : (drawnBy n s).curN = s.curN := rfl
@[simp] theorem drawnBy_issueQ (n : Nat) (s : State) : (drawnBy n s).issueQ = s.issueQ := rfl
@[simp] theorem drawnBy_grpAcc (n : Nat) (s : State) : (drawnBy n s).grpAcc = s.grpAcc := rfl
@[simp] theorem drawnBy_agenda (n : Nat) (s : State) : (drawnBy n s).agenda = s.agenda := rfl
@[simp] theorem drawnBy_inputs (n : Nat) (s : State) : (drawnBy n s).inputs = s.inputs := rfl
@[simp] theorem drawnBy_nextId (n : Nat) (s : State) : (drawnBy n s).nextId = s.nextId := rfl
@[simp] theorem drawnBy_nextUid (n : Nat) (s : State) : (drawnBy n s).nextUid = s.nextUid := rfl

/-! Fields after `sendMail`. -/

@[simp] theorem sendMail_threads (s : State) (f : Nat) (d : BitVec 512) : (sendMail s f d).threads = s.threads := rfl
@[simp] theorem sendMail_cores (s : State) (f : Nat) (d : BitVec 512) : (sendMail s f d).cores = s.cores := rfl
@[simp] theorem sendMail_clusters (s : State) (f : Nat) (d : BitVec 512) : (sendMail s f d).clusters = s.clusters := rfl
@[simp] theorem sendMail_dies (s : State) (f : Nat) (d : BitVec 512) : (sendMail s f d).dies = s.dies := rfl
@[simp] theorem sendMail_store (s : State) (f : Nat) (d : BitVec 512) : (sendMail s f d).store = s.store := rfl
@[simp] theorem sendMail_flight (s : State) (f : Nat) (d : BitVec 512) : (sendMail s f d).flight = s.flight := rfl
@[simp] theorem sendMail_cycle (s : State) (f : Nat) (d : BitVec 512) : (sendMail s f d).cycle = s.cycle := rfl
@[simp] theorem sendMail_cur (s : State) (f : Nat) (d : BitVec 512) : (sendMail s f d).cur = s.cur := rfl
@[simp] theorem sendMail_curN (s : State) (f : Nat) (d : BitVec 512) : (sendMail s f d).curN = s.curN := rfl
@[simp] theorem sendMail_issueQ (s : State) (f : Nat) (d : BitVec 512) : (sendMail s f d).issueQ = s.issueQ := rfl
@[simp] theorem sendMail_grpAcc (s : State) (f : Nat) (d : BitVec 512) : (sendMail s f d).grpAcc = s.grpAcc := rfl
@[simp] theorem sendMail_agenda (s : State) (f : Nat) (d : BitVec 512) : (sendMail s f d).agenda = s.agenda := rfl
@[simp] theorem sendMail_inputs (s : State) (f : Nat) (d : BitVec 512) : (sendMail s f d).inputs = s.inputs := rfl
@[simp] theorem sendMail_free (s : State) (f : Nat) (d : BitVec 512) : (sendMail s f d).free = s.free := rfl
@[simp] theorem sendMail_nextId (s : State) (f : Nat) (d : BitVec 512) : (sendMail s f d).nextId = s.nextId := rfl
@[simp] theorem sendMail_nextUid (s : State) (f : Nat) (d : BitVec 512) : (sendMail s f d).nextUid = s.nextUid := rfl

/-! Fields of a thread after an update of it. -/

@[simp] theorem setPort_uid (t : Thread) (q : PReg) (p : Port) : (setPort t q p).uid = t.uid := rfl
@[simp] theorem setPort_pc (t : Thread) (q : PReg) (p : Port) : (setPort t q p).pc = t.pc := rfl
@[simp] theorem setPort_mode (t : Thread) (q : PReg) (p : Port) : (setPort t q p).mode = t.mode := rfl
@[simp] theorem setPort_regs (t : Thread) (q : PReg) (p : Port) : (setPort t q p).regs = t.regs := rfl
@[simp] theorem setPort_csr (t : Thread) (q : PReg) (p : Port) : (setPort t q p).csr = t.csr := rfl
@[simp] theorem setPort_pipe (t : Thread) (q : PReg) (p : Port) : (setPort t q p).pipe = t.pipe := rfl
@[simp] theorem setPort_trap (t : Thread) (q : PReg) (p : Port) : (setPort t q p).trap = t.trap := rfl
@[simp] theorem setPort_gfault (t : Thread) (q : PReg) (p : Port) : (setPort t q p).gfault = t.gfault := rfl
@[simp] theorem setPort_irqs (t : Thread) (q : PReg) (p : Port) : (setPort t q p).irqs = t.irqs := rfl
@[simp] theorem setPort_present (t : Thread) (q : PReg) (p : Port) : (setPort t q p).present = t.present := rfl
@[simp] theorem setPort_grp (t : Thread) (q : PReg) (p : Port) : (setPort t q p).grp = t.grp := rfl
@[simp] theorem setPort_origin (t : Thread) (q : PReg) (p : Port) : (setPort t q p).origin = t.origin := rfl
@[simp] theorem setPort_ret (t : Thread) (q : PReg) (p : Port) : (setPort t q p).ret = t.ret := rfl
@[simp] theorem setPort_sliceCount (t : Thread) (q : PReg) (p : Port) : (setPort t q p).sliceCount = t.sliceCount := rfl
@[simp] theorem setPort_expired (t : Thread) (q : PReg) (p : Port) : (setPort t q p).expired = t.expired := rfl
@[simp] theorem setPort_waitSince (t : Thread) (q : PReg) (p : Port) : (setPort t q p).waitSince = t.waitSince := rfl

@[simp] theorem emptyToken_uid (t : Thread) (r : XReg) : (emptyToken t r).uid = t.uid := rfl
@[simp] theorem emptyToken_pc (t : Thread) (r : XReg) : (emptyToken t r).pc = t.pc := rfl
@[simp] theorem emptyToken_mode (t : Thread) (r : XReg) : (emptyToken t r).mode = t.mode := rfl
@[simp] theorem emptyToken_csr (t : Thread) (r : XReg) : (emptyToken t r).csr = t.csr := rfl
@[simp] theorem emptyToken_pipe (t : Thread) (r : XReg) : (emptyToken t r).pipe = t.pipe := rfl
@[simp] theorem emptyToken_ports (t : Thread) (r : XReg) : (emptyToken t r).ports = t.ports := rfl
@[simp] theorem emptyToken_trap (t : Thread) (r : XReg) : (emptyToken t r).trap = t.trap := rfl
@[simp] theorem emptyToken_gfault (t : Thread) (r : XReg) : (emptyToken t r).gfault = t.gfault := rfl
@[simp] theorem emptyToken_irqs (t : Thread) (r : XReg) : (emptyToken t r).irqs = t.irqs := rfl
@[simp] theorem emptyToken_present (t : Thread) (r : XReg) : (emptyToken t r).present = t.present := rfl
@[simp] theorem emptyToken_grp (t : Thread) (r : XReg) : (emptyToken t r).grp = t.grp := rfl
@[simp] theorem emptyToken_origin (t : Thread) (r : XReg) : (emptyToken t r).origin = t.origin := rfl
@[simp] theorem emptyToken_ret (t : Thread) (r : XReg) : (emptyToken t r).ret = t.ret := rfl
@[simp] theorem emptyToken_sliceCount (t : Thread) (r : XReg) : (emptyToken t r).sliceCount = t.sliceCount := rfl
@[simp] theorem emptyToken_expired (t : Thread) (r : XReg) : (emptyToken t r).expired = t.expired := rfl
@[simp] theorem emptyToken_waitSince (t : Thread) (r : XReg) : (emptyToken t r).waitSince = t.waitSince := rfl

@[simp] theorem addResult_uid (t : Thread) (r : Result) : (addResult t r).uid = t.uid := rfl
@[simp] theorem addResult_pc (t : Thread) (r : Result) : (addResult t r).pc = t.pc := rfl
@[simp] theorem addResult_mode (t : Thread) (r : Result) : (addResult t r).mode = t.mode := rfl
@[simp] theorem addResult_regs (t : Thread) (r : Result) : (addResult t r).regs = t.regs := rfl
@[simp] theorem addResult_csr (t : Thread) (r : Result) : (addResult t r).csr = t.csr := rfl
@[simp] theorem addResult_ports (t : Thread) (r : Result) : (addResult t r).ports = t.ports := rfl
@[simp] theorem addResult_trap (t : Thread) (r : Result) : (addResult t r).trap = t.trap := rfl
@[simp] theorem addResult_gfault (t : Thread) (r : Result) : (addResult t r).gfault = t.gfault := rfl
@[simp] theorem addResult_irqs (t : Thread) (r : Result) : (addResult t r).irqs = t.irqs := rfl
@[simp] theorem addResult_present (t : Thread) (r : Result) : (addResult t r).present = t.present := rfl
@[simp] theorem addResult_grp (t : Thread) (r : Result) : (addResult t r).grp = t.grp := rfl
@[simp] theorem addResult_origin (t : Thread) (r : Result) : (addResult t r).origin = t.origin := rfl
@[simp] theorem addResult_ret (t : Thread) (r : Result) : (addResult t r).ret = t.ret := rfl
@[simp] theorem addResult_sliceCount (t : Thread) (r : Result) : (addResult t r).sliceCount = t.sliceCount := rfl
@[simp] theorem addResult_expired (t : Thread) (r : Result) : (addResult t r).expired = t.expired := rfl
@[simp] theorem addResult_waitSince (t : Thread) (r : Result) : (addResult t r).waitSince = t.waitSince := rfl

@[simp] theorem fixedWrites_uid (s : State) (t : Thread) (ws : List Wr) (f : Flags) : (fixedWrites s t ws f).uid = t.uid := rfl
@[simp] theorem fixedWrites_pc (s : State) (t : Thread) (ws : List Wr) (f : Flags) : (fixedWrites s t ws f).pc = t.pc := rfl
@[simp] theorem fixedWrites_mode (s : State) (t : Thread) (ws : List Wr) (f : Flags) : (fixedWrites s t ws f).mode = t.mode := rfl
@[simp] theorem fixedWrites_regs (s : State) (t : Thread) (ws : List Wr) (f : Flags) : (fixedWrites s t ws f).regs = t.regs := rfl
@[simp] theorem fixedWrites_csr (s : State) (t : Thread) (ws : List Wr) (f : Flags) : (fixedWrites s t ws f).csr = t.csr := rfl
@[simp] theorem fixedWrites_ports (s : State) (t : Thread) (ws : List Wr) (f : Flags) : (fixedWrites s t ws f).ports = t.ports := rfl
@[simp] theorem fixedWrites_trap (s : State) (t : Thread) (ws : List Wr) (f : Flags) : (fixedWrites s t ws f).trap = t.trap := rfl
@[simp] theorem fixedWrites_gfault (s : State) (t : Thread) (ws : List Wr) (f : Flags) : (fixedWrites s t ws f).gfault = t.gfault := rfl
@[simp] theorem fixedWrites_irqs (s : State) (t : Thread) (ws : List Wr) (f : Flags) : (fixedWrites s t ws f).irqs = t.irqs := rfl
@[simp] theorem fixedWrites_present (s : State) (t : Thread) (ws : List Wr) (f : Flags) : (fixedWrites s t ws f).present = t.present := rfl
@[simp] theorem fixedWrites_grp (s : State) (t : Thread) (ws : List Wr) (f : Flags) : (fixedWrites s t ws f).grp = t.grp := rfl
@[simp] theorem fixedWrites_origin (s : State) (t : Thread) (ws : List Wr) (f : Flags) : (fixedWrites s t ws f).origin = t.origin := rfl
@[simp] theorem fixedWrites_ret (s : State) (t : Thread) (ws : List Wr) (f : Flags) : (fixedWrites s t ws f).ret = t.ret := rfl
@[simp] theorem fixedWrites_sliceCount (s : State) (t : Thread) (ws : List Wr) (f : Flags) : (fixedWrites s t ws f).sliceCount = t.sliceCount := rfl
@[simp] theorem fixedWrites_expired (s : State) (t : Thread) (ws : List Wr) (f : Flags) : (fixedWrites s t ws f).expired = t.expired := rfl
@[simp] theorem fixedWrites_waitSince (s : State) (t : Thread) (ws : List Wr) (f : Flags) : (fixedWrites s t ws f).waitSince = t.waitSince := rfl

/-! Reads after a set. -/

@[simp] theorem thread_setThread (s : State) (l : Loc) (t : Thread) : thread? (setThread s l t) l = some t := by
  simp [thread?, setThread]

theorem thread_setThread_ne (s : State) {l m : Loc} (t : Thread) (h : m.key ≠ l.key) :
    thread? (setThread s l t) m = thread? s m := by simp [thread?, setThread, h]

@[simp] theorem thread_delThread_ne (s : State) {l m : Loc} (h : m.key ≠ l.key) :
    thread? (delThread s l) m = thread? s m := by simp [thread?, delThread, mget_mdel_ne _ h]

@[simp] theorem cluster_setCluster (s : State) (c : Nat) (v : Cluster) : cluster (setCluster s c v) c = v := by
  simp [cluster, setCluster]

theorem cluster_setCluster_ne (s : State) {c d : Nat} (v : Cluster) (h : d ≠ c) :
    cluster (setCluster s c v) d = cluster s d := by simp [cluster, setCluster, h]

@[simp] theorem cluster_setThread (s : State) (l : Loc) (t : Thread) (c : Nat) :
    cluster (setThread s l t) c = cluster s c := rfl

@[simp] theorem thread_setCluster (s : State) (c : Nat) (v : Cluster) (l : Loc) :
    thread? (setCluster s c v) l = thread? s l := rfl

@[simp] theorem core_setCore (s : State) (k : Nat) (v : Core) : coreOf (setCore s k v) k = v := by simp [coreOf, setCore]

theorem core_setCore_ne (s : State) {k j : Nat} (v : Core) (h : j ≠ k) : coreOf (setCore s k v) j = coreOf s j := by
  simp [coreOf, setCore, h]

@[simp] theorem die_setDie (s : State) (d : Nat) (v : Die) : dieOf (setDie s d v) d = v := by simp [dieOf, setDie]

@[simp] theorem queue_setQueue (s : State) (q : Nat) (v : Queue) : queueOf (setQueue s q v) q = v := by
  simp [queueOf, setQueue]

@[simp] theorem slot_setSlot (s : State) (c : Nat) (w : Word) (v : SubSlot) :
    slotOf (setSlot s c (w.toNat % 1024) v) c w = v := by simp [slotOf, setSlot]

/-! Registers. -/

@[simp] theorem xval_zero (t : Thread) : xval t 0 = 0 := by simp [xval]

/-- A write of x0 is discarded (R101). -/
@[simp] theorem write_x0 (r : Regs) (v : VWord) (ta po : Bool) : r.write ⟨.x 0, v, ta, po⟩ = r := by simp [Regs.write]

theorem xval_ne (t : Thread) (n : XReg) (h : n ≠ 0) : xval t n = t.regs.x[n.toNat] := if_neg h

theorem write_x (r : Regs) (n : XReg) (v : VWord) (ta po : Bool) (hn : n ≠ 0) :
    (r.write ⟨.x n, v, ta, po⟩).x = r.x.set n.toNat (v.setWidth 64) n.isLt := by
  simp only [Regs.write]
  rw [if_neg hn]

/-- What an x register reads after one write. -/
theorem xval_write (t : Thread) (n m : XReg) (v : VWord) (ta po : Bool) (hn : n ≠ 0) :
    xval { t with regs := t.regs.write ⟨.x n, v, ta, po⟩ } m = if m = n then v.setWidth 64 else xval t m := by
  by_cases hm : m = 0
  · have h2 : ¬ m = n := fun e => hn (e.symm.trans hm)
    rw [if_neg h2, hm, xval_zero, xval_zero]
  · rw [xval_ne _ _ hm, xval_ne _ _ hm]
    simp only [write_x _ _ _ _ _ hn, Vector.getElem_set]
    by_cases h : m = n
    · rw [if_pos (congrArg BitVec.toNat h.symm), if_pos h]
    · rw [if_neg fun e => h (BitVec.eq_of_toNat_eq e.symm), if_neg h]

theorem writes_nil (r : Regs) : r.writes [] = r := rfl

theorem writes_cons (r : Regs) (w : Wr) (ws : List Wr) : r.writes (w :: ws) = (r.write w).writes ws := rfl

end Sys2Proof.Machine
end

