-- ==== Sys2Proof/Laws/Issue.lean ====
section
/-! SUPPORT. Everything that the issue of an instruction can do, and what it leaves of the state and of the
thread. -/

namespace Sys2Proof.Machine

/-! Accesses and popped ports. -/

/-- An access that issues changes of the state only the counter of ids and the list of its group. -/
theorem pushAccess_state (s : State) (t : Thread) (a : Access) :
    (pushAccess s t a).1 = { s with nextId := s.nextId + 1, grpAcc := s.grpAcc ++ [(t.uid, s.nextId)] } := by
  simp only [pushAccess]
  split <;> rfl

/-- An access that issues changes of its thread only the accesses that it still has to perform. -/
theorem pushAccess_thread (s : State) (t : Thread) (a : Access) :
    ∃ l, (pushAccess s t a).2 = { t with pipe := { t.pipe with acc := l } } := by
  simp only [pushAccess]
  split
  · exact ⟨_, rfl⟩
  · exact ⟨_, rfl⟩
  · exact ⟨_, rfl⟩
  · exact ⟨t.pipe.acc, rfl⟩
  · exact ⟨_, rfl⟩

/-- The acquires of popped words change of the state only counters and of the thread only its accesses. -/
theorem popAcquires_eq (s : State) (t : Thread) (qs : List PReg) :
    ∃ n g l, (popAcquires s t qs).1 = { s with nextId := n, grpAcc := g }
      ∧ (popAcquires s t qs).2 = { t with pipe := { t.pipe with acc := l } } := by
  have key : ∀ (qs : List PReg) (p : State × Thread), (∃ n g l, p.1 = { s with nextId := n, grpAcc := g }
      ∧ p.2 = { t with pipe := { t.pipe with acc := l } }) →
      ∃ n g l, (qs.foldl (fun p q =>
        match (portOf t q).inb with
        | [] => p
        | w :: _ => pushAccess p.1 p.2 (takeAccess w.scope)) p).1 = { s with nextId := n, grpAcc := g }
      ∧ (qs.foldl (fun p q =>
        match (portOf t q).inb with
        | [] => p
        | w :: _ => pushAccess p.1 p.2 (takeAccess w.scope)) p).2 = { t with pipe := { t.pipe with acc := l } } := by
    intro qs
    induction qs with
    | nil => intro p h; exact h
    | cons q qs ih =>
      intro p h
      rw [List.foldl_cons]
      apply ih
      cases (portOf t q).inb with
      | nil => exact h
      | cons w ws =>
        obtain ⟨n, g, l, h1, h2⟩ := h
        obtain ⟨l', h3⟩ := pushAccess_thread p.1 p.2 (takeAccess w.scope)
        refine ⟨p.1.nextId + 1, p.1.grpAcc ++ [(p.2.uid, p.1.nextId)], l', ?_, ?_⟩
        · rw [pushAccess_state, h1]
        · rw [h3, h2]
  exact key qs (s, t) ⟨s.nextId, s.grpAcc, t.pipe.acc, rfl, rfl⟩

theorem afterPops_eq (s : State) (t : Thread) (i : Instr) :
    ∃ n g, afterPops s t i = { s with nextId := n, grpAcc := g } := by
  obtain ⟨n, g, _, h, _⟩ := popAcquires_eq s t (usesOf i).pops
  exact ⟨n, g, h⟩

@[simp] theorem afterPops_cur (s : State) (t : Thread) (i : Instr) : (afterPops s t i).cur = s.cur := by
  obtain ⟨n, g, h⟩ := afterPops_eq s t i
  rw [h]

@[simp] theorem afterPops_curN (s : State) (t : Thread) (i : Instr) : (afterPops s t i).curN = s.curN := by
  obtain ⟨n, g, h⟩ := afterPops_eq s t i
  rw [h]

@[simp] theorem afterPops_cycle (s : State) (t : Thread) (i : Instr) : (afterPops s t i).cycle = s.cycle := by
  obtain ⟨n, g, h⟩ := afterPops_eq s t i
  rw [h]

@[simp] theorem afterPops_threads (s : State) (t : Thread) (i : Instr) : (afterPops s t i).threads = s.threads := by
  obtain ⟨n, g, h⟩ := afterPops_eq s t i
  rw [h]

@[simp] theorem afterPops_clusters (s : State) (t : Thread) (i : Instr) : (afterPops s t i).clusters = s.clusters := by
  obtain ⟨n, g, h⟩ := afterPops_eq s t i
  rw [h]

@[simp] theorem afterPops_store (s : State) (t : Thread) (i : Instr) : (afterPops s t i).store = s.store := by
  obtain ⟨n, g, h⟩ := afterPops_eq s t i
  rw [h]

@[simp] theorem afterPops_free (s : State) (t : Thread) (i : Instr) : (afterPops s t i).free = s.free := by
  obtain ⟨n, g, h⟩ := afterPops_eq s t i
  rw [h]

/-- Popping ports changes of a thread only the ports and QCTLV (R103, R114). -/
theorem popPorts_eq (t : Thread) (qs : List PReg) :
    ∃ p v, popPorts t qs = { t with ports := p, csr := { t.csr with qctlv := v } } := by
  have key : ∀ (qs : List PReg) (u : Thread), (∃ p v, u = { t with ports := p, csr := { t.csr with qctlv := v } }) →
      ∃ p v, popPorts u qs = { t with ports := p, csr := { t.csr with qctlv := v } } := by
    intro qs
    induction qs with
    | nil => intro u h; exact h
    | cons q qs ih =>
      rintro u ⟨p, v, rfl⟩
      rw [popPorts, List.foldl_cons]
      apply ih
      cases h : (portOf { t with ports := p, csr := { t.csr with qctlv := v } } q).inb with
      | nil => exact ⟨p, v, rfl⟩
      | cons w ws =>
        simp only
        split
        · exact ⟨_, w.word, rfl⟩
        · exact ⟨_, v, rfl⟩
  exact key qs t ⟨t.ports, t.csr.qctlv, rfl⟩

/-- The registers are as they were when an instruction has issued: its results come later (R59). -/
@[simp] theorem issuedThread_regs (s : State) (t : Thread) (i : Instr) : (issuedThread s t i).regs = t.regs := by
  obtain ⟨n, g, l, _, h⟩ := popAcquires_eq s t (usesOf i).pops
  simp only [issuedThread, charge, h]
  split <;> (obtain ⟨p, v, h2⟩ := popPorts_eq _ (usesOf i).pops; rw [h2])

/-- The control registers are as they were but QCTLV, which a popped control value enters (R114). -/
theorem issuedThread_csr (s : State) (t : Thread) (i : Instr) :
    ∃ v, (issuedThread s t i).csr = { t.csr with qctlv := v } := by
  obtain ⟨n, g, l, _, h⟩ := popAcquires_eq s t (usesOf i).pops
  simp only [issuedThread, charge, h]
  split <;> (obtain ⟨p, v, h2⟩ := popPorts_eq _ (usesOf i).pops; rw [h2]; exact ⟨v, rfl⟩)

/-- The PC after an issue is that of the next instruction (R70). -/
@[simp] theorem issuedThread_pc (s : State) (t : Thread) (i : Instr) : (issuedThread s t i).pc = nextPc t.pc s.curN := by
  obtain ⟨n, g, l, _, h⟩ := popAcquires_eq s t (usesOf i).pops
  simp only [issuedThread, charge, h, afterPops_curN]
  split <;> (obtain ⟨p, v, h2⟩ := popPorts_eq _ (usesOf i).pops; rw [h2])

/-! The issue. -/

variable {s : State} {t : Thread} {i : Instr}

/-- An instruction that issues has its effect, or its own check raises a trap. -/
theorem issue_of_issues (h : Issues s t i) (body : Thread → Thread → State → Effect) :
    issue i s body = match body t (issuedThread s t i) (afterPops s t i) with
      | .ok s2 => .next s2
      | .error v => .next (raiseTrap s s.cur t v) := by
  obtain ⟨h1, h2, h3, h4⟩ := h
  simp only [issue, h1, h2, h3, h4]
  rfl

/-- While a wait of R27 is not met nothing happens. -/
theorem issue_of_waits (h : thread? s s.cur = some t) (h2 : canIssue s s.cur t i = false)
    (body : Thread → Thread → State → Effect) : issue i s body = .next s := by
  simp [issue, h, h2]

/-- A check of every instruction that fails raises its trap. -/
theorem issue_of_trap {v : TrapVal} (h : thread? s s.cur = some t) (h2 : canIssue s s.cur t i = true)
    (h3 : entryTrap s s.cur t i = some v) (body : Thread → Thread → State → Effect) :
    issue i s body = .next (raiseTrap s s.cur t v) := by
  simp [issue, h, h2, h3]

/-- Everything that the issue of an instruction can do. -/
theorem issue_cases {s' : State} {body : Thread → Thread → State → Effect} (h : issue i s body = .next s') :
    ∃ t, thread? s s.cur = some t ∧
      ((canIssue s s.cur t i = false ∧ s' = s)
      ∨ (∃ v, s' = raiseTrap s s.cur t v)
      ∨ (∃ q, ctlPop t (usesOf i) = some q ∧ s' = popControl s s.cur t q)
      ∨ (Issues s t i ∧ body t (issuedThread s t i) (afterPops s t i) = .ok s')) := by
  unfold issue at h
  split at h
  · cases h
  · next t ht =>
    refine ⟨t, ht, ?_⟩
    split at h
    · next hc => cases h; exact .inl ⟨by simpa using hc, rfl⟩
    · next hc =>
      split at h
      · next v hv => cases h; exact .inr (.inl ⟨_, rfl⟩)
      · next hv =>
        split at h
        · next q hq => cases h; exact .inr (.inr (.inl ⟨q, hq, rfl⟩))
        · next hq =>
          have hi : Issues s t i := ⟨ht, by simpa using hc, hv, hq⟩
          simp only at h
          split at h
          · next s2 hb => cases h; exact .inr (.inr (.inr ⟨hi, hb⟩))
          · next v hb => cases h; exact .inr (.inl ⟨v, rfl⟩)

/-! The moulds. -/

theorem issueFixed_of_issues (h : Issues s t i) (rd : Opr) (f : Thread → Word × Flags) :
    issueFixed i s rd f = .next (fixedDone s t i rd (f t).1 (f t).2) := issue_of_issues h _

theorem issueClear_of_issues (h : Issues s t i) (rd : Opr) (f : Thread → Word × Flags) :
    issueClear i s rd f =
      .next (fixedResult (afterPops s t i) (issuedThread s t i) rd (f t).1 false (f t).2) := issue_of_issues h _

theorem issueVariable_of_issues (h : Issues s t i) (f : Thread → List Wr × Flags) :
    issueVariable i s f = .next (variableDone s t i (f t).1 (f t).2) := issue_of_issues h _

theorem issueVector_of_issues (h : Issues s t i) (f : Thread → List Wr × Flags) :
    issueVector i s f = .next (vectorDone s t i (f t).1 (f t).2) := by
  rw [issueVector, issue_of_issues h, vectorDone, afterPops_cur]

theorem issueThread_of_issues (h : Issues s t i) (f : Thread → Thread → Thread) :
    issueThread i s f = .next (setThread (afterPops s t i) s.cur (f t (issuedThread s t i))) := by
  rw [issueThread, issue_of_issues h, afterPops_cur]

end Sys2Proof.Machine
end

