-- ==== Sys2Proof/Laws/Memory.lean ====
section
/-! SUPPORT. Every operation on memory keeps the canonical form of every memory of the package. -/

namespace Sys2Proof.Machine

/-- What a fold keeps, when each of its steps keeps it. -/
theorem foldl_keeps {σ β : Type} (P : σ → Prop) (f : σ → β → σ) (h : ∀ s b, P s → P (f s b)) (bs : List β) (s : σ) (hs : P s) :
    P (bs.foldl f s) := by
  induction bs generalizing s with
  | nil => exact hs
  | cons b bs ih => exact ih _ (h _ _ hs)

/-! What canonical form depends on. -/

/-- Canonical form speaks of home memory, host memory and the clusters only. -/
theorem canonical_of_eq {s t : State} (h : s.canonical) (h1 : t.store.home = s.store.home)
    (h2 : t.store.hostMem = s.store.hostMem) (h3 : t.clusters = s.clusters) : t.canonical := by
  unfold State.canonical at *
  rw [h1, h2, h3]
  exact h

/-- The stash of a cluster, by number. -/
theorem canonical_stash {s : State} (h : s.canonical) (c : Nat) : mwf (cluster s c).stash = true := by
  unfold cluster
  cases hc : mget s.clusters c with
  | none => rfl
  | some v => exact h.2.2 (c, v) (mget_mem _ _ _ hc)

theorem canonical_setCluster {s : State} (h : s.canonical) (c : Nat) {v : Cluster} (hv : mwf v.stash = true) :
    (setCluster s c v).canonical := by
  refine ⟨h.1, h.2.1, ?_⟩
  intro e he
  rcases mem_mset _ _ _ he with rfl | he
  · exact hv
  · exact h.2.2 e he

/-- A cluster changed in anything but its stash. -/
theorem canonical_setCluster_same {s : State} (h : s.canonical) (c : Nat) {v : Cluster} (hv : v.stash = (cluster s c).stash) :
    (setCluster s c v).canonical :=
  canonical_setCluster h c (hv ▸ canonical_stash h c)

/-- Clusters changed one by one in anything but their stashes. -/
theorem canonical_mapClusters {s : State} (h : s.canonical) (f : Nat × Cluster → Nat × Cluster)
    (hf : ∀ e, (f e).2.stash = e.2.stash) {t : State} (h1 : t.store.home = s.store.home)
    (h2 : t.store.hostMem = s.store.hostMem) (h3 : t.clusters = s.clusters.map f) : t.canonical := by
  refine ⟨h1 ▸ h.1, h2 ▸ h.2.1, ?_⟩
  intro e he
  rw [h3, List.mem_map] at he
  obtain ⟨x, hx, rfl⟩ := he
  rw [hf x]
  exact h.2.2 x hx

theorem canonical_setThread {s : State} (h : s.canonical) (l : Loc) (t : Thread) : (setThread s l t).canonical := h

theorem canonical_delThread {s : State} (h : s.canonical) (l : Loc) : (delThread s l).canonical := h

theorem canonical_modThread {s : State} (h : s.canonical) (l : Loc) (f : Thread → Thread) : (modThread s l f).canonical := by
  unfold modThread
  split <;> exact h

theorem canonical_setCore {s : State} (h : s.canonical) (k : Nat) (v : Core) : (setCore s k v).canonical := h

theorem canonical_setDie {s : State} (h : s.canonical) (d : Nat) (v : Die) : (setDie s d v).canonical := h

theorem canonical_setQueue {s : State} (h : s.canonical) (q : Nat) (v : Queue) : (setQueue s q v).canonical := h

theorem canonical_drawn {s : State} (h : s.canonical) : (drawn s).canonical := h

theorem canonical_setSlot {s : State} (h : s.canonical) (c k : Nat) (v : SubSlot) : (setSlot s c k v).canonical :=
  canonical_setCluster_same h c rfl

/-! Counting. -/

theorem canonical_tally {s : State} (h : s.canonical) (c src n : Nat) : (tally s c src n).canonical := by
  unfold tally
  split
  · exact h
  · exact canonical_setDie (canonical_setCluster_same (v := bumpEvc (cluster s c) src n) h c rfl) _ _

theorem canonical_tallyDie {s : State} (h : s.canonical) (d src n : Nat) : (tallyDie s d src n).canonical := by
  unfold tallyDie
  split <;> exact h

/-! Home memory. -/

theorem canonical_tallyHbm {s : State} (h : s.canonical) (k l src : Nat) : (tallyHbm s k l src).canonical := by
  unfold tallyHbm
  split
  · exact canonical_tallyDie h _ _ _
  · exact h

theorem canonical_flushHalf {s : State} (h : s.canonical) (half : Nat) : (flushHalf s half).canonical := by
  unfold flushHalf
  simp only
  split
  · exact h
  · exact canonical_tallyHbm (by exact h) _ _ _

theorem canonical_sendSub {s : State} (h : s.canonical) (sl c k : Nat) (b : SubBody) : (sendSub s sl c k b).canonical := h

theorem canonical_pushWord {s : State} (h : s.canonical) (key w : Nat) : (pushWord s key w).canonical :=
  foldl_keeps State.canonical _ (fun _ _ hs => canonical_sendSub hs _ _ _ _) _ _ h

theorem canonical_setL2 {s : State} (h : s.canonical) (k : Nat) (m : SMap Bool) : (setL2 s k m).canonical := h

theorem canonical_lineGone {s : State} (h : s.canonical) (k n : Nat) (d : Bool) : (lineGone s k n d).canonical := by
  unfold lineGone
  simp only
  split
  · exact h
  · split <;> split <;> first | exact canonical_tallyHbm (by exact h) _ _ _ | exact h

theorem canonical_l2Put {s : State} (h : s.canonical) (k n : Nat) (d : Bool) : (l2Put s k n d).canonical := by
  unfold l2Put
  simp only
  have h1 : State.canonical
      (if homeSlice (n % 2 ^ 45 * 128) = k then tallyHbm (tallyHbm s k (n % 2 ^ 45) 0x100) k (n % 2 ^ 45) 0x101
        else s) := by
    split
    · exact canonical_tallyHbm (canonical_tallyHbm h _ _ _) _ _ _
    · exact h
  split
  · split
    · exact h
    · exact h
  · split
    · exact canonical_setL2 h1 _ _
    · exact canonical_drawn (canonical_setL2 (canonical_lineGone h1 _ _ _) _ _)

theorem canonical_l2Del {s : State} (h : s.canonical) (k n : Nat) : (l2Del s k n).canonical := by
  unfold l2Del
  split
  · exact canonical_lineGone (canonical_setL2 h _ _) _ _ _
  · exact h

theorem canonical_l2Keep {s : State} (h : s.canonical) (p : Nat → Nat → Bool) : (l2Keep s p).canonical :=
  foldl_keeps State.canonical _ (fun _ _ hs => canonical_lineGone hs _ _ _) _ _ h

theorem canonical_l2Reach {s : State} (h : s.canonical) (key pa n : Nat) : (l2Reach s key pa n).canonical := by
  unfold l2Reach
  simp only
  split
  · exact h
  · exact foldl_keeps State.canonical _ (fun _ _ hs => canonical_l2Put hs _ _ _) _ _ h

theorem canonical_l2Write {s : State} (h : s.canonical) (key line : Nat) : (l2Write s key line).canonical := by
  have h1 := foldl_keeps State.canonical (fun s d => l2Del s (256 * d + sliceOf (line * 128)) (lineKey key line))
    (fun _ _ hs => canonical_l2Del hs _ _)
    ((List.range 8).filter fun d => !(hasHome (line * 128) && d = homeDie (line * 128))) s h
  unfold l2Write
  simp only
  split
  · exact canonical_l2Put h1 _ _ _
  · exact h1

theorem canonical_l2Fetch {s : State} (h : s.canonical) (c key line : Nat) : (l2Fetch s c key line).canonical := by
  unfold l2Fetch
  simp only
  split
  · exact canonical_l2Put (canonical_l2Put h _ _ _) _ _ _
  · exact h

theorem canonical_homeWrites {s : State} (h : s.canonical) (key : Nat) (bs : List (Nat × Byte)) (bad : List Nat) :
    (homeWrites s key bs bad).canonical := by
  unfold homeWrites
  simp only
  split
  · exact h
  · split
    · exact h
    · refine foldl_keeps State.canonical _ (fun _ _ hs => canonical_pushWord hs _ _) _ _ ?_
      refine foldl_keeps State.canonical _ (fun _ _ hs => canonical_l2Write hs _ _) _ _ ?_
      exact ⟨mwf_foldl (fun e : Nat × Byte => e.1) (fun _ e => e.2) _ _ h.1, h.2.1, h.2.2⟩

/-! Stashes and views. -/

theorem canonical_stashWrite {s : State} (h : s.canonical) (c off : Nat) (bytes : List Byte) :
    (stashWrite s c off bytes).canonical :=
  canonical_setCluster h c (mwf_foldl (fun e : Nat × Byte => e.1) (fun _ e => e.2) _ _ (canonical_stash h c))

theorem canonical_viewSet {s : State} (h : s.canonical) (c key pa : Nat) (v : VByte) : (viewSet s c key pa v).canonical := by
  unfold viewSet
  simp only
  split
  · exact canonical_setCluster h c (mwf_mset _ _ _ (canonical_stash h c))
  · exact canonical_setCluster_same h c rfl

/-- Bytes leave a view without a change of the stash. -/
theorem viewDels_stash (s : State) (c key : Nat) (pas : List Nat) :
    (cluster (viewDels s c key pas) c).stash = (cluster s c).stash := by
  unfold viewDels
  simp only [cluster_setCluster]
  refine foldl_keeps (fun v : Cluster => v.stash = (cluster s c).stash) _ (fun v pa hv => ?_) pas (cluster s c) rfl
  split <;> exact hv

theorem canonical_viewDels {s : State} (h : s.canonical) (c key : Nat) (pas : List Nat) : (viewDels s c key pas).canonical := by
  have e := viewDels_stash s c key pas
  unfold viewDels at *
  simp only [cluster_setCluster] at e
  exact canonical_setCluster_same h c e

theorem canonical_viewPoisonSet {s : State} (h : s.canonical) (c key pa : Nat) (b : Bool) :
    (viewPoisonSet s c key pa b).canonical := by
  unfold viewPoisonSet
  simp only
  split <;> exact canonical_setCluster_same h c rfl

theorem canonical_viewPut {s : State} (h : s.canonical) (c key pa : Nat) (bytes : List Byte) (d : Bool) :
    (viewPut s c key pa bytes d).canonical :=
  foldl_keeps State.canonical _ (fun _ _ hs => canonical_viewPoisonSet hs _ _ _ _) _ _
    (foldl_keeps State.canonical _ (fun _ _ hs => canonical_viewSet hs _ _ _ _) _ _ h)

theorem canonical_freeHalf {s : State} (h : s.canonical) (key half : Nat) : (freeHalf s key half).canonical := h

theorem canonical_drawnBy {s : State} (h : s.canonical) (n : Nat) : (drawnBy n s).canonical := h

theorem canonical_putHalf {s : State} (h : s.canonical) (key half : Nat) (d : BitVec 512) : (putHalf s key half d).canonical :=
  canonical_homeWrites h _ _ _

theorem canonical_recallTable {s : State} (h : s.canonical) (key half : Nat) : (recallTable key s half).canonical := by
  unfold recallTable
  split
  · exact canonical_putHalf (canonical_drawnBy (canonical_freeHalf h _ _) _) _ _ _
  · exact canonical_drawn (canonical_freeHalf h _ _)

/-! Replicated pages. -/

theorem canonical_endReplicas {s : State} (h : s.canonical) (pa size pte key : Nat) :
    (endReplicas s pa size pte key).canonical := by
  have h1 := foldl_keeps State.canonical
    (fun s0 a =>
      let s := ((halvesOf (chase s0 a) 8).filter (halfHeld s0 key)).foldl (recallTable key) s0
      homeWrites s key (atAddr a (leBytes 8 (leNat (homeBytes s key a 8) % 2 ^ 63))) [])
    (fun _ _ hs => canonical_homeWrites (foldl_keeps State.canonical _ (fun _ _ hs => canonical_recallTable hs _ _) _ _ hs) _ _ _)
    (leavesOf pte size) s h
  refine canonical_mapClusters (canonical_l2Keep h1 fun _ n => !inReplica pa size (n % 2 ^ 45 * 128)) _ (fun e => ?_) rfl rfl rfl
  rfl

theorem canonical_collapsePage {s : State} (h : s.canonical) (pa size pte key id : Nat) :
    (collapsePage s pa size pte key id).canonical := by
  refine canonical_mapClusters (canonical_endReplicas h pa size pte key) _ (fun e => ?_) rfl rfl rfl
  rfl

theorem canonical_collapseNow {s : State} (h : s.canonical) (e : TlbEntry) : (collapseNow s e).canonical := by
  unfold collapseNow
  exact canonical_tallyDie (canonical_collapsePage h _ _ _ _ _) _ _ _

theorem canonical_collapseAt {s : State} (h : s.canonical) (pa : Nat) : (collapseAt s pa).canonical := by
  unfold collapseAt
  split
  · exact canonical_collapseNow h _
  · exact h

theorem canonical_callCollapse {s : State} (h : s.canonical) (e : TlbEntry) : (callCollapse s e).1.canonical := by
  unfold callCollapse
  split <;> exact h

theorem canonical_endReplicasAt {s : State} (h : s.canonical) (pa : Nat) : (endReplicasAt s pa).canonical := by
  unfold endReplicasAt
  split
  · exact canonical_endReplicas (canonical_callCollapse h _) _ _ _ _
  · exact h

theorem canonical_recallNow {s : State} (h : s.canonical) (key half : Nat) : (recallNow key s half).canonical := by
  unfold recallNow
  simp only
  split
  · exact canonical_putHalf (canonical_endReplicasAt (canonical_drawnBy (canonical_freeHalf h _ _) _) _) _ _ _
  · exact canonical_drawn (canonical_freeHalf h _ _)

theorem canonical_recallHalves {s : State} (h : s.canonical) (key : Nat) (hs : List Nat) : (recallHalves s key hs).canonical :=
  foldl_keeps State.canonical _ (fun _ _ hs => canonical_recallNow hs _ _) _ _ h

theorem canonical_recallRange {s : State} (h : s.canonical) (key pa n : Nat) : (recallRange s key pa n).canonical :=
  canonical_recallHalves h _ _

/-! A recall, and a write at home, leave the threads alone. -/

theorem foldl_threads {α : Type} (f : State → α → State) (h : ∀ s a, (f s a).threads = s.threads) :
    ∀ (l : List α) (s : State), (l.foldl f s).threads = s.threads
  | [], _ => rfl
  | a :: l, s => (foldl_threads f h l (f s a)).trans (h s a)

@[simp] theorem tallyDie_threads (s : State) (d src n : Nat) : (tallyDie s d src n).threads = s.threads := by
  unfold tallyDie
  split <;> rfl

@[simp] theorem tallyHbm_threads (s : State) (k l src : Nat) : (tallyHbm s k l src).threads = s.threads := by
  unfold tallyHbm
  split <;> simp

@[simp] theorem lineGone_threads (s : State) (slice n : Nat) (d : Bool) : (lineGone s slice n d).threads = s.threads := by
  unfold lineGone
  simp only
  repeat' split
  all_goals simp

@[simp] theorem l2Put_threads (s : State) (slice n : Nat) (d : Bool) : (l2Put s slice n d).threads = s.threads := by
  unfold l2Put
  simp only
  repeat' split
  all_goals first | rfl | simp

@[simp] theorem l2Del_threads (s : State) (slice n : Nat) : (l2Del s slice n).threads = s.threads := by
  unfold l2Del
  split <;> simp

@[simp] theorem l2Write_threads (s : State) (key line : Nat) : (l2Write s key line).threads = s.threads := by
  unfold l2Write
  simp only
  split <;> simp [foldl_threads _ fun s d => l2Del_threads s _ _]

@[simp] theorem l2Keep_threads (s : State) (p : Nat → Nat → Bool) : (l2Keep s p).threads = s.threads := by
  unfold l2Keep
  rw [foldl_threads _ fun s g => lineGone_threads s _ _ _]

@[simp] theorem pushWord_threads (s : State) (key w : Nat) : (pushWord s key w).threads = s.threads := by
  unfold pushWord
  simp only
  refine foldl_threads _ (fun _ _ => ?_) _ _
  rfl

@[simp] theorem homeWrites_threads (s : State) (key : Nat) (bs : List (Nat × Byte)) (bad : List Nat) :
    (homeWrites s key bs bad).threads = s.threads := by
  unfold homeWrites
  simp only
  split
  · rfl
  · split
    · rfl
    · rw [foldl_threads _ fun s w => pushWord_threads s key w, foldl_threads _ fun s l => l2Write_threads s key l]

@[simp] theorem recallTable_threads (key : Nat) (s : State) (half : Nat) : (recallTable key s half).threads = s.threads := by
  unfold recallTable putHalf
  split <;> simp [freeHalf]

@[simp] theorem endReplicas_threads (s : State) (pa size pte key : Nat) : (endReplicas s pa size pte key).threads = s.threads := by
  unfold endReplicas
  simp only [l2Keep_threads]
  refine foldl_threads _ (fun s a => ?_) _ _
  simp [foldl_threads _ fun s h => recallTable_threads key s h]

@[simp] theorem recallNow_threads (key : Nat) (s : State) (half : Nat) : (recallNow key s half).threads = s.threads := by
  unfold recallNow putHalf
  simp only
  split
  · unfold endReplicasAt callCollapse
    rw [homeWrites_threads]
    repeat' split
    all_goals simp [freeHalf]
  · rfl

@[simp] theorem recallRange_threads (s : State) (key pa n : Nat) : (recallRange s key pa n).threads = s.threads :=
  foldl_threads _ (fun s h => recallNow_threads key s h) _ _

/-! Actions on a view. -/

theorem canonical_wbLine {s : State} (h : s.canonical) (c key line : Nat) : (wbLine s c key line).canonical := by
  unfold wbLine
  split
  · exact h
  · exact foldl_keeps State.canonical _ (fun _ _ hs => canonical_viewSet hs _ _ _ _) _ _
      (canonical_homeWrites (canonical_recallHalves (canonical_collapseAt h _) _ _) _ _ _)

theorem canonical_dropLine {s : State} (h : s.canonical) (c key line : Nat) : (dropLine s c key line).canonical :=
  canonical_viewDels h _ _ _

theorem canonical_dropClean {s : State} (h : s.canonical) (c key line : Nat) (f : Nat → Bool) :
    (dropClean s c key line f).canonical := canonical_viewDels h _ _ _

theorem canonical_makeRoom {s : State} (h : s.canonical) (c key line : Nat) : (makeRoom s c key line).canonical := by
  unfold makeRoom
  simp only
  split
  · exact h
  · exact canonical_dropLine (canonical_wbLine (canonical_drawn h) _ _ _) _ _ _

theorem canonical_fillWord {s : State} (h : s.canonical) (c key w : Nat) : (fillWord s c key w).canonical := by
  unfold fillWord
  simp only
  split
  · exact h
  · exact canonical_viewPoisonSet (foldl_keeps State.canonical _ (fun _ _ hs => canonical_viewSet hs _ _ _ _) _ _ h) _ _ _ _

theorem canonical_fillLine {s : State} (h : s.canonical) (c key line : Nat) : (fillLine s c key line).canonical :=
  foldl_keeps State.canonical _ (fun _ _ hs => canonical_fillWord hs _ _ _) _ _
    (canonical_l2Fetch (canonical_makeRoom h _ _ _) _ _ _)

theorem canonical_localRead {s : State} (h : s.canonical) (c key pa n : Nat) : (localRead s c key pa n).2.2.canonical := by
  unfold localRead
  simp only
  split
  · exact h
  · exact canonical_fillLine h _ _ _

theorem canonical_localWrite {s : State} (h : s.canonical) (c key pa : Nat) (bytes : List Byte) :
    (localWrite s c key pa bytes).canonical := canonical_viewPut (canonical_makeRoom h _ _ _) _ _ _ _ _

theorem canonical_homeWrite {s : State} (h : s.canonical) (c key pa : Nat) (bytes : List Byte) :
    (homeWrite s c key pa bytes).canonical := by
  have h1 := foldl_keeps State.canonical (fun s e => viewSet s c key e.1 ⟨e.2, false⟩)
    (fun _ _ hs => canonical_viewSet hs _ _ _ _)
    ((atAddr pa bytes).filter fun e => (viewGet (homeWrites s key (atAddr pa bytes) []) c key e.1).isSome) _
    (canonical_homeWrites h key (atAddr pa bytes) [])
  unfold homeWrite
  simp only
  split
  · exact foldl_keeps State.canonical _ (fun _ _ hs => canonical_viewSet hs _ _ _ _) _ _ (canonical_homeWrites h _ _ _)
  · exact foldl_keeps State.canonical _ (fun _ _ hs => canonical_viewPoisonSet hs _ _ _ _) _ _
      (foldl_keeps State.canonical _ (fun _ _ hs => canonical_viewSet hs _ _ _ _) _ _ (canonical_homeWrites h _ _ _))

theorem canonical_invalidate {s : State} (h : s.canonical) (c : Nat) : (invalidate s c).canonical :=
  canonical_setCluster_same h c rfl

theorem canonical_removeLine {s : State} (h : s.canonical) (c key line : Nat) : (removeLine s c key line).canonical := by
  unfold removeLine
  simp only
  split
  · exact canonical_wbLine h _ _ _
  · exact canonical_dropLine (canonical_wbLine h _ _ _) _ _ _

theorem canonical_wbAll {s : State} (h : s.canonical) (c key : Nat) : (wbAll s c key).canonical :=
  foldl_keeps State.canonical _ (fun _ _ hs => canonical_wbLine hs _ _ _) _ _ h

theorem canonical_releaseNow {s : State} (h : s.canonical) (c key : Nat) (sc : Scope) :
    (releaseNow s c key sc).canonical := by
  unfold releaseNow
  split
  · exact canonical_wbAll h _ _
  · exact h

theorem canonical_acquireNow {s : State} (h : s.canonical) (c : Nat) (sc : Scope) : (acquireNow s c sc).canonical := by
  unfold acquireNow
  split
  · exact canonical_invalidate h _
  · exact h

theorem canonical_hostWrites {s : State} (h : s.canonical) (pa : Nat) (bytes : List Byte) :
    (hostWrites s pa bytes).canonical :=
  ⟨h.1, mwf_foldl (fun e : Nat × Byte => e.1) (fun _ e => e.2) _ _ h.2.1, h.2.2⟩

/-! Accesses. -/

theorem canonical_mappedTakes {s : State} (h : s.canonical) (c key pa : Nat) (bytes : List Byte) :
    (mappedTakes s c key pa bytes).canonical := by
  unfold mappedTakes
  split
  · exact canonical_viewPut h _ _ _ _ _
  · exact h

theorem canonical_mappedHome {s : State} (h : s.canonical) (c key pa n : Nat) : (mappedHome s c key pa n).canonical := by
  unfold mappedHome
  split
  · exact h
  · exact foldl_keeps State.canonical _ (fun _ _ hs => canonical_fillWord hs _ _ _) _ _ (canonical_viewDels h _ _ _)

theorem canonical_discardLine {s : State} (h : s.canonical) (c key line lo hi : Nat) :
    (discardLine s c key line lo hi).canonical := by
  unfold discardLine
  simp only
  split
  · exact canonical_viewDels h _ _ _
  · exact canonical_tally (canonical_viewDels h _ _ _) _ _ _

theorem canonical_dropCode {s : State} (h : s.canonical) (c key line : Nat) : (dropCode s c key line).canonical :=
  foldl_keeps State.canonical _ (fun _ _ hs => canonical_setCore hs _ _) _ _ h

theorem canonical_dropCopies {s : State} (h : s.canonical) (c : Nat) (a : Access) (line : Nat) :
    (dropCopies s c a line).canonical := by
  unfold dropCopies
  simp only
  split
  · exact canonical_dropCode (canonical_dropClean (canonical_dropCode (canonical_dropClean h _ _ _ _) _ _ _) _ _ _ _) _ _ _
  · exact canonical_dropCode (canonical_dropClean h _ _ _ _) _ _ _

theorem canonical_rangeLine {s : State} (h : s.canonical) (c : Nat) (a : Access) (op : RangeOp) (line : Nat) :
    (rangeLine s c a op line).canonical := by
  unfold rangeLine
  simp only
  cases op with
  | wb =>
    simp only
    split
    · exact h
    · exact canonical_wbLine h _ _ _
  | inv =>
    simp only
    split
    · exact canonical_dropCode h _ _ _
    · exact canonical_dropCopies (canonical_wbLine (canonical_discardLine h _ _ _ _ _) _ _ _) _ _ _
  | wbi =>
    simp only
    split
    · exact canonical_dropCode h _ _ _
    · exact canonical_dropCopies (canonical_wbLine h _ _ _) _ _ _

theorem canonical_unmapLine {s : State} (h : s.canonical) (c key off line : Nat) : (unmapLine s c key off line).canonical := by
  unfold unmapLine
  simp only
  split
  · exact h
  · split
    · exact canonical_setCluster_same (canonical_wbLine h _ _ _) c rfl
    · split
      · exact canonical_setCluster_same h c rfl
      · exact canonical_setCluster_same (canonical_homeWrites (canonical_recallHalves (canonical_collapseAt h _) _ _) _ _ _) c rfl

theorem canonical_taintClean {s : State} (h : s.canonical) (c : Nat) (a : Access) : (taintClean s c a).canonical := by
  unfold taintClean
  split
  · exact canonical_dropClean h _ _ _ _
  · exact h

/-- A write that stalls, or is made. -/
theorem canonical_writeOr {s : State} (h : s.canonical) (a d : Access) (e : Option TlbEntry) (f : State → State)
    (hf : (f s).canonical) : (writeOr s a d e f).1.canonical := by
  unfold writeOr
  split
  · exact canonical_callCollapse h _
  · exact hf

theorem canonical_tallyMiss {s : State} (h : s.canonical) (c : Nat) (miss : Bool) : (tallyMiss s c miss).canonical := by
  unfold tallyMiss
  split
  · exact canonical_tally h _ _ _
  · exact h

/-- The write of an atomic keeps the form, if the write of its new bytes does. -/
theorem canonical_rmwWrite {s : State} (h : s.canonical) (a d : Access) (mates : List Access) (bs : List Byte) (bad : Bool)
    (f : State → List Byte → State) (hf : ∀ nb, (f s nb).canonical) : (rmwWrite s a d mates bs bad f).1.canonical := by
  refine canonical_writeOr h _ _ _ _ ?_
  split
  · exact hf _
  · exact h

/-- Every action of an access keeps the canonical form. -/
theorem canonical_takeAct {s : State} (h : s.canonical) (c : Nat) (a : Access) (act : Act) (rest : List Act)
    (mates : List Access) : (takeAct s c a act rest mates).1.canonical := by
  cases act with
  | localRead off len => exact canonical_tallyMiss (canonical_localRead h _ _ _ _) _ _
  | localWrite off len => exact canonical_writeOr h _ _ _ _ (canonical_localWrite h _ _ _ _)
  | localRmw =>
    exact canonical_rmwWrite (canonical_tallyMiss (canonical_localRead (canonical_taintClean h _ _) _ _ _ _) _ _) _ _ _ _ _ _
      fun _ => canonical_localWrite (canonical_tallyMiss (canonical_localRead (canonical_taintClean h _ _) _ _ _ _) _ _) _ _ _ _
  | homeRead off len => exact canonical_l2Reach h _ _ _
  | homeWrite off len => exact canonical_writeOr h _ _ _ _ (canonical_homeWrite h _ _ _ _)
  | homeRmw =>
    have h1 := canonical_l2Reach (canonical_removeLine h c a.key (a.pa 0 / 128)) a.key (a.pa 0) a.n
    simp only [takeAct]
    split
    · exact canonical_rmwWrite h1 _ _ _ _ _ _ fun _ => canonical_mappedTakes (canonical_homeWrites h1 _ _ _) _ _ _ _
    · exact canonical_mappedHome h1 _ _ _ _
  | stashRead off len => exact h
  | stashWrite off len => exact canonical_stashWrite h _ _ _
  | stashRmw => exact canonical_rmwWrite h _ _ _ _ _ _ fun _ => canonical_stashWrite h _ _ _
  | hostRead off len => exact h
  | hostWrite off len => exact canonical_hostWrites h _ _
  | hostRmw => exact canonical_rmwWrite h _ _ _ _ _ _ fun _ => canonical_hostWrites h _ _
  | wbStart => simp only [takeAct]; split <;> exact h
  | wbLines ls =>
    simp only [takeAct]
    split
    · exact h
    · exact canonical_writeOr h _ _ _ _ (canonical_wbLine h _ _ _)
  | lineOut => exact canonical_writeOr h _ _ _ _ (canonical_removeLine h _ _ _)
  | invalidate => exact canonical_invalidate h _
  | fill => exact canonical_tallyMiss (canonical_fillLine h _ _ _) _ _
  | rangeLine l =>
    simp only [takeAct]
    split
    · exact canonical_writeOr h _ _ _ _ (canonical_rangeLine h _ _ _ _)
    · exact h
  | unmapLine l => exact canonical_writeOr h _ _ _ _ (canonical_unmapLine h _ _ _ _)
  | arrive => exact h

/-! Moved pages. -/

/-- Storage stays in canonical form when a page moves. -/
theorem mwf_moveMap {α : Type} (r : Redirect) (m : SMap α) (h : mwf m = true) : mwf (moveMap r m) = true :=
  mwf_foldl (fun e : Nat × α => movedPa r e.1) (fun _ e => e.2) _ _ (mwf_filter _ _ h)

/-- And so do views. -/
theorem mwf_moveView {α : Type} (r : Redirect) (m : SMap α) (h : mwf m = true) : mwf (moveView r m) = true :=
  mwf_foldl (fun e : Nat × α => e.1 / 2 ^ 52 * 2 ^ 52 + movedPa r (e.1 % 2 ^ 52)) (fun _ e => e.2) _ _ (mwf_filter _ _ h)

end Sys2Proof.Machine
end

