-- ==== Sys2Proof/Laws/PerInstr.lean ====
section
/-! SUPPORT. For every instruction: encoding and decoding agree. -/

namespace Sys2Proof.Laws.RoundTrip

/-- A word of the instruction, when it is well formed, decodes to it. -/
def Statement (i : Instr) : Prop := Agrees i

theorem nop (s : Bool) : Statement (.nop s) := agrees_bare rfl rfl (by decide) rfl
theorem br (d : Dep) (disp : BitVec 19) (idx : BitVec 5) : Statement (.br d disp idx) := by
  exact agrees_encOf rfl rfl (by decide) (by simp [Format.widths]) (show some (Instr.br d (BitVec.ofNat 19 disp.toNat) (BitVec.ofNat 5 idx.toNat)) = _ by simp)
theorem call (d : Dep) (disp : BitVec 19) (idx : BitVec 5) : Statement (.call d disp idx) := by
  exact agrees_encOf rfl rfl (by decide) (by simp [Format.widths]) (show some (Instr.call d (BitVec.ofNat 19 disp.toNat) (BitVec.ofNat 5 idx.toNat)) = _ by simp)
theorem callr (d : Dep) (r : XReg) : Statement (.callr d r) := by
  exact agrees_encOf rfl rfl (by decide) (by simp [Format.widths]) (bs (xregOf_toNat _) (rfl))
theorem jr (d : Dep) (r : XReg) : Statement (.jr d r) := by
  exact agrees_encOf rfl rfl (by decide) (by simp [Format.widths]) (bs (xregOf_toNat _) (rfl))
theorem ret (s : Bool) : Statement (.ret s) := agrees_bare rfl rfl (by decide) rfl
theorem trap (d : Dep) (r : XReg) : Statement (.trap d r) := by
  exact agrees_encOf rfl rfl (by decide) (by simp [Format.widths]) (bs (xregOf_toNat _) (rfl))
theorem eret (s : Bool) : Statement (.eret s) := agrees_bare rfl rfl (by decide) rfl
theorem reth (s : Bool) : Statement (.reth s) := agrees_bare rfl rfl (by decide) rfl
theorem yield (s : Bool) : Statement (.yield s) := agrees_bare rfl rfl (by decide) rfl
theorem pfi (d : Dep) (disp : BitVec 19) : Statement (.pfi d disp) := by
  exact agrees_encOf rfl rfl (by decide) (by simp [Format.widths]) (show some (Instr.pfi d (BitVec.ofNat 19 disp.toNat)) = _ by simp)
theorem halt (s : Bool) : Statement (.halt s) := agrees_bare rfl rfl (by decide) rfl
theorem exit (s : Bool) : Statement (.exit s) := agrees_bare rfl rfl (by decide) rfl
theorem csrr (d : Dep) (csr : BitVec 12) (rd : Opr) : Statement (.csrr d csr rd) := by
  exact agrees_encOf rfl rfl (by decide) (by simp [Format.widths]) (bs (oprOf_code _) (by simp))
theorem csrw (d : Dep) (csr : BitVec 12) (r : XReg) : Statement (.csrw d csr r) := by
  exact agrees_encOf rfl rfl (by decide) (by simp [Format.widths]) (bs (xregOf_toNat _) (by simp))
theorem repart (d : Dep) (rd : XReg) (p : Bool) : Statement (.repart d rd p) := by
  exact agrees_encOf rfl rfl (by decide) (by simp [Format.widths]) (bs (xregOf_toNat _) (bs (flagOf_bit _) (rfl)))
theorem spill (d : Dep) (rd : XReg) (ra : XReg) : Statement (.spill d rd ra) := by
  exact agrees_encOf rfl rfl (by decide) (by simp [Format.widths]) (bs (xregOf_toNat _) (bs (xregOf_toNat _) (rfl)))
theorem rstr (d : Dep) (rd : XReg) (ra : XReg) : Statement (.rstr d rd ra) := by
  exact agrees_encOf rfl rfl (by decide) (by simp [Format.widths]) (bs (xregOf_toNat _) (bs (xregOf_toNat _) (rfl)))
theorem xrd (d : Dep) (rd : XReg) (ra : XReg) : Statement (.xrd d rd ra) := by
  exact agrees_encOf rfl rfl (by decide) (by simp [Format.widths]) (bs (xregOf_toNat _) (bs (xregOf_toNat _) (rfl)))
theorem xwr (d : Dep) (ra : XReg) (rb : XReg) : Statement (.xwr d ra rb) := by
  exact agrees_encOf rfl rfl (by decide) (by simp [Format.widths]) (bs (xregOf_toNat _) (bs (xregOf_toNat _) (rfl)))
theorem xres (d : Dep) (r : XReg) : Statement (.xres d r) := by
  exact agrees_encOf rfl rfl (by decide) (by simp [Format.widths]) (bs (xregOf_toNat _) (rfl))
theorem tlbi (d : Dep) (ra : XReg) (rb : XReg) (kind : TlbiKind) : Statement (.tlbi d ra rb kind) := by
  exact agrees_encOf rfl rfl (by decide) (by simp [Format.widths]) (bs (xregOf_toNat _) (bs (xregOf_toNat _) (bs (tlbiOf_code _) (rfl))))
theorem keyret (d : Dep) (rd : XReg) (ra : XReg) : Statement (.keyret d rd ra) := by
  exact agrees_encOf rfl rfl (by decide) (by simp [Format.widths]) (bs (xregOf_toNat _) (bs (xregOf_toNat _) (rfl)))
theorem keyretComplete (idx : Nat) : Statement (.keyretComplete idx) := agrees_event rfl
theorem add (d : Dep) (wd : Wid) (rd : Opr) (ra : Opr) (rb : Opr) : Statement (.add d wd rd ra rb) := by
  cases wd <;> exact agrees_encOf rfl rfl (by decide) (by simp [Format.widths]) (bs (oprOf_code _) (bs (oprOf_code _) (bs (oprOf_code _) (rfl))))
theorem sub (d : Dep) (wd : Wid) (rd : Opr) (ra : Opr) (rb : Opr) : Statement (.sub d wd rd ra rb) := by
  cases wd <;> exact agrees_encOf rfl rfl (by decide) (by simp [Format.widths]) (bs (oprOf_code _) (bs (oprOf_code _) (bs (oprOf_code _) (rfl))))
theorem mul (d : Dep) (wd : Wid) (rd : Opr) (ra : Opr) (rb : Opr) : Statement (.mul d wd rd ra rb) := by
  cases wd <;> exact agrees_encOf rfl rfl (by decide) (by simp [Format.widths]) (bs (oprOf_code _) (bs (oprOf_code _) (bs (oprOf_code _) (rfl))))
theorem mulh (d : Dep) (wd : Wid) (rd : Opr) (ra : Opr) (rb : Opr) : Statement (.mulh d wd rd ra rb) := by
  cases wd <;> exact agrees_encOf rfl rfl (by decide) (by simp [Format.widths]) (bs (oprOf_code _) (bs (oprOf_code _) (bs (oprOf_code _) (rfl))))
theorem mulhn (d : Dep) (wd : Wid) (rd : Opr) (ra : Opr) (rb : Opr) : Statement (.mulhn d wd rd ra rb) := by
  cases wd <;> exact agrees_encOf rfl rfl (by decide) (by simp [Format.widths]) (bs (oprOf_code _) (bs (oprOf_code _) (bs (oprOf_code _) (rfl))))
theorem div (d : Dep) (wd : Wid) (rd : XReg) (ra : XReg) (rb : XReg) : Statement (.div d wd rd ra rb) := by
  cases wd <;> exact agrees_encOf rfl rfl (by decide) (by simp [Format.widths]) (bs (xregOf_toNat _) (bs (xregOf_toNat _) (bs (xregOf_toNat _) (rfl))))
theorem divn (d : Dep) (wd : Wid) (rd : XReg) (ra : XReg) (rb : XReg) : Statement (.divn d wd rd ra rb) := by
  cases wd <;> exact agrees_encOf rfl rfl (by decide) (by simp [Format.widths]) (bs (xregOf_toNat _) (bs (xregOf_toNat _) (bs (xregOf_toNat _) (rfl))))
theorem rem (d : Dep) (wd : Wid) (rd : XReg) (ra : XReg) (rb : XReg) : Statement (.rem d wd rd ra rb) := by
  cases wd <;> exact agrees_encOf rfl rfl (by decide) (by simp [Format.widths]) (bs (xregOf_toNat _) (bs (xregOf_toNat _) (bs (xregOf_toNat _) (rfl))))
theorem remn (d : Dep) (wd : Wid) (rd : XReg) (ra : XReg) (rb : XReg) : Statement (.remn d wd rd ra rb) := by
  cases wd <;> exact agrees_encOf rfl rfl (by decide) (by simp [Format.widths]) (bs (xregOf_toNat _) (bs (xregOf_toNat _) (bs (xregOf_toNat _) (rfl))))
theorem and (d : Dep) (wd : Wid) (rd : Opr) (ra : Opr) (rb : Opr) : Statement (.and d wd rd ra rb) := by
  cases wd <;> exact agrees_encOf rfl rfl (by decide) (by simp [Format.widths]) (bs (oprOf_code _) (bs (oprOf_code _) (bs (oprOf_code _) (rfl))))
theorem andn (d : Dep) (wd : Wid) (rd : Opr) (ra : Opr) (rb : Opr) : Statement (.andn d wd rd ra rb) := by
  cases wd <;> exact agrees_encOf rfl rfl (by decide) (by simp [Format.widths]) (bs (oprOf_code _) (bs (oprOf_code _) (bs (oprOf_code _) (rfl))))
theorem or (d : Dep) (wd : Wid) (rd : Opr) (ra : Opr) (rb : Opr) : Statement (.or d wd rd ra rb) := by
  cases wd <;> exact agrees_encOf rfl rfl (by decide) (by simp [Format.widths]) (bs (oprOf_code _) (bs (oprOf_code _) (bs (oprOf_code _) (rfl))))
theorem xor (d : Dep) (wd : Wid) (rd : Opr) (ra : Opr) (rb : Opr) : Statement (.xor d wd rd ra rb) := by
  cases wd <;> exact agrees_encOf rfl rfl (by decide) (by simp [Format.widths]) (bs (oprOf_code _) (bs (oprOf_code _) (bs (oprOf_code _) (rfl))))
theorem shl (d : Dep) (wd : Wid) (rd : Opr) (ra : Opr) (rb : Opr) : Statement (.shl d wd rd ra rb) := by
  cases wd <;> exact agrees_encOf rfl rfl (by decide) (by simp [Format.widths]) (bs (oprOf_code _) (bs (oprOf_code _) (bs (oprOf_code _) (rfl))))
theorem shr (d : Dep) (wd : Wid) (rd : Opr) (ra : Opr) (rb : Opr) : Statement (.shr d wd rd ra rb) := by
  cases wd <;> exact agrees_encOf rfl rfl (by decide) (by simp [Format.widths]) (bs (oprOf_code _) (bs (oprOf_code _) (bs (oprOf_code _) (rfl))))
theorem sra (d : Dep) (wd : Wid) (rd : Opr) (ra : Opr) (rb : Opr) : Statement (.sra d wd rd ra rb) := by
  cases wd <;> exact agrees_encOf rfl rfl (by decide) (by simp [Format.widths]) (bs (oprOf_code _) (bs (oprOf_code _) (bs (oprOf_code _) (rfl))))
theorem rot (d : Dep) (wd : Wid) (rd : Opr) (ra : Opr) (rb : Opr) : Statement (.rot d wd rd ra rb) := by
  cases wd <;> exact agrees_encOf rfl rfl (by decide) (by simp [Format.widths]) (bs (oprOf_code _) (bs (oprOf_code _) (bs (oprOf_code _) (rfl))))
theorem min (d : Dep) (wd : Wid) (rd : Opr) (ra : Opr) (rb : Opr) : Statement (.min d wd rd ra rb) := by
  cases wd <;> exact agrees_encOf rfl rfl (by decide) (by simp [Format.widths]) (bs (oprOf_code _) (bs (oprOf_code _) (bs (oprOf_code _) (rfl))))
theorem minn (d : Dep) (wd : Wid) (rd : Opr) (ra : Opr) (rb : Opr) : Statement (.minn d wd rd ra rb) := by
  cases wd <;> exact agrees_encOf rfl rfl (by decide) (by simp [Format.widths]) (bs (oprOf_code _) (bs (oprOf_code _) (bs (oprOf_code _) (rfl))))
theorem max (d : Dep) (wd : Wid) (rd : Opr) (ra : Opr) (rb : Opr) : Statement (.max d wd rd ra rb) := by
  cases wd <;> exact agrees_encOf rfl rfl (by decide) (by simp [Format.widths]) (bs (oprOf_code _) (bs (oprOf_code _) (bs (oprOf_code _) (rfl))))
theorem maxn (d : Dep) (wd : Wid) (rd : Opr) (ra : Opr) (rb : Opr) : Statement (.maxn d wd rd ra rb) := by
  cases wd <;> exact agrees_encOf rfl rfl (by decide) (by simp [Format.widths]) (bs (oprOf_code _) (bs (oprOf_code _) (bs (oprOf_code _) (rfl))))
theorem clz (d : Dep) (wd : Wid) (rd : Opr) (ra : Opr) : Statement (.clz d wd rd ra) := by
  cases wd <;> exact agrees_encOf rfl rfl (by decide) (by simp [Format.widths]) (bs (oprOf_code _) (bs (oprOf_code _) (rfl)))
theorem ctz (d : Dep) (wd : Wid) (rd : Opr) (ra : Opr) : Statement (.ctz d wd rd ra) := by
  cases wd <;> exact agrees_encOf rfl rfl (by decide) (by simp [Format.widths]) (bs (oprOf_code _) (bs (oprOf_code _) (rfl)))
theorem popc (d : Dep) (wd : Wid) (rd : Opr) (ra : Opr) : Statement (.popc d wd rd ra) := by
  cases wd <;> exact agrees_encOf rfl rfl (by decide) (by simp [Format.widths]) (bs (oprOf_code _) (bs (oprOf_code _) (rfl)))
theorem bfx (d : Dep) (wd : Wid) (rd : Opr) (ra : Opr) (pos : BitVec 6) (len : BitVec 6) : Statement (.bfx d wd rd ra pos len) := by
  cases wd <;> exact agrees_encOf rfl rfl (by decide) (by simp [Format.widths]) (bs (oprOf_code _) (bs (oprOf_code _) (by rw [if_pos (bits_field _ _), low_part _ (bits6_64 _), high_part _ (bits6_64 _)]; simp)))
theorem bfxR (d : Dep) (wd : Wid) (rd : Opr) (ra : Opr) (rb : Opr) (rc : Opr) : Statement (.bfxR d wd rd ra rb rc) := by
  cases wd <;> exact agrees_encOf rfl rfl (by decide) (by simp [Format.widths]) (bs (oprOf_code _) (bs (oprOf_code _) (bs (oprOf_code _) (bs (oprOf_code _) (rfl)))))
theorem bfi (d : Dep) (wd : Wid) (rd : XReg) (ra : Opr) (pos : BitVec 6) (len : BitVec 6) : Statement (.bfi d wd rd ra pos len) := by
  cases wd <;> exact agrees_encOf rfl rfl (by decide) (by simp [Format.widths]) (bs (xregOf_toNat _) (bs (oprOf_code _) (by rw [if_pos (bits_field _ _), low_part _ (bits6_64 _), high_part _ (bits6_64 _)]; simp)))
theorem bfiR (d : Dep) (wd : Wid) (rd : XReg) (ra : Opr) (rb : Opr) (rc : Opr) : Statement (.bfiR d wd rd ra rb rc) := by
  cases wd <;> exact agrees_encOf rfl rfl (by decide) (by simp [Format.widths]) (bs (xregOf_toNat _) (bs (oprOf_code _) (bs (oprOf_code _) (bs (oprOf_code _) (rfl)))))
theorem sel (d : Dep) (rd : Opr) (ra : Opr) (rb : Opr) (rc : Opr) : Statement (.sel d rd ra rb rc) := by
  exact agrees_encOf rfl rfl (by decide) (by simp [Format.widths]) (bs (oprOf_code _) (bs (oprOf_code _) (bs (oprOf_code _) (bs (oprOf_code _) (rfl)))))
theorem addiFrri (d : Dep) (wd : Wid) (rd : Opr) (ra : Opr) (imm : BitVec 10) : Statement (.addiFrri d wd rd ra imm) := by
  cases wd <;> exact agrees_encOf rfl rfl (by decide) (by simp [Format.widths]) (bs (oprOf_code _) (bs (oprOf_code _) (by simp)))
theorem addiFi32 (d : Dep) (wd : Wid) (rd : Opr) (ra : Opr) (imm : BitVec 32) : Statement (.addiFi32 d wd rd ra imm) := by
  cases wd <;> exact agrees_encOf rfl rfl (by decide) (by simp [Format.widths]) (bs (oprOf_code _) (bs (oprOf_code _) (by simp)))
theorem andiFrri (d : Dep) (wd : Wid) (rd : Opr) (ra : Opr) (imm : BitVec 10) : Statement (.andiFrri d wd rd ra imm) := by
  cases wd <;> exact agrees_encOf rfl rfl (by decide) (by simp [Format.widths]) (bs (oprOf_code _) (bs (oprOf_code _) (by simp)))
theorem andiFi32 (d : Dep) (wd : Wid) (rd : Opr) (ra : Opr) (imm : BitVec 32) : Statement (.andiFi32 d wd rd ra imm) := by
  cases wd <;> exact agrees_encOf rfl rfl (by decide) (by simp [Format.widths]) (bs (oprOf_code _) (bs (oprOf_code _) (by simp)))
theorem oriFrri (d : Dep) (wd : Wid) (rd : Opr) (ra : Opr) (imm : BitVec 10) : Statement (.oriFrri d wd rd ra imm) := by
  cases wd <;> exact agrees_encOf rfl rfl (by decide) (by simp [Format.widths]) (bs (oprOf_code _) (bs (oprOf_code _) (by simp)))
theorem oriFi32 (d : Dep) (wd : Wid) (rd : Opr) (ra : Opr) (imm : BitVec 32) : Statement (.oriFi32 d wd rd ra imm) := by
  cases wd <;> exact agrees_encOf rfl rfl (by decide) (by simp [Format.widths]) (bs (oprOf_code _) (bs (oprOf_code _) (by simp)))
theorem xoriFrri (d : Dep) (wd : Wid) (rd : Opr) (ra : Opr) (imm : BitVec 10) : Statement (.xoriFrri d wd rd ra imm) := by
  cases wd <;> exact agrees_encOf rfl rfl (by decide) (by simp [Format.widths]) (bs (oprOf_code _) (bs (oprOf_code _) (by simp)))
theorem xoriFi32 (d : Dep) (wd : Wid) (rd : Opr) (ra : Opr) (imm : BitVec 32) : Statement (.xoriFi32 d wd rd ra imm) := by
  cases wd <;> exact agrees_encOf rfl rfl (by decide) (by simp [Format.widths]) (bs (oprOf_code _) (bs (oprOf_code _) (by simp)))
theorem shli (d : Dep) (wd : Wid) (rd : Opr) (ra : Opr) (n : BitVec 6) : Statement (.shli d wd rd ra n) := by
  cases wd <;> exact agrees_encOf rfl rfl (by decide) (by simp [Format.widths]) (bs (oprOf_code _) (bs (oprOf_code _) (by simp)))
theorem shri (d : Dep) (wd : Wid) (rd : Opr) (ra : Opr) (n : BitVec 6) : Statement (.shri d wd rd ra n) := by
  cases wd <;> exact agrees_encOf rfl rfl (by decide) (by simp [Format.widths]) (bs (oprOf_code _) (bs (oprOf_code _) (by simp)))
theorem srai (d : Dep) (wd : Wid) (rd : Opr) (ra : Opr) (n : BitVec 6) : Statement (.srai d wd rd ra n) := by
  cases wd <;> exact agrees_encOf rfl rfl (by decide) (by simp [Format.widths]) (bs (oprOf_code _) (bs (oprOf_code _) (by simp)))
theorem li (d : Dep) (rd : Opr) (imm : BitVec 48) : Statement (.li d rd imm) := by
  exact agrees_encOf rfl rfl (by decide) (by simp [Format.widths]) (bs (oprOf_code _) (by simp))
theorem liH (d : Dep) (rd : XReg) (imm : BitVec 16) : Statement (.liH d rd imm) := by
  exact agrees_encOf rfl rfl (by decide) (by simp [Format.widths]) (bs (xregOf_toNat _) (by simp))
theorem lea (d : Dep) (rd : Opr) (ra : Opr) (sh : BitVec 3) (imm : BitVec 32) : Statement (.lea d rd ra sh imm) := by
  exact agrees_encOf rfl rfl (by decide) (by simp [Format.widths]) (bs (oprOf_code _) (bs (oprOf_code _) (by simp)))
theorem leaPc (d : Dep) (rd : Opr) (imm : BitVec 32) : Statement (.leaPc d rd imm) := by
  exact agrees_encOf rfl rfl (by decide) (by simp [Format.widths]) (bs (oprOf_code _) (by simp))
theorem mov (d : Dep) (rd : Opr) (ra : Opr) : Statement (.mov d rd ra) := by
  exact agrees_encOf rfl rfl (by decide) (by simp [Format.widths]) (bs (oprOf_code _) (bs (oprOf_code _) (rfl)))
theorem cmp (d : Dep) (wd : Wid) (c : Cond) (skip : BitVec 2) (rdx : BitVec 4) (ra : Opr) (rb : Opr) : Statement (.cmp d wd c skip rdx ra rb) := by
  cases wd <;> exact agrees_encOf rfl rfl (by decide) (by simp [Format.widths]) (bs (oprOf_code _) (bs (oprOf_code _) (bs (condOf_code _) (by simp))))
theorem cmpi (d : Dep) (wd : Wid) (c : Cond) (skip : BitVec 2) (rd : BitVec 4) (ra : Opr) (imm : BitVec 32) : Statement (.cmpi d wd c skip rd ra imm) := by
  cases wd <;> exact agrees_encOf rfl rfl (by decide) (by simp [Format.widths]) (bs (oprOf_code _) (bs (at_low condOf (code_cond _) (condOf_code _)) (by rw [if_pos ⟨bits4_16 _, bits_cond _ _⟩, high_part _ (code_cond _)]; simp)))
theorem fcmp (d : Dep) (f : FWid) (c : FCond) (skip : BitVec 2) (rdx : BitVec 4) (ra : Opr) (rb : Opr) : Statement (.fcmp d f c skip rdx ra rb) := by
  cases f <;> exact agrees_encOf rfl rfl (by decide) (by simp [Format.widths]) (bs (oprOf_code _) (bs (oprOf_code _) (bs (fcondOf_code _) (by simp))))
theorem annulPass (l : Loc) : Statement (.annulPass l) := agrees_event rfl
theorem fadd (d : Dep) (f : FWid) (rm : RM) (rd : Opr) (ra : Opr) (rb : Opr) : Statement (.fadd d f rm rd ra rb) := by
  cases f <;> exact agrees_encOf rfl rfl (by decide) (by simp [Format.widths]) (bs (oprOf_code _) (bs (oprOf_code _) (bs (oprOf_code _) (bs (rmOf_code _) (rfl)))))
theorem fsub (d : Dep) (f : FWid) (rm : RM) (rd : Opr) (ra : Opr) (rb : Opr) : Statement (.fsub d f rm rd ra rb) := by
  cases f <;> exact agrees_encOf rfl rfl (by decide) (by simp [Format.widths]) (bs (oprOf_code _) (bs (oprOf_code _) (bs (oprOf_code _) (bs (rmOf_code _) (rfl)))))
theorem fmul (d : Dep) (f : FWid) (rm : RM) (rd : Opr) (ra : Opr) (rb : Opr) : Statement (.fmul d f rm rd ra rb) := by
  cases f <;> exact agrees_encOf rfl rfl (by decide) (by simp [Format.widths]) (bs (oprOf_code _) (bs (oprOf_code _) (bs (oprOf_code _) (bs (rmOf_code _) (rfl)))))
theorem ffma (d : Dep) (f : FWid) (rm : RM) (rd : Opr) (ra : Opr) (rb : Opr) (rc : Opr) : Statement (.ffma d f rm rd ra rb rc) := by
  cases f <;> exact agrees_encOf rfl rfl (by decide) (by simp [Format.widths]) (bs (oprOf_code _) (bs (oprOf_code _) (bs (oprOf_code _) (bs (oprOf_code _) (bs (rmOf_code _) (rfl))))))
theorem ffmai (d : Dep) (f : FWid) (rm : RM) (rd : XReg) (ra : Opr) (imm : BitVec 32) : Statement (.ffmai d f rm rd ra imm) := by
  cases f <;> exact agrees_encOf rfl rfl (by decide) (by simp [Format.widths]) (bs (xregOf_toNat _) (bs (oprOf_code _) (bs (rmOf_code _) (by simp))))
theorem fdiv (d : Dep) (f : FWid) (rm : RM) (rd : XReg) (ra : XReg) (rb : XReg) : Statement (.fdiv d f rm rd ra rb) := by
  cases f <;> exact agrees_encOf rfl rfl (by decide) (by simp [Format.widths]) (bs (xregOf_toNat _) (bs (xregOf_toNat _) (bs (xregOf_toNat _) (bs (rmOf_code _) (rfl)))))
theorem fsqrt (d : Dep) (f : FWid) (rm : RM) (rd : XReg) (ra : XReg) : Statement (.fsqrt d f rm rd ra) := by
  cases f <;> exact agrees_encOf rfl rfl (by decide) (by simp [Format.widths]) (bs (xregOf_toNat _) (bs (xregOf_toNat _) (bs (rmOf_code _) (rfl))))
theorem fmin (d : Dep) (f : FWid) (rd : Opr) (ra : Opr) (rb : Opr) : Statement (.fmin d f rd ra rb) := by
  cases f <;> exact agrees_encOf rfl rfl (by decide) (by simp [Format.widths]) (bs (oprOf_code _) (bs (oprOf_code _) (bs (oprOf_code _) (rfl))))
theorem fmax (d : Dep) (f : FWid) (rd : Opr) (ra : Opr) (rb : Opr) : Statement (.fmax d f rd ra rb) := by
  cases f <;> exact agrees_encOf rfl rfl (by decide) (by simp [Format.widths]) (bs (oprOf_code _) (bs (oprOf_code _) (bs (oprOf_code _) (rfl))))
theorem fsgn (d : Dep) (f : FWid) (k : SgnOp) (rd : Opr) (ra : Opr) (rb : Opr) : Statement (.fsgn d f k rd ra rb) := by
  cases f <;> exact agrees_encOf rfl rfl (by decide) (by simp [Format.widths]) (bs (oprOf_code _) (bs (oprOf_code _) (bs (oprOf_code _) (bs (sgnOf_code _) (rfl)))))
theorem exp2 (d : Dep) (rd : XReg) (ra : XReg) : Statement (.exp2 d rd ra) := by
  exact agrees_encOf rfl rfl (by decide) (by simp [Format.widths]) (bs (xregOf_toNat _) (bs (xregOf_toNat _) (rfl)))
theorem log2 (d : Dep) (rd : XReg) (ra : XReg) : Statement (.log2 d rd ra) := by
  exact agrees_encOf rfl rfl (by decide) (by simp [Format.widths]) (bs (xregOf_toNat _) (bs (xregOf_toNat _) (rfl)))
theorem rcp (d : Dep) (rd : XReg) (ra : XReg) : Statement (.rcp d rd ra) := by
  exact agrees_encOf rfl rfl (by decide) (by simp [Format.widths]) (bs (xregOf_toNat _) (bs (xregOf_toNat _) (rfl)))
theorem rsq (d : Dep) (rd : XReg) (ra : XReg) : Statement (.rsq d rd ra) := by
  exact agrees_encOf rfl rfl (by decide) (by simp [Format.widths]) (bs (xregOf_toNat _) (bs (xregOf_toNat _) (rfl)))
theorem tanh (d : Dep) (rd : XReg) (ra : XReg) : Statement (.tanh d rd ra) := by
  exact agrees_encOf rfl rfl (by decide) (by simp [Format.widths]) (bs (xregOf_toNat _) (bs (xregOf_toNat _) (rfl)))
theorem cvt (d : Dep) (rm : RM) (sat : Bool) (sf : Fmt) (tf : Fmt) (rd : Opr) (ra : Opr) : Statement (.cvt d rm sat sf tf rd ra) := by
  exact agrees_encOf rfl rfl (by decide) (by simp [Format.widths]) (bs (oprOf_code _) (bs (oprOf_code _) (bs (at_low rmOf (code_rm _) (rmOf_code _)) (bs (at_high flagOf (code_rm _) (flagOf_bit _)) (bs (at_low fmtCode (code_fmt_byte _) (fmtCode_code _)) (bs (at_high fmtCode (code_fmt_byte _) (fmtCode_code _)) (rfl)))))))
theorem cvtV (d : Dep) (rm : RM) (sat : Bool) (sf : Fmt) (tf : Fmt) (rd : VReg) (ra : VReg) : Statement (.cvtV d rm sat sf tf rd ra) := by
  exact agrees_encOf rfl rfl (by decide) (by simp [Format.widths]) (bs (xregOf_toNat _) (bs (xregOf_toNat _) (bs (at_low rmOf (code_rm _) (rmOf_code _)) (bs (at_high flagOf (code_rm _) (flagOf_bit _)) (bs (at_low fmtCode (code_fmt_byte _) (fmtCode_code _)) (bs (at_high fmtCode (code_fmt_byte _) (fmtCode_code _)) (rfl)))))))
theorem vqnt (d : Dep) (f : Fmt) (rd : VReg) (ra : VReg) (rb : Opr) : Statement (.vqnt d f rd ra rb) := by
  exact agrees_encOf rfl rfl (by decide) (by simp [Format.widths]) (bs (xregOf_toNat _) (bs (xregOf_toNat _) (bs (oprOf_code _) (bs (fmtCode_code _) (rfl)))))
theorem vdq (d : Dep) (f : Fmt) (rd : VReg) (ra : VReg) (rb : Opr) : Statement (.vdq d f rd ra rb) := by
  exact agrees_encOf rfl rfl (by decide) (by simp [Format.widths]) (bs (xregOf_toNat _) (bs (xregOf_toNat _) (bs (oprOf_code _) (bs (fmtCode_code _) (rfl)))))
theorem vadd (d : Dep) (f : Fmt) (vd : VReg) (va : VReg) (vb : VReg) : Statement (.vadd d f vd va vb) := by
  exact agrees_encOf rfl rfl (by decide) (by simp [Format.widths]) (bs (fmtCode_code _) (by simp))
theorem vsub (d : Dep) (f : Fmt) (vd : VReg) (va : VReg) (vb : VReg) : Statement (.vsub d f vd va vb) := by
  exact agrees_encOf rfl rfl (by decide) (by simp [Format.widths]) (bs (fmtCode_code _) (by simp))
theorem vmul (d : Dep) (f : Fmt) (vd : VReg) (va : VReg) (vb : VReg) : Statement (.vmul d f vd va vb) := by
  exact agrees_encOf rfl rfl (by decide) (by simp [Format.widths]) (bs (fmtCode_code _) (by simp))
theorem vfma (d : Dep) (f : Fmt) (vd : VReg) (va : VReg) (vb : VReg) : Statement (.vfma d f vd va vb) := by
  exact agrees_encOf rfl rfl (by decide) (by simp [Format.widths]) (bs (fmtCode_code _) (by simp))
theorem vmin (d : Dep) (f : Fmt) (vd : VReg) (va : VReg) (vb : VReg) : Statement (.vmin d f vd va vb) := by
  exact agrees_encOf rfl rfl (by decide) (by simp [Format.widths]) (bs (fmtCode_code _) (by simp))
theorem vmax (d : Dep) (f : Fmt) (vd : VReg) (va : VReg) (vb : VReg) : Statement (.vmax d f vd va vb) := by
  exact agrees_encOf rfl rfl (by decide) (by simp [Format.widths]) (bs (fmtCode_code _) (by simp))
theorem vdot (d : Dep) (f : Fmt) (vd : VReg) (va : VReg) (vb : VReg) : Statement (.vdot d f vd va vb) := by
  exact agrees_encOf rfl rfl (by decide) (by simp [Format.widths]) (bs (fmtCode_code _) (by simp))
theorem vredAdd (d : Dep) (f : Fmt) (vd : VReg) (va : VReg) : Statement (.vredAdd d f vd va) := by
  exact agrees_encOf rfl rfl (by decide) (by simp [Format.widths]) (bs (fmtCode_code _) (by simp))
theorem vredMin (d : Dep) (f : Fmt) (vd : VReg) (va : VReg) : Statement (.vredMin d f vd va) := by
  exact agrees_encOf rfl rfl (by decide) (by simp [Format.widths]) (bs (fmtCode_code _) (by simp))
theorem vredMax (d : Dep) (f : Fmt) (vd : VReg) (va : VReg) : Statement (.vredMax d f vd va) := by
  exact agrees_encOf rfl rfl (by decide) (by simp [Format.widths]) (bs (fmtCode_code _) (by simp))
theorem vshuf (d : Dep) (f : Fmt) (vd : VReg) (va : VReg) (vb : VReg) : Statement (.vshuf d f vd va vb) := by
  exact agrees_encOf rfl rfl (by decide) (by simp [Format.widths]) (bs (fmtCode_code _) (by simp))
theorem vbcast (d : Dep) (size : Size) (vd : VReg) (ra : Opr) : Statement (.vbcast d size vd ra) := by
  exact agrees_encOf rfl rfl (by decide) (by simp [Format.widths]) (bs (xregOf_toNat _) (bs (oprOf_code _) (bs (sizeOf_code _) (rfl))))
theorem vsel (d : Dep) (f : Fmt) (vd : VReg) (va : VReg) (vb : VReg) : Statement (.vsel d f vd va vb) := by
  exact agrees_encOf rfl rfl (by decide) (by simp [Format.widths]) (bs (fmtCode_code _) (by simp))
theorem vins (d : Dep) (size : Size) (lane : BitVec 4) (vd : VReg) (ra : Opr) : Statement (.vins d size lane vd ra) := by
  exact agrees_encOf rfl rfl (by decide) (by simp [Format.widths]) (bs (xregOf_toNat _) (bs (oprOf_code _) (bs (at_low sizeOf (code_size _) (sizeOf_code _)) (by rw [if_pos (lane_lt _ _), high_part _ (code_size _)]; simp))))
theorem vext (d : Dep) (size : Size) (lane : BitVec 4) (rd : Opr) (va : VReg) : Statement (.vext d size lane rd va) := by
  exact agrees_encOf rfl rfl (by decide) (by simp [Format.widths]) (bs (oprOf_code _) (bs (xregOf_toNat _) (bs (at_low sizeOf (code_size _) (sizeOf_code _)) (by rw [if_pos (lane_lt _ _), high_part _ (code_size _)]; simp))))
theorem vcmp (d : Dep) (c : FCond) (f : Fmt) (vd : VReg) (va : VReg) (vb : VReg) : Statement (.vcmp d c f vd va vb) := by
  cases c <;> exact agrees_encOf rfl rfl (by decide) (by simp [Format.widths]) (bs (fmtCode_code _) (by simp))
theorem vld (d : Dep) (vd : VReg) (a : MemArg) : Statement (.vld d vd a) := by
  exact agrees_encOf rfl rfl (by decide) (by simp [Format.widths, MemArg.fields]) (bs (xregOf_toNat _) (bs (memArgOf_code _) (rfl)))
theorem vst (d : Dep) (vd : VReg) (a : MemArg) : Statement (.vst d vd a) := by
  exact agrees_encOf rfl rfl (by decide) (by simp [Format.widths, MemArg.fields]) (bs (xregOf_toNat _) (bs (memArgOf_code _) (rfl)))
theorem ld (d : Dep) (m : Bool) (size : Size) (rd : XReg) (a : MemArg) : Statement (.ld d m size rd a) := by
  exact agrees_encOf rfl rfl (by decide) (by simp [Format.widths, MemArg.fields]) (bs (xregOf_toNat _) (bs (sizeOf_code _) (bs (flagOf_bit _) (bs (memArgOf_code _) (rfl)))))
theorem ldS (d : Dep) (m : Bool) (size : Size) (rd : XReg) (a : MemArg) : Statement (.ldS d m size rd a) := by
  exact agrees_encOf rfl rfl (by decide) (by simp [Format.widths, MemArg.fields]) (bs (xregOf_toNat _) (bs (sizeOf_code _) (bs (flagOf_bit _) (bs (memArgOf_code _) (rfl)))))
theorem st (d : Dep) (m : Bool) (size : Size) (rd : Opr) (a : MemArg) : Statement (.st d m size rd a) := by
  exact agrees_encOf rfl rfl (by decide) (by simp [Format.widths, MemArg.fields]) (bs (oprOf_code _) (bs (sizeOf_code _) (bs (flagOf_bit _) (bs (memArgOf_code _) (rfl)))))
theorem ldc (d : Dep) (size : Size) (rd : XReg) (a : MemArg) : Statement (.ldc d size rd a) := by
  exact agrees_encOf rfl rfl (by decide) (by simp [Format.widths, MemArg.fields]) (bs (xregOf_toNat _) (bs (sizeOf_code _) (bs (memArgOf_code _) (rfl))))
theorem lds (d : Dep) (rd : XReg) (a : MemArg) : Statement (.lds d rd a) := by
  exact agrees_encOf rfl rfl (by decide) (by simp [Format.widths, MemArg.fields]) (bs (xregOf_toNat _) (bs (memArgOf_code _) (rfl)))
theorem unsub (d : Dep) (r : XReg) : Statement (.unsub d r) := by
  exact agrees_encOf rfl rfl (by decide) (by simp [Format.widths]) (bs (xregOf_toNat _) (rfl))
theorem take (d : Dep) (rd : XReg) (ra : XReg) : Statement (.take d rd ra) := by
  exact agrees_encOf rfl rfl (by decide) (by simp [Format.widths]) (bs (xregOf_toNat _) (bs (xregOf_toNat _) (rfl)))
theorem takeS (d : Dep) (rd : XReg) (ra : XReg) (rb : XReg) : Statement (.takeS d rd ra rb) := by
  exact agrees_encOf rfl rfl (by decide) (by simp [Format.widths]) (bs (xregOf_toNat _) (bs (xregOf_toNat _) (bs (xregOf_toNat _) (rfl))))
theorem pfd (d : Dep) (a : MemArg) : Statement (.pfd d a) := by
  exact agrees_encOf rfl rfl (by decide) (by simp [Format.widths, MemArg.fields]) (bs (memArgOf_code _) (rfl))
theorem smap (d : Dep) (rd : XReg) (ra : XReg) (rb : XReg) (rc : XReg) : Statement (.smap d rd ra rb rc) := by
  exact agrees_encOf rfl rfl (by decide) (by simp [Format.widths]) (bs (xregOf_toNat _) (bs (xregOf_toNat _) (bs (xregOf_toNat _) (bs (xregOf_toNat _) (rfl)))))
theorem sunmap (d : Dep) (rd : XReg) (ra : XReg) : Statement (.sunmap d rd ra) := by
  exact agrees_encOf rfl rfl (by decide) (by simp [Format.widths]) (bs (xregOf_toNat _) (bs (xregOf_toNat _) (rfl)))
theorem wb (d : Dep) (scope : Scope) (ra : XReg) (rb : XReg) : Statement (.wb d scope ra rb) := by
  exact agrees_encOf rfl rfl (by decide) (by simp [Format.widths]) (bs (xregOf_toNat _) (bs (xregOf_toNat _) (bs (scopeOf_code _) (rfl))))
theorem inv (d : Dep) (scope : Scope) (ra : XReg) (rb : XReg) : Statement (.inv d scope ra rb) := by
  exact agrees_encOf rfl rfl (by decide) (by simp [Format.widths]) (bs (xregOf_toNat _) (bs (xregOf_toNat _) (bs (scopeOf_code _) (rfl))))
theorem wbi (d : Dep) (scope : Scope) (ra : XReg) (rb : XReg) : Statement (.wbi d scope ra rb) := by
  exact agrees_encOf rfl rfl (by decide) (by simp [Format.widths]) (bs (xregOf_toNat _) (bs (xregOf_toNat _) (bs (scopeOf_code _) (rfl))))
theorem cvta (d : Dep) (rd : XReg) (ra : XReg) : Statement (.cvta d rd ra) := by
  exact agrees_encOf rfl rfl (by decide) (by simp [Format.widths]) (bs (xregOf_toNat _) (bs (xregOf_toNat _) (rfl)))
theorem amoAdd (d : Dep) (a : AmoArg) (rd : XReg) (ra : XReg) (rb : XReg) : Statement (.amoAdd d a rd ra rb) := by
  exact agrees_encOf rfl rfl (by decide) (by simp [Format.widths]) (bs (xregOf_toNat _) (bs (xregOf_toNat _) (bs (xregOf_toNat _) (bs (amoArgOf_code _) (rfl)))))
theorem amoAnd (d : Dep) (a : AmoArg) (rd : XReg) (ra : XReg) (rb : XReg) : Statement (.amoAnd d a rd ra rb) := by
  exact agrees_encOf rfl rfl (by decide) (by simp [Format.widths]) (bs (xregOf_toNat _) (bs (xregOf_toNat _) (bs (xregOf_toNat _) (bs (amoArgOf_code _) (rfl)))))
theorem amoOr (d : Dep) (a : AmoArg) (rd : XReg) (ra : XReg) (rb : XReg) : Statement (.amoOr d a rd ra rb) := by
  exact agrees_encOf rfl rfl (by decide) (by simp [Format.widths]) (bs (xregOf_toNat _) (bs (xregOf_toNat _) (bs (xregOf_toNat _) (bs (amoArgOf_code _) (rfl)))))
theorem amoXor (d : Dep) (a : AmoArg) (rd : XReg) (ra : XReg) (rb : XReg) : Statement (.amoXor d a rd ra rb) := by
  exact agrees_encOf rfl rfl (by decide) (by simp [Format.widths]) (bs (xregOf_toNat _) (bs (xregOf_toNat _) (bs (xregOf_toNat _) (bs (amoArgOf_code _) (rfl)))))
theorem amoMin (d : Dep) (a : AmoArg) (rd : XReg) (ra : XReg) (rb : XReg) : Statement (.amoMin d a rd ra rb) := by
  exact agrees_encOf rfl rfl (by decide) (by simp [Format.widths]) (bs (xregOf_toNat _) (bs (xregOf_toNat _) (bs (xregOf_toNat _) (bs (amoArgOf_code _) (rfl)))))
theorem amoMinn (d : Dep) (a : AmoArg) (rd : XReg) (ra : XReg) (rb : XReg) : Statement (.amoMinn d a rd ra rb) := by
  exact agrees_encOf rfl rfl (by decide) (by simp [Format.widths]) (bs (xregOf_toNat _) (bs (xregOf_toNat _) (bs (xregOf_toNat _) (bs (amoArgOf_code _) (rfl)))))
theorem amoMax (d : Dep) (a : AmoArg) (rd : XReg) (ra : XReg) (rb : XReg) : Statement (.amoMax d a rd ra rb) := by
  exact agrees_encOf rfl rfl (by decide) (by simp [Format.widths]) (bs (xregOf_toNat _) (bs (xregOf_toNat _) (bs (xregOf_toNat _) (bs (amoArgOf_code _) (rfl)))))
theorem amoMaxn (d : Dep) (a : AmoArg) (rd : XReg) (ra : XReg) (rb : XReg) : Statement (.amoMaxn d a rd ra rb) := by
  exact agrees_encOf rfl rfl (by decide) (by simp [Format.widths]) (bs (xregOf_toNat _) (bs (xregOf_toNat _) (bs (xregOf_toNat _) (bs (amoArgOf_code _) (rfl)))))
theorem amoSwap (d : Dep) (a : AmoArg) (rd : XReg) (ra : XReg) (rb : XReg) : Statement (.amoSwap d a rd ra rb) := by
  exact agrees_encOf rfl rfl (by decide) (by simp [Format.widths]) (bs (xregOf_toNat _) (bs (xregOf_toNat _) (bs (xregOf_toNat _) (bs (amoArgOf_code _) (rfl)))))
theorem amoFadd (d : Dep) (a : AmoArg) (rd : XReg) (ra : XReg) (rb : XReg) : Statement (.amoFadd d a rd ra rb) := by
  exact agrees_encOf rfl rfl (by decide) (by simp [Format.widths]) (bs (xregOf_toNat _) (bs (xregOf_toNat _) (bs (xregOf_toNat _) (bs (amoArgOf_code _) (rfl)))))
theorem cas (d : Dep) (a : AmoArg) (rd : XReg) (ra : XReg) (rb : XReg) (rc : XReg) : Statement (.cas d a rd ra rb rc) := by
  exact agrees_encOf rfl rfl (by decide) (by simp [Format.widths]) (bs (xregOf_toNat _) (bs (xregOf_toNat _) (bs (xregOf_toNat _) (bs (xregOf_toNat _) (bs (amoArgOf_code _) (rfl))))))
theorem fence (d : Dep) (kind : FenceKind) (scope : Scope) : Statement (.fence d kind scope) := by
  exact agrees_encOf rfl rfl (by decide) (by simp [Format.widths]) (bs (at_low scopeOf (code_scope _) (scopeOf_code _)) (bs (at_high fenceOf (code_scope _) (fenceOf_code _)) (rfl)))
theorem copy (d : Dep) (rd : XReg) (ra : XReg) : Statement (.copy d rd ra) := by
  exact agrees_encOf rfl rfl (by decide) (by simp [Format.widths]) (bs (xregOf_toNat _) (bs (xregOf_toNat _) (rfl)))
theorem copyNb (d : Dep) (rd : XReg) (ra : XReg) : Statement (.copyNb d rd ra) := by
  exact agrees_encOf rfl rfl (by decide) (by simp [Format.widths]) (bs (xregOf_toNat _) (bs (xregOf_toNat _) (rfl)))
theorem copyq (d : Dep) (rd : XReg) (ra : XReg) (q : PReg) : Statement (.copyq d rd ra q) := by
  exact agrees_encOf rfl rfl (by decide) (by simp [Format.widths]) (bs (xregOf_toNat _) (bs (xregOf_toNat _) (bs (pregOf_toNat _) (rfl))))
theorem copyElementApply (id : Nat) : Statement (.copyElementApply id) := agrees_event rfl
theorem copyCompletion (id : Nat) : Statement (.copyCompletion id) := agrees_event rfl
theorem qbind (d : Dep) (q : PReg) (ra : XReg) : Statement (.qbind d q ra) := by
  exact agrees_encOf rfl rfl (by decide) (by simp [Format.widths]) (bs (pregOf_toNat _) (bs (xregOf_toNat _) (rfl)))
theorem qend (d : Dep) (q : PReg) (ra : XReg) : Statement (.qend d q ra) := by
  exact agrees_encOf rfl rfl (by decide) (by simp [Format.widths]) (bs (pregOf_toNat _) (bs (xregOf_toNat _) (rfl)))
theorem qstat (d : Dep) (rd : XReg) (q : PReg) : Statement (.qstat d rd q) := by
  exact agrees_encOf rfl rfl (by decide) (by simp [Format.widths]) (bs (xregOf_toNat _) (bs (pregOf_toNat _) (rfl)))
theorem portWordArrival (src : Sender) : Statement (.portWordArrival src) := agrees_event rfl
theorem portReplay (src : Sender) : Statement (.portReplay src) := agrees_event rfl
theorem bar (d : Dep) (b : BitVec 3) : Statement (.bar d b) := by
  exact agrees_encOf rfl rfl (by decide) (by simp [Format.widths]) (show (if b.toNat < 8 then some (Instr.bar d (BitVec.ofNat 3 b.toNat)) else none) = _ by simp)
theorem groupForm (clu : Nat) (gang : Nat) (lnch : Nat) (point : Nat) : Statement (.groupForm clu gang lnch point) := agrees_event rfl
theorem convene (d : Dep) (rd : XReg) (p : BitVec 3) (n1 : BitVec 6) : Statement (.convene d rd p n1) := by
  exact agrees_encOf rfl rfl (by decide) (by simp [Format.widths]) (bs (xregOf_toNat _) (by rw [if_pos (convene_lt _ _), low_part _ (bits3_8 _), high_part _ (bits3_8 _)]; simp))
theorem disband (s : Bool) : Statement (.disband s) := agrees_bare rfl rfl (by decide) rfl
theorem groupDissolve (clu : Nat) (gid : Nat) : Statement (.groupDissolve clu gid) := agrees_event rfl
theorem spawn (d : Dep) (rd : XReg) (ra : XReg) (rb : XReg) : Statement (.spawn d rd ra rb) := by
  exact agrees_encOf rfl rfl (by decide) (by simp [Format.widths]) (bs (xregOf_toNat _) (bs (xregOf_toNat _) (bs (xregOf_toNat _) (rfl))))
theorem spawnL (d : Dep) (rd : XReg) (ra : XReg) (rb : XReg) : Statement (.spawnL d rd ra rb) := by
  exact agrees_encOf rfl rfl (by decide) (by simp [Format.widths]) (bs (xregOf_toNat _) (bs (xregOf_toNat _) (bs (xregOf_toNat _) (rfl))))
theorem waitf (d : Dep) (r : Opr) : Statement (.waitf d r) := by
  exact agrees_encOf rfl rfl (by decide) (by simp [Format.widths]) (bs (oprOf_code _) (rfl))
theorem waitfPark (d : Dep) (r : Opr) : Statement (.waitfPark d r) := by
  exact agrees_encOf rfl rfl (by decide) (by simp [Format.widths]) (bs (oprOf_code _) (rfl))
theorem sig (d : Dep) (add : Bool) (ra : XReg) (rb : XReg) : Statement (.sig d add ra rb) := by
  exact agrees_encOf rfl rfl (by decide) (by simp [Format.widths]) (bs (xregOf_toNat _) (bs (xregOf_toNat _) (bs (flagOf_bit _) (rfl))))
theorem tq (d : Dep) (rd : XReg) (ra : XReg) : Statement (.tq d rd ra) := by
  exact agrees_encOf rfl rfl (by decide) (by simp [Format.widths]) (bs (xregOf_toNat _) (bs (xregOf_toNat _) (rfl)))
theorem migh (s : Bool) : Statement (.migh s) := agrees_bare rfl rfl (by decide) rfl
theorem migrationAccept (id : Nat) : Statement (.migrationAccept id) := agrees_event rfl
theorem migrationReplay (id : Nat) : Statement (.migrationReplay id) := agrees_event rfl
theorem completionForward (id : Nat) : Statement (.completionForward id) := agrees_event rfl
theorem tclaim (d : Dep) (ta : TSlot) : Statement (.tclaim d ta) := by
  exact agrees_encOf rfl rfl (by decide) (by simp [Format.widths]) (show some (Instr.tclaim d (BitVec.ofNat 5 ta.toNat)) = _ by simp)
theorem trel (d : Dep) (ta : TSlot) : Statement (.trel d ta) := by
  exact agrees_encOf rfl rfl (by decide) (by simp [Format.widths]) (show some (Instr.trel d (BitVec.ofNat 5 ta.toNat)) = _ by simp)
theorem tld (d : Dep) (ta : TSlot) (ra : XReg) (rb : XReg) : Statement (.tld d ta ra rb) := by
  exact agrees_encOf rfl rfl (by decide) (by simp [Format.widths]) (bs (xregOf_toNat _) (bs (xregOf_toNat _) (by simp)))
theorem tldR (d : Dep) (ta : TSlot) (ra : XReg) (rb : XReg) : Statement (.tldR d ta ra rb) := by
  exact agrees_encOf rfl rfl (by decide) (by simp [Format.widths]) (bs (xregOf_toNat _) (bs (xregOf_toNat _) (by simp)))
theorem tldPx (d : Dep) (ta : TSlot) (ra : XReg) (rb : XReg) : Statement (.tldPx d ta ra rb) := by
  exact agrees_encOf rfl rfl (by decide) (by simp [Format.widths]) (bs (xregOf_toNat _) (bs (xregOf_toNat _) (by simp)))
theorem tst (d : Dep) (ta : TSlot) (ra : XReg) (rb : XReg) : Statement (.tst d ta ra rb) := by
  exact agrees_encOf rfl rfl (by decide) (by simp [Format.widths]) (bs (xregOf_toNat _) (bs (xregOf_toNat _) (by simp)))
theorem fmtctx (d : Dep) (ra : XReg) : Statement (.fmtctx d ra) := by
  exact agrees_encOf rfl rfl (by decide) (by simp [Format.widths]) (bs (xregOf_toNat _) (rfl))
theorem mma (d : Dep) (sh : Shape) (ra : XReg) (ta : TSlot) (tb : TSlot) (tc : TSlot) (zero : Bool) : Statement (.mma d sh ra ta tb tc zero) := by
  cases sh <;> exact agrees_encOf rfl rfl (by decide) (by simp [Format.widths]) (bs (xregOf_toNat _) (bs (flagOf_bit _) (by simp)))
theorem acfg (d : Dep) (hash : Bool) (ra : XReg) (rb : XReg) : Statement (.acfg d hash ra rb) := by
  exact agrees_encOf rfl rfl (by decide) (by simp [Format.widths]) (bs (xregOf_toNat _) (bs (xregOf_toNat _) (bs (flagOf_bit _) (rfl))))
theorem aclr (d : Dep) : Statement (.aclr d) := by
  exact agrees_encOf rfl rfl (by decide) (by simp [Format.widths]) (rfl)
theorem drain (d : Dep) (ra : XReg) : Statement (.drain d ra) := by
  exact agrees_encOf rfl rfl (by decide) (by simp [Format.widths]) (bs (xregOf_toNat _) (rfl))
theorem drainT (d : Dep) (ra : XReg) : Statement (.drainT d ra) := by
  exact agrees_encOf rfl rfl (by decide) (by simp [Format.widths]) (bs (xregOf_toNat _) (rfl))
theorem drainV (d : Dep) (vf : VReg) (ra : XReg) : Statement (.drainV d vf ra) := by
  exact agrees_encOf rfl rfl (by decide) (by simp [Format.widths]) (bs (xregOf_toNat _) (by simp))
theorem astat (d : Dep) (ra : XReg) : Statement (.astat d ra) := by
  exact agrees_encOf rfl rfl (by decide) (by simp [Format.widths]) (bs (xregOf_toNat _) (rfl))
theorem join (d : Dep) (ra : XReg) (rb : XReg) : Statement (.join d ra rb) := by
  exact agrees_encOf rfl rfl (by decide) (by simp [Format.widths]) (bs (xregOf_toNat _) (bs (xregOf_toNat _) (rfl)))
theorem ains (d : Dep) (ra : XReg) (rb : XReg) : Statement (.ains d ra rb) := by
  exact agrees_encOf rfl rfl (by decide) (by simp [Format.widths]) (bs (xregOf_toNat _) (bs (xregOf_toNat _) (rfl)))
theorem cmpk (d : Dep) (f : Fmt) (rd : XReg) (ra : XReg) (rb : XReg) (rc : XReg) : Statement (.cmpk d f rd ra rb rc) := by
  exact agrees_encOf rfl rfl (by decide) (by simp [Format.widths]) (bs (xregOf_toNat _) (bs (xregOf_toNat _) (bs (xregOf_toNat _) (bs (xregOf_toNat _) (bs (fmtCode_code _) (rfl))))))
theorem expd (d : Dep) (f : Fmt) (rd : XReg) (ra : XReg) (rb : XReg) (rc : XReg) : Statement (.expd d f rd ra rb rc) := by
  exact agrees_encOf rfl rfl (by decide) (by simp [Format.widths]) (bs (xregOf_toNat _) (bs (xregOf_toNat _) (bs (xregOf_toNat _) (bs (xregOf_toNat _) (bs (fmtCode_code _) (rfl))))))
theorem collectiveComplete (clu : Nat) : Statement (.collectiveComplete clu) := agrees_event rfl
theorem brackenRecheck (clu : Nat) : Statement (.brackenRecheck clu) := agrees_event rfl
theorem resultLanding (l : Loc) (id : Nat) : Statement (.resultLanding l id) := agrees_event rfl
theorem tokenCompletion (id : Nat) : Statement (.tokenCompletion id) := agrees_event rfl
theorem trapDelivery (l : Loc) : Statement (.trapDelivery l) := agrees_event rfl
theorem haltAlone (l : Loc) : Statement (.haltAlone l) := agrees_event rfl
theorem faultMessageEnter (clu : Nat) : Statement (.faultMessageEnter clu) := agrees_event rfl
theorem lightInterruptDelivery (l : Loc) : Statement (.lightInterruptDelivery l) := agrees_event rfl
theorem lineFetch (l : Loc) : Statement (.lineFetch l) := agrees_event rfl
theorem pageWalk (l : Loc) (va : Nat) : Statement (.pageWalk l va) := agrees_event rfl
theorem sliceExpiry (l : Loc) : Statement (.sliceExpiry l) := agrees_event rfl
theorem heathSave (l : Loc) : Statement (.heathSave l) := agrees_event rfl
theorem heathRestore (clu : Nat) (off : Nat) : Statement (.heathRestore clu off) := agrees_event rfl
theorem subscribeRequest (id : Nat) : Statement (.subscribeRequest id) := agrees_event rfl
theorem subscribeAnswer (id : Nat) : Statement (.subscribeAnswer id) := agrees_event rfl
theorem pushArrival (id : Nat) : Statement (.pushArrival id) := agrees_event rfl
theorem unsubscribeRequest (id : Nat) : Statement (.unsubscribeRequest id) := agrees_event rfl
theorem finalMarker (id : Nat) : Statement (.finalMarker id) := agrees_event rfl
theorem spontaneousWriteback (clu : Nat) (key : Nat) (line : Nat) : Statement (.spontaneousWriteback clu key line) := agrees_event rfl
theorem spontaneousDrop (clu : Nat) (key : Nat) (line : Nat) : Statement (.spontaneousDrop clu key line) := agrees_event rfl
theorem pageMove (src : Nat) (dst : Nat) (size : Nat) : Statement (.pageMove src dst size) := agrees_event rfl
theorem redirectReplay (l : Loc) (id : Nat) : Statement (.redirectReplay l id) := agrees_event rfl
theorem collapse (id : Nat) : Statement (.collapse id) := agrees_event rfl
theorem hostTakeHalf (half : Nat) : Statement (.hostTakeHalf half) := agrees_event rfl
theorem hostReleaseHalf (half : Nat) (data : Option (BitVec 512)) : Statement (.hostReleaseHalf half data) := agrees_event rfl
theorem hostRecall (half : Nat) (data : Option (BitVec 512)) : Statement (.hostRecall half data) := agrees_event rfl
theorem hostBar2Access (write : Bool) (off : Nat) (n : Nat) (data : BitVec 512) : Statement (.hostBar2Access write off n data) := agrees_event rfl
theorem hostCxlMemAccess (write : Bool) (hpa : Nat) (n : Nat) (data : BitVec 512) : Statement (.hostCxlMemAccess write hpa n data) := agrees_event rfl
theorem hostkeyWrite (v : Word) : Statement (.hostkeyWrite v) := agrees_event rfl
theorem doorbellWrite (q : Nat) (v : Word) : Statement (.doorbellWrite q v) := agrees_event rfl
theorem qcfgWrite (q : Nat) (v : Word) : Statement (.qcfgWrite q v) := agrees_event rfl
theorem launchStart (id : Nat) : Statement (.launchStart id) := agrees_event rfl
theorem waitRecheck (id : Nat) : Statement (.waitRecheck id) := agrees_event rfl
theorem packetCompletion (id : Nat) : Statement (.packetCompletion id) := agrees_event rfl
theorem queueHoldRetry (q : Nat) : Statement (.queueHoldRetry q) := agrees_event rfl
theorem holdlimExpiry (q : Nat) : Statement (.holdlimExpiry q) := agrees_event rfl
theorem launchEnginePlace (die : Nat) : Statement (.launchEnginePlace die) := agrees_event rfl
theorem launchSteal (die : Nat) : Statement (.launchSteal die) := agrees_event rfl
theorem taskRecordArrival (die : Nat) : Statement (.taskRecordArrival die) := agrees_event rfl
theorem taskRecordReplay (die : Nat) : Statement (.taskRecordReplay die) := agrees_event rfl
theorem dispatchTaskRecord (clu : Nat) (core : Nat) : Statement (.dispatchTaskRecord clu core) := agrees_event rfl
theorem abortLaunch (lnch : Nat) : Statement (.abortLaunch lnch) := agrees_event rfl
theorem fmodeWrite (v : Word) : Statement (.fmodeWrite v) := agrees_event rfl
theorem hmrdbWrite (v : Word) : Statement (.hmrdbWrite v) := agrees_event rfl
theorem mailboxEntry (f : Nat) (data : BitVec 512) : Statement (.mailboxEntry f data) := agrees_event rfl
theorem pwrlimWrite (v : Word) : Statement (.pwrlimWrite v) := agrees_event rfl
theorem clockChange (mhz : Nat) : Statement (.clockChange mhz) := agrees_event rfl
theorem thermalThrottle (temp : Nat) : Statement (.thermalThrottle temp) := agrees_event rfl
theorem thermalFatal (temp : Nat) : Statement (.thermalFatal temp) := agrees_event rfl
theorem correctedError (unit : Nat) (die : Nat) (clu : Nat) (addr : Nat) (syn : Word) : Statement (.correctedError unit die clu addr syn) := agrees_event rfl
theorem uncorrectableError (unit : Nat) (die : Nat) (clu : Nat) (addr : Nat) (syn : Word) : Statement (.uncorrectableError unit die clu addr syn) := agrees_event rfl
theorem packageLoss (pkg : Nat) : Statement (.packageLoss pkg) := agrees_event rfl
theorem linkStateChange (port : Nat) (state : Nat) (peer : Nat) : Statement (.linkStateChange port state peer) := agrees_event rfl
theorem boot (pkgnum : Nat) : Statement (.boot pkgnum) := agrees_event rfl
theorem registerWrite (off : Nat) (v : Word) : Statement (.registerWrite off v) := agrees_event rfl
theorem accessAction (l : Loc) (id : Nat) : Statement (.accessAction l id) := agrees_event rfl
theorem fixedResultWrite (l : Loc) : Statement (.fixedResultWrite l) := agrees_event rfl
theorem cxlCacheHostRecall (half : Nat) : Statement (.cxlCacheHostRecall half) := agrees_event rfl
theorem rtresSet (clu : Nat) (n : Nat) : Statement (.rtresSet clu n) := agrees_event rfl
theorem supervisorResume (clu : Nat) : Statement (.supervisorResume clu) := agrees_event rfl
theorem arbitrationGrant : Statement .arbitrationGrant := agrees_event rfl
theorem packetLaunch : Statement .packetLaunch := agrees_event rfl
theorem packetWait : Statement .packetWait := agrees_event rfl
theorem packetSignal : Statement .packetSignal := agrees_event rfl
theorem packetCopy : Statement .packetCopy := agrees_event rfl
theorem packetMarker : Statement .packetMarker := agrees_event rfl
theorem packetIndirect : Statement .packetIndirect := agrees_event rfl
theorem attest : Statement .attest := agrees_event rfl
theorem loadkey : Statement .loadkey := agrees_event rfl
theorem clearkey : Statement .clearkey := agrees_event rfl
theorem hbmScrub : Statement .hbmScrub := agrees_event rfl
theorem deviceReset : Statement .deviceReset := agrees_event rfl
theorem rotationPointerMove : Statement .rotationPointerMove := agrees_event rfl

end Sys2Proof.Laws.RoundTrip
end

