-- ==== Sys2Proof/Laws/Trap.lean ====
section
/-! SUPPORT. Once for each shared operation of traps, what it can do: what `sendFault`, `startDissolve`,
`takeTrap` and `raiseReq` leave of the state, and the thread that they leave. -/

namespace Sys2Proof.Machine

/-! What the message of a halt and the start of a dissolution touch. -/

@[simp] theorem sendFault_threads (s : State) (l : Loc) (m : List Word) : (sendFault s l m).threads = s.threads := by
  unfold sendFault; split <;> rfl
@[simp] theorem sendFault_cores (s : State) (l : Loc) (m : List Word) : (sendFault s l m).cores = s.cores := by
  unfold sendFault; split <;> rfl
@[simp] theorem sendFault_store (s : State) (l : Loc) (m : List Word) : (sendFault s l m).store = s.store := by
  unfold sendFault; split <;> rfl
@[simp] theorem sendFault_flight (s : State) (l : Loc) (m : List Word) : (sendFault s l m).flight = s.flight := by
  unfold sendFault; split <;> rfl
@[simp] theorem sendFault_cycle (s : State) (l : Loc) (m : List Word) : (sendFault s l m).cycle = s.cycle := by
  unfold sendFault; split <;> rfl
@[simp] theorem sendFault_cur (s : State) (l : Loc) (m : List Word) : (sendFault s l m).cur = s.cur := by
  unfold sendFault; split <;> rfl
@[simp] theorem sendFault_free (s : State) (l : Loc) (m : List Word) : (sendFault s l m).free = s.free := by
  unfold sendFault; split <;> rfl

theorem canonical_sendFault {s : State} (h : s.canonical) (l : Loc) (m : List Word) : (sendFault s l m).canonical := by
  unfold sendFault
  simp only
  split
  · exact canonical_setCluster_same (v := { cluster s l.clu with closed := true }) h _ rfl
  · exact canonical_setCluster_same (v := { cluster s l.clu with faults := (cluster s l.clu).faults ++ [m] }) h _ rfl

@[simp] theorem startDissolve_threads (s : State) (c : Nat) (g : Option Nat) : (startDissolve s c g).threads = s.threads := by
  unfold startDissolve; split <;> rfl
@[simp] theorem startDissolve_cores (s : State) (c : Nat) (g : Option Nat) : (startDissolve s c g).cores = s.cores := by
  unfold startDissolve; split <;> rfl
@[simp] theorem startDissolve_store (s : State) (c : Nat) (g : Option Nat) : (startDissolve s c g).store = s.store := by
  unfold startDissolve; split <;> rfl
@[simp] theorem startDissolve_flight (s : State) (c : Nat) (g : Option Nat) : (startDissolve s c g).flight = s.flight := by
  unfold startDissolve; split <;> rfl
@[simp] theorem startDissolve_ctl (s : State) (c : Nat) (g : Option Nat) : (startDissolve s c g).ctl = s.ctl := by
  unfold startDissolve; split <;> rfl
@[simp] theorem startDissolve_cycle (s : State) (c : Nat) (g : Option Nat) : (startDissolve s c g).cycle = s.cycle := by
  unfold startDissolve; split <;> rfl
@[simp] theorem startDissolve_cur (s : State) (c : Nat) (g : Option Nat) : (startDissolve s c g).cur = s.cur := by
  unfold startDissolve; split <;> rfl
@[simp] theorem startDissolve_free (s : State) (c : Nat) (g : Option Nat) : (startDissolve s c g).free = s.free := by
  unfold startDissolve; split <;> rfl

theorem canonical_startDissolve {s : State} (h : s.canonical) (c : Nat) (g : Option Nat) : (startDissolve s c g).canonical := by
  unfold startDissolve
  split
  · exact h
  · exact canonical_setCluster_same h _ rfl

/-! Taking a trap. -/

/-- The thread that a trap leaves. -/
def trapped (t : Thread) (r : TrapReq) : Thread :=
  let cause := (t.csr.tcause &&& ~~~ 0x3FF#64) ||| (r.skp.setWidth 64 <<< 8) ||| r.cause.setWidth 64
  let c := { t.csr with tepc := r.pc, tcause := cause, tval := r.tval }
  if r.alone || t.csr.tvec = 0 || t.csr.tcause.getLsbD 63 then
    { t with csr := c, pipe := t.pipe.fresh 0, trap := none, present := none, mode := .halted r.hi, expired := none }
  else
    { t with csr := { c with tcause := cause ||| BitVec.twoPow 64 63 }, pipe := t.pipe.fresh 0, trap := none, present := none
             pc := t.csr.tvec }

/-- A trap changes the threads only at its location, where the trapped thread then stands. -/
theorem takeTrap_threads (s : State) (l : Loc) (t : Thread) (r : TrapReq) :
    (takeTrap s l t r).threads = mset s.threads (Loc.key l) (trapped t r) := by
  unfold takeTrap trapped
  simp only
  split <;> simp [setThread]

/-- The trapped thread. -/
@[simp] theorem thread?_takeTrap (s : State) (l : Loc) (t : Thread) (r : TrapReq) :
    thread? (takeTrap s l t r) l = some (trapped t r) := by
  rw [thread?, takeTrap_threads, mget_mset, if_pos rfl]

/-- Registers stay as they are through a trap. -/
@[simp] theorem trapped_regs (t : Thread) (r : TrapReq) : (trapped t r).regs = t.regs := by
  unfold trapped; split <;> rfl
@[simp] theorem trapped_ports (t : Thread) (r : TrapReq) : (trapped t r).ports = t.ports := by
  unfold trapped; split <;> rfl
@[simp] theorem trapped_tepc (t : Thread) (r : TrapReq) : (trapped t r).csr.tepc = r.pc := by
  unfold trapped; split <;> rfl
@[simp] theorem trapped_tval (t : Thread) (r : TrapReq) : (trapped t r).csr.tval = r.tval := by
  unfold trapped; split <;> rfl
@[simp] theorem trapped_uid (t : Thread) (r : TrapReq) : (trapped t r).uid = t.uid := by
  unfold trapped; split <;> rfl

@[simp] theorem takeTrap_cores (s : State) (l : Loc) (t : Thread) (r : TrapReq) : (takeTrap s l t r).cores = s.cores := by
  unfold takeTrap; simp only; split <;> simp
@[simp] theorem takeTrap_store (s : State) (l : Loc) (t : Thread) (r : TrapReq) : (takeTrap s l t r).store = s.store := by
  unfold takeTrap; simp only; split <;> simp
@[simp] theorem takeTrap_flight (s : State) (l : Loc) (t : Thread) (r : TrapReq) : (takeTrap s l t r).flight = s.flight := by
  unfold takeTrap; simp only; split <;> simp
@[simp] theorem takeTrap_cycle (s : State) (l : Loc) (t : Thread) (r : TrapReq) : (takeTrap s l t r).cycle = s.cycle := by
  unfold takeTrap; simp only; split <;> simp
@[simp] theorem takeTrap_cur (s : State) (l : Loc) (t : Thread) (r : TrapReq) : (takeTrap s l t r).cur = s.cur := by
  unfold takeTrap; simp only; split <;> simp
@[simp] theorem takeTrap_free (s : State) (l : Loc) (t : Thread) (r : TrapReq) : (takeTrap s l t r).free = s.free := by
  unfold takeTrap; simp only; split <;> simp

theorem canonical_takeTrap {s : State} (h : s.canonical) (l : Loc) (t : Thread) (r : TrapReq) : (takeTrap s l t r).canonical := by
  unfold takeTrap
  simp only
  split
  · exact canonical_startDissolve (canonical_sendFault (canonical_setThread h _ _) _ _) _ _
  · exact canonical_setThread h _ _

/-! Raising a trap. -/

/-- Once nothing is outstanding, a trap raised is a trap taken. -/
theorem raiseReq_taken {s : State} {t : Thread} (h : drained t s.cycle = true) (l : Loc) (r : TrapReq) :
    raiseReq s l t r = takeTrap s l { t with trap := some r, present := none } r := by
  unfold raiseReq; simp [h]

/-- Until then the trap is held, and nothing else changes. -/
theorem raiseReq_held {s : State} {t : Thread} (h : drained t s.cycle = false) (l : Loc) (r : TrapReq) :
    raiseReq s l t r = setThread s l { t with trap := some r, present := none } := by
  unfold raiseReq; simp [h]

theorem canonical_raiseReq {s : State} (h : s.canonical) (l : Loc) (t : Thread) (r : TrapReq) : (raiseReq s l t r).canonical := by
  unfold raiseReq
  simp only
  split
  · exact canonical_takeTrap h _ _ _
  · exact canonical_setThread h _ _

@[simp] theorem raiseReq_store (s : State) (l : Loc) (t : Thread) (r : TrapReq) : (raiseReq s l t r).store = s.store := by
  unfold raiseReq; simp only; split <;> simp
@[simp] theorem raiseReq_flight (s : State) (l : Loc) (t : Thread) (r : TrapReq) : (raiseReq s l t r).flight = s.flight := by
  unfold raiseReq; simp only; split <;> simp
@[simp] theorem raiseReq_cores (s : State) (l : Loc) (t : Thread) (r : TrapReq) : (raiseReq s l t r).cores = s.cores := by
  unfold raiseReq; simp only; split <;> simp
@[simp] theorem raiseReq_cycle (s : State) (l : Loc) (t : Thread) (r : TrapReq) : (raiseReq s l t r).cycle = s.cycle := by
  unfold raiseReq; simp only; split <;> simp
@[simp] theorem raiseReq_free (s : State) (l : Loc) (t : Thread) (r : TrapReq) : (raiseReq s l t r).free = s.free := by
  unfold raiseReq; simp only; split <;> simp

end Sys2Proof.Machine
end

