-- ==== Sys2Proof/Tests/Slice0.lean ====
section
/-! SUPPORT. Tests: ill-formed terms, words written out from the encodings, steps with the figures of the
spec's examples, and for each claim a state and operands that meet its hypotheses. -/

namespace Sys2Proof.Tests
open Sys2Proof.Machine
set_option Elab.async false

/-- A word and the instruction that it stands for. -/
def decodesTo (e : Nat × Instr) : Bool :=
  match decodeWord e.1 with
  | .ok i => i = e.2
  | .error _ => false

/-! States that meet the hypotheses of the claims. -/

/-- The thread in slot 1 of core 0 of cluster 0. -/
def wThread : Thread := probeThread 0

/-- A running package with that thread, whose turn it is. -/
def wState : State := { setThread (State.reset.withFetchWord 0 0) probeLoc wThread with cur := probeLoc }

/-- That thread with some registers set. -/
def wRegs (rs : List (XReg × Word)) : Thread := { wThread with regs := wThread.regs.writes (rs.map fun e => wrX e.1 e.2) }

/-- The state with another thread in its place. -/
def wWith (t : Thread) : State := setThread wState probeLoc t

/-- The slot of the cluster supervisor, and a thread there. -/
def sLoc : Loc := ⟨0, 0, 0⟩

/-- The thread in it. -/
def sThread : Thread := { probeThread 7 with origin := sLoc }

/-- The state in which it is that thread's turn. -/
def sState : State := { setThread wState sLoc sThread with cur := sLoc }

/-- The dependence byte of zeros. -/
def d0 : Dep := ⟨false, 0, 0, 0⟩

/-- The thread stands where it should. -/
theorem wState_thread : thread? wState wState.cur = some wThread := by simp [thread?, wState, setThread]

/-- So does the supervisor. -/
theorem sState_thread : thread? sState sState.cur = some sThread := by simp [thread?, sState, setThread]

/-- And any other thread in its place. -/
theorem wWith_thread (t : Thread) : thread? (wWith t) (wWith t).cur = some t := by simp [thread?, wWith, wState, setThread]

/-- The same, its place named. -/
theorem wWith_at (t : Thread) : thread? (wWith t) probeLoc = some t := by simp [wWith]

/-- A change of anything but the threads and the turn leaves it there. -/
theorem still {s : State} (h1 : s.threads = wState.threads) (h2 : s.cur = wState.cur) : thread? s s.cur = some wThread := by
  rw [thread?, h1, h2]
  exact wState_thread

/-- Whether an instruction of the thread issues, decided. -/
def issuesNow (s : State) (t : Thread) (i : Instr) : Bool :=
  canIssue s s.cur t i && (entryTrap s s.cur t i).isNone && (ctlPop t (usesOf i)).isNone

/-- What that decides. -/
theorem issuesNow_sound {s : State} {t : Thread} {i : Instr} (ht : thread? s s.cur = some t) (h : issuesNow s t i = true) : Issues s t i := by
  simp only [issuesNow, Bool.and_eq_true, Option.isNone_iff_eq_none] at h
  exact ⟨ht, h.1.1, h.1.2, h.2⟩

/-- Instructions that issue for the thread. -/
def wIssue (is : List Instr) : Prop := ∀ i ∈ is, Issues wState wThread i

/-- And for the supervisor. -/
def sIssue (is : List Instr) : Prop := ∀ i ∈ is, Issues sState sThread i

/-- Both, decided at once. -/
theorem all_issue {s : State} {t : Thread} {is : List Instr} (ht : thread? s s.cur = some t) (h : is.all (issuesNow s t) = true) :
    ∀ i ∈ is, Issues s t i :=
  fun i hi => issuesNow_sound ht (List.all_eq_true.mp h i hi)

/-- The same for an instruction in several states. -/
theorem issues_for {α : Type} {f : α → State} {g : α → Thread} {i : Instr} {as : List α} (ht : ∀ a, thread? (f a) (f a).cur = some (g a))
    (h : as.all (fun a => issuesNow (f a) (g a) i) = true) : ∀ a ∈ as, Issues (f a) (g a) i :=
  fun a ha => issuesNow_sound (ht a) (List.all_eq_true.mp h a ha)

/-- Where the access of an instruction goes, when it issues and reaches its target, decided. -/
def reachedPlace (s : State) (t : Thread) (i : Instr) : Option Place :=
  if issuesNow s t i then match memForm t i with
    | some f => match accessCheck (afterPops s t i) (threadCtx s.cur t) f.addr f.n f.n f.need with
      | (.ok g, s1) => if (migratesTo s1 s.cur t f.m g f.addr).isNone then some g.place else none
      | _ => none
    | none => none
  else none

/-- What that decides. -/
theorem reachedPlace_sound {s : State} {t : Thread} {i : Instr} {p : Place} (ht : thread? s s.cur = some t)
    (h : reachedPlace s t i = some p) : ∃ g s1, Reaches s t i g s1 ∧ g.place = p := by
  unfold reachedPlace at h
  split at h
  · next h1 =>
    split at h
    · next f hf =>
      split at h
      · next g s1 hc =>
        split at h
        · next hm => exact ⟨g, s1, ⟨issuesNow_sound ht h1, f, hf, hc, by simpa using hm⟩, by simpa using h⟩
        · cases h
      · cases h
    · cases h
  · cases h

/-- The displacement 8 from x1. -/
def m8 (ord : Ord) (scope : Scope) : MemArg := ⟨8, 1, ord, scope⟩

/-- The displacement 16 from x1. -/
def m16 (ord : Ord) (scope : Scope) : MemArg := ⟨16, 1, ord, scope⟩

/-- Instructions of the thread whose access reaches its target. -/
theorem all_reach {is : List Instr} (h : is.all (fun i => (reachedPlace wState wThread i).isSome) = true) :
    ∀ i ∈ is, ∃ g s1, Reaches wState wThread i g s1 := by
  intro i hi
  obtain ⟨p, hp⟩ := Option.isSome_iff_exists.mp (List.all_eq_true.mp h i hi)
  obtain ⟨g, s1, h1, _⟩ := reachedPlace_sound wState_thread hp
  exact ⟨g, s1, h1⟩

/-- No register of the thread is poisoned, so what reaches its target proceeds. -/
theorem proceeds {s : State} {t : Thread} {i : Instr} (h : poisonedReg t.regs (usesOf i) = none) {p : Target → Prop}
    (hr : ∃ g s1, Reaches s t i g s1 ∧ p g) : ∃ g s1, Proceeds s t i g s1 ∧ p g := by
  obtain ⟨g, s1, h1, h2⟩ := hr
  exact ⟨g, s1, ⟨h1, h⟩, h2⟩

/-- Instructions of the thread whose access proceeds to its target. -/
theorem all_proceed {is : List Instr}
    (h : is.all (fun i => (reachedPlace wState wThread i).isSome && (poisonedReg wThread.regs (usesOf i)).isNone) = true) :
    ∀ i ∈ is, ∃ g s1, Proceeds wState wThread i g s1 := by
  intro i hi
  have h1 := List.all_eq_true.mp h i hi
  simp only [Bool.and_eq_true, Option.isNone_iff_eq_none] at h1
  obtain ⟨p, hp⟩ := Option.isSome_iff_exists.mp h1.1
  obtain ⟨g, s1, h2, _⟩ := reachedPlace_sound wState_thread hp
  exact ⟨g, s1, h2, h1.2⟩

/-- An atomic of 8 bytes at x1. -/
def aD : AmoArg := ⟨.d, .ar, .die, false⟩

/-- A page of that thread at 0x10000 × k with a home of its own. -/
def pageAt (k pa : Nat) : TlbEntry := { probePage with va := 65536 * k, pa := pa }

/-- The state with pages in the TLB of the cluster. -/
def withTlb (s : State) (es : List TlbEntry) : State := setCluster s 0 { cluster s 0 with tlb := es }

/-- The state with a word of home memory. -/
def withWord (s : State) (pa : Nat) (v : Word) : State := homeWrites s 0 (atAddr pa (leBytes 8 v.toNat)) []

/-- No page is replicated where no walk has found one and no byte of home memory can be an entry's top. -/
theorem no_repl {s : State} (h1 : s.store.repl = []) (h2 : s.store.home.any (fun e => e.1 % 8 = 7 && e.2.getLsbD 7) = false) (b : Nat) :
    replOf s b = none := by
  have h3 : replLikely s b = false := by
    simp only [replLikely, List.any_eq_false, Bool.and_eq_true, not_and] at h2 ⊢
    intro e he h
    have := h2 e he
    simp_all
  simp [replOf, h1, h3]

/-- Nothing is host-held where the host holds nothing. -/
theorem nothing_held {s : State} (h : s.store.hostHeld = []) (key pa n : Nat) : hostHolds s key pa n = false := by
  simp [hostHolds, halfHeld, h]

/-- Bytes of the running package are plain. -/
theorem plain_bytes : plainAt wState 0 0 128 :=
  ⟨by decide +kernel, rfl, fun key => nothing_held rfl key 0 128, by decide +kernel, no_repl rfl (by decide +kernel), by decide⟩

/-- A pair from its halves. -/
theorem pair_of_fst {α β : Type} {p : α × β} {a : α} (h : p.1 = a) : ∃ b, p = (a, b) := ⟨p.2, Prod.ext h rfl⟩

/-- The trap of a failed check, decided. -/
def errorOf {ε α : Type} : Except ε α → Option ε
  | .error v => some v
  | .ok _ => none

/-- What that decides. -/
theorem error_of {ε α β : Type} {p : Except ε α × β} {v : ε} (h : errorOf p.1 = some v) : ∃ b, p = (.error v, b) := by
  obtain ⟨a, b⟩ := p
  cases a with
  | error w => exact ⟨b, by rw [show w = v by simpa [errorOf] using h]⟩
  | ok x => cases h

/-- A passed check, decided. -/
def isOk {ε α : Type} : Except ε α → Bool
  | .ok _ => true
  | .error _ => false

/-- What that decides. -/
theorem ok_of {ε α β : Type} {p : Except ε α × β} (h : isOk p.1 = true) : ∃ a b, p = (.ok a, b) := by
  obtain ⟨a, b⟩ := p
  cases a with
  | error w => cases h
  | ok x => exact ⟨x, b, rfl⟩

/-- A failed check. -/
theorem err_of {ε α β : Type} {p : Except ε α × β} (h : isOk p.1 = false) : ∃ v b, p = (.error v, b) := by
  obtain ⟨a, b⟩ := p
  cases a with
  | error w => exact ⟨w, b, rfl⟩
  | ok x => cases h

/-- The group of one that thread belongs to. -/
def wGroup : Group := ⟨5, 0, 0, 0, 0x303, [(0, 0)], false⟩

/-! Ill-formed terms, one for each check of WellFormed. -/

/-- A plain memory operand at x1. -/
def wMem (o : Ord) (sc : Scope) : MemArg := ⟨0, 1, o, sc⟩

/-- Reserved index of a branch (R81), shift counts and bit fields past a word (R337, R392). -/
theorem test_ill_formed_branches_and_shifts : ([
    .br d0 4 31, .call d0 4 31, .bfx d0 .w (.x 1) (.x 2) 32 1, .bfx d0 .w (.x 1) (.x 2) 1 32,
    .bfi d0 .w 1 (.x 2) 40 4, .shli d0 .w (.x 1) (.x 2) 32, .shri d0 .w (.x 1) (.x 2) 33,
    .srai d0 .w (.x 1) (.x 2) 63] : List Instr).all (fun i => !i.wellFormed) = true := by decide

/-- Formats that a form does not take (R77, R85, R121, R123, R234, R417). -/
theorem test_ill_formed_formats : ([
    .cvt d0 .rne false .pxf8 .fp32 (.x 1) (.x 2), .cvtV d0 .rne false .fp32 .pxf8 1 2, .vqnt d0 .fp16 1 2 (.x 3),
    .vdq d0 .e8m0 1 2 (.x 3), .vadd d0 .e4m3 1 2 3, .vsub d0 .e2m1 1 2 3, .vmul d0 .e5m2 1 2 3, .vmin d0 .pxf8 1 2 3,
    .vmax d0 .e8m0 1 2 3, .vfma d0 .i32 1 2 3, .vdot d0 .fp32 1 2 3, .vredAdd d0 .e4m3 1 2, .vredMin d0 .e5m2 1 2,
    .vredMax d0 .e2m1 1 2, .vshuf d0 .fp32 1 2 3, .vsel d0 .bf16 1 2 3, .vcmp d0 .uo .i32 1 2 3, .vcmp d0 .ord .n8 1 2 3,
    .vcmp d0 .eq .e4m3 1 2 3, .cmpk d0 .fp64 2 4 6 8, .expd d0 .i8 2 4 6 8] : List Instr).all (fun i => !i.wellFormed) = true := by
  decide

/-- Sizes, lanes, orders, scopes and register pairs (R76, R122, R157, R339, R366, R367, R397). -/
theorem test_ill_formed_memory_forms : ([
    .vbcast d0 .q 1 (.x 2), .vins d0 .q 0 1 (.x 2), .vext d0 .q 0 (.x 1) 2, .vins d0 .d 2 1 (.x 2), .vext d0 .h 8 (.x 1) 2,
    .vld d0 1 (wMem .rel .clu), .vst d0 1 (wMem .acq .clu), .ld d0 false .w 2 (wMem .ar .clu), .ld d0 false .q 3 (wMem .rlx .clu),
    .ldS d0 false .q 2 (wMem .rlx .clu), .st d0 false .w (.x 2) (wMem .acq .clu), .st d0 false .q (.x 3) (wMem .rlx .clu),
    .st d0 false .q (.q 2) (wMem .rlx .clu), .ldc d0 .b 2 (wMem .rlx .clu), .ldc d0 .q 2 (wMem .rlx .clu), .lds d0 2 (wMem .rlx .clu),
    .lds d0 2 (wMem .rel .pkg), .pfd d0 (wMem .acq .clu)] : List Instr).all (fun i => !i.wellFormed) = true := by decide

/-- Sizes and pairs of atomics (R330, R339, R393), tracking without a landing result (R65), and events. -/
theorem test_ill_formed_atomics_tracking_and_events : ([
    .amoAdd d0 ⟨.h, .rlx, .clu, false⟩ 1 2 3, .amoFadd d0 ⟨.q, .rlx, .clu, false⟩ 1 2 3, .cas d0 ⟨.b, .rlx, .clu, false⟩ 2 4 6 8,
    .cas d0 ⟨.q, .rlx, .clu, false⟩ 2 4 7 8, .cas d0 ⟨.q, .rlx, .clu, false⟩ 3 4 6 8, .cas d0 ⟨.q, .rlx, .clu, false⟩ 2 4 6 9,
    .add ⟨false, 0, 1, 0⟩ .d (.x 1) (.x 2) (.x 3), .st ⟨false, 0, 3, 0⟩ false .d (.x 1) (wMem .rlx .clu), .lds ⟨false, 0, 1, 0⟩ 2 (wMem .rlx .pkg),
    .deviceReset, .boot 0, .launchSteal 1] : List Instr).all (fun i => !i.wellFormed) = true := by decide

/-- Their neighbours are well-formed. -/
theorem test_well_formed_neighbours : ([
    .br d0 4 30, .bfx d0 .d (.x 1) (.x 2) 32 63, .shli d0 .w (.x 1) (.x 2) 31, .cvt d0 .rne false .e8m0 .fp32 (.x 1) (.x 2), .vfma d0 .bf16 1 2 3,
    .vdot d0 .i8 1 2 3, .vcmp d0 .uo .fp16 1 2 3, .vext d0 .h 7 (.x 1) 2, .ld d0 false .q 2 (wMem .acq .clu), .st d0 false .d (.q 2) (wMem .rel .clu),
    .lds d0 2 (wMem .acq .die), .cas d0 ⟨.q, .ar, .pkg, false⟩ 2 4 6 8, .div ⟨false, 0, 7, 0⟩ .d 1 2 3] : List Instr).all Instr.wellFormed = true := by decide

/-- Logical words that the spec's examples state, in the order of its files. -/
theorem test_words_of_examples_before_the_reference : [
    (0x2AC0000504003618, Instr.lds d0 4 ⟨0, 10, .acq, .pkg⟩),
    (0x01C406042629, .takeS ⟨false, 0, 1, 0⟩ 6 8 7),
    (0x3E8005042908, .convene ⟨false, 0, 1, 0⟩ 5 2 31),
    (0x0002080006003A28, .mma d0 .m16n16k16 6 0 1 2 false),
    (0x0030E18284003B10, .cmpk d0 .bf16 4 5 6 7),
    (0x000488003B00, .join d0 8 9),
    (0x07083A48, .astat ⟨false, 0, 2, 0⟩ 7),
    (0x000A04002801, .copyNb d0 4 20),
    (0x0004C2002810, .qbind d0 2 9),
    (0x0003050C2930, .tq ⟨false, 0, 3, 0⟩ 5 6),
    (0x0003050420A8, .xrd ⟨false, 0, 1, 0⟩ 5 6),
    (0x000C07002080, .csrr d0 0x018 (.x 7)),
    (0x008105002088, .csrw d0 0x102 5)].all decodesTo = true := by decide +kernel

/-- The same for the reference of the instructions A to L. -/
theorem test_words_of_examples_a_to_l : [
    (0x0100000488003A30, Instr.acfg d0 true 8 9),
    (0x0620004505043700, .amoAdd ⟨false, 0, 1, 0⟩ ⟨.w, .rlx, .clu, false⟩ 5 10 1),
    (0x00C000002900, .bar d0 3),
    (0x0C800003050031C1, .bfx d0 .w (.x 5) (.x 6) 8 3),
    (0x41002010, .call d0 2 1),
    (0x0BC1018504083750, .cas ⟨false, 0, 2, 0⟩ ⟨.q, .ar, .pkg, false⟩ 4 10 6 8),
    (0x06A140020B043750, .cas ⟨false, 0, 1, 0⟩ ⟨.w, .acq, .clu, false⟩ 11 4 0 10),
    (0x088203002300, .cmp d0 .d .lt 2 0 (.x 3) (.x 4)),
    (0x00000064048480004308, .cmpi d0 .d .lt 1 0 (.x 9) 100),
    (0x000405002080, .csrr d0 0x008 (.x 5)),
    (0x00000400024305004C00, .cvt d0 .rne true .fp32 .e4m3 (.x 5) (.x 6)),
    (0x000305042660, .cvta ⟨false, 0, 1, 0⟩ 5 6),
    (0x01C305042129, .div ⟨false, 0, 1, 0⟩ .w 5 6 7),
    (0x0800000006043A42, .drainV ⟨false, 0, 1, 0⟩ 8 6),
    (0x08003A40, .drain d0 8),
    (0x000305082C18, .exp2 ⟨false, 0, 2, 0⟩ 5 6),
    (0x3FC00000000288004420, .ffmai d0 .f32 .dyn 8 (.x 5) 0x3FC00000),
    (0x048182002310, .fcmp d0 .f32 .lt 1 0 (.x 2) (.x 3)),
    (0x120000002758, .fence d0 .rr .sys),
    (0x07003A20, .fmtctx d0 7),
    (0x004002C500003650, .inv d0 .die 10 11),
    (0x0F001020, .jr d0 15),
    (0x0002840020C8, .keyret d0 4 5),
    (0x1A3FFF0305043601, .ldS ⟨false, 0, 1, 0⟩ false .b 5 ⟨0xFFFC, 6, .acq, .clu⟩),
    (0x000300C305004240, .lea d0 (.x 5) (.x 6) 3 3),
    (0x79B97F4A7C1505004238, .li d0 (.x 5) 0x79B97F4A7C15),
    (0x9E37000005014239, .liH ⟨false, 0, 0, 1⟩ 5 0x9E37),
    (0x0004070C2C20, .log2 ⟨false, 0, 3, 0⟩ 7 8)].all decodesTo = true := by decide +kernel

/-- The same for the instructions M to Z. -/
theorem test_words_of_examples_m_to_z : [
    (0x01C305002199, Instr.max d0 .w (.x 5) (.x 6) (.x 7)),
    (0x010520C006003A2C, .mma d0 .m32n32k32 6 3 4 5 true),
    (0x000404002248, .mov d0 (.x 4) (.x 8)),
    (0x0004C2002818, .qend d0 2 9),
    (0x002185042820, .qstat ⟨false, 0, 1, 0⟩ 5 3),
    (0x004005042090, .repart ⟨false, 0, 1, 0⟩ 5 true),
    (0x41C3050031D0, .sel d0 (.x 5) (.x 6) (.x 7) (.x 2)),
    (0x010305002231, .srai d0 .w (.x 5) (.x 6) 4),
    (0x22C500002928, .sig d0 true 10 11),
    (0x000305042640, .sunmap ⟨false, 0, 1, 0⟩ 5 6),
    (0x01C305042919, .spawnL ⟨false, 0, 1, 0⟩ 5 6 7),
    (0x2C80020308003608, .st d0 false .w (.x 8) ⟨8, 6, .rel, .pkg⟩),
    (0x000305042C38, .tanh ⟨false, 0, 1, 0⟩ 5 6),
    (0x00C000003A00, .tclaim d0 3),
    (0x0345000020C0, .tlbi d0 10 13 .page),
    (0x000488003A10, .tld d0 0 8 9),
    (0x05001030, .trap d0 5),
    (0x0C6144002518, .vfma d0 .bf16 4 5 6),
    (0x008282002548, .vbcast d0 .w 2 (.x 5)),
    (0x103081002530, .vdot d0 .e4m3 1 2 3),
    (0x0040014400003C08, .vqnt d0 .e4m3 0 8 (.x 5)),
    (0x0100040506043570, .vld ⟨false, 0, 1, 0⟩ 6 ⟨16, 10, .rlx, .thr⟩),
    (0x005002C500003658, .wbi d0 .pkg 10 11)].all decodesTo = true := by decide +kernel

/-- Words of class 0x0, written out field by field from R55 to R58, R80 to R83 and R85. -/
theorem test_control_and_system_words_decode : [
    (0x8000, Instr.nop true),
    (0x8028, Instr.ret true),
    (0x8038, Instr.eret true),
    (0x8040, Instr.reth true),
    (0x8048, Instr.yield true),
    (0x8058, Instr.halt true),
    (0x8060, Instr.exit true),
    (0xFFFFBEA22008, Instr.br ⟨false, 5, 0, 2⟩ (-3) 30),
    (0x7FFFE1A22010, Instr.call ⟨false, 5, 0, 2⟩ 0x3FFFF 1),
    (0x21A21018, Instr.callr ⟨false, 5, 0, 2⟩ 33),
    (0xFA21020, Instr.jr ⟨false, 5, 0, 2⟩ 15),
    (0x3FA21030, Instr.trap ⟨false, 5, 0, 2⟩ 63),
    (0x800020A22050, Instr.pfi ⟨false, 5, 0, 2⟩ 0x40001),
    (0x55E45A22080, Instr.csrr ⟨false, 5, 0, 2⟩ 0xABC (.q 5)),
    (0x509A22088, Instr.csrw ⟨false, 5, 0, 2⟩ 0x00A 9),
    (0x40073BA090, Instr.repart ⟨true, 1, 6, 3⟩ 7 true),
    (0x4073BA098, Instr.spill ⟨true, 1, 6, 3⟩ 7 8),
    (0x5093BA0A0, Instr.rstr ⟨true, 1, 6, 3⟩ 9 10),
    (0x60B3BA0A8, Instr.xrd ⟨true, 1, 6, 3⟩ 11 12),
    (0x38680A220B0, Instr.xwr ⟨false, 5, 0, 2⟩ 13 14),
    (0x14A210B8, Instr.xres ⟨false, 5, 0, 2⟩ 20),
    (0x258A80A220C0, Instr.tlbi ⟨false, 5, 0, 2⟩ 21 22 .space),
    (0xC17A220C8, Instr.keyret ⟨false, 5, 0, 2⟩ 23 24)].all decodesTo = true := by decide +kernel

/-- Words of class 0x1, written out field by field from R55 to R58, R80 to R83 and R85. -/
theorem test_integer_register_words_decode : [
    (0xFE381A22100, Instr.add ⟨false, 5, 0, 2⟩ .d (.x 1) (.q 7) (.x 63)),
    (0xFE381A22109, Instr.sub ⟨false, 5, 0, 2⟩ .w (.x 1) (.q 7) (.x 63)),
    (0xFE381A22110, Instr.mul ⟨false, 5, 0, 2⟩ .d (.x 1) (.q 7) (.x 63)),
    (0xFE381A22119, Instr.mulh ⟨false, 5, 0, 2⟩ .w (.x 1) (.q 7) (.x 63)),
    (0xFE381A22120, Instr.mulhn ⟨false, 5, 0, 2⟩ .d (.x 1) (.q 7) (.x 63)),
    (0xFC1013BA129, Instr.div ⟨true, 1, 6, 3⟩ .w 1 2 63),
    (0xFC1013BA130, Instr.divn ⟨true, 1, 6, 3⟩ .d 1 2 63),
    (0xFC1013BA139, Instr.rem ⟨true, 1, 6, 3⟩ .w 1 2 63),
    (0xFC1013BA140, Instr.remn ⟨true, 1, 6, 3⟩ .d 1 2 63),
    (0xFE381A22149, Instr.and ⟨false, 5, 0, 2⟩ .w (.x 1) (.q 7) (.x 63)),
    (0xFE381A22150, Instr.or ⟨false, 5, 0, 2⟩ .d (.x 1) (.q 7) (.x 63)),
    (0xFE381A22159, Instr.xor ⟨false, 5, 0, 2⟩ .w (.x 1) (.q 7) (.x 63)),
    (0xFE381A22160, Instr.andn ⟨false, 5, 0, 2⟩ .d (.x 1) (.q 7) (.x 63)),
    (0xFE381A22169, Instr.shl ⟨false, 5, 0, 2⟩ .w (.x 1) (.q 7) (.x 63)),
    (0xFE381A22170, Instr.shr ⟨false, 5, 0, 2⟩ .d (.x 1) (.q 7) (.x 63)),
    (0xFE381A22179, Instr.sra ⟨false, 5, 0, 2⟩ .w (.x 1) (.q 7) (.x 63)),
    (0xFE381A22180, Instr.rot ⟨false, 5, 0, 2⟩ .d (.x 1) (.q 7) (.x 63)),
    (0xFE381A22189, Instr.min ⟨false, 5, 0, 2⟩ .w (.x 1) (.q 7) (.x 63)),
    (0xFE381A22190, Instr.minn ⟨false, 5, 0, 2⟩ .d (.x 1) (.q 7) (.x 63)),
    (0xFE381A22199, Instr.max ⟨false, 5, 0, 2⟩ .w (.x 1) (.q 7) (.x 63)),
    (0xFE381A221A0, Instr.maxn ⟨false, 5, 0, 2⟩ .d (.x 1) (.q 7) (.x 63)),
    (0x1441A221A9, Instr.clz ⟨false, 5, 0, 2⟩ .w (.q 1) (.x 40)),
    (0x1441A221B0, Instr.ctz ⟨false, 5, 0, 2⟩ .d (.q 1) (.x 40)),
    (0x1441A221B9, Instr.popc ⟨false, 5, 0, 2⟩ .w (.q 1) (.x 40)),
    (0xFE10000101A231C0, Instr.bfx ⟨false, 5, 0, 2⟩ .d (.x 1) (.x 2) 33 63),
    (0x880C101A231C3, Instr.bfxR ⟨false, 5, 0, 2⟩ .w (.x 1) (.x 2) (.x 3) (.q 4)),
    (0x79F0000101A231C9, Instr.bfi ⟨false, 5, 0, 2⟩ .w 1 (.x 2) 31 30),
    (0x80E101A231CA, Instr.bfiR ⟨false, 5, 0, 2⟩ .d 1 (.q 2) (.x 3) (.x 4)),
    (0x41C305A231D0, Instr.sel ⟨false, 5, 0, 2⟩ (.x 5) (.x 6) (.x 7) (.x 2))].all decodesTo = true := by decide +kernel

/-- Words of class 0x2, written out field by field from R55 to R58, R80 to R83 and R85. -/
theorem test_integer_immediate_words_decode : [
    (0xFFA101A22201, Instr.addiFrri ⟨false, 5, 0, 2⟩ .w (.x 1) (.q 2) (-2)),
    (0x80000001000101A24202, Instr.addiFi32 ⟨false, 5, 0, 2⟩ .d (.x 1) (.x 2) 0x80000001),
    (0xFFA101A22208, Instr.andiFrri ⟨false, 5, 0, 2⟩ .d (.x 1) (.q 2) (-2)),
    (0x80000001000101A2420B, Instr.andiFi32 ⟨false, 5, 0, 2⟩ .w (.x 1) (.x 2) 0x80000001),
    (0xFFA101A22211, Instr.oriFrri ⟨false, 5, 0, 2⟩ .w (.x 1) (.q 2) (-2)),
    (0x80000001000101A24212, Instr.oriFi32 ⟨false, 5, 0, 2⟩ .d (.x 1) (.x 2) 0x80000001),
    (0xFFA101A22218, Instr.xoriFrri ⟨false, 5, 0, 2⟩ .d (.x 1) (.q 2) (-2)),
    (0x80000001000101A2421B, Instr.xoriFi32 ⟨false, 5, 0, 2⟩ .w (.x 1) (.x 2) 0x80000001),
    (0xFC101A22220, Instr.shli ⟨false, 5, 0, 2⟩ .d (.x 1) (.x 2) 63),
    (0x7C101A22229, Instr.shri ⟨false, 5, 0, 2⟩ .w (.x 1) (.x 2) 31),
    (0x80101A22230, Instr.srai ⟨false, 5, 0, 2⟩ .d (.x 1) (.x 2) 32),
    (0x81234567890146A24238, Instr.li ⟨false, 5, 0, 2⟩ (.q 6) 0x812345678901),
    (0xFEDC000009A24239, Instr.liH ⟨false, 5, 0, 2⟩ 9 0xFEDC),
    (0xFFFFFFFF014101A24240, Instr.lea ⟨false, 5, 0, 2⟩ (.x 1) (.x 2) 5 0xFFFFFFFF),
    (0x7FFFFFFF000001A24241, Instr.leaPc ⟨false, 5, 0, 2⟩ (.x 1) 0x7FFFFFFF),
    (0x1040A22248, Instr.mov ⟨false, 5, 0, 2⟩ (.q 0) (.x 32))].all decodesTo = true := by decide +kernel

/-- Words of class 0x3, written out field by field from R55 to R58, R80 to R83 and R85. -/
theorem test_compare_words_decode : [
    (0xFEE381A22301, Instr.cmp ⟨false, 5, 0, 2⟩ .w .bc 3 15 (.x 1) (.q 7)),
    (0x800000000A408EA24308, Instr.cmpi ⟨false, 5, 0, 2⟩ .d .gtu 2 14 (.x 1) 0x80000000),
    (0x85C101A22311, Instr.fcmp ⟨false, 5, 0, 2⟩ .f64 .ord 1 8 (.x 1) (.x 2))].all decodesTo = true := by decide +kernel

/-- Words of class 0x4, written out field by field from R55 to R58, R80 to R83 and R85. -/
theorem test_fp_scalar_words_decode : [
    (0x10C101A22400, Instr.fadd ⟨false, 5, 0, 2⟩ .f32 .dyn (.x 1) (.x 2) (.q 3)),
    (0x30C101A22409, Instr.fsub ⟨false, 5, 0, 2⟩ .f64 .rne (.x 1) (.x 2) (.q 3)),
    (0x50C101A22410, Instr.fmul ⟨false, 5, 0, 2⟩ .f32 .rtz (.x 1) (.x 2) (.q 3)),
    (0x3080C101A23419, Instr.ffma ⟨false, 5, 0, 2⟩ .f64 .rdn (.x 1) (.x 2) (.x 3) (.x 4)),
    (0x3F800000010101A24420, Instr.ffmai ⟨false, 5, 0, 2⟩ .f32 .rup 1 (.x 2) 0x3F800000),
    (0xC101A22428, Instr.fmin ⟨false, 5, 0, 2⟩ .f32 (.x 1) (.x 2) (.x 3)),
    (0xC101A22431, Instr.fmax ⟨false, 5, 0, 2⟩ .f64 (.x 1) (.x 2) (.x 3)),
    (0x40C101A22438, Instr.fsgn ⟨false, 5, 0, 2⟩ .f32 .xor (.x 1) (.x 2) (.x 3)),
    (0xA0C1013BA441, Instr.fdiv ⟨true, 1, 6, 3⟩ .f64 .rs 1 2 3),
    (0x2001013BA448, Instr.fsqrt ⟨true, 1, 6, 3⟩ .f32 .rne 1 2)].all decodesTo = true := by decide +kernel

/-- Words of class 0x5, written out field by field from R55 to R58, R80 to R83 and R85. -/
theorem test_vector_words_decode : [
    (0x5E38A1A22500, Instr.vadd ⟨false, 5, 0, 2⟩ .n64 33 34 35),
    (0x4638A1A22508, Instr.vsub ⟨false, 5, 0, 2⟩ .i16 33 34 35),
    (0x638A1A22510, Instr.vmul ⟨false, 5, 0, 2⟩ .fp64 33 34 35),
    (0xE38A1A22518, Instr.vfma ⟨false, 5, 0, 2⟩ .bf16 33 34 35),
    (0x5238A1A22520, Instr.vmin ⟨false, 5, 0, 2⟩ .n8 33 34 35),
    (0x4E38A1A22528, Instr.vmax ⟨false, 5, 0, 2⟩ .i64 33 34 35),
    (0x1638A1A22530, Instr.vdot ⟨false, 5, 0, 2⟩ .e5m2 33 34 35),
    (0x5A38A1A22540, Instr.vshuf ⟨false, 5, 0, 2⟩ .n32 33 34 35),
    (0x4238A1A22550, Instr.vsel ⟨false, 5, 0, 2⟩ .i8 33 34 35),
    (0x808A1A22538, Instr.vredAdd ⟨false, 5, 0, 2⟩ .fp16 33 34),
    (0x4808A1A22539, Instr.vredMin ⟨false, 5, 0, 2⟩ .i32 33 34),
    (0x5408A1A2253A, Instr.vredMax ⟨false, 5, 0, 2⟩ .n16 33 34),
    (0xE121A22548, Instr.vbcast ⟨false, 5, 0, 2⟩ .d 33 (.q 2)),
    (0x1E0121A22558, Instr.vins ⟨false, 5, 0, 2⟩ .b 15 33 (.x 2)),
    (0xE5141A22560, Instr.vext ⟨false, 5, 0, 2⟩ .h 7 (.q 1) 34),
    (0x238A1A2256E, Instr.vcmp ⟨false, 5, 0, 2⟩ .uo .fp32 33 34 35),
    (0x433FFF01213BB570, Instr.vld ⟨true, 1, 6, 3⟩ 33 ⟨-4, 2, .acq, .sys⟩),
    (0x3D00010121A23578, Instr.vst ⟨false, 5, 0, 2⟩ 33 ⟨4, 2, .rel, .hst⟩)].all decodesTo = true := by decide +kernel

/-- Words of class 0x6, written out field by field from R55 to R58, R80 to R83 and R85. -/
theorem test_memory_words_decode : [
    (0xB11FFFC1BE3BB600, Instr.ld ⟨true, 1, 6, 3⟩ true .q 62 ⟨0x7FFF, 3, .rlx, .pod⟩),
    (0x22800201853BB601, Instr.ldS ⟨true, 1, 6, 3⟩ false .w 5 ⟨8, 3, .acq, .die⟩),
    (0xAC200001C3A23608, Instr.st ⟨false, 5, 0, 2⟩ true .b (.q 3) ⟨0x8000, 3, .rel, .pkg⟩),
    (0x18800201853BB610, Instr.ldc ⟨true, 1, 6, 3⟩ .w 5 ⟨8, 3, .rlx, .clu⟩),
    (0x2AC0020185A23618, Instr.lds ⟨false, 5, 0, 2⟩ 5 ⟨8, 3, .acq, .pkg⟩),
    (0x6A21620, Instr.unsub ⟨false, 5, 0, 2⟩ 6),
    (0x3863BA628, Instr.take ⟨true, 1, 6, 3⟩ 6 7),
    (0x203863BA629, Instr.takeS ⟨true, 1, 6, 3⟩ 6 7 8),
    (0x20180A23630, Instr.pfd ⟨false, 5, 0, 2⟩ ⟨8, 3, .rlx, .thr⟩),
    (0x12203863BB638, Instr.smap ⟨true, 1, 6, 3⟩ 6 7 8 9),
    (0x3863BA640, Instr.sunmap ⟨true, 1, 6, 3⟩ 6 7),
    (0x40020380A23648, Instr.wb ⟨false, 5, 0, 2⟩ .die 7 8),
    (0x10020380A23650, Instr.inv ⟨false, 5, 0, 2⟩ .grp 7 8),
    (0x80020380A23658, Instr.wbi ⟨false, 5, 0, 2⟩ .sys 7 8),
    (0x3863BA660, Instr.cvta ⟨true, 1, 6, 3⟩ 6 7)].all decodesTo = true := by decide +kernel

/-- Words of class 0x7, written out field by field from R55 to R58, R80 to R83 and R85. -/
theorem test_atomic_and_fence_words_decode : [
    (0x200203863BB700, Instr.amoAdd ⟨true, 1, 6, 3⟩ ⟨.w, .rlx, .thr, false⟩ 6 7 8),
    (0x22B00203863BB708, Instr.amoAnd ⟨true, 1, 6, 3⟩ ⟨.d, .acq, .grp, true⟩ 6 7 8),
    (0x5200203863BB710, Instr.amoOr ⟨true, 1, 6, 3⟩ ⟨.w, .rel, .core, false⟩ 6 7 8),
    (0x27B00203863BB718, Instr.amoXor ⟨true, 1, 6, 3⟩ ⟨.d, .ar, .clu, true⟩ 6 7 8),
    (0x8200203863BB720, Instr.amoMin ⟨true, 1, 6, 3⟩ ⟨.w, .rlx, .die, false⟩ 6 7 8),
    (0x2AB00203863BB728, Instr.amoMinn ⟨true, 1, 6, 3⟩ ⟨.d, .acq, .pkg, true⟩ 6 7 8),
    (0xD200203863BB730, Instr.amoMax ⟨true, 1, 6, 3⟩ ⟨.w, .rel, .pod, false⟩ 6 7 8),
    (0x2FB00203863BB738, Instr.amoMaxn ⟨true, 1, 6, 3⟩ ⟨.d, .ar, .hst, true⟩ 6 7 8),
    (0x10200203863BB740, Instr.amoSwap ⟨true, 1, 6, 3⟩ ⟨.w, .rlx, .sys, false⟩ 6 7 8),
    (0x20B00203863BB748, Instr.amoFadd ⟨true, 1, 6, 3⟩ ⟨.d, .acq, .thr, true⟩ 6 7 8),
    (0x9C14203863BB750, Instr.cas ⟨true, 1, 6, 3⟩ ⟨.q, .ar, .die, false⟩ 6 7 8 10),
    (0x160000A22758, Instr.fence ⟨false, 5, 0, 2⟩ .eng .sys)].all decodesTo = true := by decide +kernel

/-- Words of class 0x8, written out field by field from R55 to R58, R80 to R83 and R85. -/
theorem test_copy_and_port_words_decode : [
    (0x1E06A22800, Instr.copy ⟨false, 5, 0, 2⟩ 6 60),
    (0x406A22801, Instr.copyNb ⟨false, 5, 0, 2⟩ 6 8),
    (0x10C406A22808, Instr.copyq ⟨false, 5, 0, 2⟩ 6 8 3),
    (0x447A22810, Instr.qbind ⟨false, 5, 0, 2⟩ 7 8),
    (0x444A22818, Instr.qend ⟨false, 5, 0, 2⟩ 4 8),
    (0x22883BA820, Instr.qstat ⟨true, 1, 6, 3⟩ 8 5)].all decodesTo = true := by decide +kernel

/-- Words of class 0x9, written out field by field from R55 to R58, R80 to R83 and R85. -/
theorem test_thread_words_decode : [
    (0x1C000A22900, Instr.bar ⟨false, 5, 0, 2⟩ 7),
    (0x7F40063BA908, Instr.convene ⟨true, 1, 6, 3⟩ 6 5 63),
    (0x8910, Instr.disband true),
    (0x203863BA918, Instr.spawn ⟨true, 1, 6, 3⟩ 6 7 8),
    (0x203863BA919, Instr.spawnL ⟨true, 1, 6, 3⟩ 6 7 8),
    (0x46A21920, Instr.waitf ⟨false, 5, 0, 2⟩ (.q 6)),
    (0x9A21921, Instr.waitfPark ⟨false, 5, 0, 2⟩ (.x 9)),
    (0x220380A22928, Instr.sig ⟨false, 5, 0, 2⟩ true 7 8),
    (0x3863BA930, Instr.tq ⟨true, 1, 6, 3⟩ 6 7),
    (0x8938, Instr.migh true)].all decodesTo = true := by decide +kernel

/-- Words of class 0xA, written out field by field from R55 to R58, R80 to R83 and R85. -/
theorem test_matrix_words_decode : [
    (0x7C000A23A00, Instr.tclaim ⟨false, 5, 0, 2⟩ 31),
    (0x78000A23A08, Instr.trel ⟨false, 5, 0, 2⟩ 30),
    (0x74407A23A10, Instr.tld ⟨false, 5, 0, 2⟩ 29 7 8),
    (0x74407A23A11, Instr.tldR ⟨false, 5, 0, 2⟩ 29 7 8),
    (0x74407A23A12, Instr.tldPx ⟨false, 5, 0, 2⟩ 29 7 8),
    (0x70407A23A18, Instr.tst ⟨false, 5, 0, 2⟩ 28 7 8),
    (0x7A23A20, Instr.fmtctx ⟨false, 5, 0, 2⟩ 7),
    (0x103104007A23A2E, Instr.mma ⟨false, 5, 0, 2⟩ .m64n32k32 7 1 2 3 true),
    (0x100000407A23A30, Instr.acfg ⟨false, 5, 0, 2⟩ true 7 8),
    (0xA23A38, Instr.aclr ⟨false, 5, 0, 2⟩),
    (0x7A23A40, Instr.drain ⟨false, 5, 0, 2⟩ 7),
    (0x7A23A41, Instr.drainT ⟨false, 5, 0, 2⟩ 7),
    (0x3C000000073BBA42, Instr.drainV ⟨true, 1, 6, 3⟩ 60 7),
    (0x73BBA48, Instr.astat ⟨true, 1, 6, 3⟩ 7)].all decodesTo = true := by decide +kernel

/-- Words of class 0xB, written out field by field from R55 to R58, R80 to R83 and R85. -/
theorem test_stream_words_decode : [
    (0x407A23B00, Instr.join ⟨false, 5, 0, 2⟩ 7 8),
    (0x407A23B08, Instr.ains ⟨false, 5, 0, 2⟩ 7 8),
    (0x121220386A23B10, Instr.cmpk ⟨false, 5, 0, 2⟩ .i32 6 7 8 9),
    (0x51220386A23B18, Instr.expd ⟨false, 5, 0, 2⟩ .e5m2 6 7 8 9)].all decodesTo = true := by decide +kernel

/-- Words of class 0xC, written out field by field from R55 to R58, R80 to R83 and R85. -/
theorem test_conversion_words_decode : [
    (0x710034386A24C00, Instr.cvt ⟨false, 5, 0, 2⟩ .rs true .i8 .e8m0 (.x 6) (.x 7)),
    (0x170000D121A24C01, Instr.cvtV ⟨false, 5, 0, 2⟩ .rdn false .fp32 .n64 33 34),
    (0x60105121A23C08, Instr.vqnt ⟨false, 5, 0, 2⟩ .e2m1 33 34 (.q 1)),
    (0x4001D121A23C10, Instr.vdq ⟨false, 5, 0, 2⟩ .e4m3 33 34 (.x 7)),
    (0x3863BAC18, Instr.exp2 ⟨true, 1, 6, 3⟩ 6 7),
    (0x3863BAC20, Instr.log2 ⟨true, 1, 6, 3⟩ 6 7),
    (0x3863BAC28, Instr.rcp ⟨true, 1, 6, 3⟩ 6 7),
    (0x3863BAC30, Instr.rsq ⟨true, 1, 6, 3⟩ 6 7),
    (0x3863BAC38, Instr.tanh ⟨true, 1, 6, 3⟩ 6 7)].all decodesTo = true := by decide +kernel

/-! One step each, with the figures of the spec's worked examples. -/

/-- A v register and its value. -/
def wVec (t : Thread) (vs : List (VReg × VWord)) : Thread := { t with regs := t.regs.writes (vs.map fun e => wrV e.1 e.2) }

/-- The thread after one instruction from given registers. -/
def wRun (t : Thread) (i : Instr) : Option Thread :=
  match exec i (wWith t) with
  | .next s => thread? s probeLoc
  | _ => none

/-- The one value under way to a register after that step, and its flags. -/
def wOut (t : Thread) (i : Instr) : Option (Nat × Nat) :=
  match wRun t i with
  | some u => match u.pipe.fixed.map (fun f => (f.writes, f.flags)) ++ u.pipe.results.map (fun r => (r.writes, r.flags)) with
    | [([w], f)] => some (w.val.toNat, f.toNat)
    | _ => none
  | none => none

/-- R349 and R384, with the examples of DIV.W and REM.W: -7 by 2, a divisor of zero, and the most negative word by -1. -/
theorem test_division_examples :
    wOut (wRegs [(6, 0xFFFFFFF9), (7, 2)]) (.div ⟨false, 0, 1, 0⟩ .w 5 6 7) = some (0xFFFFFFFD, 0)
    ∧ wOut (wRegs [(6, 0xFFFFFFF9), (7, 2)]) (.rem ⟨false, 0, 1, 0⟩ .w 5 6 7) = some (0xFFFFFFFF, 0)
    ∧ wOut (wRegs [(6, 5)]) (.div ⟨false, 0, 1, 0⟩ .w 5 6 7) = some (0xFFFFFFFF, 0)
    ∧ wOut (wRegs [(6, 0x80000000), (7, 0xFFFFFFFF)]) (.div ⟨false, 0, 1, 0⟩ .w 5 6 7) = some (0x80000000, 0) := by
  decide +kernel

/-- The examples of R377 (MUL, MULH, MULHN) for -1 and 3. -/
theorem test_multiply_examples :
    wOut (wRegs [(6, 0xFFFFFFFFFFFFFFFF), (7, 3)]) (.mul d0 .d (.x 5) (.x 6) (.x 7)) = some (0xFFFFFFFFFFFFFFFD, 0)
    ∧ wOut (wRegs [(6, 0xFFFFFFFFFFFFFFFF), (7, 3)]) (.mulh d0 .d (.x 5) (.x 6) (.x 7)) = some (0xFFFFFFFFFFFFFFFF, 0)
    ∧ wOut (wRegs [(6, 0xFFFFFFFFFFFFFFFF), (7, 3)]) (.mulhn d0 .d (.x 5) (.x 6) (.x 7)) = some (2, 0) := by decide +kernel

/-- The examples of MAX, SRAI, SHL and BFX in the reference. -/
theorem test_word_form_examples :
    wOut (wRegs [(6, 0xFFFFFFFF), (7, 3)]) (.max d0 .w (.x 5) (.x 6) (.x 7)) = some (3, 0)
    ∧ wOut (wRegs [(6, 0xFFFFFFFF), (7, 3)]) (.maxn d0 .w (.x 5) (.x 6) (.x 7)) = some (0xFFFFFFFF, 0)
    ∧ wOut (wRegs [(6, 0x80000000)]) (.srai d0 .w (.x 5) (.x 6) 4) = some (0xF8000000, 0)
    ∧ wOut (wRegs [(6, 5), (7, 33)]) (.shl d0 .w (.x 5) (.x 6) (.x 7)) = some (10, 0)
    ∧ wOut (wRegs [(6, 0x12345678)]) (.bfx d0 .w (.x 5) (.x 6) 8 3) = some (6, 0) := by decide +kernel

/-- The examples of R354, R371, R383 and TANH. -/
theorem test_special_function_examples :
    wOut (wRegs [(6, 0x40400000)]) (.exp2 d0 5 6) = some (0x41000000, 0)
    ∧ wOut (wRegs [(6, 0x3E800000)]) (.log2 d0 5 6) = some (0xC0000000, 0)
    ∧ wOut (wRegs [(6, 0xBF800000)]) (.log2 d0 5 6) = some (0x7FC00000, 16)
    ∧ wOut (wRegs [(6, 0x40800000)]) (.rcp d0 5 6) = some (0x3E800000, 0)
    ∧ wOut (wRegs [(6, 0x40800000)]) (.rsq d0 5 6) = some (0x3F000000, 0)
    ∧ wOut (wRegs [(6, 0x41200000)]) (.tanh d0 5 6) = some (0x3F800000, 1) := by decide +kernel

/-- The example of FADD: a tie goes to even under RNE and up under RUP, with NX. -/
theorem test_fadd_example :
    wOut (wRegs [(6, 0x3F800000), (7, 0x33800000)]) (.fadd d0 .f32 .rne (.x 5) (.x 6) (.x 7)) = some (0x3F800000, 1)
    ∧ wOut (wRegs [(6, 0x3F800000), (7, 0x33800000)]) (.fadd d0 .f32 .rup (.x 5) (.x 6) (.x 7)) = some (0x3F800001, 1) := by
  decide +kernel

/-- The examples of R130 and R131 for BF16 and E4M3, and that of CVT to I8. -/
theorem test_conversion_examples :
    wOut (wRegs [(6, 0x3F804000)]) (.cvt d0 .rne false .fp32 .bf16 (.x 5) (.x 6)) = some (0x3F80, 1)
    ∧ wOut (wRegs [(6, 0x43960000)]) (.cvt d0 .rne false .fp32 .e4m3 (.x 5) (.x 6)) = some (0x79, 1)
    ∧ wOut (wRegs [(6, 0x43EB0000)]) (.cvt d0 .rne true .fp32 .e4m3 (.x 5) (.x 6)) = some (0x7E, 5)
    ∧ wOut (wRegs [(6, 0x43EB0000)]) (.cvt d0 .rne false .fp32 .e4m3 (.x 5) (.x 6)) = some (0x7F, 5)
    ∧ wOut (wRegs [(6, 0x43E60000)]) (.cvt d0 .rne false .fp32 .e4m3 (.x 5) (.x 6)) = some (0x7E, 1)
    ∧ wOut (wRegs [(6, 0xC06CCCCD)]) (.cvt d0 .rtz false .fp32 .i8 (.x 5) (.x 6)) = some (0xFFFFFFFFFFFFFFFD, 1) := by
  decide +kernel

/-- The example of R413: 1 + 2^-8 is a tie of BF16 and goes to even, with NX. -/
theorem test_vfma_example :
    wOut (wVec wThread [(4, 0x3F803F803F803F803F803F803F803F80), (5, 0x3F803F803F803F803F803F803F803F80), (6, 0x3B803B803B803B803B803B803B803B80)])
      (.vfma d0 .bf16 4 5 6) = some (0x3F803F803F803F803F803F803F803F80, 1) := by decide +kernel

/-- The block of R141's example: 13.0 and 0.1 quantise to 0x7D and 0x45 at the scale 0x7A, and dequantise to 13.0 and 0.1015625. -/
theorem test_quantise_example :
    ((wRun (wVec wThread [(8, 0x3DCCCCCD41500000)]) (.vqnt d0 .e4m3 0 8 (.x 5))).map fun u =>
      u.pipe.fixed.flatMap fun f => f.writes.map fun w => (w.dest, w.val)) = some [(.v 0, 0x457D), (.v 1, 0), (.x 5, 0x7A)] := by
  decide +kernel

/-- The example of FCMP: a quiet NaN is not below 1, the next instruction is annulled, and no flag is set. -/
theorem test_fcmp_example :
    ((wRun (wRegs [(2, 0x7FC00000), (3, 0x3F800000)]) (.fcmp d0 .f32 .lt 1 0 (.x 2) (.x 3))).map fun u =>
      (u.pipe.annul, u.pipe.fixed.map fun f => f.flags)) = some (1, [0]) := by decide +kernel

/-- The example of R320: CSRR of the unassigned number 0x018 is illegal, and the thread will halt. -/
theorem test_unassigned_csr_example :
    ((wRun wThread (.csrr d0 0x018 (.x 7))).map fun u => (u.mode, u.csr.tcause, u.csr.tval, u.csr.tepc))
    = some (.halted 0, 1, 0xC07002080, wThread.pc) := by decide +kernel

/-- The fault message of that example: TID 37 in slot 9 of core 2. -/
theorem test_fault_message_example :
    faultMessage ⟨5, 2, 9⟩ { wThread with pc := 0x4000, csr := { wThread.csr with tid := 37, tcause := 1, tval := 0xC07002080, tepc := 0x4000 } } 1 0
      = [0x0101020900000025, 0x4000, 0xC07002080, 0] := by decide +kernel

/-- The PXF8 block of the example after R140. -/
def wPx : List Byte := 0x08#8 :: List.replicate 16 0xA2#8 ++ [0x92#8, 0x24, 0x49, 0x92, 0x24, 0x49]

/-- It holds 2.5 and -1.25 in turn, in 23 bytes. -/
theorem test_pxf8_example : pxDecode wPx = (List.replicate 16 [0x42#8, 0xBA#8]).flatten ∧ pxLength wPx = 23 := by decide +kernel

/-- The example of R416: VDOT of eight products 2^-25 and 1.0 is exact. -/
theorem test_vdot_example :
    wOut (wVec wThread [(1, 0xFFFFFFFF3F800000), (2, 0x39803980398039803980398039803980), (3, 0x39003900390039003900390039003900)])
      (.vdot d0 .bf16 1 2 3) = some (0x3F800002, 0) := by decide +kernel

/-- The home of the address in the example of R152, and the figures of the examples of a refused word and of a launch of 100 gangs. -/
theorem test_placement_and_backoff_examples :
    homeDie 0xA123456F80 = 5 ∧ homeCluster 0xA123456F80 = 162 ∧ sliceOf 0xA123456F80 % 8 = 1
    ∧ [backoff 0x20014 1, backoff 0x20014 2, backoff 0x20014 3] = [20, 40, 80]
    ∧ (dieRanges 100).map Prod.fst = [0, 12, 25, 37, 50, 62, 75, 87] := by decide +kernel

/-- The first 16 bytes of SHA-384 of "abc", as FIPS 180-4's example states them. -/
theorem test_sha384_example : (sha384 [0x61#8, 0x62, 0x63]).take 16
    = [0xCB#8, 0x00, 0x75, 0x3F, 0x45, 0xA3, 0x5E, 0x8B, 0xB5, 0xA0, 0x3D, 0x69, 0x9A, 0xC6, 0x50, 0x07] := by decide +kernel

theorem witness_AddComputes : wIssue [.add d0 .d (.x 1) (.x 2) (.x 3), .addiFrri d0 .w (.x 1) (.x 2) (-1), .addiFi32 d0 .d (.x 0) (.x 31) 1] :=
  all_issue wState_thread (by decide +kernel)

theorem witness_AndComputes : wIssue [.and d0 .d (.x 1) (.x 2) (.x 3), .andn d0 .w (.x 1) (.x 2) (.x 3), .andiFrri d0 .d (.x 1) (.x 2) (-64),
    .andiFi32 d0 .w (.x 0) (.x 2) 5] := all_issue wState_thread (by decide +kernel)

theorem witness_SubMulOrXorCompute : wIssue [.sub d0 .d (.x 1) (.x 2) (.x 3), .mul d0 .w (.x 1) (.x 2) (.x 3), .mulh d0 .d (.x 1) (.x 2) (.x 3),
    .mulhn d0 .d (.x 1) (.x 2) (.x 3), .or d0 .d (.x 1) (.x 2) (.x 3), .xor d0 .w (.x 1) (.x 2) (.x 3), .oriFrri d0 .d (.x 1) (.x 2) (-1),
    .oriFi32 d0 .d (.x 1) (.x 2) 7, .xoriFrri d0 .d (.x 1) (.x 2) 1, .xoriFi32 d0 .d (.x 1) (.x 2) 7, .sel d0 (.x 5) (.x 6) (.x 7) (.x 2)] ∧ xval wThread 2 = 0
    ∧ Issues (wWith (wRegs [(2, 1)])) (wRegs [(2, 1)]) (.sel d0 (.x 5) (.x 6) (.x 7) (.x 2)) ∧ xval (wRegs [(2, 1)]) 2 = 1 :=
  ⟨all_issue wState_thread (by decide +kernel), by decide +kernel, issuesNow_sound (wWith_thread _) (by decide +kernel), by decide +kernel⟩

theorem witness_ShiftsCompute : wIssue [.shl d0 .d (.x 1) (.x 2) (.x 3), .shr d0 .w (.x 1) (.x 2) (.x 3), .sra d0 .d (.x 1) (.x 2) (.x 3),
    .rot d0 .d (.x 1) (.x 2) (.x 3), .shli d0 .d (.x 1) (.x 2) 63, .shri d0 .w (.x 1) (.x 2) 31, .srai d0 .d (.x 1) (.x 2) 0] :=
  all_issue wState_thread (by decide +kernel)

theorem witness_MinMaxCompute : wIssue [.min d0 .d (.x 1) (.x 2) (.x 3), .minn d0 .w (.x 1) (.x 2) (.x 3), .max d0 .d (.x 1) (.x 2) (.x 3),
    .maxn d0 .d (.x 1) (.x 2) (.x 3)] := all_issue wState_thread (by decide +kernel)

theorem witness_DivisionComputes : wIssue [.div d0 .d 1 2 3, .divn d0 .w 1 2 3, .rem d0 .d 1 2 3, .remn d0 .w 1 2 3] :=
  all_issue wState_thread (by decide +kernel)

theorem witness_CountsCompute : wIssue [.clz d0 .d (.x 1) (.x 2), .ctz d0 .w (.x 1) (.x 2), .popc d0 .d (.x 1) (.x 2)] :=
  all_issue wState_thread (by decide +kernel)

theorem witness_BitFieldsCompute : wIssue [.bfx d0 .d (.x 1) (.x 2) 63 63, .bfxR d0 .w (.x 1) (.x 2) (.x 3) (.x 4), .bfi d0 .w 1 (.x 2) 0 0,
    .bfiR d0 .d 1 (.x 2) (.x 3) (.x 4)] := all_issue wState_thread (by decide +kernel)

theorem witness_MovesCompute : wIssue [.mov d0 (.x 1) (.x 2), .lea d0 (.x 1) (.x 2) 7 (-1), .leaPc d0 (.x 1) 64, .li d0 (.x 1) (-1), .liH d0 1 0xFE00] :=
  all_issue wState_thread (by decide +kernel)

theorem witness_ComparesWriteAndAnnul : wIssue [.cmp d0 .w .bc 3 15 (.x 2) (.x 3), .cmpi d0 .d .ltu 0 0 (.x 2) (-1)] :=
  all_issue wState_thread (by decide +kernel)

theorem witness_FcmpOrdersByValue : wIssue [.fcmp d0 .f32 .uo 3 15 (.x 2) (.x 3), .fcmp d0 .f64 .eq 0 0 (.x 2) (.x 3)] :=
  all_issue wState_thread (by decide +kernel)

theorem witness_FpOrderAndSign : wIssue [.fmin d0 .f32 (.x 1) (.x 2) (.x 3), .fmax d0 .f64 (.x 1) (.x 2) (.x 3), .fsgn d0 .f32 .xor (.x 1) (.x 2) (.x 3)] :=
  all_issue wState_thread (by decide +kernel)

theorem witness_FpNaNsAreCanonical : Fmt.vecFloat .fp32 = true ∧ (numOf .fp32 0x7FC00000).isNaN = true ∧ (numOf .fp32 0x7F800001).snan = true
    ∧ Fmt.vecFloat .fp16 = true ∧ (numOf .fp16 0x7E00).isNaN = true := by decide

theorem witness_RoundingKeepsRepresentable : Fmt.vecFloat .fp64 = true ∧ (numOf .fp64 1).isNaN = false ∧ (numOf .fp64 (0x7FF * 2 ^ 52)).isNaN = false := by
  decide +kernel

theorem witness_FpOperationsComplete : wIssue [.fadd d0 .f32 .dyn (.x 1) (.x 2) (.x 3), .fsub d0 .f64 .rs (.x 1) (.x 2) (.x 3),
      .fmul d0 .f32 .rtz (.x 1) (.x 2) (.x 3), .ffma d0 .f64 .rne (.x 1) (.x 2) (.x 3) (.x 4), .ffmai d0 .f32 .rup 1 (.x 2) 0x3F800000,
      .fdiv d0 .f64 .rdn 1 2 3, .fsqrt d0 .f32 .rne 1 2, .exp2 d0 1 2, .log2 d0 1 2, .rcp d0 1 2, .rsq d0 1 2, .tanh d0 1 2]
    ∧ ((numOf .fp32 0x7F800001).isNaN = true ∧ numOf .fp32 0x80000001 = .fin true 1 (-149) ∧ numOf .fp32 0x40000000 = .fin false (2 ^ 23) (-22)
      ∧ numOf .fp64 0x3FF0000000000000 = .fin false (2 ^ 52) (-52) ∧ (2 ^ 23 : Nat) * 2 ^ 0 ≠ 0 ∧ (2 ^ 23 : Nat) = 2 * 2 ^ 22) :=
  ⟨all_issue wState_thread (by decide +kernel), by decide +kernel⟩

theorem witness_ConversionsComplete : wIssue [.cvt d0 .rs true .fp32 .i8 (.x 1) (.x 2), .cvtV d0 .dyn false .fp64 .fp16 1 2, .vqnt d0 .e2m1 1 2 (.x 3),
      .vqnt d0 .e4m3 1 2 (.x 0), .vdq d0 .e5m2 1 2 (.x 3)]
    ∧ Issues (wWith { wThread with ports := wThread.ports.set 1 { Port.empty with desc := 0xFFE00010 } })
      { wThread with ports := wThread.ports.set 1 { Port.empty with desc := 0xFFE00010 } } (.vqnt d0 .e4m3 1 2 (.q 1))
    ∧ Fmt.isInt .i8 = true ∧ Fmt.isInt .n64 = true :=
  ⟨all_issue wState_thread (by decide +kernel), issuesNow_sound (wWith_thread _) (by decide +kernel), by decide +kernel⟩

theorem witness_VectorArithmeticCompletes : wIssue [.vadd d0 .i8 1 2 3, .vsub d0 .fp32 1 2 3, .vmul d0 .bf16 1 2 3, .vfma d0 .fp64 1 2 3,
    .vmin d0 .n64 1 2 3, .vmax d0 .fp16 1 2 3, .vcmp d0 .ge .i32 1 2 3] := all_issue wState_thread (by decide +kernel)

theorem witness_VectorIntegersAreModular : Fmt.isInt .i8 = true ∧ Fmt.isInt .n64 = true ∧ FCond.eq ≠ .uo ∧ FCond.gt ≠ .ord := by decide

theorem witness_PermutesAndSelects :
    let t := { wThread with regs := wThread.regs.writes [wrV 2 (BitVec.ofNat 128 (10 + 20 * 2 ^ 32 + 30 * 2 ^ 64 + 40 * 2 ^ 96)),
      wrV 3 (BitVec.ofNat 128 (3 + 2 * 2 ^ 32 + 1 * 2 ^ 64 + 4 * 2 ^ 96))] }
    wIssue [.vshuf d0 .i32 1 2 3, .vsel d0 .n8 1 2 3] ∧ Issues (wWith t) t (.vshuf d0 .i32 1 2 3)
      ∧ vval t 2 = BitVec.ofNat 128 (10 + 20 * 2 ^ 32 + 30 * 2 ^ 64 + 40 * 2 ^ 96)
      ∧ vval t 3 = BitVec.ofNat 128 (3 + 2 * 2 ^ 32 + 1 * 2 ^ 64 + 4 * 2 ^ 96) :=
  ⟨all_issue wState_thread (by decide +kernel), issuesNow_sound (wWith_thread _) (by decide +kernel), by decide +kernel⟩

theorem witness_VectorMovesComplete : wIssue [.vbcast d0 .d 1 (.x 2), .vins d0 .b 15 1 (.x 2), .vext d0 .w 3 (.x 1) 2, .vdot d0 .i8 1 2 3,
    .vredAdd d0 .fp32 1 2, .vredMin d0 .n8 1 2, .vredMax d0 .i64 1 2] ∧ Fmt.isInt .i16 = true ∧ Fmt.vecFloat .bf16 = true
    ∧ ((List.range 8).all (fun q => numOf .bf16 (elem 16 (BitVec.ofNat 128 0x39803980398039803980398039803980) q) = .fin false 128 (-19)) = true
      ∧ numOf .fp32 0x3F800000 = .fin false (2 ^ 23) (-23) ∧ (numOf .fp32 0x7F800001).snan = true ∧ numOf .fp32 0x7F800000 = .inf false
      ∧ (mulNum (.inf false) (.fin true 0 0)).2 = flagNV) :=
  ⟨all_issue wState_thread (by decide +kernel), by decide, rfl, by decide +kernel⟩

theorem witness_ControlFlowGoes : wIssue [.br d0 (-1) 30, .call d0 1 0, .callr d0 5, .jr d0 5, .ret false, .nop true] :=
  all_issue wState_thread (by decide +kernel)

theorem witness_ReturnsGoBack : wIssue [.eret false, .reth true] := all_issue wState_thread (by decide +kernel)

theorem witness_ThreadsYieldWaitAndEnd : wIssue [.trap d0 5, .halt false, .yield false, .waitf d0 (.x 5), .waitfPark d0 (.x 5), .pfi d0 1, .exit false]
    ∧ sIssue [.exit false] ∧ wThread.grp = none ∧ sThread.grp = none
    ∧ (wThread.ports.toList.all fun p => p.win.isEmpty) = true ∧ (sThread.ports.toList.all fun p => p.win.isEmpty) = true
    ∧ wState.flight.copies = [] ∧ sState.flight.copies = []
    ∧ (let u : Thread := { probeThread 1 with origin := ⟨0, 0, 2⟩ }
      let t := { wThread with pipe := { wThread.pipe with acc := [{ Access.blank with id := 1, place := .mem 8 }] } }
      let s := setThread (wWith t) ⟨0, 0, 2⟩ u
      mwf s.threads = true ∧ noneEnded s ∧ liveMembers (delThread s probeLoc) t.csr.gang.toNat t.csr.lnch.toNat ≠ [] ∧ t.pipe.acc ≠ []) :=
  ⟨all_issue wState_thread (by decide +kernel), all_issue sState_thread (by decide +kernel), rfl, rfl, by decide +kernel, by decide +kernel, rfl, rfl,
    by unfold noneEnded; decide +kernel⟩

theorem witness_LoadsBegin : ∀ i ∈ [Instr.vld d0 1 (m16 .rlx .thr), .ld d0 false .q 2 (m16 .acq .sys), .ld d0 true .b 2 (m8 .rlx .thr),
    .ldS d0 false .h 2 (m8 .rlx .grp), .ldc d0 .w 2 (m8 .rlx .clu)], ∃ g s1, Reaches wState wThread i g s1 := all_reach (by decide +kernel)

theorem witness_StoresBegin : (∀ i ∈ [Instr.vst d0 1 (m16 .rlx .thr), .st d0 false .q (.x 2) (m16 .rel .sys), .st d0 false .b (.x 2) (m8 .rlx .thr)],
      ∃ g s1, Proceeds wState wThread i g s1) ∧ (∃ g s1, Proceeds wState wThread (.sig d0 false 1 2) g s1 ∧ g.place = .mem 0)
    ∧ wIssue [.fence d0 .full .sys, .fence d0 .eng .thr, .pfd d0 (m8 .rlx .thr)] ∧ wState.store.hostHeld = [] :=
  ⟨all_proceed (by decide +kernel), proceeds (by decide +kernel) (reachedPlace_sound wState_thread (by decide +kernel)),
    all_issue wState_thread (by decide +kernel), rfl⟩

theorem witness_AtomicsBegin : (∀ i ∈ [Instr.amoAdd d0 aD 2 1 3, .amoAnd d0 aD 2 1 3, .amoOr d0 aD 2 1 3, .amoXor d0 aD 2 1 3, .amoMin d0 aD 2 1 3,
      .amoMinn d0 aD 2 1 3, .amoMax d0 aD 2 1 3, .amoMaxn d0 aD 2 1 3, .amoSwap d0 aD 2 1 3, .amoFadd d0 aD 2 1 3, .cas d0 ⟨.q, .rlx, .thr, false⟩ 2 1 4 6],
      ∃ g s1, Proceeds wState wThread i g s1) ∧ (∃ g s1, Proceeds wState wThread (.sig d0 true 1 2) g s1 ∧ g.place = .mem 0)
    ∧ ∀ op, canComplete op ⟨.mem 0, 0, none⟩ = true :=
  ⟨all_proceed (by decide +kernel), proceeds (by decide +kernel) (reachedPlace_sound wState_thread (by decide +kernel)), fun _ => rfl⟩

/-- A thread whose x1 names a host page, a stash address, no window, or a page of another home. -/
def hostState : State := withTlb wState [pageAt 0 (3 * 2 ^ 50)]

/-- A thread of a light gang, whose threads migrate. -/
def lightThread (rs : List (XReg × Word)) : Thread := { wRegs rs with csr := { wThread.csr with light := true } }

/-- Where a .M form takes its thread, decided. -/
def leavesFor (s : State) (t : Thread) (i : Instr) : Option Nat :=
  if issuesNow s t i then match memForm t i with
    | some f => match accessCheck (afterPops s t i) (threadCtx s.cur t) f.addr f.n f.n f.need with
      | (.ok g, s1) => migratesTo s1 s.cur t f.m g f.addr
      | _ => none
    | none => none
  else none

/-- What that decides. -/
theorem leavesFor_sound {s : State} {t : Thread} {i : Instr} {d : Nat} (ht : thread? s s.cur = some t) (h : leavesFor s t i = some d) :
    Issues s t i ∧ ∃ f g s1, memForm t i = some f
      ∧ accessCheck (afterPops s t i) (threadCtx s.cur t) f.addr f.n f.n f.need = (.ok g, s1) ∧ migratesTo s1 s.cur t f.m g f.addr = some d := by
  unfold leavesFor at h
  split at h
  · next h1 =>
    split at h
    · next f hf =>
      split at h
      · next g s1 hc => exact ⟨issuesNow_sound ht h1, f, g, s1, hf, hc, h⟩
      · cases h
    · cases h
  · cases h

theorem witness_AccessesTrap :
    (Issues (wWith (wRegs [(1, 1)])) (wRegs [(1, 1)]) (.ld d0 false .w 2 (m8 .rlx .thr))
      ∧ memForm (wRegs [(1, 1)]) (.ld d0 false .w 2 (m8 .rlx .thr)) = some ⟨9, 4, ⟨true, false⟩, false⟩
      ∧ ∃ s1, accessCheck (afterPops (wWith (wRegs [(1, 1)])) (wRegs [(1, 1)]) (.ld d0 false .w 2 (m8 .rlx .thr)))
        (threadCtx probeLoc (wRegs [(1, 1)])) 9 4 4 ⟨true, false⟩ = (.error ⟨.align, 9⟩, s1))
    ∧ (∃ g s1, Reaches hostState wThread (.amoAnd d0 aD 2 1 3) g s1 ∧ g.place = .host (3 * 2 ^ 50))
    ∧ atomicOf (.amoAnd d0 aD 2 1 3) = some .and ∧ canComplete .and ⟨.host (3 * 2 ^ 50), 0, none⟩ = false
    ∧ (∃ g s1, Reaches (wWith (wRegs [(1, 0xFE00000000000000)])) (wRegs [(1, 0xFE00000000000000)]) (.sig d0 false 1 2) g s1
      ∧ g.place = .stash 0 0)
    ∧ (let t := lightThread [(1, 1024)]
      let i := Instr.ld d0 true .b 2 (m8 .rlx .thr)
      Issues (wWith t) t i ∧ ∃ f g s1, memForm t i = some f
        ∧ accessCheck (afterPops (wWith t) t i) (threadCtx (wWith t).cur t) f.addr f.n f.n f.need = (.ok g, s1)
        ∧ migratesTo s1 (wWith t).cur t f.m g f.addr = some (homeCluster 1032))
    ∧ (let t := { wThread with regs := { wThread.regs with xpoison := 4 } }
      let i := Instr.st d0 false .q (.x 2) (m16 .rel .sys)
      (∃ g s1, Reaches (wWith t) t i g s1 ∧ g.place = .mem 16) ∧ atomicOf i = none ∧ poisonedReg t.regs (usesOf i) = some 2) := by
  refine ⟨⟨issuesNow_sound (wWith_thread _) (by decide +kernel), rfl, error_of (by decide +kernel)⟩,
    reachedPlace_sound (still (by simp [hostState, withTlb]) (by simp [hostState, withTlb])) (by decide +kernel), rfl, rfl,
    reachedPlace_sound (wWith_thread _) (by decide +kernel), leavesFor_sound (wWith_thread _) (by decide +kernel),
    reachedPlace_sound (wWith_thread _) (by decide +kernel), by decide +kernel⟩

/-- A package whose page tables map va 2 × 2^43 to a page that names no memory, and va 2^43 to nothing. -/
def tableState : State := withWord (withWord wState 16 0x10001) 0x10000 0x10000000003

theorem witness_AddressChecksInOrder :
    (window 0 (0x55 * 2 ^ 56) = .bad
    ∧ (window 0 (2 ^ 56 - 4) ≠ .bad ∧ (2 ^ 56 - 4 + 8 - 1) % 2 ^ 64 / 2 ^ 56 ≠ (2 ^ 56 - 4) / 2 ^ 56)
    ∧ ((0xFE * 2 ^ 56 + 2 ^ 21 - 4 + 8 - 1) % 2 ^ 64 / 2 ^ 56 = (0xFE * 2 ^ 56 + 2 ^ 21 - 4) / 2 ^ 56
      ∧ window 0 ((0xFE * 2 ^ 56 + 2 ^ 21 - 4 + 8 - 1) % 2 ^ 64) = .bad)
    ∧ (window 0 1 ≠ .bad ∧ window 0 4 ≠ .bad ∧ (1 + 4 - 1) % 2 ^ 64 / 2 ^ 56 = 1 / 2 ^ 56 ∧ 1 % 4 ≠ 0)
    ∧ window 0 (0xFE * 2 ^ 56 + 2 ^ 21 - 8) = .raw (2 ^ 21 - 8)
    ∧ window 0 (2 ^ 43) = .glob (2 ^ 43))
    ∧ (∃ s1, translate tableState (threadCtx probeLoc wThread) (2 ^ 43) = (.miss, s1))
    ∧ (∃ s1, translate tableState (threadCtx probeLoc wThread) (2 ^ 44) = (.badLeaf, s1))
    ∧ ∃ s1, translate tableState (threadCtx probeLoc wThread) 0 = (.leaf probePage, s1) := by
  refine ⟨by decide, pair_of_fst (by decide +kernel), pair_of_fst (by decide +kernel), pair_of_fst (by decide +kernel)⟩

theorem witness_CvtaConverts : wIssue [.cvta d0 2 1] := all_issue wState_thread (by decide +kernel)

theorem witness_CsrsReadAndWrite : wIssue [.csrr d0 0x000 (.x 1), .csrw d0 0x00A 1, .csrw d0 0x00B 1]
    ∧ sIssue [.csrr d0 0x120 (.x 1), .csrw d0 0x120 1, .csrr d0 0x12F (.x 1)]
    ∧ csrAssigned 0x000 = true ∧ csrAssigned 0x120 = true ∧ csrReadOnly 0x00A = false ∧ csrUserWrites 0x00A = true
    ∧ csrUserWrites 0x120 = false ∧ supLevel sState.cur sThread = true ∧ 4 ∈ clusterSources ∧ 0x100 ∉ clusterSources ∧ csrMask 0x009 = some 0xFFFFFFFF ∧ csrMask 0x130 = some 0x80000000000003FF :=
  ⟨all_issue wState_thread (by decide +kernel), all_issue sState_thread (by decide +kernel), by decide +kernel⟩

theorem witness_PrivilegeIsChecked :
    thread? wState wState.cur = some wThread ∧ (supervisorOnly (.xres d0 1) = true ∧ canIssue wState wState.cur wThread (.xres d0 1) = true
      ∧ supLevel wState.cur wThread = false ∧ supLevel sLoc { sThread with csr := { sThread.csr with tcause := 2 ^ 62 } } = false
      ∧ absentReg wThread.csr.light (coreOf wState wState.cur.coreIdx).p64 (usesOf (.xres d0 1)) = none)
    ∧ wIssue [.csrr d0 0x100 (.x 1), .csrw d0 0x100 1] ∧ csrAssigned 0x100 = true ∧ csrReadOnly 0x100 = false
    ∧ csrUserWrites 0x100 = false ∧ canIssue wState wState.cur wThread (.csrr d0 0x0FF (.x 1)) = true ∧ csrAssigned 0x0FF = false
    ∧ canIssue wState wState.cur wThread (.csrw d0 0x000 1) = true ∧ csrReadOnly 0x000 = true := by
  refine ⟨wState_thread, by decide +kernel, all_issue wState_thread (by decide +kernel), by decide +kernel⟩

/-- The supervisor with some registers set, and the state with it. -/
def sRegs (rs : List (XReg × Word)) : Thread := { sThread with regs := sThread.regs.writes (rs.map fun e => wrX e.1 e.2) }

/-- The state with that supervisor and the thread of slot 1 in place of the other one. -/
def sWith (t u : Thread) : State := setThread (setThread sState probeLoc u) sLoc t

/-- The supervisor stands where it should. -/
theorem sWith_thread (t u : Thread) : thread? (sWith t u) (sWith t u).cur = some t := by simp [thread?, sWith, sState, setThread]

/-- A change of a cluster, a core or a die leaves it there. -/
theorem sStill {s : State} {t u : Thread} (h1 : s.threads = (sWith t u).threads) (h2 : s.cur = sLoc) : thread? s s.cur = some t := by
  rw [thread?, h1, h2]
  exact sWith_thread t u

/-- The supervisor alone in its package. -/
def soloState : State := { setThread { wState with threads := [], clusters := [] } sLoc sThread with cur := sLoc }

/-- The record of a saved thread of class 0. -/
def savedRec (busy : Bool) : HeathRec :=
  { thread := { probeThread 9 with csr := { wThread.csr with prio := 0 } }, core := 0, slot := 1, wait := .none, size := 192, held := false, busy := busy, readyAt := some 0, broken := false }

/-- The state with a record at offset 0 of the Heath, x6 of the supervisor being `a`. -/
def heathState (a : Word) (r : HeathRec) : State :=
  setCluster (sWith (sRegs [(6, a)]) wThread) 0 { cluster (sWith (sRegs [(6, a)]) wThread) 0 with heath := [(0, r)] }

/-- The same with core 1 in 64 partitions, from which the record comes, and a thread in every slot of it. -/
def crowdedState : State :=
  let s := heathState 0 { savedRec false with core := 1 }
  { setCore s 1 { coreOf s 1 with p64 := true } with
    threads := s.threads ++ (List.range 64).map fun k => ((⟨0, 1, k⟩ : Loc).key, wThread) }

/-- The thread of slot 1, halted. -/
def haltedThread : Thread := { wThread with mode := .halted 0 }

/-- A supervisor whose XWIN names slot 1. -/
def xThread (rs : List (XReg × Word)) : Thread := { sRegs rs with csr := { sThread.csr with xwin := 0x8000000000000001 } }

/-- A record as long as the Heath leaves no room. -/
theorem full_heath : hasRoom (heathState 1 { savedRec false with size := 2 ^ 20 }) probeLoc wThread = false := by
  have h : (cluster (heathState 1 { savedRec false with size := 2 ^ 20 }) 0).heath = [(0, { savedRec false with size := 2 ^ 20 })] := by
    simp [heathState]
  simp only [hasRoom, roomFor, probeLoc, h, recordBytes, Bool.not_eq_eq_eq_not, Bool.not_false, List.isEmpty_iff, List.filter_eq_nil_iff, List.all_cons, List.all_nil,
    Bool.and_true, Bool.and_eq_true, Bool.or_eq_true, decide_eq_true_eq]
  rintro o - ⟨h1, h2⟩
  replace h1 := of_decide_eq_true h1
  rcases h2 with h2 | h2
  · have := of_decide_eq_true h2
    omega
  · omega

theorem witness_SupervisorInstructionsComplete :
    (sIssue [.repart d0 5 false] ∧ quiescent sState sLoc sThread = false
      ∧ Issues soloState sThread (.repart d0 5 true) ∧ quiescent soloState sLoc sThread = true)
    ∧ (let s := fun (a : Word) => sWith (sRegs [(6, a)]) wThread
      (∀ a ∈ [(1024 : Word), 0, 1, 2], Issues (s a) (sRegs [(6, a)]) (.spill d0 5 6))
        ∧ (thread? (s 2) ⟨0, 0, 2⟩ = none ∧ thread? (s 1) probeLoc = some wThread
          ∧ neverSaved (s 0) sLoc (sRegs [(6, 0)]) = true ∧ neverSaved (s 1) probeLoc wThread = false
          ∧ hasRoom (s 1) probeLoc wThread = true ∧ (cluster (s 1) 0).saves = [])
        ∧ hasRoom (heathState 1 { savedRec false with size := 2 ^ 20 }) probeLoc wThread = false)
    ∧ ((∀ b ∈ [true, false], Issues (heathState 0 (savedRec b)) (sRegs [(6, 0)]) (.rstr d0 5 6))
      ∧ (∀ b, mget (cluster (heathState 0 (savedRec b)) 0).heath 0 = some (savedRec b))
      ∧ (mget (cluster (heathState 0 (savedRec false)) 0).heath 1 = none
        ∧ (let s := heathState 0 { savedRec false with held := true }
          restoreSlot (setCluster s 0 { cluster s 0 with heath := mset (cluster s 0).heath 0 (savedRec false) }) 0 (savedRec false) = some ⟨0, 0, 2⟩)
        ∧ (let r := { savedRec false with core := 1 }
          restoreSlot (setCluster crowdedState 0 { cluster crowdedState 0 with heath := mset (cluster crowdedState 0).heath 0 r }) 0 r = none))
      ∧ Issues crowdedState (sRegs [(6, 0)]) (.rstr d0 5 6))
    ∧ ((itemOf 0x48 = none ∧ itemOf 0x101 = some .full ∧ itemFixed .full = true ∧ itemOf 40 = some (.x 40)
        ∧ itemOf 0x40A = some (.csr 0x00A) ∧ csrAssigned 0x00A = true ∧ itemFixed (.csr 0x00A) = false ∧ csrReadOnly 0x00A = false)
      ∧ Issues sState sThread (.xwr d0 6 7) ∧ windowThread sState sLoc sThread = none
      ∧ (∀ a ∈ [(0x48 : Word), 0x101, 40, 5], Issues (sWith (xThread [(6, a)]) haltedThread) (xThread [(6, a)]) (.xwr d0 6 7))
      ∧ (∀ a ∈ [(0x48 : Word), 0x101, 40, 5], Issues (sWith (xThread [(6, a)]) haltedThread) (xThread [(6, a)]) (.xrd d0 7 6))
      ∧ windowThread (sWith (xThread []) haltedThread) sLoc (xThread []) = some (probeLoc, haltedThread)
      ∧ lacksItem (sWith (xThread []) haltedThread) probeLoc haltedThread (.x 40) = true
      ∧ lacksItem (sWith (xThread []) haltedThread) probeLoc haltedThread (.x 5) = false)
    ∧ ((∀ a ∈ [(4 : Word), 3, 2, 0], Issues (sWith (xThread [(6, a)]) haltedThread) (xThread [(6, a)]) (.xres d0 6))
      ∧ haltedThread.csr.tvec = 0 ∧ Issues (sWith (sRegs [(6, 3)]) haltedThread) (sRegs [(6, 3)]) (.xres d0 6))
    ∧ (let s := sWith sThread haltedThread
      let word := fun (x : State) => ((lineOfPc x probeLoc haltedThread 0).1.map fun k => (lineAt k.bytes 0).isOk)
      haltedThread.csr.tepc.toNat / 2 ^ 56 = 0 ∧ (2 ^ 56 : Word).toNat / 2 ^ 56 ≠ 0 ∧ (lineOfPc s probeLoc haltedThread (2 ^ 56)).1 = none
        ∧ word s = some true ∧ word (withWord s 0 0) = some false ∧ (pcAfter 0 1).toNat / 2 ^ 56 = 0
        ∧ (pcAfter 0x00FFFFFFFFFFFFC0 1).toNat / 2 ^ 56 ≠ 0 ∧ haltedThread.csr.tcause.getLsbD 63 = false
        ∧ ({ haltedThread.csr with tvec := 64 } : Csrs).tvec ≠ 0 ∧ haltedThread.grp = none ∧ probeLoc.slot ≠ 0
        ∧ haltedThread.ports.toList.all (fun p => p.win.isEmpty) = true ∧ s.flight.copies = []
        ∧ (∃ s1, translate s (threadCtx probeLoc haltedThread) (pcLine 0) = (.leaf probePage, s1))
        ∧ fetchAllowed (threadCtx probeLoc haltedThread) probePage = true
        ∧ (let e := { probePage with x := false }
          (∃ s1, translate (withTlb s [e]) (threadCtx probeLoc haltedThread) (pcLine 0) = (.leaf e, s1))
            ∧ fetchAllowed (threadCtx probeLoc haltedThread) e = false)
        ∧ ∃ s1, translate tableState (threadCtx probeLoc haltedThread) (pcLine 0x80000000000) = (.miss, s1)) := by
  refine ⟨⟨all_issue sState_thread (by decide +kernel), by decide +kernel, issuesNow_sound (by simp [soloState, thread?, setThread]) (by decide +kernel),
      by decide +kernel⟩,
    ⟨issues_for (fun a => sWith_thread _ _) (by decide +kernel), by decide +kernel, full_heath⟩,
    ⟨issues_for (fun b => sStill (u := wThread) (by simp [heathState]) (by simp [heathState, sWith, sState])) (by decide +kernel), fun b => by cases b <;> decide +kernel, by decide +kernel,
      issuesNow_sound (by decide +kernel) (by decide +kernel)⟩,
    ⟨by decide, issuesNow_sound sState_thread (by decide +kernel), by decide +kernel,
      issues_for (fun a => sWith_thread _ _) (by decide +kernel), issues_for (fun a => sWith_thread _ _) (by decide +kernel), by decide +kernel⟩,
    ⟨issues_for (fun a => sWith_thread _ _) (by decide +kernel), rfl, issuesNow_sound (sWith_thread _ _) (by decide +kernel)⟩, by decide +kernel, by decide +kernel, by decide +kernel, by decide +kernel, by decide +kernel,
    by decide +kernel, by decide +kernel, by decide +kernel, by decide +kernel, rfl, by decide, by decide +kernel, rfl,
    pair_of_fst (by decide +kernel), rfl, ⟨pair_of_fst (by decide +kernel), rfl⟩, pair_of_fst (by decide +kernel)⟩

theorem witness_TranslationAndKeyInstructionsComplete : sIssue [.tlbi d0 1 2 .page, .tlbi d0 1 2 .all, .keyret d0 5 6]
    ∧ (xval sThread 1).toNat / 2 ^ 56 = 0
    ∧ (let t := sRegs [(1, 0xFF00000000000000)]
      Issues (sWith t wThread) t (.tlbi d0 1 2 .page) ∧ (xval t 1).toNat / 2 ^ 56 ≠ 0)
    ∧ (let a := { Access.blank with id := 1, place := .mem 8, page := some probePage }
      let u := { wThread with pipe := { wThread.pipe with acc := [a] } }
      Issues (sWith sThread u) sThread (.tlbi d0 1 2 .all) ∧ thread? (sWith sThread u) probeLoc = some u ∧ a ∈ u.pipe.acc
        ∧ probePage ∈ allEntries (sWith sThread u) ∧ tlbiHits .all 0 0 probePage = true
        ∧ accPending (sWith sThread u) (0, 1) = true) := by
  refine ⟨all_issue sState_thread (by decide +kernel), by decide +kernel, ⟨issuesNow_sound (sWith_thread _ _) (by decide +kernel), by decide +kernel⟩,
    issuesNow_sound (sWith_thread _ _) (by decide +kernel), by decide +kernel, by simp, by decide +kernel⟩

theorem witness_StandingLoadInstructionsComplete :
    wIssue [.lds d0 5 (m8 .rlx .die), .unsub d0 5, .take d0 5 6, .takeS d0 5 6 7]
    ∧ ((slotOf wState 0 0).pend = false ∧ (slotOf wState 0 0).sub = false ∧ (slotOf wState 0 0).full = false
      ∧ addrOf wThread (m8 .rlx .die) / 2 ^ 56 ≠ 0xFE)
    ∧ (∃ g s1, accessCheck wState (threadCtx probeLoc wThread) 8 8 8 ⟨true, false⟩ = (.ok g, s1))
    ∧ hasHome (normPa wState 8) = true
    ∧ (∃ s1, accessCheck wState (threadCtx probeLoc wThread) 9 8 8 ⟨true, false⟩ = (.error ⟨.align, 9⟩, s1))
    ∧ hasHome (normPa hostState (3 * 2 ^ 50)) = false
    ∧ (let s := setSlot wState 0 0 { SubSlot.zero with full := true, sub := true, pend := true }
      (∀ i ∈ [Instr.lds d0 5 (m8 .rlx .die), .unsub d0 5, .take d0 5 6, .takeS d0 5 6 7], Issues s wThread i)
        ∧ (slotOf s 0 0).full = true ∧ (slotOf s 0 0).pend = true) := by
  refine ⟨all_issue wState_thread (by decide +kernel), by decide +kernel, ok_of (by decide +kernel), by decide +kernel, error_of (by decide +kernel), by decide +kernel,
    all_issue (still (by simp) (by simp)) (by decide +kernel), by decide +kernel⟩

/-- A mapping of line 2 of memory to the first line of the stash. -/
def wMapping : Mapping := ⟨0, 256, 128, [(0, 256, 128)]⟩

/-- The state with that mapping, whose first byte is held dirty. -/
def mappedState : State := setCluster wState 0 { cluster wState 0 with maps := [wMapping], mapped := [(0, true)], stash := [(0, 7)] }

/-- The line is plain at its home. -/
theorem mapped_home : plainHome mappedState (2 * 128) 128 :=
  ⟨by decide +kernel, fun key => nothing_held (by decide +kernel) key 256 128, by decide +kernel, no_repl (by decide +kernel) (by decide +kernel), by decide⟩

/-- The stash holds it. -/
theorem mapped_line : mappedLine mappedState 0 0 2 0 := by
  unfold mappedLine
  decide +kernel

/-- The state with four bytes held in the view, dirty. -/
def viewState : State := setCluster wState 0 { cluster wState 0 with view := (List.range 4).map fun i => (i, ⟨7, true⟩) }

/-- What holds of the empty cluster and of those that a state lists holds of every cluster. -/
theorem every_cluster {s : State} {p : Cluster → Bool} (h0 : p Cluster.empty = true) (h : s.clusters.all (fun e => p e.2) = true) (c : Nat) :
    p (cluster s c) = true := by
  unfold cluster
  cases hc : mget s.clusters c with
  | none => exact h0
  | some k => exact List.all_eq_true.mp h _ (mget_mem _ _ _ hc)

/-- No word of a state is an entry with REPL: none at home, and no last byte of a word in a cluster. -/
theorem repl_free {s : State} (h1 : s.store.repl = []) (h2 : ∀ e ∈ s.store.home, e.1 % 8 = 7 → e.2.getLsbD 7 = false)
    (h3 : s.clusters.all (fun e => e.2.view.all fun x => decide (x.1 % 8 < 4)) = true) : replFree s := by
  refine ⟨h1, h2, fun c k pa v h _ hpa => ?_⟩
  have h4 := every_cluster (p := fun k => k.view.all fun x => decide (x.1 % 8 < 4)) rfl h3 c
  have : vkey k pa % 8 < 4 := of_decide_eq_true (List.all_eq_true.mp h4 _ (mget_mem _ _ _ h))
  unfold vkey at this
  omega

/-- Their line is plain at its home. -/
theorem view_home : plainHome viewState (0 * 128) 128 :=
  ⟨by decide +kernel, fun key => nothing_held (by decide +kernel) key 0 128, by decide +kernel, no_repl (by decide +kernel) (by decide +kernel), by decide⟩

/-- The state with those bytes on a page that a walk has found replicated. -/
def replState : State :=
  let s := withWord viewState 0x20000 0x8000000000000003
  { s with store := { s.store with repl := [{ probePage with repl := true, pte := 0x20000 }] } }

theorem witness_RangeInstructionsComplete : wIssue [.wb d0 .die 1 2, .inv d0 .sys 1 2, .wbi d0 .thr 1 2] ∧ xval wThread 2 = 0
    ∧ (let t := wRegs [(1, 64), (2, 256)]
      (∀ i ∈ [Instr.wb d0 .die 1 2, .inv d0 .sys 1 2, .wbi d0 .thr 1 2], Issues (wWith t) t i)
        ∧ ∃ ps s1, rangeCheck (wWith t) (threadCtx probeLoc t) 64 256 1 ⟨true, false⟩ = (.ok ps, s1))
    ∧ (let t := wRegs [(1, 0xFE00000000000000), (2, 1)]
      Issues (wWith t) t (.wb d0 .die 1 2) ∧ xval t 2 ≠ 0 ∧ (xval t 1).toNat / 2 ^ 56 = 0xFE)
    ∧ (let t := wRegs [(1, 0x5500000000000000), (2, 1)]
      Issues (wWith t) t (.wb d0 .die 1 2)
        ∧ ∃ s1, rangeCheck (wWith t) (threadCtx probeLoc t) (0x55 * 2 ^ 56) 1 1 ⟨true, false⟩ = (.error ⟨.addr, 0x5500000000000000⟩, s1))
    ∧ plainAt wState 0 (0 * 128) 128 ∧ mwf (cluster wState 0).view = true ∧ Access.blank.atHost = false ∧ Access.blank.page.any (·.repl) = false
    ∧ (plainHome mappedState (2 * 128) 128 ∧ mappedLine mappedState 0 0 2 0 ∧ heldMapped mappedState 0 0 = some true ∧ heldStash mappedState 0 0 = some 7)
    ∧ (let a := { Access.blank with kind := .range .wb }
      a.atHost = false ∧ (cluster viewState 0).maps = [] ∧ heldView viewState 0 a.key 0 = some ⟨7, true⟩
        ∧ halfHeld { viewState with store := { viewState.store with hostHeld := [⟨0, some 0⟩] } } a.key (0 / 64) = true
        ∧ ∃ e, replOf replState (0 * 128) = some e ∧ heldView replState 0 a.key 0 = some ⟨7, true⟩ ∧ (cluster replState 0).maps = []) := by
  refine ⟨all_issue wState_thread (by decide +kernel), by decide +kernel, ⟨all_issue (wWith_thread _) (by decide +kernel), ok_of (by decide +kernel)⟩,
    ⟨issuesNow_sound (wWith_thread _) (by decide +kernel), by decide +kernel⟩,
    ⟨issuesNow_sound (wWith_thread _) (by decide +kernel), error_of (by decide +kernel)⟩, plain_bytes, by decide +kernel, rfl, rfl,
    ⟨mapped_home, mapped_line, by decide +kernel⟩, rfl, by decide +kernel, by decide +kernel, by decide +kernel,
    _, Option.some_get (by decide +kernel) |>.symm, by decide +kernel⟩

/-- A thread that asks for a mapping of 128 bytes of the stash from an offset on to an address. -/
def mapThread (off va : Word) : Thread := wRegs [(6, off), (7, va), (8, 128)]

/-- The state with that thread and some mappings. -/
def mapState (off va : Word) (ms : List Mapping) : State :=
  setCluster (wWith (mapThread off va)) 0 { cluster (wWith (mapThread off va)) 0 with maps := ms }

theorem witness_StashMappingsComplete : wIssue [.smap d0 5 6 7 8]
    ∧ (∀ o ∈ [(2 ^ 21 - 127 : Word), 2 ^ 21, 128, 0], Issues (mapState o 256 []) (mapThread o 256) (.smap d0 5 6 7 8))
    ∧ ((2 ^ 21 - 127) % 128 ≠ 0 ∧ 2 ^ 21 < 2 ^ 21 + 128 ∧ 2 ^ 21 - 128 + 128 ≤ 2 ^ 21
      ∧ rangesMeet 0 128 127 1 = true ∧ rangesMeet 0 128 128 128 = false ∧ rangesMeet 256 128 256 128 = true
      ∧ 2 ^ 56 < 0x00FFFFFFFFFFFF80 + 256 ∧ mayTouch (mapThread 0 256) 256 128 (.ld d0 false .w 2 ⟨0, 7, .rlx, .thr⟩) = true ∧ wMapping.va < 2 ^ 56)
    ∧ (∀ ms ∈ [[wMapping], List.replicate 16 { wMapping with off := 1024, va := 1024 }],
      Issues (mapState 0 256 ms) (mapThread 0 256) (.smap d0 5 6 7 8))
    ∧ (let va : Word := 0x80000000000
      let s := withWord (withWord (mapState 0 va []) 16 0x10001) 0x10000 0x10000000003
      Issues s (mapThread 0 va) (.smap d0 5 6 7 8)
        ∧ ∃ v s1, rangePages s (threadCtx probeLoc (mapThread 0 va)) ⟨true, true⟩ 1 (2 ^ 43) 0 128 = (.error v, s1))
    ∧ (∃ ps s1, rangePages (mapState 0 256 []) (threadCtx probeLoc (mapThread 0 256)) ⟨true, true⟩ 1 256 0 128 = (.ok ps, s1))
    ∧ Issues (mapState 0 256 []) (mapThread 0 256) (.sunmap d0 5 6) ∧ Issues (mapState 0 256 [wMapping]) (mapThread 0 256) (.sunmap d0 5 6)
    ∧ (cluster (mapState 0 256 []) 0).maps.find? (fun m => m.off = 0) = none
    ∧ (cluster (mapState 0 256 [wMapping]) 0).maps.find? (fun m => m.off = 0) = some wMapping
    ∧ (wMapping.segs.flatMap fun g => linesOf g.2.1 g.2.2) ≠ []
    ∧ (∃ m ∈ (cluster (unmapLine (mapState 0 256 [{ wMapping with len := 256, segs := [(0, 256, 256)] }]) 0 0 0 2) 0).maps, m.off = 0)
    ∧ (cluster viewState 0).maps = [] ∧ mwf (cluster viewState 0).view = true ∧ plainHome viewState (0 * 128) 128 ∧ replFree viewState
    ∧ ((0, 0, 128) :: wMapping.segs).flatMap (fun g => linesOf g.2.1 g.2.2) = [0, 2] ∧ heldView viewState 0 0 3 = some ⟨7, true⟩
    ∧ lineOff (cluster mappedState 0) 0 2 = some 0 ∧ plainHome mappedState (2 * 128) 128
    ∧ mappedLine mappedState 0 ((mget (cluster mappedState 0).mapKey (0 / 128)).getD 0) 2 0
    ∧ heldMapped mappedState 0 0 = some true ∧ heldStash mappedState 0 0 = some 7 := by
  have at0 : ∀ o va ms, thread? (mapState o va ms) (mapState o va ms).cur = some (mapThread o va) := fun o va ms => by
    simp [mapState, wWith, thread?, wState, setThread, probeLoc]
  refine ⟨all_issue wState_thread (by decide +kernel), issues_for (fun o => at0 o 256 []) (by decide +kernel), by decide +kernel, issues_for (fun ms => at0 0 256 ms) (by decide +kernel), ⟨issuesNow_sound (by decide +kernel) (by decide +kernel), err_of (by decide +kernel)⟩,
    ok_of (by decide +kernel), issuesNow_sound (at0 _ _ _) (by decide +kernel), issuesNow_sound (at0 _ _ _) (by decide +kernel), by decide +kernel, by decide +kernel, by decide +kernel, by decide +kernel,
    by decide +kernel, by decide +kernel, view_home, repl_free (by decide +kernel) (by decide +kernel) (by decide +kernel), by decide +kernel, by decide +kernel, by decide +kernel, mapped_home, mapped_line,
    by decide +kernel⟩

theorem witness_PortInstructionsComplete : wIssue [.qbind d0 7 5, .qstat d0 5 7] ∧ (portOf wThread 7).win.length ≤ 32 ∧ (portOf wThread 7).inb.length ≤ 8
    ∧ (let t := setPort wThread 3 { Port.empty with desc := 0xFFE00010 }
      Issues (wWith t) t (.qend d0 3 5)) :=
  ⟨all_issue wState_thread (by decide +kernel), by decide +kernel, by decide +kernel, issuesNow_sound (wWith_thread _) (by decide +kernel)⟩

theorem witness_CopyInstructionsComplete : wIssue [.copy d0 5 8, .copyNb d0 5 8, .copyq d0 5 8 3] ∧ bindingOk (portOf wThread 3).desc = false
    ∧ (coreOf wState 0).fifo.length < 16 ∧ bindingOk 0xFFE00010 = true
    ∧ (let s := setCore wState 0 { coreOf wState 0 with fifo := List.range 16 }
      Issues s wThread (.copyNb d0 5 8) ∧ 16 ≤ (coreOf s 0).fifo.length) := by
  refine ⟨all_issue wState_thread (by decide +kernel), by decide +kernel, by decide +kernel, by decide, issuesNow_sound (still (by simp) (by simp)) (by decide +kernel), by decide +kernel⟩

/-- A gang with room for a second thread. -/
def wGang : GangRec := { probeGang with slots := [probeLoc, ⟨0, 0, 2⟩] }

/-- The state with that gang. -/
def gangState : State := setCluster wState 0 { cluster wState 0 with gangs := [wGang] }

theorem witness_GangInstructionsComplete : wIssue [.bar d0 7, .convene d0 5 0 0, .disband false, .spawn d0 5 6 7, .spawnL d0 5 6 7]
    ∧ mwf wState.threads = true ∧ wThread.grp = none
    ∧ (atBarrier (putPresent wState probeLoc wThread (.bar d0 7)) 0 0 7).length = (liveMembers (putPresent wState probeLoc wThread (.bar d0 7)) 0 0).length
    ∧ (∀ e ∈ atBarrier (putPresent wState probeLoc wThread (.bar d0 7)) 0 0 7, e.2.pipe.acc = [])
    ∧ ((gangOf wState wThread).bind (spawnSlot wState probeLoc) = none ∧ gangOf gangState wThread = some wGang
      ∧ spawnSlot gangState probeLoc wGang = some ⟨0, 0, 2⟩ ∧ Issues gangState wThread (.spawn d0 5 6 7))
    ∧ Issues (wWith { wThread with grp := some 5 }) { wThread with grp := some 5 } (.disband false) := by
  refine ⟨all_issue wState_thread (by decide +kernel), by decide +kernel, rfl, by decide +kernel, by decide +kernel,
    ⟨by decide +kernel, by decide +kernel, by decide +kernel, issuesNow_sound (still (by simp [gangState]) (by simp [gangState])) (by decide +kernel)⟩, issuesNow_sound (wWith_thread _) (by decide +kernel)⟩

theorem witness_TqAndMighComplete : wIssue [.tq d0 5 6, .migh false] ∧ wThread.ret = none
    ∧ (∃ g s1, accessCheck wState (threadCtx probeLoc wThread) 0 64 64 ⟨true, false⟩ = (.ok g, s1))
    ∧ (∃ s1, accessCheck wState (threadCtx probeLoc wThread) 8 64 64 ⟨true, false⟩ = (.error ⟨.align, 8⟩, s1))
    ∧ Issues (wWith { wThread with ret := some sLoc }) { wThread with ret := some sLoc } (.migh false)
    ∧ wThread.regs.xpoison &&& ~~~ 1#64 = 0 ∧ wThread.pipe.acc = [] ∧ (queueOf wState 0).en = false
    ∧ (let t := { wThread with ret := some sLoc, regs := { wThread.regs with xpoison := 0x8000000000000000 } }
      Issues (wWith t) t (.migh false) ∧ least ((List.range 64).filter fun n => n ≠ 0 && t.regs.xpoison.getLsbD n) = some 63)
    ∧ (let t := { wThread with ret := some sLoc, pipe := { wThread.pipe with acc := [{ Access.blank with id := 1, place := .mem 8 }] } }
      Issues (wWith t) t (.migh false) ∧ t.pipe.acc ≠ [])
    ∧ (let q : Queue := { Queue.empty with en := true, dev := true, logn := 4, doorbell := 16 }
      (queueOf (setQueue wState 0 q) 0).waiting = 2 ^ 4 ∧ (queueOf (setQueue wState 0 { q with doorbell := 15 }) 0).waiting ≠ 2 ^ 4)
    ∧ (let x := queueOf wState 0
      spaceOf (ringPa x x.doorbell) ≠ 3 ∧ wState.store.redirects = [] ∧ (∀ key, hostHolds wState key (ringPa x x.doorbell) 64 = false)
        ∧ isFenced wState (ringPa x x.doorbell) = false)
    ∧ packetType [6, 0, 0, 0, 0, 0, 0, 0] = 6 ∧ packetType [2, 0, 0, 0, 0, 0, 0, 0] ≠ 6 ∧ packetOk [2, 0, 0, 0, 0, 0, 0, 0] false = true
    ∧ packetOk [0, 0, 0, 0, 0, 0, 0, 0] false = false := by
  refine ⟨all_issue wState_thread (by decide +kernel), rfl, ok_of (by decide +kernel), error_of (by decide +kernel), issuesNow_sound (wWith_thread _) (by decide +kernel),
    by decide, rfl, by decide +kernel, ⟨issuesNow_sound (wWith_thread _) (by decide +kernel), by decide +kernel⟩,
    ⟨issuesNow_sound (wWith_thread _) (by decide +kernel), by simp⟩, by decide +kernel,
    ⟨by decide +kernel, rfl, fun key => nothing_held rfl key _ 64, by decide +kernel⟩, by decide +kernel⟩

/-- The thread, as the one member of its group, presents an instruction. -/
def inGroup (rs : List (XReg × Word)) (i : Instr) : Thread := { wRegs rs with grp := some 5, present := some ⟨i, 1, 0, 0⟩ }

/-- The state with a thread of that group and a matrix unit. -/
def groupState (t : Thread) (m : Matrix) : State :=
  setCluster (wWith t) 0 { cluster (wWith t) 0 with mx := { m with groups := [wGroup] } }

/-- The scene of a group whose members all present. -/
def sceneOf (s : State) (g : Group) : Option Scene := (membersAll s g.members).bind fun ms => ms.head?.map fun m => ⟨s, 0, g, ms, m⟩

/-- What keeps or stops the collective of the group: it must stay, lacks a register, reads poison, passes its checks. -/
def fateOf (t : Thread) (m : Matrix) : Option (Bool × Option TrapVal × Bool × Bool) :=
  (sceneOf (groupState t m) wGroup).map fun x => (mustStay x, lacksReg x, readsPoison x, (planOf x).toOption.isSome)

/-- A copy between two stashes, of 64-bit integers with some operation: the parts still to be read and those read. -/
def wCopy (op : Nat) (chunks : List (Nat × Nat)) (got : List (Nat × List Byte)) : CopyOp :=
  { id := 7, uid := 0, clu := 0, core := 0, reg := 5, xseq := 0, src := 0, dst := 128, w2 := BitVec.ofNat 64 (0x1010000000080 + op * 2 ^ 32 + 19 * 2 ^ 34)
    hnd := 0, key := 0, ptbase := 0, wpriv := 0, user := true, chunks := chunks, got := got, status := 0, stop := 0, send := none, packet := none
    srcTaint := false, dstTaint := false, srcAt := [⟨0, 128, .stash 0 0, none⟩], dstAt := [⟨0, 128, .stash 0 128, none⟩], wb := false
    ready := false, deposited := false }

theorem witness_CollectivesArePresented :
    (isCollective (.aclr d0) = true ∧ canIssue wState probeLoc wThread (.aclr d0) = true ∧ wThread.grp = none
      ∧ absentReg wThread.csr.light (coreOf wState probeLoc.coreIdx).p64 (usesOf (.aclr d0)) = none
      ∧ canIssue wState probeLoc wThread (.mma d0 .m16n16k16 5 1 2 3 true) = true) ∧ thread? wState probeLoc = some wThread
    ∧ (let t := { wThread with grp := some 5 }
      let s := setCluster (wWith t) 0 { cluster (wWith t) 0 with mx := { Matrix.empty with groups := [{ wGroup with members := [(0, 0), (77, 1)] }] } }
      thread? s probeLoc = some t ∧ canIssue s probeLoc t (.aclr d0) = true ∧ groupOf s 0 5 = some { wGroup with members := [(0, 0), (77, 1)] }
        ∧ (membersAll (putPresent s probeLoc t (.aclr d0)) [(0, 0), (77, 1)]).isNone)
    ∧ (let u := { probeThread 1 with origin := ⟨0, 0, 2⟩, grp := some 5, present := some ⟨.drain d0 5, 1, 0, 0⟩ }
      let s := setThread (groupState (inGroup [] (.aclr d0)) Matrix.empty) ⟨0, 0, 2⟩ u
      (membersAll s [(0, 0), (1, 1)]).map (fun ms => ms.map fun m => m.shown.instr) = some [.aclr d0, .drain d0 5]
        ∧ opcOf (.drain d0 5) ≠ opcOf (.aclr d0))
    ∧ (Matrix.empty.cur = none ∧ (inGroup [] (.aclr d0)).pipe.acc = [] ∧ wGroup.dissolving = false)
    ∧ (let s := groupState (inGroup [] (.acfg d0 true 8 9)) Matrix.empty
      let fate := fun (cs : List CopyOp) => (sceneOf { s with flight := { s.flight with copies := cs } } wGroup).map fun x => copiesFirst x (planOf x)
      fate [wCopy 0 [(0, 128)] []] = some true ∧ fate [] = some false)
    ∧ ∀ e ∈ ([(inGroup [] (.fmtctx d0 5), none, false, none, false, true), (inGroup [] (.fmtctx d0 63), none, false, some ⟨.operand, 63⟩, false, true),
        ({ inGroup [] (.fmtctx d0 5) with regs := { wThread.regs with xpoison := 32 } }, none, false, none, true, true),
        (inGroup [(8, 2 ^ 63)] (.acfg d0 false 8 9), none, false, none, false, false),
        (inGroup [] (.acfg d0 false 8 9), some 6, true, none, false, true)] : List (Thread × Option Nat × Bool × Option TrapVal × Bool × Bool)),
      fateOf e.1 { Matrix.empty with acc := { Matrix.empty.acc with owner := e.2.1 } } = some e.2.2 := by
  refine ⟨by decide +kernel, wState_thread, by decide +kernel⟩

/-- A CMPK of FP32 elements, or an EXPD, with its operands read. -/
def wPack (i : Instr) (rd rc : Nat) (got : List Byte) (count : Option (Nat × Nat)) : Packing :=
  { id := 40, instr := i, pc := 0, rd := rd, ra := 0, rb := got.length / 4, rc := rc, tainted := false, afterLdc := false, start := 0, mem := 0
    todo := [], addr := 0, got := got, elems := [], n := got.length / 4, bad := false, used := [⟨0, 4, .stash 0 0, none⟩], count := count
    ended := false, before := [], out := [] }

/-- A thread with it under way. -/
def packThread (k : Packing) : Thread := { wThread with pipe := { wThread.pipe with pack := some k } }

/-- The CMPK and the EXPD of that thread. -/
def wCmpk : Instr := .cmpk d0 .fp32 5 6 7 8

/-- The EXPD. -/
def wExpd : Instr := .expd d0 .i32 5 6 7 8

theorem witness_CompactAndExpandComplete : wIssue [wCmpk, wExpd, .astat d0 5]
    ∧ (∃ ps s1, rangeCheck wState (threadCtx probeLoc wThread) 0 0 4 ⟨true, false⟩ = (.ok ps, s1))
    ∧ (0x1000000 : Nat) &&& 0xFF000000FF000000 ≠ 0 ∧ (0xFFFFFF : Nat) &&& 0xFF000000FF000000 = 0
    ∧ (∀ c ∈ [(0x1000000 : Word), 2 ^ 24 - 1], Issues (wWith (wRegs [(8, c)])) (wRegs [(8, c)]) wCmpk)
    ∧ (∀ k, packingAt (wWith (packThread k)) probeLoc (packThread k) k)
    ∧ (wPack wCmpk 0 0 [1, 0, 0, 0] none).packs = true ∧ (wPack wExpd 0 0 [] none).packs = false ∧ inStash (wPack wCmpk 0 0 [] none).used = true
    ∧ (let nz := fun (k : Packing) => ((List.range k.rb).zip (elemsOf k.width k.rb k.got)).filter fun e => !isZeroElem k.fmt e.2
      nz (wPack wCmpk 0 (2 ^ 24 - 1) [0, 0, 0, 0, 1, 0, 0, 0] none) = [(1, 1)] ∧ nz (wPack wCmpk 0 (2 ^ 24 - 1) [1, 0, 0, 0] none) = [(0, 1)])
    ∧ (∀ k ∈ [wPack wCmpk 0 0 [1, 0, 0, 0] none, wPack wExpd 0 0 [] none], storesWait (wWith (packThread k)) (packThread k) k = false)
    ∧ (let k := { wPack wCmpk 0 0 [1, 0, 0, 0] none with before := [(0, 1)], out := [⟨0, 16, .mem 0, none⟩] }
      let a := { Access.blank with id := 1, kind := .store, place := .mem 8, n := 8 }
      let t := { packThread k with pipe := { (packThread k).pipe with acc := [a] } }
      storesWait (wWith t) t k = true)
    ∧ (∃ ps s1, rangeCheck (wWith wThread) (threadCtx probeLoc wThread) 0 16 8 ⟨false, true⟩ = (.ok ps, s1))
    ∧ (∃ s1, rangeCheck (wWith wThread) (threadCtx probeLoc wThread) 4 16 8 ⟨false, true⟩ = (.error ⟨.align, 4⟩, s1))
    ∧ (wPack wCmpk 0 0 [1, 0, 0, 0] (some (9, 3))).due ≤ 18 ∧ (wPack wCmpk 0 0 [1, 0, 0, 0] none).due = 18
    ∧ (wPack wExpd 0 0 [] none).rb ≤ (wPack wExpd 0 0 [] none).n
    ∧ (∃ ps s1, rangeCheck (wWith wThread) (threadCtx probeLoc wThread) 0 0 4 ⟨false, true⟩ = (.ok ps, s1))
    ∧ (unitOf wState 0).acc.table.length ≤ 16384 ∧ (unitOf wState 0).acc.spill < 2 ^ 20 := by
  refine ⟨all_issue wState_thread (by decide +kernel), ok_of (by decide +kernel), by decide, by decide,
    issues_for (f := fun c => wWith (wRegs [(8, c)])) (g := fun c => wRegs [(8, c)]) (fun c => wWith_thread _) (by decide +kernel),
    fun k => ⟨wWith_at _, rfl⟩, rfl, rfl, rfl, by decide +kernel, by decide +kernel, by decide +kernel, ok_of (by decide +kernel), error_of (by decide +kernel),
    by decide +kernel, by decide +kernel, by decide, ok_of (by decide +kernel), by decide +kernel⟩

theorem witness_InstructionsWaitAndTrap :
    (encode (.waitf d0 (.q 1))).isSome = true ∧ thread? wState wState.cur = some wThread
    ∧ (canIssue wState wState.cur wThread (.waitf d0 (.q 1)) = false ∧ canIssue wState wState.cur wThread (.fmtctx d0 63) = true ∧ wThread.grp = none
      ∧ absentReg wThread.csr.light (coreOf wState wState.cur.coreIdx).p64 (usesOf (.fmtctx d0 63)) = some 63
      ∧ canIssue wState wState.cur wThread (.jr d0 63) = true ∧ entryTrap wState wState.cur wThread (.jr d0 63) = some ⟨.operand, 63⟩)
    ∧ (let t := { wThread with csr := { wThread.csr with qhnd := 64 }, ports := wThread.ports.set 1 { Port.empty with inb := [⟨true, 9, .thr⟩] } }
      thread? (wWith t) probeLoc = some t ∧ ∀ i ∈ [Instr.mov d0 (.x 1) (.q 1), .st d0 false .d (.q 1) (m8 .rlx .thr)],
        canIssue (wWith t) probeLoc t i = true ∧ entryTrap (wWith t) probeLoc t i = none ∧ ctlPop t (usesOf i) = some 1) := by
  refine ⟨rfl, wState_thread, by decide +kernel, wWith_thread _, by decide +kernel⟩

/-! States in which events happen. -/

/-- A trap that is held. -/
def wReq : TrapReq := ⟨0x02, 9, 0, 0, false, 0⟩

/-- The state after its one line was filled with a word. -/
def codeState (w : Nat) : State := { State.reset.withFetchWord 80 w with cur := probeLoc }

theorem witness_TrapsAreTaken :
    wThread.csr.tvec = 0 ∧ probeLoc.clusterSup = false
    ∧ (let t := { wThread with csr := { wThread.csr with tvec := 64 } }
      t.csr.tvec ≠ 0 ∧ t.csr.tcause.getLsbD 63 = false)
    ∧ (let t := { wThread with trap := some wReq }
      thread? (wWith t) probeLoc = some t ∧ t.mode = .running ∧ drained t (wWith t).cycle = true)
    ∧ (let t := { wThread with gfault := some 2 }
      thread? (wWith t) probeLoc = some t ∧ t.trap = none ∧ t.pipe.annul = 0 ∧ drained t (wWith t).cycle = true)
    ∧ (∀ k ∈ [0, 3], let t := { wThread with pc := 1, pipe := { wThread.pipe with annul := k } }
      thread? (wWith t) probeLoc = some t ∧ mayHalt (wWith t) probeLoc t = true ∧ nextOf (wWith t) probeLoc t = .target)
    ∧ thread? (codeState 0xFFF) probeLoc = some wThread ∧ mayHalt (codeState 0xFFF) probeLoc wThread = true
    ∧ nextOf (codeState 0xFFF) probeLoc wThread = .illegal 0xFFF 1 ∧ illegalReady (codeState 0xFFF) probeLoc wThread 0xFFF = true := by
  refine ⟨rfl, rfl, ⟨by decide, rfl⟩, ⟨wWith_at _, rfl, by decide +kernel⟩, ⟨wWith_at _, rfl, rfl, by decide +kernel⟩, ?_, by decide +kernel⟩
  intro k hk
  refine ⟨wWith_at _, ?_, ?_⟩ <;> (revert k; decide +kernel)

/-- A token on its way to the thread. -/
def wToken : TokenMsg := ⟨3, 0, 5, 9, none, none, .bound⟩

/-- The thread with results under way, one of each kind, and a held interrupt. -/
def busyThread : Thread :=
  { wThread with
    pipe := { wThread.pipe with fixed := [⟨1, [wrX 1 1], 0⟩], results := [⟨2, 1, [wrX 2 2], 0, true⟩] } }

/-- The state in which a token is on its way to a thread. -/
def tokenState (t : Thread) : State := { wWith t with flight := { wState.flight with tokens := [wToken] } }

/-- A thread that may be interrupted. -/
def irqThread : Thread := { wThread with irqs := [.copy 64 9] }

/-- The state without code in its instruction cache, its page being `e`. -/
def fetchState (e : TlbEntry) : State := withTlb (setCore wState 0 { coreOf wState 0 with icache := [] }) [e]

theorem witness_PipelineEventsHappen :
    (thread? (wWith busyThread) probeLoc = some busyThread ∧ busyThread.pipe.fixed = [⟨1, [wrX 1 1], 0⟩] ∧ 1 ≤ (wWith busyThread).cycle + 1
      ∧ busyThread.pipe.results.find? (fun x => x.id = 2) = some ⟨2, 1, [wrX 2 2], 0, true⟩)
    ∧ ((tokenState wThread).flight.tokens.find? (fun x => x.id = wToken.id) = some wToken
      ∧ thread? (tokenState wThread) probeLoc = some wThread ∧ liveOf (tokenState wThread) 0 = some wThread ∧ wThread.ret = none)
    ∧ (let t := { wThread with ret := some sLoc }
      liveOf (tokenState t) 0 = some t ∧ locOf (tokenState t) 0 = some probeLoc ∧ t.ret ≠ none)
    ∧ (let t := { wThread with pipe := { wThread.pipe with annul := 1 } }
      thread? (wWith t) probeLoc = some t ∧ nextOf (wWith t) probeLoc t = .annul 0 1 ∧ mayRun t = true)
    ∧ (nextOf (fetchState probePage) probeLoc wThread = .fetch ∧ mayRun wThread = true ∧ beingSaved (fetchState probePage) probeLoc wThread = false
      ∧ ∃ s1, translate (fetchState probePage) (threadCtx probeLoc wThread) (pcLine wThread.pc) = (.leaf probePage, s1))
    ∧ (codeWays (coreOf (fetchState probePage) 0) (codeKey wThread 0)).length < 4
    ∧ (let e := { probePage with x := false }
      fetchAllowed (threadCtx probeLoc wThread) probePage = true ∧ fetchAllowed (threadCtx probeLoc wThread) e = false
        ∧ nextOf (fetchState e) probeLoc wThread = .fetch
        ∧ (lineAt (codeBytes (fetchState e) 0 0).bytes 0).isOk = true ∧ (lineAt (codeBytes (withWord (fetchState e) 0 0) 0 0).bytes 0).isOk = false)
    ∧ (let t := { wThread with pc := 0x0100000000000000 }
      nextOf (wWith t) probeLoc t = .fetch)
    ∧ (let t := { wThread with pc := 0x80000000000 }
      nextOf tableState probeLoc t = .fetch ∧ (∃ s1, translate tableState (threadCtx probeLoc t) (pcLine t.pc) = (.miss, s1)))
    ∧ (let s := setCore wState 0 { coreOf wState 0 with icache := [(0, ⟨singleLine 0, true⟩)] }
      nextOf s probeLoc wThread = .poison)
    ∧ (let t := { wThread with csr := { wThread.csr with slice := 1 }, sliceCount := 1 }
      thread? (wWith t) probeLoc = some t ∧ t.mode = .running ∧ t.csr.slice ≠ 0 ∧ t.csr.slice.toNat ≤ t.sliceCount ∧ t.expired = none)
    ∧ (thread? (wWith irqThread) probeLoc = some irqThread ∧ irqReady irqThread = true ∧ drained irqThread 0 = true) := by
  refine ⟨⟨wWith_at _, rfl, by decide +kernel⟩, ⟨by decide, by decide +kernel, by decide +kernel, rfl⟩,
    by decide +kernel, ⟨wWith_at _, by decide +kernel⟩,
    ⟨by decide +kernel, by decide +kernel, by decide +kernel, pair_of_fst (by decide +kernel)⟩,
    by decide +kernel, by decide +kernel, by decide +kernel, ⟨by decide +kernel, pair_of_fst (by decide +kernel)⟩,
    by decide +kernel, ⟨wWith_at _, rfl, by decide, by decide, rfl⟩, wWith_at _, by decide +kernel⟩

/-- A collective of a group. -/
def wColl (i : Instr) : Coll :=
  { gid := 5, instr := i, xa := 0, xb := 0, key := 0, members := [], ranks := [], rows := [], due := 0, todo := [], got := [], waits := none, adds := []
    app := none, pos := 0, spilled := 0, bad := false, stalled := false, since := 0, checked := 0 }

/-- The state with a matrix unit. -/
def withMx (m : Matrix) : State := setCluster wState 0 { cluster wState 0 with mx := m }

/-- The state with a collective in progress. -/
def collState (c : Coll) : State := withMx { Matrix.empty with groups := [wGroup], cur := some c }

/-- The member of a group that presents a store of the first eight bytes of slot 31, which its group holds, to address 0. -/
def storer : Member := ⟨0, 0, probeLoc, wRegs [(1, 0), (2, 0x0001000800000000)], ⟨.tst d0 31 1 2, 1, 0, 0⟩⟩

/-- The group as it presents that store. -/
def storeScene : Scene := ⟨withMx { Matrix.empty with groups := [wGroup], owners := [(31, 5)] }, 0, wGroup, [storer], storer⟩

/-- The record that ends a stream. -/
def endWord : Nat := 3 * 2 ^ 62 + 2 ^ 56

/-- The state with some bytes at the start of the stash. -/
def setStashBytes (s : State) (bs : List Byte) : State := setCluster s 0 { cluster s 0 with stash := atAddr 0 bs }

/-- The group as it presents a drain of the file that it holds, to address 0. -/
def drainScene (hash : Bool) (i : Instr) : Scene :=
  let m := { storer with shown := ⟨i, 1, 0, 0⟩ }
  ⟨withMx { Matrix.empty with groups := [wGroup], acc := { Matrix.empty.acc with owner := some 5, hash := hash } }, 0, wGroup, [m], m⟩

/-- The arguments of an MMA with its formats. -/
def wMma (f : Fmt) : MmaArgs := ⟨1, 2, 3, .m16n16k16, ⟨f, f, false, if f = .i8 then .i32 else .fp32⟩⟩

/-- An accumulator in hash mode of one way, empty or with one entry that fills every bucket of key 5. -/
def hashAcc (full : Bool) : Accum :=
  { Matrix.empty.acc with
    hash := true, lb := 0, ways := 1, bcap := 2, bbase := 16, table := if full then [(0, ⟨6, 0⟩)] else [] }

/-- A collective whose next step is an append, and the state with it, its Bracken at offset 16 holding a count. -/
def appendState (c : Coll) (n : Nat) : State :=
  let s := collState c
  setCluster s 0 { cluster s 0 with stash := atAddr 16 (leBytes 4 n), mx := { unitOf s 0 with acc := hashAcc true } }

theorem witness_CollectivesAct :
    (∀ x ∈ [storeScene, drainScene true (.drain d0 1), drainScene false (.drainT d0 1)], (planOf x).toOption.isSome = true)
    ∧ ((dimsOf .m16n16k16).2.1 + 0 ≤ 128 ∧ (wMma .i8).x.a = .i8 ∧ (wMma .i8).x.b = .i8 ∧ (wMma .fp16).x.scale = false
      ∧ numOf .fp32 0x3F800000 = .fin false (2 ^ 23) (-23)
      ∧ (List.range 16).all (fun q => numOf .fp16 (tileElem Matrix.empty 1 16 q) = .fin false 0 (-24)) = true)
    ∧ (directWord 0x0000FFFF80FFFF80 = some (2 ^ 24 - 128, 2 ^ 24 - 128) ∧ directWord 0x0000FFFF81000000 = none
      ∧ hashWord 0x0000000200000000 16 = some (0, 1, 2))
    ∧ ([(0, 2)] : List (Nat × Nat)).Nodup ∧ thread? (wWith busyThread) probeLoc = some busyThread ∧ (⟨2, 1, [wrX 2 2], 0, true⟩ : Result) ∈ busyThread.pipe.results
    ∧ (winIdx Matrix.empty.acc 0 127 = some 127 ∧ hashFind (hashAcc true) 6 = some 0 ∧ mget (hashAcc true).table 0 = some ⟨6, 0⟩
      ∧ hashFind (hashAcc true) 5 = none ∧ hashFree (hashAcc true) 5 = none ∧ hashFree (hashAcc false) 5 = some 0)
    ∧ (∀ c ∈ [{ wColl (.join d0 1 2) with adds := [(5, 1)] }, { wColl (.join d0 1 2) with app := some ⟨5, 1, none, false⟩ },
        { wColl (.join d0 1 2) with app := some ⟨5, 1, some 1, true⟩ }, { wColl (.ains d0 1 2) with rows := [[⟨0, 16, .stash 0 0, none⟩]] }],
      (unitOf (appendState c 1) 0).cur = some c ∧ c.waits = none ∧ c.stalled = false ∧ c.todo = [])
    ∧ (accumulate (hashAcc true) 5 1).isNone = true ∧ (accumulate (hashAcc true) 6 1).isSome = true
    ∧ (∀ n ∈ [1, 2], leNat (stashBytes (appendState (wColl (.join d0 1 2)) n) 0 16 4) = n)
    ∧ (keyedOf 1 5 = some (false, 5, 1) ∧ keyedOf 1 (2 ^ 63) = some (true, 0, 1)) := by
  refine ⟨by decide +kernel, by decide +kernel, by decide +kernel, by decide, wWith_at _, by simp [busyThread], by decide +kernel, ?_, by decide +kernel⟩
  intro c hc
  refine ⟨by simp [appendState, collState, withMx, unitOf], ?_⟩
  revert c hc
  decide +kernel

/-- A thread that presents CONVENE. -/
def presenter : Thread := { wThread with present := some ⟨.convene d0 5 0 0, 1, 0, 0⟩ }

/-- The state with a saved thread that is ready. -/
def savedState (busy : Bool) : State := setCluster wState 0 { cluster wState 0 with heath := [(0, savedRec busy)] }

/-- A thread on its way to another cluster. -/
def wMig (flying : Bool) : MigMsg := ⟨4, sThread, 3, flying, 0, 1⟩

/-- A thread that has waited 256 cycles at WAITF.PARK x5. -/
def parkThread : Thread := { wThread with regs := wThread.regs.setFull 5 false, waitSince := some 0 }

/-- The state with that thread. -/
def parkState : State := { setThread (codeState 0x5001921) probeLoc parkThread with cycle := 256 }

theorem witness_GroupAndMoveEventsHappen :
    (∀ a ∈ [(⟨probeLoc, presenter, 1, 5, ⟨.convene d0 5 0 0, 1, 0, 0⟩⟩ : AtPoint)], a.n = 1)
    ∧ (let s := setCluster (wWith presenter) 0 { cluster wState 0 with forming := [⟨0, 0, 0, [(0, 0)]⟩] }
      (cluster s 0).forming = [⟨0, 0, 0, [(0, 0)]⟩] ∧ ((clusterThreads s 0).filterMap (pointOf 0 0 0)).map AtPoint.mark = [(0, 0)]
        ∧ ((clusterThreads s 0).filter fun e => e.2.present.any fun p => [(0, 0)].contains (e.2.uid, p.order)).length = 1
        ∧ (cluster s 0).mx.groups = [])
    ∧ presenter.present = some ⟨.convene d0 5 0 0, 1, 0, 0⟩ ∧ [((0 : Nat), (1 : Nat))] ≠ []
    ∧ (let g := { wGroup with dissolving := true }
      let s := withMx { Matrix.empty with groups := [g] }
      groupOf s 0 5 = some g ∧ (unitOf s 0).cur = none)
    ∧ (let c := wColl (.tclaim d0 31)
      (unitOf (collState c) 0).cur = some c ∧ c.due + c.spilled ≤ (collState c).cycle ∧ (collStep (drawn (collState c)) 0).isNone
        ∧ holdsSlot (unitOf (collState c) 0) 5 31 = false)
    ∧ (planOf storeScene).toOption.isSome ∧ (∀ d ra rb, storeScene.lead.shown.instr ≠ .join d ra rb)
    ∧ (∀ bs : List Byte, bs.length = 4096 → (unitOf (collState { wColl (.tldPx d0 31 1 2) with got := bs }) 0).cur =
      some { wColl (.tldPx d0 31 1 2) with got := bs })
    ∧ (∀ m ∈ [Micro.read ⟨0, 8, .stash 0 0, none⟩, .write ⟨0, 8, .stash 0 0, none⟩ (List.replicate 8 0)],
      (unitOf (collState { wColl (.tst d0 31 1 2) with todo := [m] }) 0).cur = some { wColl (.tst d0 31 1 2) with todo := [m] })
    ∧ (let c := { wColl (.join d0 1 2) with rows := [[⟨0, 8, .stash 0 0, none⟩]], got := leBytes 8 endWord, todo := [.read ⟨0, 8, .stash 0 0, none⟩] }
      let s := setStashBytes (collState c) (leBytes 8 endWord)
      let bs := c.got ++ (readPiece s 0 0 ⟨0, 8, .stash 0 0, none⟩).1
      (unitOf s 0).cur = some c ∧ bytesIn (c.rows.headD []) = 8 ∧ streamOf joinFmt (wordsLe ((bs.take 8).length / 8) (bs.take 8)) [] (.top false) = some []
        ∧ streamOf joinFmt (wordsLe ((bs.drop 8).length / 8) (bs.drop 8)) [] (.top false) = some [])
    ∧ (let c := { wColl (.ains d0 1 2) with stalled := true }
      let s := fun (n : Nat) => { collState c with
        clusters := [(0, { cluster (collState c) 0 with
          stash := atAddr 0 (leBytes 4 1), mx := { unitOf (collState c) 0 with acc := { (unitOf (collState c) 0).acc with bcap := n } } })] }
      (unitOf (s 2) 0).cur = some c ∧ brackenCount (s 2) 0 (unitOf (s 2) 0).acc < (unitOf (s 2) 0).acc.bcap
        ∧ (unitOf (s 1) 0).acc.bcap ≤ brackenCount (s 1) 0 (unitOf (s 1) 0).acc)
    ∧ (let s := collState (wColl (.mma d0 .m16n16k16 5 1 2 3 true))
      groupOf s 0 5 = some wGroup ∧ (fmtCtx wGroup.word).isSome ∧ wGroup ∈ (unitOf s 0).groups)
    ∧ ((cluster parkState 0).saves = [] ∧ maySave parkState probeLoc parkThread = true)
    ∧ (let s := setCluster wState 0 { cluster wState 0 with saves := [⟨0, none⟩] }
      (cluster s 0).saves = [⟨0, none⟩] ∧ neverSaved s probeLoc wThread = false ∧ quiet wThread = true ∧ drained wThread 0 = true
        ∧ hasRoom s probeLoc wThread = true)
    ∧ (∀ b, nextRestore (savedState b) 0 = some (0, savedRec b) ∧ restoreSlot (savedState b) 0 (savedRec b) = some ⟨0, 0, 2⟩)
    ∧ (mwf wState.threads = true ∧ (cluster wState 0).maps = [] ∧ mwf (cluster wState 0).view = true)
    ∧ (let s := fun (b : Bool) => { wState with flight := { wState.flight with migs := [wMig b] } }
      (∀ b, (s b).flight.migs.find? (fun x => x.id = 4) = some (wMig b)) ∧ (arrivalSlot (s true) (wMig true)).isSome
        ∧ (wMig false).due ≤ (s false).cycle
        ∧ arrivalSlot { s true with threads := (List.range 16).map fun k => ((⟨3, k / 4, 128 + k % 4⟩ : Loc).key, wThread) } (wMig true) = none) := by
  refine ⟨by simp, by decide +kernel, rfl, by decide, by decide +kernel,
    by decide +kernel, by decide +kernel, fun _ _ _ => by simp [storeScene, storer],
    fun bs _ => by simp [collState, withMx, unitOf], ?_, by decide +kernel, by decide +kernel, by decide +kernel, by decide +kernel,
    by decide +kernel, fun b => by cases b <;> decide +kernel, by decide +kernel, fun b => by cases b <;> decide +kernel, by decide +kernel, by decide, ?_⟩
  · simp [collState, withMx, unitOf]
  · decide +kernel

/-- A message of the rfl loads. -/
def wSub (b : SubBody) : State := { wState with flight := { wState.flight with subMsgs := [⟨2, 0, 0, 1023, b⟩] } }

/-- A collapse. -/
def wCollapse : Collapse := ⟨6, 0, 0, 65536, 0, 0, 0⟩

/-- The state with a half that the host holds. -/
def heldState : State := { wState with store := { wState.store with hostHeld := [⟨2, some 63⟩] } }

/-- The state with a KEYRET under way. -/
def keyretState (k : Nat) : State := { wState with flight := { wState.flight with keyrets := [⟨0, 5, k, 9⟩] } }

/-- The state with a result of the boot. -/
def bootState (n : Nat) : State := setBar wState { wState.ctl.bar with bootstat := n }

/-- A line of home memory in its L2 slice, clean or dirty. -/
def l2State (dirty : Bool) : State := { wState with store := { wState.store with l2 := [(homeSlice 128, [(1, dirty)])] } }

/-- The state with a KEYRET under way and a byte of a cluster held dirty under its key. -/
def retireState : State := setCluster (keyretState 63) 0 { cluster wState 0 with view := [(vkey 63 0, ⟨7, true⟩)] }

/-- That cluster alone holds the byte. -/
theorem retire_alone (c : Nat) (v : VByte) (hc : c ≠ 0) : heldView retireState c 63 0 ≠ some v := by
  have h := every_cluster (s := wState) (p := fun k => decide (k.view = [])) (by decide +kernel) (by decide +kernel) c
  rw [heldView, retireState, cluster_setCluster_ne _ _ hc]
  rw [show cluster (keyretState 63) c = cluster wState c by simp only [cluster, keyretState], of_decide_eq_true h]
  simp [mget]

theorem witness_MemoryEventsHappen :
    plainAt wState 0 (0 * 128) 128 ∧ (∀ b, replOf heldState b = none)
    ∧ (wState.store.redirects = [] ∧ mwf (cluster wState 0).view = true ∧ (2 ^ 16 : Nat) ∈ [2 ^ 16, 2 ^ 21, 2 ^ 25, 2 ^ 30] ∧ hasHome 0 = true
      ∧ hasHome 65536 = true ∧ wState.store.subTable = [] ∧ mwf wState.store.home = true ∧ mwf wState.store.homeKey = true)
    ∧ (let t := { wThread with pipe := { wThread.pipe with acc := [{ Access.blank with id := 1, place := .mem 8 }] } }
      thread? (wWith t) probeLoc = some t)
    ∧ ({ wState with store := { wState.store with collapses := [wCollapse] } } : State).store.collapses.find? (fun x => x.id = 6) = some wCollapse
    ∧ (spaceOf (0 * 64) = 0 ∧ spaceOf (2 ^ 45 * 64) = 2 ∧ heldByHost wState 2 = false ∧ heldByHost heldState 2 = true
      ∧ isFenced heldState (2 * 64) = false ∧ (∀ h ∈ heldState.store.hostHeld, h.half = 2 → h.key = some 63)
      ∧ insertSub (tableOf wState 0) 1 ⟨0, 1023, 0, 4⟩ = some ([⟨0, 1, [⟨0, 1023, 0, 4⟩]⟩], 0))
    ∧ (∀ b, subMsg (wSub b) 2 = some ⟨2, 0, 0, 1023, b⟩)
    ∧ requestFree (wSub (.request 8 4 0 0 5 9)) 0 9 = true ∧ noneEnded wState
    ∧ (let full := (List.range 256).map fun k => (⟨k, k + 2, [⟨0, 0, 0, 4⟩]⟩ : SubEntry)
      insertSub full 1 ⟨0, 1023, 0, 4⟩ = none)
    ∧ (slotOf (setSlot wState 0 1023 { SubSlot.zero with sub := true }) 0 (BitVec.ofNat 64 1023)).sub = true
    ∧ liveOf (wSub (.marker 0 5)) 0 = some wThread
    ∧ (∀ k ∈ [63, 64], (keyretState k).flight.keyrets[0]? = some ⟨0, 5, k, 9⟩) ∧ accPending (keyretState 63) (0, 9) = false
    ∧ (bootFailed heldState = false ∧ bootFailed (bootState 2) = true ∧ heldByHost (l2State true) (128 / 64) = false ∧ hasHome 128 = true
      ∧ ∃ x ∈ l2Of (l2State true) (homeSlice 128), x.1 % 2 ^ 45 = 2 / 2 ∧ x.2 = true)
    ∧ (retireState.flight.keyrets[0]? = some ⟨0, 5, 63, 9⟩ ∧ accPending retireState (0, 9) = false ∧ retireState.store.redirects = []
      ∧ retireState.store.hostHeld = [] ∧ isFenced retireState 0 = false ∧ heldView retireState 0 63 0 = some ⟨7, true⟩)
    ∧ replFree retireState ∧ (∀ c, (cluster retireState c).maps = []) ∧ ∀ c v, c ≠ 0 → heldView retireState c 63 0 ≠ some v := by
  refine ⟨plain_bytes, no_repl rfl (by decide +kernel), by decide +kernel, by decide +kernel, by decide, by decide +kernel, fun b => by simp [subMsg, wSub], by decide +kernel, ?_,
    by decide +kernel, by decide +kernel, by decide +kernel, fun k _ => rfl, by decide +kernel, by decide +kernel, by decide +kernel,
    repl_free (by decide +kernel) (by decide +kernel) (by decide +kernel),
    fun c => of_decide_eq_true (every_cluster (s := retireState) (p := fun k => decide (k.maps = [])) rfl (by decide +kernel) c), retire_alone⟩
  unfold noneEnded
  decide +kernel

/-- The state with a copy. -/
def copyState (c : CopyOp) : State := { wState with flight := { wState.flight with copies := [c] } }

/-- A thread with a word in a replay window, bound to itself by number or to an empty slot. -/
def sender (desc : BitVec 32) (flying : Bool) : Thread :=
  setPort wThread 3 { Port.empty with desc := desc, win := [⟨⟨false, 9, .thr⟩, desc, 9, flying, 0, 1⟩] }

/-- A thread in the next slot. -/
def listener : Thread := { probeThread 1 with origin := ⟨0, 0, 2⟩ }

/-- Eight words. -/
def eightWords : List PWord := List.replicate 8 ⟨false, 1, .thr⟩

theorem witness_CopyAndPortEventsHappen :
    (∀ c, (copyState c).flight.copies.find? (fun x => x.id = c.id) = some c)
    ∧ ((let c := wCopy 0 [(0, 128)] []
      copyActs (copyState c) c = [.read 0 128] ∧ copiesBefore (copyState c) c.uid c.id = [] ∧ copyEarlier (copyState c) c = [] ∧ c.wb = false)
    ∧ (let c := { wCopy 0 [(0, 128)] [] with wb := true }
      copyActs (copyState c) c = [.writeBack] ∧ copyEarlier (copyState c) c = [])
    ∧ (let c := wCopy 0 [(0, 128)] []
      let t := { wThread with pipe := { wThread.pipe with acc := [{ Access.blank with id := 1, kind := .store, place := .stash 0 0, n := 8 }] } }
      let s := { copyState c with threads := (wWith t).threads }
      (∃ a ∈ copyEarlier s c, c.follows false (stretch s c.srcAt 0 128) a = true) ∧ copyActs s c = [])
    ∧ (∀ i, i < 128 → stashPoisoned wState 0 i 1 = false))
    ∧ (let c := wCopy 0 [] [(0, List.replicate 128 1)]
      c.op = 0 ∧ ∀ p ∈ c.got, ∀ q ∈ c.chunks, c.line q.1 ≠ c.line p.1)
    ∧ (let c := wCopy 1 [(128, 8)] [(0, List.replicate 128 1)]
      c.op ≠ 0 ∧ (∀ q ∈ c.chunks, c.line 0 < c.line q.1) ∧ seqFree (copyState c) c (c.line 0) = true ∧ 0 < c.width ∧ c.w2.getLsbD 48 = true
        ∧ c.w2.getLsbD 40 = true ∧ stashPoisoned (copyState c) 0 128 128 = false)
    ∧ (let c := { wCopy 0 [] [] with ready := true }
      c.packet = none ∧ c.deposited = false ∧ c.send = none)
    ∧ (let c := { wCopy 0 [] [] with ready := true, deposited := true, send := some (3, 0xFFE00010, .thr) }
      (∀ m ∈ (copyState c).flight.tokens, m.copy ≠ some c.id) ∧ sendRoom (copyState c) c = true ∧ locOf (copyState c) 0 = some probeLoc
        ∧ liveOf (copyState c) 0 = some wThread ∧ thread? (copyState c) probeLoc = some wThread)
    ∧ (let t := sender 0xFFE00010 true
      originOf (wWith t) probeLoc = some t ∧ (portOf t 3).win = [⟨⟨false, 9, .thr⟩, 0xFFE00010, 9, true, 0, 1⟩]
        ∧ accPending (wWith t) (0, 9) = false ∧ boundHere (wWith t) 0xFFE00010 = true ∧ t.exiting = false)
    ∧ originOf (wWith (sender 0xFFE00070 true)) (boundLoc 0xFFE00070) = none
    ∧ (∀ n ∈ [7, 8], let u := setPort listener 0 { Port.empty with inb := eightWords.take n }
      let s := setThread (wWith (sender 0xFFE00020 true)) ⟨0, 0, 2⟩ u
      originOf s (boundLoc 0xFFE00020) = some u ∧ thread? s ⟨0, 0, 2⟩ = some u ∧ u.uid ≠ wThread.uid ∧ (portOf u 0).inb.length = n)
    ∧ (∀ b, let s := setCluster sState 0 { cluster sState 0 with faultWin := [⟨⟨true, 9, .thr⟩, 0, 9, b, 0, 1⟩] }
      (cluster s 0).faultWin = [⟨⟨true, 9, .thr⟩, 0, 9, b, 0, 1⟩] ∧ originOf s sLoc = some sThread ∧ thread? s sLoc = some sThread
        ∧ (portOf sThread 7).inb.length < 8)
    ∧ (∀ n ∈ [28, 29], let w : SentWord := ⟨⟨true, 9, .thr⟩, 0, 9, true, 0, 1⟩
      let s := setCluster wState 0 { cluster wState 0 with faults := [[1, 2, 3, 4]], faultWin := List.replicate n w }
      (cluster s 0).faults = [[1, 2, 3, 4]] ∧ (cluster s 0).faultWin.length = n) := by
  refine ⟨fun c => by simp [copyState], by decide +kernel, by decide +kernel, by decide +kernel, ⟨rfl, rfl, rfl⟩, by decide +kernel, by decide +kernel, by decide +kernel⟩

/-- The state with a queue. -/
def withQueue (q : Queue) : State := setQueue wState 0 q

theorem witness_HostEventsHappen :
    (0 + 64 ≤ wState.ctl.bar.bar2size ∧ wState.ctl.bar.hdmBase ≤ 0 ∧ 0 + 64 ≤ wState.ctl.bar.hdmBase + 2 ^ 40 ∧ 64 + 64 ≤ 2 ^ 40
      ∧ wState.store.redirects = [] ∧ bootFailed wState = false ∧ (∀ b, replOf wState b = none) ∧ (∀ key, hostHolds wState key 64 64 = false)
      ∧ heldHome wState 0 0 = some ((singleLine 0).headD 0))
    ∧ (let s := setBar wState { wState.ctl.bar with bar2win := 2 ^ 40 }
      2 ^ 40 < s.ctl.bar.bar2win + 0 + 1 ∧ 0 + 1 ≤ s.ctl.bar.bar2size)
    ∧ (wState.ctl.bar.bar2size < (2 ^ 28 - 63) + 64 ∧ (setHdmBase wState 1).ctl.bar.hdmBase = 1 ∧ wState.ctl.bar.hdmBase + 2 ^ 40 < (2 ^ 40 - 63) + 64)
    ∧ (bootFailed (bootState 2) = true ∧ (bootState 2).ctl.bar.bootstat = 2 ∧ (bootState 3).ctl.bar.bootstat = 3 ∧ 0x10000 ≤ 0x80000)
    ∧ wState.ctl.bar.bootstat ≠ 2 ∧ wState.ctl.bar.bootstat ≠ 3 ∧ (queueOf wState 0).en = false ∧ ((7 : Word) &&& 0xFF).toNat < 8
    ∧ (queueOf (withQueue { Queue.empty with en := true, dev := true }) 0).dev = true
    ∧ (let s := withQueue { Queue.empty with en := true, logn := 4 }
      (queueOf s 0).en = true ∧ 2 ^ (queueOf s 0).logn < ((17 : BitVec 32) - (queueOf s 0).rdidx).toNat
        ∧ ((16 : BitVec 32) - (queueOf s 0).rdidx).toNat ≤ 2 ^ (queueOf s 0).logn)
    ∧ 2 ^ 4 < (queueOf (withQueue { Queue.empty with doorbell := 17 }) 0).waiting
    ∧ wState.ctl.bar.sstate ≠ 1 ∧ wState.ctl.bar.fmode.getLsbD 0 = false ∧ ((mget wState.ctl.mailboxes 0).getD []).length < 16
    ∧ ((mget ({ wState.ctl with mailboxes := [(0, List.replicate 16 0)] } : Control).mailboxes 0).getD []).length = 16
    ∧ (let s := setBar wState { wState.ctl.bar with fmode := 1 }
      s.ctl.bar.fmode.getLsbD 0 = true ∧ ((0, 5) : Nat × BitVec 512) ∉ s.ctl.replies
        ∧ ((0, 5) : Nat × BitVec 512) ∈ ({ s.ctl with replies := [(0, 5)] } : Control).replies)
    ∧ wState.ctl.bar.hmwr - wState.ctl.bar.hmrd < 2 ^ wState.ctl.bar.hmlog
    ∧ (let c : Control := { wState.ctl with outbox := [(0, 5)], bar := { wState.ctl.bar with hmwr := 2 ^ wState.ctl.bar.hmlog } }
      ((0, 5) : Nat × BitVec 512) ∈ c.outbox ∧ ((0, 6) : Nat × BitVec 512) ∉ c.outbox ∧ 2 ^ c.bar.hmlog ≤ c.bar.hmwr - c.bar.hmrd) := by
  refine ⟨⟨by decide, by decide, by decide, by decide, rfl, by decide +kernel, no_repl rfl (by decide +kernel), fun key => nothing_held rfl key 64 64, by decide +kernel⟩, by decide +kernel,
    ⟨by decide, rfl, by decide⟩, by decide +kernel, by decide +kernel⟩

/-- The words of a packet of a type of queue 0. -/
def wPacket (type : Nat) (phase : Phase) : Packet := ⟨8, 0, [BitVec.ofNat 64 type, 0, 0, 0, 0, 0, 0, 0], 0, 0, false, none, phase, 0, 0, [], false⟩

/-- The state with a packet. -/
def packetState (p : Packet) : State := { wState with ctl := { wState.ctl with packets := [p] } }

/-- A task record of one thread. -/
def wTask : TaskRec := ⟨0, 0, 0, 0, 0, 0, 0, 0, 0, 2, false, false, 1, 1, 0⟩

/-- A record on its way. -/
def wTaskMsg (flying : Bool) : TaskMsg := ⟨wTask, 0, 1, flying, 0, 1⟩

/-- A launch of one gang, and the state with it. -/
def wLaunch (started : Bool) : Launch := ⟨8, 0, started, [1, 0, 0, 0, 0x100000001, 0, 0, 0], 0, 0, List.replicate 7 (0, 0) ++ [(0, 1)], 0, false⟩

/-- The state with that launch and its packet. -/
def launchState (started : Bool) : State :=
  { packetState (wPacket 1 .started) with ctl := { (packetState (wPacket 1 .started)).ctl with launches := [wLaunch started] } }

/-- The state with a page in the TLB of die 0. -/
def agentState (s : State) : State := setDie s 0 { dieOf s 0 with tlb := [probePage] }

/-- The state in which die 7 has two gangs of that launch left. -/
def launchState2 : State :=
  { launchState true with ctl := { (launchState true).ctl with launches := [{ wLaunch true with ranges := List.replicate 7 (0, 0) ++ [(0, 2)] }] } }

/-- A queue held at address 0 for a packet. -/
def heldQueue (en reported : Bool) : State :=
  let s := withQueue { Queue.empty with en := en, qstate := 2, holdlim := 1, heldPkt := 8, reported := reported }
  { s with cycle := 2, ctl := { s.ctl with packets := [wPacket 2 .started] } }

/-- An INDIRECT of one packet, started. -/
def longIndirect : Packet := { wPacket 6 .started with words := [6, 0, 1, 0, 0, 0, 0, 0] }

/-- Of one INDIRECT that can go on there is no choice. -/
theorem one_indirect {s : State} {p : Packet} (h : indirects s = [p]) : indirectNow s = some p := by
  simp [indirectNow, h, takeChoice, choose, Nat.mod_one]

theorem witness_QueueEventsHappen :
    (newLaunch (packetState (wPacket 1 .accepted)) = some (wPacket 1 .accepted)
    ∧ (let s := withQueue { Queue.empty with en := true, logn := 4, doorbell := 1, qstate := 1 }
      (nextGrant (readHeads s)).isSome ∧ journalFree (readHeads s) = true)
    ∧ ((launchState false).ctl.launches.find? (fun y => y.packet = 8) = some (wLaunch false)
      ∧ mayStart (launchState false) (wPacket 1 .started) = true))
    ∧ (accepted (packetState (wPacket 2 .accepted)) 2 = some (wPacket 2 .accepted)
      ∧ (queueOf (packetState (wPacket 2 .started)) 0).qstate ≠ 2 ∧ (queueOf (packetState (wPacket 2 .started)) 0).qstate ≠ 3
      ∧ packetType (wPacket 2 .started).words = 2)
    ∧ ((agentRead tableState (packetCtx tableState (wPacket 2 .started)) 0x80000000000).1 = none
    ∧ (∀ k ∈ [2, 3], let s := setQueue tableState 0 { Queue.empty with qstate := k }
      (queueOf s 0).qstate = k ∧ (agentRead s (packetCtx s (wPacket 2 .started)) 0x80000000000).1 = none)
    ∧ (agentRead (agentState wState) (packetCtx wState (wPacket 2 .started)) 0).1.isSome)
    ∧ (accepted (packetState (wPacket 3 .accepted)) 3 = some (wPacket 3 .accepted)
    ∧ accepted (packetState (wPacket 4 .accepted)) 4 = some (wPacket 4 .accepted)
    ∧ (packetState (wPacket 5 .accepted)).ctl.packets.find? (fun x => x.phase = .accepted && packetType x.words = 5
      && earlierDone (packetState (wPacket 5 .accepted)) x) = some (wPacket 5 .accepted))
    ∧ (∀ ph ∈ [Phase.started, .accepted], indirectNow (packetState (wPacket 6 ph)) = some (wPacket 6 ph))
    ∧ (indirectNow (packetState longIndirect) = some longIndirect ∧ longIndirect.next < field (word longIndirect.words 2) 0 13
      ∧ journalFree (packetState longIndirect) = true)
    ∧ ((queueOf (heldQueue true false) 0).qstate = 2 ∧ (queueOf (heldQueue true false) 0).en = true ∧ (queueOf (heldQueue false true) 0).en = false
      ∧ (queueOf (heldQueue false true) 0).reported = true ∧ (queueOf (heldQueue true false) 0).reported = false
      ∧ 0 < (queueOf (heldQueue true false) 0).holdlim
      ∧ (queueOf (heldQueue true false) 0).holdlim < (heldQueue true false).cycle - (queueOf (heldQueue true false) 0).heldAt
      ∧ journalFree (heldQueue true false) = true
      ∧ (heldQueue true false).ctl.packets.find? (fun x => x.id = (queueOf (heldQueue true false) 0).heldPkt) = some (wPacket 2 .started)
      ∧ (agentPa (agentState (heldQueue true false)) (agentCtx 0 0 0) ⟨true, false⟩ 0).1.isSome)
    ∧ ((nextGang (launchState true) 7).isSome ∧ (dieOf (launchState true) 7).task = none)
    ∧ (qualifies (launchState true) wTask (32 * 7) = true ∧ ∃ x, stealable (launchState2) = some x ∧ nextGang launchState2 0 = none)
    ∧ (let s := setDie wState 0 { Die.empty with task := some (wTaskMsg true) }
      (dieOf s 0).task = some (wTaskMsg true) ∧ (coreOf s 1).inbox.length < 4)
    ∧ (let s := setCore (setDie wState 0 { Die.empty with task := some (wTaskMsg true) }) 1 { coreOf wState 1 with inbox := List.replicate 4 wTask }
      4 ≤ (coreOf s 1).inbox.length ∧ (wTaskMsg false).flying = false ∧ (wTaskMsg false).due ≤ s.cycle)
    ∧ (let s := setCore wState 1 { coreOf wState 1 with inbox := [wTask] }
      (coreOf s 1).inbox = [wTask] ∧ (cluster s 0).closed = false ∧ ((slotsInOrder s 0 1).take wTask.g).length = wTask.g
        ∧ inPartition s wTask 0 = true ∧ inPartition (setCore s 0 { coreOf s 0 with p64 := true }) wTask 0 = false)
    ∧ (launchState true).ctl.launches.find? (fun y => y.started && y.lnch = 0 && unfinished (launchState true) y) = some (wLaunch true)
    ∧ (∀ t ∈ liveThreads (packetState (wPacket 1 .started)), ofLaunch 9 t = false) ∧ ∃ t ∈ liveThreads (launchState true), ofLaunch 0 t = true := by
  refine ⟨by decide +kernel, by decide +kernel, by decide +kernel, by decide +kernel, fun ph h => one_indirect (by revert ph h; decide +kernel),
    ⟨one_indirect (by decide +kernel), by decide +kernel⟩, by decide +kernel, by decide +kernel, ⟨by decide +kernel, ?_⟩, by decide +kernel,
    by decide +kernel, by decide +kernel, by decide +kernel⟩
  exact ⟨_, Option.some_get (by decide +kernel) |>.symm, Option.isNone_iff_eq_none.mp (by decide +kernel)⟩

/-- The state with a request under way. -/
def requestState (cmd k : Nat) : State :=
  setBar wState { wState.ctl.bar with sstate := 1, scmd := cmd, sreq := [(0, BitVec.ofNat 64 k)] }

theorem witness_ControlEventsHappen :
    ((requestState 1 0).ctl.bar.sstate = 1 ∧ (requestState 1 0).ctl.bar.scmd = 1)
    ∧ ((requestState 3 63).ctl.bar.scmd = 3 ∧ leNat (reqBytes (requestState 3 63) 0 8) = 63 ∧ mwf (requestState 3 63).store.homeKey = true)
    ∧ leNat (reqBytes (requestState 2 64) 0 8) = 64 ∧ leNat (reqBytes (requestState 2 0) 0 8) = 0
    ∧ ((8 : Nat) ≤ 8 ∧ ¬ (9 : Nat) ≤ 8) ∧ (525 % 25 = 0 ∧ wState.ctl.bar.tmax < 105 ∧ ¬(500 ≤ 510 ∧ 510 ≤ 1500 ∧ 510 % 25 = 0 ∧ (wState.ctl.bar.tmax < 105 ∨ 510 = 500)))
    ∧ ((setBar wState { wState.ctl.bar with tmax := 105 }).ctl.bar.tmax = 105 ∧ ¬ 105 < 105)
    ∧ ((∃ x ∈ l2Of (l2State true) (homeSlice 128), x.1 % 2 ^ 45 = 128 / 128 ∧ x.2 = true)
      ∧ (∀ x ∈ l2Of (l2State false) (homeSlice 128), x.1 % 2 ^ 45 = 128 / 128 → x.2 = false) ∧ hasHome 128 = true
      ∧ homeSlice 128 = 256 * (0 % 8) + sliceOf 128 ∧ mwf (l2Of (l2State true) (homeSlice 128)) = true ∧ wState.store.hbmPoison = []
      ∧ l2Of wState (homeSlice 128) = [] ∧ hasHome (3 * 2 ^ 50) = false)
    ∧ (mget (cluster (savedState false) 0).heath 0 = some (savedRec false) ∧ 191 % 2 ^ 20 < 0 + (savedRec false).size)
    ∧ thread? wState ⟨0, (256 + 63) / 65536 % 4, (256 + 63) / 256 % 256⟩ = some wThread
    ∧ (575 ≠ wState.ctl.bar.pkgnum ∧ wState.ctl.bar.pkgnum < 576 ∧ wState.ctl.launches = []) ∧ State.reset.ctl.bar.bootstat = 0
    ∧ thread? (sWith { sThread with mode := .halted 0 } wThread) ⟨0, 0, 0⟩ = some { sThread with mode := .halted 0 }
    ∧ thread? sState ⟨0, 0, 0⟩ = some sThread ∧ sThread.mode = .running := by
  refine ⟨⟨rfl, rfl⟩, ⟨rfl, by decide +kernel⟩, by decide +kernel, by decide +kernel, by decide, by decide, ⟨rfl, by decide⟩,
    by decide +kernel, by decide +kernel, by decide +kernel, ⟨by decide, by decide, rfl⟩, rfl, by decide +kernel,
    by decide +kernel, rfl⟩

/-- A thread with one load of 8 bytes. -/
def accThread (todo : List Act) (stalled : Option Nat) : Thread :=
  { wThread with pipe := { wThread.pipe with
      acc := [{ Access.blank with id := 1, kind := .load, place := .mem 8, n := 8, todo := todo, stalled := stalled }] } }

/-- An atomic on those bytes. -/
def wRmw : Access := { Access.blank with id := 1, kind := .rmw .fadd, place := .mem 0, n := 4 }

theorem witness_ActionsTouchTheirBytes :
    (let t := accThread [.localRead 0 8] none;
      thread? (wWith t) probeLoc = some t ∧ t.pipe.pack = none ∧ (performFor (wWith t) 0 t 1).isSome
        ∧ ∃ a, t.pipe.acc.find? (fun x => x.id = 1) = some a ∧ accessFree (wWith t) t a = true ∧ actReady (wWith t) 0 a (.localRead 0 8) = true
          ∧ nextAct (wWith t) a.todo = some (.localRead 0 8, []) ∧ a.atRmw = false ∧ teamReady (wWith t) a (matesOf (wWith t) 0 1) = true)
    ∧ (let b := { wRmw with id := 2, team := [(0, 1)], todo := [.localRmw] }
      let t := { wThread with pipe := { wThread.pipe with acc := [{ wRmw with todo := [.localRmw] }, b] } }
      teamReady (wWith t) b (matesOf (wWith t) 0 2) = false ∧ (matesOf (wWith t) 0 1).map (·.acc) = [b])
    ∧ (wbReady viewState 0 0 0 = true ∧ lineStall wState 0 0 0 = none ∧ (List.range 4).all (fun i =>
        (heldView viewState 0 0 i).map (·.val) = some 7 && !viewPoisoned viewState 0 0 i) = true ∧ wRmw.n ≤ 16 ∧ 0 / 128 = (0 + wRmw.n - 1) / 128)
    ∧ plainAt viewState 0 (0 / 128 * 128) 128
    ∧ ((List.range 128).all (fun i => (heldView wState 0 0 i).isNone) = true ∧ wState.store.hbmPoison = [] ∧ homeBad wState 0 4 = false
      ∧ (List.range 4).all (fun i => (heldHome wState 0 i).isSome) = true)
    ∧ (let t := accThread [] none
      ∃ a, t.pipe.acc.find? (fun x => x.id = 1) = some a ∧ accessFree (wWith t) t a = true ∧ a.todo = [])
    ∧ (let t := accThread [] (some 6)
      ∃ a, t.pipe.acc.find? (fun x => x.id = 1) = some a ∧ accessFree (wWith t) t a = false)
    ∧ lineActs [.rangeLine 1, .rangeLine 2] = true ∧ lineActs [.wbStart, .homeWrite 0 8] = false ∧ halfPair .wbStart (.homeWrite 0 8) = false
    ∧ halfPair (.homeRead 0 8) (.homeRead 8 8) = true ∧ lineActs [.homeRead 0 8, .homeRead 8 8] = false
    ∧ plainAt wState 0 0 128 ∧ 8 / 128 = (8 + 120 - 1) / 128 ∧ mwf (cluster wState 0).view = true
    ∧ (setLines (cluster wState 0) (vkey 0 0 / 128)).length < 16
    ∧ (let t := accThread [.homeRead 0 8] none
      let s := { wWith t with store := { wState.store with hostHeld := [⟨0, some 0⟩] } }
      ∃ a, t.pipe.acc.find? (fun x => x.id = 1) = some a ∧ nextAct s a.todo = some (.homeRead 0 8, []) ∧ actReady s 0 a (.homeRead 0 8) = false
        ∧ hostHolds s a.key (8 + 0) 8 = true ∧ (cluster s 0).maps = [] ∧ heldView s 0 a.key 8 = none ∧ halfHeld s a.key (8 / 64) = true)
    ∧ (redirectOf { wState with store := { wState.store with redirects := [⟨0, 65536, 65536⟩] } } 0).isSome = true
    ∧ (mappedLine mappedState 0 0 2 0 ∧ (∀ i, 0 ≤ i → i < 0 + 1 → heldMapped mappedState 0 (0 + i) ≠ none) ∧ heldStash mappedState 0 0 = some 7) := by
  refine ⟨⟨wWith_at _, rfl, by decide +kernel, _, rfl, by decide +kernel, by decide +kernel, rfl, rfl, by decide +kernel⟩, by decide +kernel, by decide +kernel,
    ⟨by decide +kernel, by decide +kernel, fun key => nothing_held (by decide +kernel) key 0 128, by decide +kernel,
      no_repl (by decide +kernel) (by decide +kernel), by decide⟩, by decide +kernel, ⟨_, rfl, by decide +kernel, rfl⟩,
    ⟨_, rfl, by decide +kernel⟩, rfl, rfl, rfl, rfl, rfl, plain_bytes, by decide, by decide +kernel, ?_, ⟨_, rfl, by decide +kernel, by decide +kernel⟩,
    by decide +kernel, mapped_line, fun i _ h => by rw [(by omega : i = 0)]; decide +kernel, by decide +kernel⟩
  rw [(by rfl : setLines (cluster wState 0) (vkey 0 0 / 128) = [])]
  decide

theorem witness_RegisterInstructionsFrame : registerOnly (.add d0 .d (.x 1) (.x 2) (.x 3)) = true
    ∧ wIssue [.add d0 .d (.x 1) (.x 2) (.x 3)] ∧ (∃ s', exec (.add d0 .d (.x 1) (.x 2) (.x 3)) wState = .next s')
    ∧ (wrX 0 5).dest = .x 0 ∧ (wrX 63 5).dest = .x 63 ∧ (wrV 63 5).dest = .v 63
    ∧ thread? (wWith busyThread) probeLoc = some busyThread ∧ ∃ s', exec (.fixedResultWrite probeLoc) (wWith busyThread) = .next s' := by
  refine ⟨rfl, all_issue wState_thread (by decide +kernel), ?_, rfl, rfl, rfl, wWith_at _, ?_⟩
  · have h : Issues wState wThread (.add d0 .d (.x 1) (.x 2) (.x 3)) := issuesNow_sound wState_thread (by decide +kernel)
    exact ⟨_, issueFixed_of_issues h (.x 1) fun t => (intOp intAdd .d (oval t (.x 2)) (oval t (.x 3)), 0)⟩
  · exact ⟨_, rfl⟩

theorem witness_StepRunsTheDecodedInstruction :
    wState.issueQ = [(true, probeLoc)] ∧ thread? wState probeLoc = some wThread
    ∧ heldLine wState probeLoc wThread wThread.pc = .held ⟨singleLine 0, false⟩ ∧ wThread.pipe.annul = 0
    ∧ lineAt (singleLine 0) (wThread.pc.toNat % 64) = .ok (0, 1) ∧ decodeWord 0 = .ok (.nop false)
    ∧ lineAt (singleLine 0xFFF) 0 = .ok (0xFFF, 1) ∧ decodeWord 0xFFF = .error .opcode ∧ lineAt (singleLine 0) 1 = .error .index
    ∧ heldLine (fetchState probePage) probeLoc wThread wThread.pc = .miss
    ∧ heldLine (fetchState { probePage with x := false }) probeLoc wThread wThread.pc = .denied 0
    ∧ (let s := { wWith busyThread with issueQ := [] }
      s.issueQ = [] ∧ dueResult s = some probeLoc)
    ∧ (let s := { wState with issueQ := [], agenda := [.hbmScrub] }
      dueResult s = none ∧ s.agenda = [.hbmScrub])
    ∧ (dueResult { wState with issueQ := [] } = none ∧ wState.agenda = []) := by
  refine ⟨rfl, wState_thread, by decide +kernel, rfl, rfl, rfl, rfl, rfl, rfl, by decide +kernel, by decide +kernel, ⟨rfl, by decide +kernel⟩,
    ⟨by decide +kernel, rfl⟩, by decide +kernel, rfl⟩

theorem witness_DecodeAgreesWithEncode : (Instr.add d0 .d (.x 1) (.x 2) (.q 7)).wellFormed = true ∧ Instr.isEvent (.accessAction probeLoc 0) = true := by
  decide

theorem witness_WordsHaveOneMeaning : formatOf 0x3FA = none ∧ formatOf 0x100 = some .frrr ∧ 0 / 4096 % 8 ≠ Format.frrr.tl
    ∧ parseLine (lineHalfwords (singleLine 0)) = some [0] := by
  refine ⟨rfl, rfl, by decide +kernel⟩

theorem witness_StepKeepsCanonicalMemory : wState.canonical ∧ ∃ s', step wState = .next s' := by
  refine ⟨?_, ⟨_, rfl⟩⟩
  unfold State.canonical
  decide +kernel

end Sys2Proof.Tests
end

namespace Sys2Proof.Machine

/-! What stands at the PC of a thread, by the line there (R38, R54, R72, R87, R303). -/

section
variable {s : State} {l : Loc} {t : Thread} {k : CodeLine} {w n : Nat}

theorem nextOf_annul (hk : heldLine s l t t.pc = .held k) (hw : lineAt k.bytes (t.pc.toNat % 64) = .ok (w, n))
    (ha : t.pipe.annul ≠ 0) : nextOf s l t = .annul w n := by
  simp [nextOf, hk, hw, ha]

theorem nextOf_poison (hk : heldLine s l t t.pc = .held k) (hw : lineAt k.bytes (t.pc.toNat % 64) = .ok (w, n))
    (ha : t.pipe.annul = 0) (hp : k.poison = true) : nextOf s l t = .poison := by
  simp [nextOf, hk, hw, ha, hp]

theorem nextOf_run {i : Instr} (hk : heldLine s l t t.pc = .held k) (hw : lineAt k.bytes (t.pc.toNat % 64) = .ok (w, n))
    (ha : t.pipe.annul = 0) (hp : k.poison = false) (hd : decodeWord w = .ok i) : nextOf s l t = .run i w n := by
  simp [nextOf, hk, hw, ha, hp, hd]

theorem nextOf_illegal {e : Reject} (hk : heldLine s l t t.pc = .held k)
    (hw : lineAt k.bytes (t.pc.toNat % 64) = .ok (w, n)) (ha : t.pipe.annul = 0) (hp : k.poison = false)
    (hd : decodeWord w = .error e) : nextOf s l t = .illegal w n := by
  simp [nextOf, hk, hw, ha, hp, hd]

theorem nextOf_target {e : Reject} (hk : heldLine s l t t.pc = .held k)
    (hw : lineAt k.bytes (t.pc.toNat % 64) = .error e) : nextOf s l t = .target := by
  simp [nextOf, hk, hw]

theorem nextOf_fetch
    (h : heldLine s l t t.pc = .miss ∨ heldLine s l t t.pc = .fault ∨ ∃ pa, heldLine s l t t.pc = .denied pa) :
    nextOf s l t = .fetch := by
  obtain h | h | ⟨pa, h⟩ := h <;> simp [nextOf, h]

end

/-! A step, by what comes next. -/

/-- The state in which the turn of the thread at a location executes. -/
def State.inTurn (s : State) (rest : List (Bool × Loc)) (lead : Bool) (l : Loc) (n : Nat) : State :=
  { s with issueQ := rest, cur := l, curN := n, grpAcc := if lead then [] else s.grpAcc }

/-- The turn of a thread executes what stands at its PC, or the event in its place. -/
theorem step_of_turn {s : State} {lead : Bool} {l : Loc} {rest : List (Bool × Loc)} {t : Thread}
    (hq : s.issueQ = (lead, l) :: rest) (ht : thread? s l = some t) :
    step s = match nextOf s l t with
      | .fetch | .poison => exec (.lineFetch l) (s.inTurn rest lead l 1)
      | .target | .illegal .. => exec (.haltAlone l) (s.inTurn rest lead l 1)
      | .annul _ n => exec (.annulPass l) (s.inTurn rest lead l n)
      | .run i _ n => exec i (s.inTurn rest lead l n) := by
  simp only [step, hq, turnOf, ht]
  cases nextOf s l t <;> rfl

theorem step_of_due {s : State} {l : Loc} (hq : s.issueQ = []) (hd : dueResult s = some l) :
    step s = exec (.fixedResultWrite l) s := by
  simp [step, hq, hd]

theorem step_of_event {s : State} {i : Instr} {is : List Instr} (hq : s.issueQ = []) (hd : dueResult s = none)
    (ha : s.agenda = i :: is) : step s = exec i { s with agenda := is } := by
  simp [step, hq, hd, ha]

theorem step_of_idle {s : State} (hq : s.issueQ = []) (hd : dueResult s = none) (ha : s.agenda = []) :
    step s = exec .rotationPointerMove s := by
  simp [step, hq, hd, ha]

/-- Settles O55: the turn by what stands at the PC, then the order of what comes after the turns. -/
theorem stepRunsTheDecodedInstruction : Obligations.StepRunsTheDecodedInstruction := by
  unfold Obligations.StepRunsTheDecodedInstruction
  refine ⟨?_, fun s l hq hd => step_of_due hq hd, fun s i is hd hq ha => step_of_event hq hd ha,
    fun s hd hq ha => step_of_idle hq hd ha⟩
  intro s lead l rest t hq ht
  refine ⟨fun k w n i hk hw => ⟨fun ha => ?annul, fun ha hp => ?poison, fun ha hp hd => ?run, fun e ha hp hd => ?illegal⟩,
    fun k e hk he => ?target, fun h => ?fetch⟩
  case annul => rw [step_of_turn hq ht, nextOf_annul hk hw ha]; rfl
  case poison => rw [step_of_turn hq ht, nextOf_poison hk hw ha hp]; rfl
  case run => rw [step_of_turn hq ht, nextOf_run hk hw ha hp hd]; rfl
  case illegal => rw [step_of_turn hq ht, nextOf_illegal hk hw ha hp hd]; rfl
  case target => rw [step_of_turn hq ht, nextOf_target hk he]; rfl
  case fetch => rw [step_of_turn hq ht, nextOf_fetch h]; rfl

end Sys2Proof.Machine

namespace Sys2Proof.Machine

/-! A part without an entry is as reset leaves it. -/

theorem cluster_of_no_clusters {s : State} (h : s.clusters = []) (c : Nat) : cluster s c = Cluster.empty := by
  simp [cluster, h, mget]

theorem coreOf_of_no_cores {s : State} (h : s.cores = []) (k : Nat) : coreOf s k = Core.empty k := by
  simp [coreOf, h, mget]

theorem dieOf_of_no_dies {s : State} (h : s.dies = []) (d : Nat) : dieOf s d = Die.empty := by
  simp [dieOf, h, mget]

theorem slotOf_of_no_subs {s : State} {c : Nat} (h : (cluster s c).subs = []) (w : Word) : slotOf s c w = SubSlot.zero := by
  simp [slotOf, h, mget]

theorem heldHome_of_no_keys {s : State} (h : s.store.homeKey = []) (key pa : Nat) : heldHome s key pa = none := by
  simp [heldHome, h, mget]

@[simp] theorem cluster_reset (c : Nat) : cluster State.reset c = Cluster.empty := cluster_of_no_clusters rfl c

/-- Reset leaves no memory with a cell. -/
theorem canonical_reset : State.reset.canonical := ⟨rfl, rfl, fun _ h => nomatch h⟩

/-! A thread as it starts (R21, R108). -/

section
variable (uid : Nat) (l : Loc) (pc arg : Word) (c : Csrs)

theorem xval_start (n : XReg) : xval (Thread.start uid l pc arg c) n = if n = 1 then arg else 0 := by
  by_cases h0 : n = 0
  · rw [h0, xval_zero]; rfl
  · rw [xval_ne _ _ h0]
    simp only [Thread.start, Vector.getElem_set, Regs.zero, Vector.getElem_replicate]
    by_cases h1 : n = 1
    · subst h1; simp
    · rw [if_neg h1, if_neg fun e => h1 (BitVec.eq_of_toNat_eq e.symm)]

theorem vval_start (n : VReg) : vval (Thread.start uid l pc arg c) n = 0 := by
  simp [vval, Thread.start, Regs.zero, Vector.get]

theorem full_start (k : Nat) (h : k < 64) : (Thread.start uid l pc arg c).regs.full.getLsbD k = true := by
  exact (BitVec.getLsbD_allOnes (v := 64)).trans (decide_eq_true h)

theorem tagOf_start (k : BitVec 3) : tagOf (Thread.start uid l pc arg c) k = .free := by
  simp [tagOf, Thread.start, Pipe.empty, Vector.get]

theorem portOf_start (q : PReg) : portOf (Thread.start uid l pc arg c) q = Port.empty := by
  simp [portOf, Thread.start, Vector.get]

end

/-- Settles O59: the state after reset part by part, and a started thread register by register. -/
theorem resetAndStartValues : Obligations.ResetAndStartValues := by
  unfold Obligations.ResetAndStartValues
  refine ⟨⟨rfl, rfl, rfl, rfl, rfl, fun c w => slotOf_of_no_subs (by rw [cluster_reset]; rfl) w, fun c => ?clusters,
    fun k => ?cores, fun d => ?dies, rfl, heldHome_of_no_keys rfl, canonical_reset⟩, ?thread⟩
  case clusters => rw [cluster_reset]; exact ⟨rfl, rfl, rfl, rfl⟩
  case cores => rw [coreOf_of_no_cores rfl]; rfl
  case dies => rw [dieOf_of_no_dies rfl]; rfl
  case thread =>
    intro uid l pc arg tid gsz gang lnch slice light prio ptbase wpriv key
    refine ⟨rfl, xval_start .., fun n hn => (xval_start ..).trans (if_neg hn), fun n => vval_start ..,
      fun k hk => full_start (h := hk) .., fun k => tagOf_start .., fun q => ?_, rfl, rfl, rfl, rfl, rfl, rfl, rfl, rfl, rfl, rfl⟩
    rw [portOf_start]
    exact ⟨rfl, rfl, rfl⟩

end Sys2Proof.Machine

namespace Sys2Proof.Machine

/-! How each instruction comes to issue. -/

/-- BAR, CONVENE and the collectives, which are presented, and CSRR and CSRW, whose number may name no register: the
    instructions that look at waits and traps by themselves. -/
def ownEntry : Instr → Bool
  | .bar .. | .convene .. | .csrr .. | .csrw .. => true
  | i => isCollective i

/-- Every other instruction goes through `issue`, with an effect of its own. -/
theorem exec_eq_issue (i : Instr) (s : State) (he : (encode i).isSome = true) (ho : ownEntry i = false) :
    ∃ body, exec i s = issue i s body := by
  cases i <;> cases he <;> cases ho
  all_goals
    dsimp only [
    exec, execNop, execBr, execJr, execRet, execEret, execReth, execQbind, execWaitf, execWaitfPark, execCall, execCallr,
    execTrap, execYield, execPfi, execHalt, execExit, execRepart, execSpill, execRstr, execXrd, execXwr, execXres, execTlbi,
    execKeyret, execCvt, execCvtV, execVqnt, execLds, execUnsub, execPfd, execSmap, execSunmap, execFence, execCopy,
    execCopyNb, execCopyq, execQend, execQstat, execDisband, execTq, execMigh, execAstat, execCmpk, execExpd, execAdd,
    execSub, execMul, execMulh, execMulhn, execAnd, execAndn, execOr, execXor, execShl, execShr, execSra, execRot, execMin,
    execMinn, execMax, execMaxn, execDiv, execDivn, execRem, execRemn, execClz, execCtz, execPopc, execBfx, execBfxR,
    execBfi, execBfiR, execSel, execLea, execLeaPc, execMov, execFmin, execFmax, execFsgn, execAddiFrri, execAddiFi32,
    execAndiFrri, execAndiFi32, execOriFrri, execOriFi32, execXoriFrri, execXoriFi32, execShli, execShri, execSrai, execLi,
    execLiH, execVext, execCmp, execCmpi, execFcmp, execFadd, execFsub, execFmul, execFfma, execFfmai, execFdiv, execFsqrt,
    execExp2, execLog2, execRcp, execRsq, execTanh, execVdq, execVdot, execVshuf, execVbcast, execVsel, execVins, execVadd,
    execVsub, execVmul, execVfma, execVmin, execVmax, execVcmp, execVredAdd, execVredMin, execVredMax, execVld, execVst,
    execLd, execLdS, execSt, execLdc, execTake, execTakeS, execWb, execInv, execWbi, execCvta, execAmoAdd, execAmoAnd,
    execAmoOr, execAmoXor, execAmoMin, execAmoMinn, execAmoMax, execAmoMaxn, execAmoSwap, execAmoFadd, execCas, execSig,
    execSpawn, execSpawnL, issueThread, issueFixed, issueClear, issueVector, issueVariable, issueCompare, fixedRRR, fixedRR,
    fixedRRI, variableRRR, fixedRounded, variableRounded, specialFn, vectorOp, vectorReduce, memIssue, amoIssue, takeIssue,
    rangeIssue, spawnIssue]
    exact ⟨_, rfl⟩

theorem exec_collective {i : Instr} (h : isCollective i = true) (s : State) : exec i s = presentColl i s := by
  cases i <;> cases h <;> rfl

section
variable {s : State} {t : Thread}

/-! Waits. -/

theorem presentColl_of_waits {i : Instr} (ht : thread? s s.cur = some t) (hc : canIssue s s.cur t i = false) :
    presentColl i s = .next s := by
  simp [presentColl, ht, hc]

theorem issueIllegal_of_waits {i : Instr} (ht : thread? s s.cur = some t) (hc : canIssue s s.cur t i = false) :
    issueIllegal i s = .next s := by
  simp [issueIllegal, ht, hc]

/-- An instruction with a wait that is not met changes nothing (R27). -/
theorem exec_of_waits {i : Instr} (he : (encode i).isSome = true) (ht : thread? s s.cur = some t)
    (hc : canIssue s s.cur t i = false) : exec i s = .next s := by
  cases ho : ownEntry i with
  | false =>
    obtain ⟨body, hb⟩ := exec_eq_issue i s he ho
    rw [hb, issue_of_waits ht hc]
  | true =>
    by_cases hl : isCollective i = true
    · rw [exec_collective hl, presentColl_of_waits ht hc]
    cases i
    case bar => simp [exec, execBar, ht, hc]
    case convene => simp [exec, execConvene, ht, hc]
    case csrr => simp only [exec, execCsrr, issueIllegal_of_waits ht hc, issue_of_waits ht hc, ite_self]
    case csrw => simp only [exec, execCsrw, issueIllegal_of_waits ht hc, issue_of_waits ht hc, ite_self]
    all_goals exact absurd ho hl

/-! Traps. -/

/-- The traps of every instruction come before its own checks; an unassigned or read-only control register is none of
    them. -/
theorem exec_of_entryTrap {i : Instr} {v : TrapVal} (he : (encode i).isSome = true) (hl : isCollective i = false)
    (hr : ∀ d csr rd, i = .csrr d csr rd → csrAssigned csr.toNat = true)
    (hw : ∀ d csr r, i = .csrw d csr r → csrAssigned csr.toNat = true ∧ csrReadOnly csr.toNat = false)
    (ht : thread? s s.cur = some t) (hc : canIssue s s.cur t i = true) (hv : entryTrap s s.cur t i = some v) :
    exec i s = .next (raiseTrap s s.cur t v) := by
  cases ho : ownEntry i with
  | false =>
    obtain ⟨body, hb⟩ := exec_eq_issue i s he ho
    rw [hb, issue_of_trap ht hc hv]
  | true =>
    cases i
    case bar => simp [exec, execBar, ht, hc, hv]
    case convene => simp [exec, execConvene, ht, hc, hv]
    case csrr d csr rd => simp [exec, execCsrr, hr d csr rd rfl, issue_of_trap ht hc hv]
    case csrw d csr r => simp [exec, execCsrw, hw d csr r rfl, issue_of_trap ht hc hv]
    all_goals exact absurd ho (Bool.eq_false_iff.mp hl)

/-- A collective in a thread of no group raises OPERAND for an absent register (R219). -/
theorem presentColl_of_absent {i : Instr} {v : Word} (ht : thread? s s.cur = some t) (hc : canIssue s s.cur t i = true)
    (hg : t.grp = none) (hv : absentReg t.csr.light (coreOf s s.cur.coreIdx).p64 (usesOf i) = some v) :
    presentColl i s = .next (raiseTrap s s.cur t ⟨.operand, v⟩) := by
  simp [presentColl, ht, hc, hg, hv]

/-! Control values. -/

@[simp] theorem portOf_setPort_same (t : Thread) (q : PReg) (p : Port) : portOf (setPort t q p) q = p :=
  Vector.getElem_set_self q.isLt

/-- An instruction that would pop a control value while QHND is set does not issue: the value is held instead (R114). -/
theorem issue_of_control {i : Instr} {q : PReg} (ht : thread? s s.cur = some t) (hc : canIssue s s.cur t i = true)
    (hv : entryTrap s s.cur t i = none) (hq : ctlPop t (usesOf i) = some q) (body : Thread → Thread → State → Effect) :
    issue i s body = .next (popControl s s.cur t q) := by
  simp [issue, ht, hc, hv, hq]

/-- What a control value that is held leaves of its thread. -/
theorem popControl_thread {q : PReg} {w : PWord} {ws : List PWord} (hw : (portOf t q).inb = w :: ws) (s : State) (l : Loc) :
    ∃ t', (popControl s l t q).threads = (setThread s l t').threads ∧ t'.pc = t.pc ∧ t'.regs = t.regs
      ∧ (portOf t' q).inb = ws ∧ t'.irqs = t.irqs ++ [.ctl w.word] := by
  obtain ⟨acc, ha⟩ := pushAccess_thread s t (takeAccess w.scope)
  simp only [popControl, hw, ha, pushAccess_state]
  refine ⟨_, rfl, rfl, rfl, ?_, rfl⟩
  exact congrArg Port.inb (portOf_setPort_same ..)

/-- The instructions on registers go through `issue`. -/
theorem registerOnly_issues {i : Instr} (h : registerOnly i = true) : (encode i).isSome = true ∧ ownEntry i = false := by
  cases i <;> cases h <;> exact ⟨rfl, rfl⟩

end

/-- Settles O44: waits, traps, the collectives of no group, and the control values, each by its lemma. -/
theorem instructionsWaitAndTrap : Obligations.InstructionsWaitAndTrap := by
  unfold Obligations.InstructionsWaitAndTrap
  refine ⟨fun i s t he ht hc => exec_of_waits he ht hc,
    fun i s t v he hl hr hw ht hc hv => exec_of_entryTrap he hl hr hw ht hc hv,
    fun i s t v hl ht hc hg hv => (exec_collective hl s).trans (presentColl_of_absent ht hc hg hv), ?_⟩
  intro i s t q w ws hi ht hc hv hq hw
  have hs : (encode i).isSome = true ∧ ownEntry i = false := by
    obtain hi | ⟨d, m, size, a, rfl⟩ := hi
    · exact registerOnly_issues hi
    · exact ⟨rfl, rfl⟩
  obtain ⟨body, hb⟩ := exec_eq_issue i s hs.1 hs.2
  obtain ⟨t', h⟩ := popControl_thread hw s s.cur
  exact ⟨_, t', by rw [hb, issue_of_control ht hc hv hq], h⟩

end Sys2Proof.Machine

namespace Sys2Proof.Machine

/-! Words and their fields. -/

theorem nextPc_eq_pcAfter (pc : Word) (n : Nat) : nextPc pc n = pcAfter pc n := by
  have low : (pc &&& 63).toNat = pc.toNat % 64 := by
    rw [BitVec.toNat_and]
    exact Nat.and_two_pow_sub_one_eq_mod pc.toNat 6
  have line : BitVec.ofNat 64 ((pc.toNat / 64 + 1) * 64) = ((pc >>> 6) + 1) <<< 6 := by
    apply BitVec.eq_of_toNat_eq
    simp only [BitVec.toNat_ofNat, BitVec.toNat_shiftLeft, BitVec.toNat_add, BitVec.toNat_ushiftRight, Nat.shiftRight_eq_div_pow,
      Nat.shiftLeft_eq, show (1 : Word).toNat = 1 from rfl]
    omega
  rw [nextPc, pcAfter, low, line]

theorem field_eq_extract (w : Word) (lo n : Nat) : field w lo n = (w.extractLsb' lo n).toNat := by
  rw [BitVec.extractLsb'_toNat, Nat.shiftRight_eq_div_pow, field]

/-- A field that reaches the top of the word is zero where no bit from its place on is set. -/
theorem field_high_eq_zero (w : Word) {lo n : Nat} (h : lo + n = 64) : field w lo n = 0 ↔ w.toNat < 2 ^ lo := by
  have hlt : w.toNat / 2 ^ lo < 2 ^ n := by
    rw [Nat.div_lt_iff_lt_mul (Nat.two_pow_pos lo), ← Nat.pow_add, Nat.add_comm, h]
    exact w.isLt
  rw [field, Nat.mod_eq_of_lt hlt, Nat.div_eq_zero_iff_lt (Nat.two_pow_pos lo)]

/-- The slot of a cluster that the word of a SPILL or XWIN names (R298, R390). -/
def namedLoc (clu : Nat) (v : Word) : Loc := ⟨clu, v.toNat / 2 ^ 8 % 4, v.toNat % 2 ^ 8⟩

theorem fields_namedLoc (clu : Nat) (v : Word) : (⟨clu, field v 8 2, field v 0 8⟩ : Loc) = namedLoc clu v := by
  simp [field, namedLoc]

/-- The cause of a trap stands in TCAUSE[7:0]. -/
theorem cause_low (c : Word) (skp : BitVec 2) (cause : BitVec 8) :
    ((c &&& ~~~ 0x3FF#64) ||| (skp.setWidth 64 <<< 8) ||| cause.setWidth 64) &&& 0xFF#64 = cause.setWidth 64 := by
  have m10 : ∀ i (h : i < 64), (0x3FF#64)[i] = decide (i < 10) := by decide
  have m8 : ∀ i (h : i < 64), (0xFF#64)[i] = decide (i < 8) := by decide
  generalize 0x3FF#64 = low10 at m10 ⊢
  generalize 0xFF#64 = low8 at m8 ⊢
  ext i hi
  by_cases h : i < 8
  · simp [m10, m8, h, show i < 10 by omega]
  · simp [m8, h, BitVec.getLsbD_of_ge cause i (by omega)]

/-- TCAUSE with its own low fields put back is what it was. -/
theorem cause_restored (c : Word) :
    (c &&& ~~~ 0x3FF#64) ||| ((BitVec.ofNat 2 (field c 8 2)).setWidth 64 <<< 8) ||| (c.setWidth 8).setWidth 64 = c := by
  have m10 : ∀ i (h : i < 64), (0x3FF#64)[i] = decide (i < 10) := by decide
  have hf : BitVec.ofNat 2 (field c 8 2) = c.extractLsb' 8 2 := by rw [field_eq_extract, BitVec.ofNat_toNat, BitVec.setWidth_eq]
  generalize 0x3FF#64 = low10 at m10 ⊢
  rw [hf]
  ext i hi
  by_cases h8 : i < 8
  · simp [m10, h8, show i < 10 by omega, BitVec.getLsbD_eq_getElem hi]
  · by_cases h10 : i < 10
    · simp [m10, h8, h10, show 8 + (i - 8) = i by omega, show i - 8 < 2 by omega, BitVec.getLsbD_eq_getElem hi]
    · simp [m10, h8, h10, show ¬ i - 8 < 2 by omega]

theorem halfSet_high (v : VWord) (w : Word) : halfSet v true w = w ++ v.extractLsb' 0 64 := by
  refine BitVec.eq_of_getLsbD_eq fun i h => ?_
  rw [show (w ++ v.extractLsb' 0 64).getLsbD i = _ from BitVec.getLsbD_append]
  by_cases h64 : i < 64
  · simp [halfSet, h64, h]
  · simp [halfSet, h64, h]

theorem halfSet_low (v : VWord) (w : Word) : halfSet v false w = v.extractLsb' 64 64 ++ w := by
  refine BitVec.eq_of_getLsbD_eq fun i h => ?_
  rw [show (v.extractLsb' 64 64 ++ w).getLsbD i = _ from BitVec.getLsbD_append]
  by_cases h64 : i < 64
  · simp [halfSet, h64, h]
  · simp [halfSet, h64, h, show i - 64 < 64 by omega, show 64 + (i - 64) = i by omega, BitVec.getLsbD_of_ge w i (by omega)]

/-! The issue of an instruction that pops no port. -/

section
variable {s : State} {t : Thread} {i : Instr}

theorem afterPops_of_no_pops (s : State) (t : Thread) (h : (usesOf i).pops = []) : afterPops s t i = s := by
  simp [afterPops, popAcquires, h]

theorem issuedThread_of_no_pops (s : State) (t : Thread) (h : (usesOf i).pops = []) : issuedThread s t i = charge s t i := by
  simp [issuedThread, afterPops, popAcquires, h]

theorem variableDone_of_no_pops (s : State) (t : Thread) (h : (usesOf i).pops = []) (ws : List Wr) (f : Flags) :
    variableDone s t i ws f = variableResult s (charge s t i) i.dep.sa ws f := by
  rw [variableDone, afterPops_of_no_pops s t h, issuedThread_of_no_pops s t h]

/-- An instruction that pops no port has its effect on the state at its issue. -/
theorem issue_of_effect {s2 : State} {body : Thread → Thread → State → Effect} (h : Issues s t i) (hp : (usesOf i).pops = [])
    (hb : body t (charge s t i) s = .ok s2) : issue i s body = .next s2 := by
  rw [issue_of_issues h, afterPops_of_no_pops s t hp, issuedThread_of_no_pops s t hp, hb]

/-- Its own check raises its trap. -/
theorem issue_of_check {v : TrapVal} {body : Thread → Thread → State → Effect} (h : Issues s t i) (hp : (usesOf i).pops = [])
    (hb : body t (charge s t i) s = .error v) : issue i s body = .next (raiseTrap s s.cur t v) := by
  rw [issue_of_issues h, afterPops_of_no_pops s t hp, issuedThread_of_no_pops s t hp, hb]

theorem charge_csr (s : State) (t : Thread) (h : (usesOf i).pops = []) : (charge s t i).csr = t.csr := by
  simp [charge, popPorts, h]

theorem setTag_results (p : Pipe) (k : BitVec 3) (v : TagState) : (setTag p k v).results = p.results := by
  unfold setTag; split <;> rfl

theorem charge_results (s : State) (t : Thread) (h : (usesOf i).pops = []) : (charge s t i).pipe.results = t.pipe.results := by
  simp only [charge, popPorts, h, List.foldl_nil, setTag_results]
  split
  · exact setTag_results ..
  · rfl

end

end Sys2Proof.Machine

namespace Sys2Proof.Machine

section
variable {s : State} {t : Thread}

/-! REPART (R50, R385). -/

theorem exec_repart_refused (d : Dep) (rd : XReg) (p : Bool) (h : Issues s t (.repart d rd p)) (hq : quiescent s s.cur t = false) :
    exec (.repart d rd p) s = .next (variableDone s t (.repart d rd p) [wrX rd 1] 0) := by
  show execRepart d rd p s = _
  refine issue_of_effect h rfl ?_
  rw [hq, variableDone_of_no_pops s t rfl]
  rfl

/-- The state with the core of the issuer repartitioned (R28, R50). -/
def repartitioned (s : State) (p : Bool) : State :=
  drawn (setCore s s.cur.coreIdx { coreOf s s.cur.coreIdx with p64 := p, phase := 4096 + s.free, contest := [] })

theorem exec_repart_done (d : Dep) (rd : XReg) (p : Bool) (h : Issues s t (.repart d rd p)) (hq : quiescent s s.cur t = true) :
    exec (.repart d rd p) s =
      .next (variableResult (repartitioned s p) (repartThread t (charge s t (.repart d rd p)) d.sa) d.sa [wrX rd 0] 0) := by
  show execRepart d rd p s = _
  refine issue_of_effect h rfl ?_
  rw [hq]
  rfl

theorem p64_repartitioned (s : State) (p : Bool) : (coreOf (repartitioned s p) s.cur.coreIdx).p64 = p :=
  congrArg Core.p64 (core_setCore ..)

/-- The tags after a repartition: every one is FREE but the one that REPART allocates. -/
theorem tagOf_repartThread (t t1 : Thread) (sa k : BitVec 3) (h : k ≠ sa) : tagOf (repartThread t t1 sa) k = .free := by
  have hk : sa.toNat ≠ k.toNat := fun e => h (BitVec.eq_of_toNat_eq e.symm)
  have free : (Vector.replicate 8 TagState.free).get k.toFin = .free := Vector.getElem_replicate k.isLt
  simp only [tagOf, repartThread, setTag]
  split
  · exact free
  · exact (Vector.getElem_set_ne (xs := Vector.replicate 8 TagState.free) sa.isLt k.isLt hk).trans free

theorem portOf_repartThread (t t1 : Thread) (sa : BitVec 3) (q : PReg) :
    portOf (repartThread t t1 sa) q = { portOf t q with desc := 0 } :=
  Vector.getElem_map _ q.isLt

/-! SPILL (R389, R390). -/

theorem exec_spill_refused (d : Dep) (rd ra : XReg) (h : Issues s t (.spill d rd ra)) {k : Nat}
    (hk : spillTarget s s.cur.clu (xval t ra) = .error k) :
    exec (.spill d rd ra) s = .next (variableDone s t (.spill d rd ra) [wrX rd (spillWord k 0)] 0) := by
  show execSpill d rd ra s = _
  refine issue_of_effect h rfl ?_
  rw [hk, variableDone_of_no_pops s t rfl]
  rfl

/-- The state with the save of a thread queued for the thread at `cur`. -/
def saveQueued (s : State) (t t1 : Thread) (sa : BitVec 3) (rd : XReg) (u : Thread) : State :=
  { setCluster (setThread s s.cur (addResult t1 ⟨s.nextId, sa, [wrX rd 0], 0, false⟩)) s.cur.clu
      { cluster s s.cur.clu with saves := (cluster s s.cur.clu).saves ++ [⟨u.uid, some (t.uid, s.nextId)⟩] } with
    nextId := s.nextId + 1 }

theorem saves_saveQueued (s : State) (t t1 : Thread) (sa : BitVec 3) (rd : XReg) (u : Thread) :
    (cluster (saveQueued s t t1 sa rd u) s.cur.clu).saves = (cluster s s.cur.clu).saves ++ [⟨u.uid, some (t.uid, s.nextId)⟩] :=
  congrArg Cluster.saves (cluster_setCluster ..)

theorem exec_spill_queued (d : Dep) (rd ra : XReg) (h : Issues s t (.spill d rd ra)) {l : Loc} {u : Thread}
    (hu : spillTarget s s.cur.clu (xval t ra) = .ok (l, u)) :
    exec (.spill d rd ra) s = .next (saveQueued s t (charge s t (.spill d rd ra)) d.sa rd u) := by
  show execSpill d rd ra s = _
  refine issue_of_effect h rfl ?_
  rw [hu]
  rfl

/-- A word with stray bits, and one that names an empty slot, name no thread to save. -/
theorem spillTarget_none {clu : Nat} {v : Word} (h : 2 ^ 10 ≤ v.toNat ∨ thread? s (namedLoc clu v) = none) :
    spillTarget s clu v = .error 1 := by
  by_cases hf : field v 10 54 = 0
  · have hlt := (field_high_eq_zero v rfl).mp hf
    simp [spillTarget, hf, fields_namedLoc, h.resolve_left (by omega)]
  · simp [spillTarget, hf]

section
variable {clu : Nat} {v : Word} {u : Thread} (hv : v.toNat < 2 ^ 10) (hu : thread? s (namedLoc clu v) = some u)
include hv hu

/-- What stops the save of a thread, in the order of the statuses (log 24). -/
theorem spillTarget_some : spillTarget s clu v =
    if neverSaved s (namedLoc clu v) u then .error 1
    else if !hasRoom s (namedLoc clu v) u then .error 2
    else if (cluster s clu).saves.any fun r => r.uid = u.uid then .error 3
    else .ok (namedLoc clu v, u) := by
  simp [spillTarget, fields_namedLoc, hu, (field_high_eq_zero v (lo := 10) (n := 54) rfl).mpr hv]

theorem spillTarget_neverSaved (hn : neverSaved s (namedLoc clu v) u = true) : spillTarget s clu v = .error 1 := by
  rw [spillTarget_some hv hu, if_pos hn]

theorem spillTarget_noRoom (hn : neverSaved s (namedLoc clu v) u = false) (hr : hasRoom s (namedLoc clu v) u = false) :
    spillTarget s clu v = .error 2 := by
  simp [spillTarget_some hv hu, hn, hr]

theorem spillTarget_saving (hn : neverSaved s (namedLoc clu v) u = false) (hr : hasRoom s (namedLoc clu v) u = true)
    (hs : ∃ r ∈ (cluster s clu).saves, r.uid = u.uid) : spillTarget s clu v = .error 3 := by
  have ha : ((cluster s clu).saves.any fun r => r.uid = u.uid) = true := by simpa using hs
  simp only [spillTarget_some hv hu, hn, hr, ha]
  rfl

theorem spillTarget_ok (hn : neverSaved s (namedLoc clu v) u = false) (hr : hasRoom s (namedLoc clu v) u = true)
    (hs : ∀ r ∈ (cluster s clu).saves, r.uid ≠ u.uid) : spillTarget s clu v = .ok (namedLoc clu v, u) := by
  have ha : ((cluster s clu).saves.any fun r => r.uid = u.uid) = false := by simpa using hs
  simp only [spillTarget_some hv hu, hn, hr, ha]
  rfl

end

/-! RSTR (R389, R390, R392). -/

theorem exec_rstr_none (d : Dep) (rd ra : XReg) (h : Issues s t (.rstr d rd ra))
    (hr : 2 ^ 20 ≤ (xval t ra).toNat ∨ mget (cluster s s.cur.clu).heath (xval t ra).toNat = none) :
    exec (.rstr d rd ra) s = .next (variableDone s t (.rstr d rd ra) [wrX rd (spillWord 1 0)] 0) := by
  have hn : (if (xval t ra).toNat < 2 ^ 20 then mget (cluster s s.cur.clu).heath (xval t ra).toNat else none) = none := by
    obtain hr | hr := hr
    · exact if_neg (by omega)
    · rw [hr, ite_self]
  show execRstr d rd ra s = _
  refine issue_of_effect h rfl ?_
  simp only [hn, variableDone_of_no_pops (i := .rstr d rd ra) s t rfl]
  rfl

/-- The state with the record at an offset held no longer. -/
def unheldAt (s : State) (clu off : Nat) (r : HeathRec) : State :=
  setCluster s clu { cluster s clu with heath := mset (cluster s clu).heath off { r with held := false } }

section
variable {d : Dep} {rd ra : XReg} (h : Issues s t (.rstr d rd ra)) {r : HeathRec} (hv : (xval t ra).toNat < 2 ^ 20)
  (hr : mget (cluster s s.cur.clu).heath (xval t ra).toNat = some r)
include h hv hr

theorem exec_rstr_busy (hb : r.busy = true) : exec (.rstr d rd ra) s =
    .next (variableDone (unheldAt s s.cur.clu (xval t ra).toNat r) t (.rstr d rd ra) [wrX rd (spillWord 3 0)] 0) := by
  show execRstr d rd ra s = _
  refine issue_of_effect h rfl ?_
  simp only [if_pos hv, hr, variableDone_of_no_pops (i := .rstr d rd ra) _ t rfl]
  rw [if_pos hb]
  rfl

theorem exec_rstr_noSlot (hb : r.busy = false)
    (hl : restoreSlot (unheldAt s s.cur.clu (xval t ra).toNat r) s.cur.clu { r with held := false } = none) :
    exec (.rstr d rd ra) s =
      .next (variableDone (unheldAt s s.cur.clu (xval t ra).toNat r) t (.rstr d rd ra) [wrX rd (spillWord 2 0)] 0) := by
  show execRstr d rd ra s = _
  refine issue_of_effect h rfl ?_
  unfold unheldAt at hl ⊢
  simp only [if_pos hv, hr, variableDone_of_no_pops (i := .rstr d rd ra) _ t rfl]
  rw [if_neg (Bool.eq_false_iff.mp hb)]
  simp only [setCluster_cur, hl]
  rfl

theorem exec_rstr_restored (hb : r.busy = false) {l : Loc}
    (hl : restoreSlot (unheldAt s s.cur.clu (xval t ra).toNat r) s.cur.clu { r with held := false } = some l) :
    exec (.rstr d rd ra) s =
      .next (restoreAt (variableDone (unheldAt s s.cur.clu (xval t ra).toNat r) t (.rstr d rd ra)
        [wrX rd (spillWord 0 (l.core * 256 + l.slot))] 0) s.cur.clu (xval t ra).toNat { r with held := false } l) := by
  show execRstr d rd ra s = _
  refine issue_of_effect h rfl ?_
  unfold unheldAt at hl ⊢
  simp only [if_pos hv, hr, variableDone_of_no_pops (i := .rstr d rd ra) _ t rfl]
  rw [if_neg (Bool.eq_false_iff.mp hb)]
  simp only [setCluster_cur, hl]
  rfl

end

end

end Sys2Proof.Machine

namespace Sys2Proof.Machine

/-! The emulation window (R298, R299, R427). -/

section
variable {s : State} {t : Thread}

/-- The window names a thread when it is valid, used by the cluster supervisor, and the thread is halted. -/
theorem windowThread_iff (s : State) (l : Loc) (t : Thread) (m : Loc) (u : Thread) :
    windowThread s l t = some (m, u) ↔
      l.clusterSup = true ∧ t.csr.xwin.getLsbD 63 = true
        ∧ m = namedLoc l.clu t.csr.xwin ∧ thread? s m = some u ∧ u.mode ≠ .running := by
  simp only [windowThread, fields_namedLoc]
  constructor
  · intro h
    split at h
    · cases h
    · next hw =>
      obtain ⟨hs, hv⟩ : l.clusterSup = true ∧ t.csr.xwin.getLsbD 63 = true := by simpa using hw
      split at h
      · next x hx =>
        split at h
        · cases h
        · next hr => cases h; exact ⟨hs, hv, rfl, hx, hr⟩
      · cases h
  · rintro ⟨hs, hv, rfl, hu, hr⟩
    simp [hs, hv, hu, hr]

/-- What XRD and XWR do with the item that they name. -/
theorem exec_xrd_item {d : Dep} {rd ra : XReg} (h : Issues s t (.xrd d rd ra)) {it : Item} {m : Loc} {u : Thread}
    (hi : windowItem s s.cur t (xval t ra) false = .ok (it, m, u)) :
    exec (.xrd d rd ra) s = .next (variableDone s t (.xrd d rd ra) [wrX rd (readItem s m u it)] 0) := by
  show execXrd d rd ra s = _
  refine issue_of_effect h rfl ?_
  rw [hi, variableDone_of_no_pops s t rfl]
  rfl

theorem exec_xrd_trap {d : Dep} {rd ra : XReg} (h : Issues s t (.xrd d rd ra)) {v : TrapVal}
    (hi : windowItem s s.cur t (xval t ra) false = .error v) : exec (.xrd d rd ra) s = .next (raiseTrap s s.cur t v) := by
  show execXrd d rd ra s = _
  refine issue_of_check h rfl ?_
  rw [hi]

theorem exec_xwr_item {d : Dep} {ra rb : XReg} (h : Issues s t (.xwr d ra rb)) {it : Item} {m : Loc} {u : Thread}
    (hi : windowItem s s.cur t (xval t ra) true = .ok (it, m, u)) :
    exec (.xwr d ra rb) s = .next (writeItem (issuedState s t (.xwr d ra rb)) m u (xval t rb) it) := by
  show execXwr d ra rb s = _
  refine issue_of_effect h rfl ?_
  rw [hi, issuedState, afterPops_of_no_pops s t rfl, issuedThread_of_no_pops s t rfl]

theorem exec_xwr_trap {d : Dep} {ra rb : XReg} (h : Issues s t (.xwr d ra rb)) {v : TrapVal}
    (hi : windowItem s s.cur t (xval t ra) true = .error v) : exec (.xwr d ra rb) s = .next (raiseTrap s s.cur t v) := by
  show execXwr d ra rb s = _
  refine issue_of_check h rfl ?_
  rw [hi]

/-! The checks of the item, in their order. -/

variable {l : Loc} {a : Word} {write : Bool}

theorem windowItem_unlisted (h : itemOf a.toNat = none) : windowItem s l t a write = .error ⟨.operand, a⟩ := by
  simp [windowItem, h]

theorem windowItem_fixed {it : Item} (h : itemOf a.toNat = some it) (hf : itemFixed it = true) :
    windowItem s l t a true = .error ⟨.operand, a⟩ := by
  simp [windowItem, h, hf]

section
variable {it : Item} (h : itemOf a.toNat = some it) (hf : write = true → itemFixed it = false)
include h hf

theorem windowItem_noThread (hw : windowThread s l t = none) : windowItem s l t a write = .error ⟨.operand, t.csr.xwin⟩ := by
  cases write <;> simp [windowItem, h, hf, hw]

theorem windowItem_absent {m : Loc} {u : Thread} (hw : windowThread s l t = some (m, u)) (hl : lacksItem s m u it = true) :
    windowItem s l t a write = .error ⟨.operand, a⟩ := by
  cases write <;> simp [windowItem, h, hf, hw, hl]

theorem windowItem_ok {m : Loc} {u : Thread} (hw : windowThread s l t = some (m, u)) (hl : lacksItem s m u it = false) :
    windowItem s l t a write = .ok (it, m, u) := by
  cases write <;> simp [windowItem, h, hf, hw, hl]

end

end

/-! The items (R299). -/

theorem itemOf_x (n : XReg) : itemOf n.toNat = some (.x n) := by
  have hn : n.toNat < 0x40 := n.isLt
  simp [itemOf, hn]

theorem itemOf_q (q : PReg) : itemOf (0x40 + q.toNat) = some (.q q) := by
  have hq : 0x40 + q.toNat < 0x48 := Nat.add_lt_add_left q.isLt 0x40
  simp [itemOf, hq]

theorem itemOf_v (v : VReg) (hi : Bool) : itemOf (0x80 + 2 * v.toNat + hi.toNat) = some (.v v hi) := by
  have hv : v.toNat < 64 := v.isLt
  have hh : hi.toNat < 2 := Bool.toNat_lt hi
  have h1 : ¬ 0x80 + 2 * v.toNat + hi.toNat < 0x40 := by omega
  have h2 : ¬ 0x80 + 2 * v.toNat + hi.toNat < 0x48 := by omega
  have h3 : 0x80 ≤ 0x80 + 2 * v.toNat + hi.toNat ∧ 0x80 + 2 * v.toNat + hi.toNat < 0x100 := by omega
  have h4 : (0x80 + 2 * v.toNat + hi.toNat - 0x80) / 2 = v.toNat := by omega
  have h5 : decide ((0x80 + 2 * v.toNat + hi.toNat) % 2 = 1) = hi := by
    rw [show (0x80 + 2 * v.toNat + hi.toNat) % 2 = hi.toNat by omega]
    cases hi <;> rfl
  rw [itemOf, if_neg h1, if_neg h2, if_pos h3, h4, h5]
  simp

/-- No number of a control register is above 0x130 (R109). -/
theorem csrAssigned_le {n : Nat} (h : csrAssigned n = true) : n ≤ 0x130 := by
  simp only [csrAssigned, Bool.or_eq_true, Bool.and_eq_true, decide_eq_true_eq] at h
  omega

theorem itemOf_csr {n : Nat} (h : csrAssigned n = true) : itemOf (0x400 + n) = some (.csr n) := by
  have hn := csrAssigned_le h
  have e : 0x400 + n - 0x400 = n := by omega
  have c : (0x400 ≤ 0x400 + n && 0x400 + n < 0x1400 && csrAssigned (0x400 + n - 0x400) && 0x400 + n < 0x1000) = true := by
    rw [e, h]
    simp only [Bool.and_eq_true, decide_eq_true_eq, and_true]
    omega
  rw [itemOf, if_neg (by omega), if_neg (by omega), if_neg (by omega), if_neg (by omega), if_neg (by omega), if_neg (by omega),
    if_neg (by omega), if_pos c, e]

/-! What XWR leaves of the halted thread. -/

theorem xval_of_x {t t' : Thread} (h : t'.regs.x = t.regs.x) (n : XReg) : xval t' n = xval t n := by
  simp [xval, h]

theorem setFull_x (r : Regs) (n : XReg) (b : Bool) : (r.setFull n b).x = r.x := by
  unfold Regs.setFull; split <;> rfl

theorem getLsbD_putBit_same {w : Nat} (b : BitVec w) {n : Nat} (h : n < w) (v : Bool) : (putBit b n v).getLsbD n = v := by
  cases v <;> simp [putBit, h]

theorem full_setFull (r : Regs) {n : XReg} (h : n ≠ 0) (b : Bool) : (r.setFull n b).full.getLsbD n.toNat = b := by
  rw [Regs.setFull, if_neg h]
  exact getLsbD_putBit_same r.full n.isLt b

/-- A halted thread after XWR of an x register. -/
def xWritten (u : Thread) (n : XReg) (w : Word) : Thread := { u with regs := (u.regs.write (wrX n w)).setFull n true }

theorem xval_xWritten (u : Thread) {n : XReg} (h : n ≠ 0) (w : Word) (k : XReg) :
    xval (xWritten u n w) k = if k = n then w else xval u k := by
  rw [xval_of_x (t := { u with regs := u.regs.write (wrX n w) }) (setFull_x _ n true), wrX, xval_write u n k _ _ _ h]
  simp

/-- A halted thread after XWR of one half of a v register. -/
def vWritten (u : Thread) (v : VReg) (hi : Bool) (w : Word) : Thread :=
  { u with regs := u.regs.write (wrV v (halfSet (vval u v) hi w)) }

theorem vval_vWritten (u : Thread) (v : VReg) (hi : Bool) (w : Word) (k : VReg) :
    vval (vWritten u v hi w) k = if k = v then halfSet (vval u v) hi w else vval u k := by
  have hk : (vWritten u v hi w).regs.v = u.regs.v.set v.toNat (halfSet (vval u v) hi w) v.isLt := rfl
  show (vWritten u v hi w).regs.v[k.toNat] = _
  simp only [hk, Vector.getElem_set]
  by_cases h : k = v
  · rw [if_pos (congrArg BitVec.toNat h.symm), if_pos h]
  · rw [if_neg fun e => h (BitVec.eq_of_toNat_eq e.symm), if_neg h]
    rfl

end Sys2Proof.Machine

namespace Sys2Proof.Machine

/-! A halted thread that goes on (R300, R428). -/

section
variable (s : State) (m : Loc) (u : Thread)

/-- The thread halts alone again: TEPC and TVAL hold a PC, TCAUSE[7:0] a cause, and the registers are as they were. -/
def HaltsAgain (x : State) (cause pc : Word) : Prop :=
  ∃ u', thread? x m = some u' ∧ u'.mode = .halted 0 ∧ u'.csr.tepc = pc ∧ u'.csr.tval = pc ∧ u'.csr.tcause &&& 0xFF = cause
    ∧ u'.regs = u.regs

/-- The thread runs on at a PC with so many annulments, every tag FREE and TCAUSE[9:8] cleared. -/
def GoesOn (x s1 : State) (pc : Word) (n : Nat) : Prop :=
  ∃ u', x = setThread s1 m u' ∧ u'.mode = .running ∧ u'.pc = pc ∧ u'.regs = u.regs ∧ u'.ports = u.ports
    ∧ u'.csr = { u.csr with tcause := u.csr.tcause &&& 0xFFFFFFFFFFFFFCFF }
    ∧ u'.pipe.annul = n ∧ u'.pipe.hist = [] ∧ ∀ k, tagOf u' k = .free

/-- A trap that never uses TVEC halts its thread. -/
theorem takeTrap_haltsAgain (t : Thread) (cause : BitVec 8) (pc : Word) (skp : BitVec 2) (h : t.regs = u.regs) :
    HaltsAgain m u (takeTrap s m t { cause := cause, tval := pc, pc := pc, skp := skp, alone := true, hi := 0 })
      (cause.setWidth 64) pc :=
  ⟨trapped t _, thread?_takeTrap .., rfl, rfl, rfl, cause_low .., h⟩

@[simp] theorem resume_csr : (resume u).csr = u.csr := rfl

/-- The annulment field of TCAUSE says nothing of the level at which a thread runs. -/
theorem threadCtx_noSkp (t : Thread) : threadCtx m (noSkp t) = threadCtx m t := by
  have h : (t.csr.tcause &&& ~~~ 0x300#64).getLsbD 62 = t.csr.tcause.getLsbD 62 := by
    rw [BitVec.getLsbD_and, show (~~~ 0x300#64).getLsbD 62 = true from rfl, Bool.and_true]
  simp only [threadCtx, supLevel, noSkp, h]

/-- The thread that goes on has every tag FREE. -/
theorem tagOf_resumed (pc : Word) (n : Nat) (k : BitVec 3) :
    tagOf { noSkp (resume u) with pc := pc, pipe := { (noSkp (resume u)).pipe with annul := n } } k = .free :=
  Vector.getElem_replicate k.isLt

/-- What a resumed thread meets at a PC: at one that is no address, or whose line cannot be fetched, it halts again, and
    otherwise it goes on (R40, R54, R70, R72). -/
structure Lands (x : State) (pc : Word) (n : Nat) : Prop where
  noAddress : pc.toNat / 2 ^ 56 ≠ 0 → HaltsAgain m u x 7 pc
  noLeaf : pc.toNat / 2 ^ 56 = 0 → ∀ s1, translate s (threadCtx m u) (pcLine pc) = (.miss, s1)
    ∨ translate s (threadCtx m u) (pcLine pc) = (.badLeaf, s1) → HaltsAgain m u x 7 pc
  allowed : pc.toNat / 2 ^ 56 = 0 → ∀ e s1, translate s (threadCtx m u) (pcLine pc) = (.leaf e, s1) →
    fetchAllowed (threadCtx m u) e = true → GoesOn m u x s1 pc n
  denied : pc.toNat / 2 ^ 56 = 0 → ∀ e s1, translate s (threadCtx m u) (pcLine pc) = (.leaf e, s1) →
    fetchAllowed (threadCtx m u) e = false →
    HaltsAgain m u x (if (lineAt (codeFetch s1 m (threadCtx m u).key (readPa s1 (threadCtx m u) e (pcLine pc))).1.bytes 0).isOk
      then 7 else 1) pc

theorem resumeAt_lands (pc : Word) (n : Nat) : Lands s m u (resumeAt s m (noSkp (resume u)) pc n) pc n where
  noAddress h := by
    rw [resumeAt, if_pos h]
    exact takeTrap_haltsAgain _ m u _ _ _ _ rfl
  noLeaf h s1 hw := by
    obtain hw | hw := hw
    all_goals
      simp only [resumeAt, h, threadCtx_noSkp, show threadCtx m (resume u) = threadCtx m u from rfl, hw]
      exact takeTrap_haltsAgain _ m u _ _ _ _ rfl
  allowed h e s1 hw ha := by
    simp only [resumeAt, h, threadCtx_noSkp, show threadCtx m (resume u) = threadCtx m u from rfl, hw, ha]
    exact ⟨_, rfl, rfl, rfl, rfl, rfl, rfl, rfl, rfl, tagOf_resumed u pc n⟩
  denied h e s1 hw ha := by
    simp only [resumeAt, h, threadCtx_noSkp, show threadCtx m (resume u) = threadCtx m u from rfl, hw, ha]
    cases lineAt (codeFetch s1 m (threadCtx m u).key (readPa s1 (threadCtx m u) e (pcLine pc))).1.bytes 0
    all_goals exact takeTrap_haltsAgain _ m u _ _ _ _ rfl

/-- ACT 0: at TEPC, with the annulment count of TCAUSE[9:8]. -/
theorem resumeThread_lands :
    Lands s m u (resumeThread s m u 0) u.csr.tepc (u.csr.tcause.extractLsb' 8 2).toNat := by
  rw [← field_eq_extract]
  exact resumeAt_lands ..

variable {s m u}

/-- ACT 1 at a line that cannot be fetched. -/
theorem resumeThread_noLine {s1 : State} (h : lineOfPc s m u u.csr.tepc = (none, s1)) :
    HaltsAgain m u (resumeThread s m u 1) 7 u.csr.tepc := by
  simp only [resumeThread, resumeAfter, h]
  exact takeTrap_haltsAgain _ m u _ _ _ _ rfl

/-- ACT 1 at a malformed line. -/
theorem resumeThread_malformed {k : CodeLine} {s1 : State} {e : Reject} (h : lineOfPc s m u u.csr.tepc = (some k, s1))
    (he : lineAt k.bytes 0 = .error e) : HaltsAgain m u (resumeThread s m u 1) 1 u.csr.tepc := by
  simp only [resumeThread, resumeAfter, h, he]
  exact takeTrap_haltsAgain _ m u _ _ _ _ rfl

/-- ACT 1: after TEPC, with one annulment less. -/
theorem resumeThread_after {k : CodeLine} {s1 : State} {w n : Nat} (h : lineOfPc s m u u.csr.tepc = (some k, s1))
    (hw : lineAt k.bytes 0 = .ok (w, n)) :
    Lands s1 m u (resumeThread s m u 1) (pcAfter u.csr.tepc n) ((u.csr.tcause.extractLsb' 8 2).toNat - 1) := by
  simp only [resumeThread, resumeAfter, h, hw, nextPc_eq_pcAfter, ← field_eq_extract]
  exact resumeAt_lands ..

/-- ACT 2: in the handler, with the saved trap. -/
theorem resumeThread_handler (hv : u.csr.tvec ≠ 0) (hh : u.csr.tcause.getLsbD 63 = false) :
    ∃ u', resumeThread s m u 2 = setThread s m u' ∧ u'.mode = .running ∧ u'.pc = u.csr.tvec ∧ u'.regs = u.regs
      ∧ (∀ k, tagOf u' k = .free) ∧ u'.csr = { u.csr with tcause := u.csr.tcause ||| 0x8000000000000000 } := by
  simp only [resumeThread, takeTrap, resume_csr, hv, hh, cause_restored]
  exact ⟨_, rfl, rfl, rfl, rfl, fun k => Vector.getElem_replicate k.isLt, rfl⟩

/-- Nothing is left to send for a thread whose windows are empty and whose copies have deposited no token. -/
theorem holdsWords_false {x : State} {t : Thread} (hp : t.ports.toList.all (fun p => p.win.isEmpty) = true)
    (hc : ∀ c ∈ x.flight.copies, c.uid = t.uid → c.deposited = false) : holdsWords x t = false := by
  have h1 : (t.ports.toList.any fun p => !p.win.isEmpty) = false := by
    rw [List.any_eq_false]
    intro p hm
    simpa using List.all_eq_true.mp hp p hm
  have h2 : (x.flight.copies.any fun c => c.uid = t.uid && c.deposited && x.flight.tokens.all fun m => m.copy ≠ some c.id) = false := by
    rw [List.any_eq_false]
    intro c hm
    by_cases hu : c.uid = t.uid
    · simp [hc c hm hu]
    · simp [hu]
  rw [holdsWords, h1, h2, Bool.or_self]

/-- ACT 3: a thread of no group that holds no words ends as by EXIT. -/
theorem resumeThread_exit (hg : u.grp = none) (hs : m.slot ≠ 0) (hp : u.ports.toList.all (fun p => p.win.isEmpty) = true)
    (hc : ∀ c ∈ s.flight.copies, c.uid = u.uid → c.deposited = false) :
    resumeThread s m u 3
      = tryBarriers (endThread (setThread s m (resume u)) m (resume u)) u.csr.gang.toNat u.csr.lnch.toNat := by
  have hw : holdsWords (setThread s m (resume u)) (resume u) = false :=
    holdsWords_false hp hc
  have hn : m.supervisor = false := by simp [Loc.supervisor, hs]
  simp [resumeThread, exitThread, show (resume u).grp = none from hg, hw, hn]

end

/-! XRES (R300, R428). -/

section
variable {s : State} {t : Thread} {d : Dep} {r : XReg} (h : Issues s t (.xres d r))
include h

theorem exec_xres_reserved (hv : 4 ≤ (xval t r).toNat) :
    exec (.xres d r) s = .next (raiseTrap s s.cur t ⟨.operand, xval t r⟩) := by
  have hf : field (xval t r) 2 62 ≠ 0 := fun e => by
    have := (field_high_eq_zero (xval t r) rfl).mp e
    omega
  show execXres d r s = _
  refine issue_of_check h rfl ?_
  simp only [hf, ne_eq, not_false_eq_true, if_true]

variable (hv : (xval t r).toNat < 4)
include hv

theorem exec_xres_noThread (hw : windowThread s s.cur t = none) :
    exec (.xres d r) s = .next (raiseTrap s s.cur t ⟨.operand, t.csr.xwin⟩) := by
  have hf : field (xval t r) 2 62 = 0 := (field_high_eq_zero _ rfl).mpr hv
  show execXres d r s = _
  refine issue_of_check h rfl ?_
  simp [hf, hw]

section
variable {m : Loc} {u : Thread} (hw : windowThread s s.cur t = some (m, u))
include hw

theorem exec_xres_undeliverable (ha : (xval t r).toNat = 2) (hu : u.csr.tvec = 0 ∨ u.csr.tcause.getLsbD 63 = true) :
    exec (.xres d r) s = .next (raiseTrap s s.cur t ⟨.operand, xval t r⟩) := by
  have hf : field (xval t r) 2 62 = 0 := (field_high_eq_zero _ rfl).mpr hv
  have hc : ((xval t r).toNat = 2 && (u.csr.tvec = 0 || u.csr.tcause.getLsbD 63)) = true := by
    rw [decide_eq_true ha, Bool.true_and, Bool.or_eq_true, decide_eq_true_eq]
    exact hu
  show execXres d r s = _
  refine issue_of_check h rfl ?_
  simp only [hf, hw, hc]
  rfl

theorem exec_xres_resumes (ha : (xval t r).toNat = 2 → u.csr.tvec ≠ 0 ∧ u.csr.tcause.getLsbD 63 = false) :
    exec (.xres d r) s = .next (resumeThread (setThread s s.cur { issuedThread s t (.xres d r) with
      csr := { t.csr with xwin := t.csr.xwin &&& 0x7FFFFFFFFFFFFFFF } }) m u (xval t r).toNat) := by
  have hf : field (xval t r) 2 62 = 0 := (field_high_eq_zero _ rfl).mpr hv
  have hc : ((xval t r).toNat = 2 && (u.csr.tvec = 0 || u.csr.tcause.getLsbD 63)) = false := by
    by_cases h2 : (xval t r).toNat = 2
    · obtain ⟨htv, hth⟩ := ha h2
      rw [hth, decide_eq_false htv, Bool.or_self, Bool.and_false]
    · rw [decide_eq_false h2, Bool.false_and]
  show execXres d r s = _
  refine issue_of_effect h rfl ?_
  simp only [hf, hw, hc, issuedThread_of_no_pops (i := .xres d r) s t rfl, charge_csr (i := .xres d r) s t rfl]
  rfl

end
end

end Sys2Proof.Machine

namespace Sys2Proof.Machine

/-- A good REPART leaves its issuer with registers and descriptors of zeros and the result 0 to land. -/
theorem repart_leaves {s : State} {t : Thread} (d : Dep) (rd : XReg) (p : Bool) (h : Issues s t (.repart d rd p))
    (hq : quiescent s s.cur t = true) : ∃ s' t', exec (.repart d rd p) s = .next s'
      ∧ (coreOf s' s.cur.coreIdx).p64 = p ∧ s'.threads = (setThread s s.cur t').threads
      ∧ t'.regs = Regs.zero ∧ (∀ q, (portOf t' q).desc = 0) ∧ t'.csr = t.csr ∧ t'.pc = pcAfter t.pc s.curN
      ∧ (∀ k : BitVec 3, k ≠ d.sa → tagOf t' k = .free)
      ∧ ∃ r ∈ t'.pipe.results, r.tag = d.sa ∧ r.writes = [wrX rd 0] ∧ r.ready = true := by
  have hp : (usesOf (.repart d rd p)).pops = [] := rfl
  have hpc : (charge s t (.repart d rd p)).pc = pcAfter t.pc s.curN := by
    rw [← issuedThread_of_no_pops s t hp, issuedThread_pc, nextPc_eq_pcAfter]
  refine ⟨_, addResult (repartThread t (charge s t (.repart d rd p)) d.sa) ⟨(repartitioned s p).nextId, d.sa, [wrX rd 0], 0, true⟩,
    exec_repart_done d rd p h hq, p64_repartitioned s p, rfl, rfl,
    fun q => congrArg Port.desc (portOf_repartThread t (charge s t (.repart d rd p)) d.sa q), charge_csr s t hp, hpc,
    fun k hk => tagOf_repartThread t (charge s t (.repart d rd p)) d.sa k hk,
    ⟨(repartitioned s p).nextId, d.sa, [wrX rd 0], 0, true⟩, ?_, rfl, rfl, rfl⟩
  exact List.mem_append_right _ (List.mem_singleton_self _)

/-- What XRD and XWR do with an index, by the item that it names and the thread that XWIN names. -/
theorem window_instructions {s : State} {t : Thread} (d : Dep) (rd ra rb : XReg) (i : Instr)
    (hi : i = .xrd d rd ra ∨ i = .xwr d ra rb) (h : Issues s t i) :
    (itemOf (xval t ra).toNat = none → exec i s = .next (raiseTrap s s.cur t ⟨.operand, xval t ra⟩))
      ∧ ∀ it, itemOf (xval t ra).toNat = some it →
        (i = .xwr d ra rb → itemFixed it = true → exec i s = .next (raiseTrap s s.cur t ⟨.operand, xval t ra⟩))
        ∧ ((i = .xwr d ra rb → itemFixed it = false) →
          (windowThread s s.cur t = none → exec i s = .next (raiseTrap s s.cur t ⟨.operand, t.csr.xwin⟩))
          ∧ ∀ m u, windowThread s s.cur t = some (m, u) →
            (lacksItem s m u it = true → exec i s = .next (raiseTrap s s.cur t ⟨.operand, xval t ra⟩))
            ∧ (lacksItem s m u it = false →
              (i = .xrd d rd ra → exec i s = .next (variableDone s t i [wrX rd (readItem s m u it)] 0))
              ∧ (i = .xwr d ra rb → exec i s = .next (writeItem (issuedState s t i) m u (xval t rb) it)))) := by
  obtain rfl | rfl := hi
  · have free (it : Item) : false = true → itemFixed it = false := nofun
    refine ⟨fun hn => exec_xrd_trap h (windowItem_unlisted hn), fun it hit => ⟨nofun, fun _ =>
      ⟨fun hw => exec_xrd_trap h (windowItem_noThread hit (free it) hw), fun m u hw =>
        ⟨fun hl => exec_xrd_trap h (windowItem_absent hit (free it) hw hl), fun hl =>
          ⟨fun _ => exec_xrd_item h (windowItem_ok hit (free it) hw hl), nofun⟩⟩⟩⟩⟩
  · refine ⟨fun hn => exec_xwr_trap h (windowItem_unlisted hn), fun it hit => ⟨fun _ hf => exec_xwr_trap h (windowItem_fixed hit hf),
      fun hf => ⟨fun hw => exec_xwr_trap h (windowItem_noThread hit (fun _ => hf rfl) hw), fun m u hw =>
        ⟨fun hl => exec_xwr_trap h (windowItem_absent hit (fun _ => hf rfl) hw hl), fun hl =>
          ⟨nofun, fun _ => exec_xwr_item h (windowItem_ok hit (fun _ => hf rfl) hw hl)⟩⟩⟩⟩⟩

/-- Settles O33: each instruction by its lemmas, the items of the window one by one, and the resumption by its ACT. -/
theorem supervisorInstructionsComplete : Obligations.SupervisorInstructionsComplete := by
  unfold Obligations.SupervisorInstructionsComplete
  refine ⟨fun d rd p s t h => ⟨exec_repart_refused d rd p h, repart_leaves d rd p h⟩, ?spill, ?rstr,
    fun d rd ra rb s t i hi h => window_instructions d rd ra rb i hi h, windowThread_iff, ?xItem, ?items, ?xres, ?resume⟩
  case spill =>
    intro d rd ra s t h
    refine ⟨fun hn => exec_spill_refused d rd ra h (spillTarget_none hn), fun u hv hu =>
      ⟨fun hn => exec_spill_refused d rd ra h (spillTarget_neverSaved hv hu hn),
        fun hn hr => exec_spill_refused d rd ra h (spillTarget_noRoom hv hu hn hr),
        fun hn hr hs => exec_spill_refused d rd ra h (spillTarget_saving hv hu hn hr hs), fun hn hr hs => ?_⟩⟩
    have hp : (usesOf (.spill d rd ra)).pops = [] := rfl
    refine ⟨_, addResult (charge s t (.spill d rd ra)) ⟨s.nextId, d.sa, [wrX rd 0], 0, false⟩,
      exec_spill_queued d rd ra h (spillTarget_ok hv hu hn hr hs), rfl, ?_, ?_, saves_saveQueued ..⟩
    · exact congrArg (· ++ [_]) (charge_results s t hp)
    · rw [addResult_regs, ← issuedThread_of_no_pops s t hp, issuedThread_regs]
  case rstr =>
    intro d rd ra s t h
    refine ⟨fun hn => exec_rstr_none d rd ra h hn, fun r hv hr =>
      ⟨exec_rstr_busy h hv hr, exec_rstr_noSlot h hv hr, fun l hb hl => ?_⟩⟩
    rw [exec_rstr_restored h hv hr hb hl, spillWord, Nat.zero_mul, Nat.zero_add]
    rfl
  case xItem =>
    intro s m u n w
    refine ⟨itemOf_x n, rfl, fun hn => ⟨xWritten u n w, rfl, ?_, fun k hk => ?_, full_setFull _ hn true, rfl, rfl⟩⟩
    · rw [xval_xWritten u hn, if_pos rfl]
    · rw [xval_xWritten u hn, if_neg hk]
  case items =>
    intro s m u w q v hi
    refine ⟨⟨itemOf_q q, rfl, rfl⟩, ⟨itemOf_v v hi, rfl, vWritten u v hi w, rfl, ?_, fun k hk => ?_, rfl, rfl, rfl⟩,
      ⟨rfl, rfl⟩, ⟨rfl, rfl, rfl⟩, ⟨rfl, rfl, rfl⟩, ⟨rfl, rfl, rfl⟩, fun n hn => ⟨itemOf_csr hn, rfl, fun _ hr => ?_⟩⟩
    · rw [vval_vWritten, if_pos rfl]
      cases hi
      · exact halfSet_low ..
      · exact halfSet_high ..
    · rw [vval_vWritten, if_neg hk]
    · rw [writeItem, if_neg (Bool.eq_false_iff.mp hr)]
  case xres =>
    intro d r s t h
    exact ⟨exec_xres_reserved h, fun hv => ⟨exec_xres_noThread h hv, fun m u hw =>
      ⟨exec_xres_undeliverable h hv hw, exec_xres_resumes h hv hw⟩⟩⟩
  case resume =>
    intro s m u again goes lands
    have land {x s0 : State} {pc : Word} {n : Nat} (h : Lands s0 m u x pc n) : lands x s0 pc n :=
      ⟨h.noAddress, fun ha => ⟨h.noLeaf ha, fun e s1 he => ⟨h.allowed ha e s1 he, h.denied ha e s1 he⟩⟩⟩
    exact ⟨land (resumeThread_lands s m u), fun s1 h => resumeThread_noLine h, fun k s1 h =>
      ⟨fun e he => resumeThread_malformed h he, fun w n hw => land (resumeThread_after h hw)⟩, resumeThread_handler,
      resumeThread_exit⟩

end Sys2Proof.Machine

namespace Sys2Proof.Machine

/-! The thread as an issue without popped ports leaves it. -/

section
variable {i : Instr}

theorem setTag_annul (p : Pipe) (k : BitVec 3) (v : TagState) : (setTag p k v).annul = p.annul := by
  unfold setTag; split <;> rfl

/-- The issue of an instruction that pops no port moves the PC on and changes issue state other than the pending
    annulment (R60 to R66, R70). -/
theorem charge_of_no_pops (s : State) (t : Thread) (h : (usesOf i).pops = []) :
    ∃ p, charge s t i = { t with pc := nextPc t.pc s.curN, pipe := p } ∧ p.annul = t.pipe.annul := by
  simp only [charge, popPorts, h, List.foldl_nil]
  refine ⟨_, rfl, ?_⟩
  simp only [setTag_annul]
  split
  · exact setTag_annul ..
  · rfl

/-- An instruction that pops no port and only changes its thread. -/
theorem issueThread_of_no_pops {s : State} {t : Thread} (hi : Issues s t i) (h : (usesOf i).pops = [])
    (f : Thread → Thread → Thread) : issueThread i s f = .next (setThread s s.cur (f t (charge s t i))) := by
  rw [issueThread_of_issues hi, afterPops_of_no_pops s t h, issuedThread_of_no_pops s t h]

end

/-- Settles O23: the thread as its issue leaves it, and then as the return of its handler does. -/
theorem returnsGoBack : Obligations.ReturnsGoBack := by
  unfold Obligations.ReturnsGoBack
  refine ⟨fun b s t h => ?eret, fun b s t h => ?reth⟩
  case eret =>
    obtain ⟨p, hp, _⟩ := charge_of_no_pops (i := .eret b) s t rfl
    refine ⟨returnTrap (charge s t (.eret b)), issueThread_of_no_pops h rfl _, ?_⟩
    rw [hp]
    exact ⟨rfl, rfl, field_eq_extract .., rfl, rfl, rfl⟩
  case reth =>
    obtain ⟨p, hp, ha⟩ := charge_of_no_pops (i := .reth b) s t rfl
    refine ⟨returnLight (charge s t (.reth b)), issueThread_of_no_pops h rfl _, ?_⟩
    rw [hp]
    exact ⟨rfl, rfl, ha, rfl, rfl, rfl⟩

end Sys2Proof.Machine

namespace Sys2Proof.Machine

/-! Privilege (R110, R111, R115). -/

section
variable {s : State} {t : Thread}

theorem csrr_pops (d : Dep) (csr : BitVec 12) (rd : Opr) : (usesOf (.csrr d csr rd)).pops = [] := by
  cases rd <;> rfl

/-- A thread at user level, whose registers are present, is stopped from a supervisor instruction. -/
theorem entryTrap_of_user {i : Instr} {l : Loc} (hi : privileged i = true) (hl : supLevel l t = false)
    (ha : absentReg t.csr.light (coreOf s l.coreIdx).p64 (usesOf i) = none) : entryTrap s l t i = some ⟨.priv, 0⟩ := by
  simp [entryTrap, ha, hi, hl]

/-- The instructions of the supervisor level have an encoding, and come to issue as most do. -/
theorem supervisorOnly_issues {i : Instr} (h : supervisorOnly i = true) :
    privileged i = true ∧ (encode i).isSome = true ∧ ownEntry i = false := by
  cases i <;> cases h <;> exact ⟨rfl, rfl, rfl⟩

theorem exec_supervisorOnly_of_user {i : Instr} (hi : supervisorOnly i = true) (ht : thread? s s.cur = some t)
    (hc : canIssue s s.cur t i = true) (hl : supLevel s.cur t = false)
    (ha : absentReg t.csr.light (coreOf s s.cur.coreIdx).p64 (usesOf i) = none) :
    exec i s = .next (raiseTrap s s.cur t ⟨.priv, 0⟩) := by
  obtain ⟨hp, he, ho⟩ := supervisorOnly_issues hi
  obtain ⟨body, hb⟩ := exec_eq_issue i s he ho
  rw [hb, issue_of_trap ht hc (entryTrap_of_user hp hl ha)]

theorem issueIllegal_of_canIssue {i : Instr} (ht : thread? s s.cur = some t) (hc : canIssue s s.cur t i = true) :
    issueIllegal i s = .next (raiseIllegal s s.cur t i.word) := by
  simp [issueIllegal, ht, hc]

/-! CSRR and CSRW (R110, R345). -/

section
variable {d : Dep} {csr : BitVec 12} {rd : Opr}

theorem exec_csrr_unassigned (ht : thread? s s.cur = some t) (hc : canIssue s s.cur t (.csrr d csr rd) = true)
    (hn : csrAssigned csr.toNat = false) :
    exec (.csrr d csr rd) s = .next (raiseIllegal s s.cur t (Instr.csrr d csr rd).word) := by
  show execCsrr d csr rd s = _
  rw [execCsrr, hn, ← issueIllegal_of_canIssue ht hc]
  rfl

variable (h : Issues s t (.csrr d csr rd)) (hn : csrAssigned csr.toNat = true)
include h hn

theorem exec_csrr_of_user (hs : 0x100 ≤ csr.toNat) (hl : supLevel s.cur t = false) :
    exec (.csrr d csr rd) s = .next (raiseTrap s s.cur t ⟨.priv, 0⟩) := by
  show execCsrr d csr rd s = _
  rw [execCsrr, if_neg (by rw [hn]; decide)]
  refine issue_of_check h (csrr_pops ..) ?_
  simp [csrSupervisor, hs, hl]

theorem exec_csrr_reads (hl : 0x100 ≤ csr.toNat → supLevel s.cur t = true) :
    exec (.csrr d csr rd) s = .next (clearDone s t (.csrr d csr rd) rd (csrRead s s.cur t csr.toNat)) := by
  have hp : (csrSupervisor csr.toNat && !supLevel s.cur t) = false := by simpa [csrSupervisor] using hl
  show execCsrr d csr rd s = _
  rw [execCsrr, if_neg (by rw [hn]; decide), clearDone, afterPops_of_no_pops s t (csrr_pops ..),
    issuedThread_of_no_pops s t (csrr_pops ..)]
  refine issue_of_effect h (csrr_pops ..) ?_
  simp [hp]

end

section
variable {d : Dep} {csr : BitVec 12} {r : XReg}

theorem exec_csrw_illegal (ht : thread? s s.cur = some t) (hc : canIssue s s.cur t (.csrw d csr r) = true)
    (hn : csrAssigned csr.toNat = false ∨ csrReadOnly csr.toNat = true) :
    exec (.csrw d csr r) s = .next (raiseIllegal s s.cur t (Instr.csrw d csr r).word) := by
  have hi : (!csrAssigned csr.toNat || csrReadOnly csr.toNat) = true := by simpa using hn
  show execCsrw d csr r s = _
  rw [execCsrw, if_pos hi, issueIllegal_of_canIssue ht hc]

variable (h : Issues s t (.csrw d csr r)) (hn : csrAssigned csr.toNat = true) (hw : csrReadOnly csr.toNat = false)
include h hn hw

theorem exec_csrw_of_user (hu : csrUserWrites csr.toNat = false) (hl : supLevel s.cur t = false) :
    exec (.csrw d csr r) s = .next (raiseTrap s s.cur t ⟨.priv, 0⟩) := by
  show execCsrw d csr r s = _
  rw [execCsrw, if_neg (by rw [hn, hw]; decide)]
  refine issue_of_check h rfl ?_
  simp [hu, hl]

theorem exec_csrw_writes (hl : csrUserWrites csr.toNat = false → supLevel s.cur t = true) :
    exec (.csrw d csr r) s =
      .next (csrWrite s s.cur (issuedThread s t (.csrw d csr r)) csr.toNat (xval t r)) := by
  have hp : (!csrUserWrites csr.toNat && !supLevel s.cur t) = false := by
    cases hu : csrUserWrites csr.toNat
    · simp [hl hu]
    · rfl
  show execCsrw d csr r s = _
  rw [execCsrw, if_neg (by rw [hn, hw]; decide), issuedThread_of_no_pops s t rfl]
  refine issue_of_effect h rfl ?_
  simp [hp]

end

/-- The level of a thread: its slot, and no light handler (R111, R115, log 67). -/
theorem supLevel_iff (l : Loc) (t : Thread) : supLevel l t = true ↔ l.slot = 0 ∧ t.csr.tcause.getLsbD 62 = false := by
  simp [supLevel, Loc.supervisor]

end

/-- Settles O32: the supervisor instructions by the traps of every instruction, CSRR and CSRW by their own checks. -/
theorem privilegeIsChecked : Obligations.PrivilegeIsChecked := by
  unfold Obligations.PrivilegeIsChecked
  exact ⟨fun i s t hi ht hc hl ha => exec_supervisorOnly_of_user hi ht hc hl ha,
    fun d csr rd s t h hn hs hl => exec_csrr_of_user h hn hs hl,
    fun d csr r s t h hn hw hu hl => exec_csrw_of_user h hn hw hu hl,
    fun d csr rd s t ht hc hn => exec_csrr_unassigned ht hc hn,
    fun d csr r s t ht hc hn => exec_csrw_illegal ht hc hn, supLevel_iff⟩

end Sys2Proof.Machine

namespace Sys2Proof.Machine

/-! Masks of a word. -/

/-- The low bits of a word, by a mask. -/
theorem setWidth_setWidth_eq_and (v : Word) {n : Nat} (h : n ≤ 64) :
    (v.setWidth n).setWidth 64 = v &&& BitVec.ofNat 64 (2 ^ n - 1) := by
  apply BitVec.eq_of_toNat_eq
  have hn : 2 ^ n ≤ 2 ^ 64 := Nat.pow_le_pow_right (by decide) h
  have hm : 2 ^ n - 1 < 2 ^ 64 := by have := Nat.two_pow_pos n; omega
  have hv : v.toNat % 2 ^ n < 2 ^ 64 := Nat.lt_of_lt_of_le (Nat.mod_lt _ (Nat.two_pow_pos n)) hn
  rw [BitVec.toNat_setWidth, BitVec.toNat_setWidth, BitVec.toNat_and, BitVec.toNat_ofNat, Nat.mod_eq_of_lt hm,
    Nat.and_two_pow_sub_one_eq_mod, Nat.mod_eq_of_lt hv]

/-! The control registers of a thread after a write (R109, R110). -/

section
variable (s : State) (l : Loc) (t : Thread) (v : Word)

/-- Every number but those of the event counters and selectors writes a register of the thread. -/
theorem csrWrite_thread {n : Nat} (hc : ¬ (0x20 ≤ n ∧ n ≤ 0x27)) (hs : ¬ (0x102 ≤ n ∧ n ≤ 0x109)) :
    csrWrite s l t n v = setThread s l { t with csr := csrSet t.csr n v } := by
  rw [csrWrite, if_neg hc, if_neg hs]

/-- The numbers with a mask are none of the event counters and selectors. -/
theorem not_event_of_csrMask {n : Nat} {m : Word} (h : csrMask n = some m) :
    ¬ (0x20 ≤ n ∧ n ≤ 0x27) ∧ ¬ (0x102 ≤ n ∧ n ≤ 0x109) := by
  unfold csrMask at h
  split at h <;> cases h <;> decide

theorem and_whole : v &&& 0xFFFFFFFFFFFFFFFF = v := BitVec.and_allOnes

/-- PTBASE is stored aligned, and reads as it is stored. -/
theorem ptbaseMask_ptbaseMask : ptbaseMask (ptbaseMask v) = ptbaseMask v := by
  rw [ptbaseMask, ptbaseMask, BitVec.and_assoc, BitVec.and_self]

/-- A written register reads as its writable bits of the value. -/
theorem csrValue_csrSet_mask {n : Nat} {m : Word} (h : csrMask n = some m) :
    csrValue s l { t with csr := csrSet t.csr n v } n = v &&& m := by
  unfold csrMask at h
  split at h <;> cases h
  case h_2 | h_3 | h_4 | h_5 | h_6 => exact (and_whole v).symm
  case h_7 | h_13 => rfl
  case h_11 => exact ptbaseMask_ptbaseMask v
  all_goals exact setWidth_setWidth_eq_and v (by decide)

/-- FPCTL stores its low byte, and MODE 0 for the reserved modes. -/
theorem fpctlOf_setWidth : (fpctlOf v).setWidth 64 = if (v &&& 7).toNat < 5 then v &&& 0xFF else v &&& 0xF8 := by
  have low : (v.setWidth 8).toNat % 8 = (v &&& 7).toNat := by
    rw [BitVec.toNat_and, show (7 : Word).toNat = 2 ^ 3 - 1 from rfl, Nat.and_two_pow_sub_one_eq_mod, BitVec.toNat_setWidth]
    omega
  have byte : (v.setWidth 8).setWidth 64 = v &&& 0xFF := setWidth_setWidth_eq_and v (by decide)
  simp only [fpctlOf, low]
  by_cases h : (v &&& 7).toNat < 5
  · rw [if_neg (by omega), if_pos h, byte]
  · rw [if_pos (by omega), if_neg h, BitVec.setWidth_and, byte, BitVec.and_assoc]
    rfl

/-- A write changes of the control registers of its thread only the one that it names: of each pair of numbers, they are
    equal, or the one read names a field that the write leaves. -/
theorem csrValue_csrSet_ne {n k : Nat} (h : k ≠ n) :
    csrValue s l { t with csr := csrSet t.csr n v } k = csrValue s l t k := by
  unfold csrSet
  split
  case h_16 => rfl
  all_goals
    unfold csrValue
    split <;> trivial

end

/-! Event counters and their selectors (R320, R321). -/

/-- A selector of a cluster stores no source that is none of a cluster; source 0 leaves the low bits zero. -/
theorem storedSel_cluster (v : Word) : storedSel false v =
    if v.toNat % 65536 ∈ clusterSources then v.setWidth 18 else v.setWidth 18 &&& 0x30000 := by
  by_cases h0 : v.toNat % 65536 = 0
  · have low (i : Nat) (h : i < 16) : v.getLsbD i = false := by
      have hz : v.setWidth 16 = 0 := BitVec.eq_of_toNat_eq (by rw [BitVec.toNat_setWidth]; exact h0)
      have := congrArg (BitVec.getLsbD · i) hz
      simpa [h] using this
    have mask : ∀ i (h : i < 18), (0x30000#18)[i] = decide (16 ≤ i) := by decide
    have hm : v.setWidth 18 &&& 0x30000#18 = v.setWidth 18 := by
      ext i hi
      by_cases h : 16 ≤ i
      · simp [mask, h]
      · simp [mask, h, low i (by omega)]
    simp [storedSel, h0, clusterSources, hm]
  · simp [storedSel, h0, clusterSources]

/-- A cluster has eight counters. -/
theorem lt_eight_cases {i : Nat} (h : i < 8) : i = 0 ∨ i = 1 ∨ i = 2 ∨ i = 3 ∨ i = 4 ∨ i = 5 ∨ i = 6 ∨ i = 7 := by
  omega

section
variable (s : State) (l : Loc) (t : Thread) (v : Word) {i : Nat} (h : i < 8)

theorem csrValue_evc : csrValue s l t (0x20 + i) = (cluster s l.clu).evc[i] := by
  obtain rfl | rfl | rfl | rfl | rfl | rfl | rfl | rfl := lt_eight_cases h <;> rfl

theorem csrValue_evsel : csrValue s l t (0x102 + i) = (cluster s l.clu).evsel[i].setWidth 64 := by
  obtain rfl | rfl | rfl | rfl | rfl | rfl | rfl | rfl := lt_eight_cases h <;> rfl

/-- An event counter reads its count, at user level where its selector lets it be read (R110). -/
theorem csrRead_evc : csrRead s l t (0x20 + i) =
    if supLevel l t = true ∨ (cluster s l.clu).evsel[i].getLsbD 17 = true then (cluster s l.clu).evc[i] else 0 := by
  have hn : 0x20 ≤ 0x20 + i ∧ 0x20 + i ≤ 0x27 := by omega
  have hk : (cluster s l.clu).evsel.get (Fin.ofNat 8 (0x20 + i - 0x20)) = (cluster s l.clu).evsel[i] := by
    obtain rfl | rfl | rfl | rfl | rfl | rfl | rfl | rfl := lt_eight_cases h <;> rfl
  rw [csrRead, csrValue_evc s l t h, hk]
  cases supLevel l t <;> cases (cluster s l.clu).evsel[i].getLsbD 17 <;> simp [hn]

/-- Every other register reads as its value. -/
theorem csrRead_evsel : csrRead s l t (0x102 + i) = (cluster s l.clu).evsel[i].setWidth 64 := by
  rw [← csrValue_evsel s l t h]
  exact if_neg (by simp; omega)

theorem csrWrite_evc : csrWrite s l t (0x20 + i) v =
    setCluster (setThread s l t) l.clu { cluster s l.clu with evc := (cluster s l.clu).evc.set i v } := by
  obtain rfl | rfl | rfl | rfl | rfl | rfl | rfl | rfl := lt_eight_cases h <;> rfl

theorem csrWrite_evsel : csrWrite s l t (0x102 + i) v =
    setCluster (setThread s l t) l.clu { cluster s l.clu with evsel := (cluster s l.clu).evsel.set i (storedSel false v) } := by
  obtain rfl | rfl | rfl | rfl | rfl | rfl | rfl | rfl := lt_eight_cases h <;> rfl

end

/-- The CYCLE of a die is ahead of the cycles since reset by its own lead (R109, log 108). -/
theorem csrValue_cycle (s : State) (l : Loc) (t : Thread) : ∃ k, k ≤ 32 ∧ csrValue s l t 8 = BitVec.ofNat 64 (s.cycle + k)
    ∧ ∀ (m : Loc) (u : Thread), m.clu / 32 = l.clu / 32 → csrValue s m u 8 = csrValue s l t 8 :=
  ⟨Config.dieSkew (l.clu / 32) % 33, Nat.le_of_lt_succ (Nat.mod_lt _ (by decide)), rfl,
    fun m u hm => congrArg (fun k => BitVec.ofNat 64 (s.cycle + Config.dieSkew k % 33)) hm⟩

/-- Settles O31: CSRR and CSRW by what they do, the registers of a thread by their masks, those of its place by name. -/
theorem csrsReadAndWrite : Obligations.CsrsReadAndWrite := by
  unfold Obligations.CsrsReadAndWrite
  refine ⟨fun d csr rd s t h hn hl => exec_csrr_reads h hn hl, fun d csr r s t h hn hw hl => exec_csrw_writes h hn hw hl,
    fun s l t n m v hm => ?masked, fun s l t v => ⟨fpctlOf_setWidth v, rfl⟩,
    fun s l t n k v hk => csrValue_csrSet_ne s l t v hk, fun s l t => ?place⟩
  case masked =>
    obtain ⟨hc, hs⟩ := not_event_of_csrMask hm
    exact ⟨csrWrite_thread s l t v hc hs, csrValue_csrSet_mask s l t v hm⟩
  case place =>
    refine ⟨rfl, rfl, rfl, rfl, rfl, rfl, rfl, rfl, rfl, rfl, rfl, rfl, rfl, rfl, csrValue_cycle s l t, fun i h v => ?_⟩
    refine ⟨csrRead_evc s l t h, csrRead_evsel s l t h, ?counter, ?selector, ?_⟩
    case counter => simp [csrWrite_evc s l t v h]
    case selector => simp [csrWrite_evsel s l t v h, storedSel_cluster]
    rintro n (rfl | rfl)
    · rw [csrWrite_evc s l t v h, setCluster_threads]
    · rw [csrWrite_evsel s l t v h, setCluster_threads]

end Sys2Proof.Machine

namespace Sys2Proof.Machine

/-! TCAUSE as a trap leaves it (R112). -/

/-- SKP stands in TCAUSE[9:8]. -/
theorem cause_skp (c : Word) (skp : BitVec 2) (cause : BitVec 8) :
    ((c &&& ~~~ 0x3FF#64) ||| (skp.setWidth 64 <<< 8) ||| cause.setWidth 64).extractLsb' 8 2 = skp := by
  have m10 : ∀ i (h : i < 64), (0x3FF#64)[i] = decide (i < 10) := by decide
  generalize 0x3FF#64 = low10 at m10 ⊢
  ext i hi
  simp [BitVec.getLsbD_eq_getElem (show 8 + i < 64 by omega), m10, show 8 + i < 10 by omega, hi]

/-- The bits of TCAUSE above its low fields are as they were. -/
theorem cause_high (c : Word) (skp : BitVec 2) (cause : BitVec 8) {i : Nat} (h : 10 ≤ i) (hi : i < 64) :
    ((c &&& ~~~ 0x3FF#64) ||| (skp.setWidth 64 <<< 8) ||| cause.setWidth 64).getLsbD i = c.getLsbD i := by
  have m10 : ∀ i (h : i < 64), (0x3FF#64)[i] = decide (i < 10) := by decide
  generalize 0x3FF#64 = low10 at m10 ⊢
  simp [m10, show ¬ i < 10 by omega, hi, BitVec.getLsbD_of_ge cause i (by omega),
    BitVec.getLsbD_of_ge skp (i - 8) (by omega)]

/-- TH, bit 63, is none of the low bits of TCAUSE. -/
theorem low_or_th (c : Word) : (c ||| BitVec.twoPow 64 63) &&& 0xFF = c &&& 0xFF := by
  have m8 : ∀ i (h : i < 64), (0xFF#64)[i] = decide (i < 8) := by decide
  ext i hi
  by_cases h : i < 8
  · simp [m8, BitVec.getElem_twoPow, show ¬ i = 63 by omega]
  · simp [m8, h]

theorem skp_or_th (c : Word) : (c ||| BitVec.twoPow 64 63).extractLsb' 8 2 = c.extractLsb' 8 2 := by
  ext i hi
  simp [show ¬ 63 = 8 + i by omega]

/-! A trap that halts its thread alone, and one that enters the handler (R87, R112, R295). -/

section
variable {s : State} {l : Loc} {t : Thread} {r : TrapReq}

@[simp] theorem faults_startDissolve (s : State) (c : Nat) (g : Option Nat) :
    (cluster (startDissolve s c g) c).faults = (cluster s c).faults := by
  cases g with
  | none => rfl
  | some g => simp [startDissolve]

/-- The message of a halt outside the cluster supervisor joins those of its cluster (R297). -/
theorem faults_sendFault (h : l.clusterSup = false) (m : List Word) :
    (cluster (sendFault s l m) l.clu).faults = (cluster s l.clu).faults ++ [m] := by
  simp [sendFault, h]

theorem halts_iff : (r.alone || t.csr.tvec = 0 || t.csr.tcause.getLsbD 63) = true ↔
    r.alone = true ∨ t.csr.tvec = 0 ∨ t.csr.tcause.getLsbD 63 = true := by
  simp [or_assoc]

/-- The thread that a trap halts alone. -/
theorem trapped_of_halts (h : r.alone = true ∨ t.csr.tvec = 0 ∨ t.csr.tcause.getLsbD 63 = true) :
    (trapped t r).mode = .halted r.hi ∧ (trapped t r).pc = t.pc := by
  simp only [trapped, if_pos (halts_iff.mpr h), and_self]

/-- The thread that a trap sends to its handler. -/
theorem trapped_of_handler (ha : r.alone = false) (hv : t.csr.tvec ≠ 0) (hh : t.csr.tcause.getLsbD 63 = false) :
    (trapped t r).mode = t.mode ∧ (trapped t r).pc = t.csr.tvec ∧ (trapped t r).csr.tcause.getLsbD 63 = true := by
  have hn : ¬ (r.alone || t.csr.tvec = 0 || t.csr.tcause.getLsbD 63) = true := by
    rw [halts_iff]
    simp only [ha, hv, hh, Bool.false_eq_true, or_self, not_false_eq_true]
  simp only [trapped, if_neg hn, true_and]
  simp

/-- The fault message of a thread that halts alone is queued at its cluster (R297). -/
theorem faults_takeTrap (h : r.alone = true ∨ t.csr.tvec = 0 ∨ t.csr.tcause.getLsbD 63 = true) (hl : l.clusterSup = false) :
    (cluster (takeTrap s l t r) l.clu).faults = (cluster s l.clu).faults
      ++ [faultMessage l (trapped t r) (if r.alone && r.cause = 0x0F then 2 else 1) r.hi] := by
  have hc := halts_iff.mpr h
  simp only [takeTrap, trapped, if_pos hc, faults_startDissolve, faults_sendFault hl, cluster_setThread]

/-! What every trap leaves of its thread. -/

variable (t r)

@[simp] theorem trapped_pipe : (trapped t r).pipe = t.pipe.fresh 0 := by
  unfold trapped; split <;> rfl
@[simp] theorem trapped_trap : (trapped t r).trap = none := by
  unfold trapped; split <;> rfl

theorem tagOf_trapped (k : BitVec 3) : tagOf (trapped t r) k = .free := by
  rw [tagOf, trapped_pipe]
  exact Vector.getElem_replicate k.isLt

/-- TCAUSE[7:0] takes the cause, TCAUSE[9:8] SKP, and LH stays. -/
theorem trapped_tcause : (trapped t r).csr.tcause &&& 0xFF = r.cause.setWidth 64
    ∧ (trapped t r).csr.tcause.extractLsb' 8 2 = r.skp
    ∧ (trapped t r).csr.tcause.getLsbD 62 = t.csr.tcause.getLsbD 62 := by
  have hl := cause_high t.csr.tcause r.skp r.cause (i := 62) (by decide) (by decide)
  simp only [trapped]
  split
  · exact ⟨cause_low .., cause_skp .., hl⟩
  · refine ⟨(low_or_th _).trans (cause_low ..), (skp_or_th _).trans (cause_skp ..), ?_⟩
    rw [BitVec.getLsbD_or, hl, show (BitVec.twoPow 64 63).getLsbD 62 = false by decide, Bool.or_false]

end

/-! TRAP_DELIVERY and HALT_ALONE. -/

section
variable {s : State} {l : Loc} {t : Thread}

/-- A thread that may halt has no trap held. -/
theorem trap_of_mayHalt (h : mayHalt s l t = true) : t.trap = none := by
  simp only [mayHalt, mayRun, Bool.and_eq_true, Option.isNone_iff_eq_none] at h
  obtain ⟨⟨⟨⟨⟨_, htrap⟩, _⟩, _⟩, _⟩, _⟩ := h
  exact htrap

variable (ht : thread? s l = some t)
include ht

/-- A trap that was held is taken once the thread is at rest, by the event of its kind. -/
theorem exec_of_held {r : TrapReq} (hm : t.mode = .running) (hr : t.trap = some r) (hd : drained t s.cycle = true) :
    exec (if r.alone then .haltAlone l else .trapDelivery l) s = .next (takeTrap s l t r) := by
  cases ha : r.alone with
  | true =>
    show execHaltAlone l s = _
    simp [execHaltAlone, ht, hr, ha, hd]
  | false =>
    show execTrapDelivery l s = _
    simp [execTrapDelivery, ht, hm, hr, ha, hd]

theorem exec_trapDelivery_group {k : Nat} (hm : t.mode = .running) (hr : t.trap = none) (hk : t.gfault = some k)
    (ha : t.pipe.annul = 0) (hd : drained t s.cycle = true) :
    exec (.trapDelivery l) s = .next (raiseTrap s l { t with gfault := none } ⟨.group, BitVec.ofNat 64 k⟩) := by
  show execTrapDelivery l s = _
  simp [execTrapDelivery, ht, hm, hr, hk, ha, hd, groupFault]

variable (hh : mayHalt s l t = true)
include hh

theorem exec_haltAlone_target (hn : nextOf s l t = .target) : exec (.haltAlone l) s = .next (raiseTarget s l t) := by
  show execHaltAlone l s = _
  simp [execHaltAlone, ht, trap_of_mayHalt hh, hh, hn]

theorem exec_haltAlone_illegal {w n : Nat} (hn : nextOf s l t = .illegal w n) (hw : illegalReady s l t w = true) :
    exec (.haltAlone l) s = .next (raiseIllegal s l t w) := by
  show execHaltAlone l s = _
  simp [execHaltAlone, ht, trap_of_mayHalt hh, hh, hn, hw]

end

/-- Settles O45: what every trap leaves, what a halt and a handler add, and the events by their lemmas. -/
theorem trapsAreTaken : Obligations.TrapsAreTaken := by
  unfold Obligations.TrapsAreTaken
  refine ⟨fun s l t r => ⟨trapped t r, thread?_takeTrap .., trapped_tepc t r, ?taken⟩, fun s l t v => rfl, fun s l t => rfl,
    fun s l t r ht hm hr hd => exec_of_held ht hm hr hd,
    fun s l t k ht hm hr hk ha hd => exec_trapDelivery_group ht hm hr hk ha hd,
    fun s l t ht hh => ⟨exec_haltAlone_target ht hh, fun w n hn hw => exec_haltAlone_illegal ht hh hn hw⟩⟩
  case taken =>
    obtain ⟨hcause, hskp, hlh⟩ := trapped_tcause t r
    refine ⟨hcause, hskp, trapped_tval t r, hlh, trapped_regs t r, trapped_ports t r, tagOf_trapped t r,
      congrArg Pipe.annul (trapped_pipe t r), trapped_trap t r, fun h => ?_, trapped_of_handler⟩
    obtain ⟨hmode, hpc⟩ := trapped_of_halts h
    exact ⟨hmode, hpc, faults_takeTrap h⟩

end Sys2Proof.Machine

namespace Sys2Proof.Machine

/-! NaNs in the operations on numbers (R127, R128). -/

section
variable {x y : Num}

@[simp] theorem isNaN_neg (x : Num) : x.neg.isNaN = x.isNaN := by cases x <;> rfl

@[simp] theorem snan_neg (x : Num) : x.neg.snan = x.snan := by cases x <;> rfl

/-- A sum with a NaN is a NaN that no longer signals. -/
theorem addNum_of_isNaN (mode : RMode) (h : x.isNaN = true ∨ y.isNaN = true) :
    addNum mode x y = (.nan false, nvIf (x.snan || y.snan)) := by
  cases x with
  | nan s => rfl
  | inf n | fin n m e =>
    cases y with
    | nan s => rfl
    | inf k | fin k l j => simp [Num.isNaN] at h

/-- A product with a NaN is a NaN that no longer signals. -/
theorem mulNum_of_isNaN (h : x.isNaN = true ∨ y.isNaN = true) :
    mulNum x y = (.nan false, nvIf (x.snan || y.snan)) := by
  cases x with
  | nan s => rfl
  | inf n | fin n m e =>
    cases y with
    | nan s => rfl
    | inf k | fin k l j => simp [Num.isNaN] at h

/-- Whether the factors are an infinity and a zero, in this order. -/
def infTimesZero : Num → Num → Bool
  | .inf _, .fin _ m _ => m = 0
  | _, _ => false

theorem infTimesZero_iff : infTimesZero x y = true ↔ (∃ n, x = .inf n) ∧ ∃ n e, y = .fin n 0 e := by
  cases x with
  | nan s | fin n m e => simp [infTimesZero]
  | inf n =>
    cases y with
    | nan s | inf k => simp [infTimesZero]
    | fin k l j => simp [infTimesZero]

/-- The flags of a product: NV for a signalling factor, and for an infinity times zero in either order. -/
theorem flags_mulNum (x y : Num) :
    (mulNum x y).2 = nvIf (x.snan || y.snan || (infTimesZero x y || infTimesZero y x)) := by
  cases x with
  | nan s => cases y <;> simp [mulNum, Num.snan, infTimesZero]
  | inf n =>
    cases y with
    | nan s | inf k => simp [mulNum, Num.snan, infTimesZero, nvIf]
    | fin k l j => by_cases h : l = 0 <;> simp [mulNum, Num.snan, infTimesZero, nvIf, h]
  | fin n m e =>
    cases y with
    | nan s | fin k l j => simp [mulNum, Num.snan, infTimesZero, nvIf]
    | inf k => by_cases h : m = 0 <;> simp [mulNum, Num.snan, infTimesZero, nvIf, h]

/-- A product that is a NaN does not signal. -/
@[simp] theorem snan_mulNum (x y : Num) : (mulNum x y).1.snan = false := by
  cases x with
  | nan s => rfl
  | inf n =>
    cases y with
    | nan s | inf k => rfl
    | fin k l j => by_cases h : l = 0 <;> simp [mulNum, Num.snan, h]
  | fin n m e =>
    cases y with
    | nan s | fin k l j => rfl
    | inf k => by_cases h : m = 0 <;> simp [mulNum, Num.snan, h]

theorem nvIf_or (p q : Bool) : nvIf p ||| nvIf q = nvIf (p || q) := by
  cases p <;> cases q <;> rfl

theorem nvIf_eq_flagNV {p : Bool} : nvIf p = flagNV ↔ p = true := by
  cases p <;> decide

theorem nvIf_eq_or (p : Bool) : nvIf p = flagNV ∨ nvIf p = 0 := by
  cases p <;> decide

end

/-! Operations with a NaN operand (R119, R127, R128). -/

section
variable {f : Fmt} {r : Rnd} {a b c : Nat}

theorem fpAdd_of_isNaN (h : (numOf f a).isNaN = true ∨ (numOf f b).isNaN = true) :
    fpAdd f r a b = ⟨canonNaN f, nvIf ((numOf f a).snan || (numOf f b).snan)⟩ := by
  simp [fpAdd, addNum_of_isNaN r.mode h, roundNum]

theorem fpSub_of_isNaN (h : (numOf f a).isNaN = true ∨ (numOf f b).isNaN = true) :
    fpSub f r a b = ⟨canonNaN f, nvIf ((numOf f a).snan || (numOf f b).snan)⟩ := by
  have hneg : (numOf f a).isNaN = true ∨ (numOf f b).neg.isNaN = true := by simpa using h
  simp [fpSub, addNum_of_isNaN r.mode hneg, roundNum]

theorem fpMul_of_isNaN (h : (numOf f a).isNaN = true ∨ (numOf f b).isNaN = true) :
    fpMul f r a b = ⟨canonNaN f, nvIf ((numOf f a).snan || (numOf f b).snan)⟩ := by
  simp [fpMul, mulNum_of_isNaN h, roundNum]

theorem fpDiv_of_isNaN (h : (numOf f a).isNaN = true ∨ (numOf f b).isNaN = true) :
    fpDiv f r a b = ⟨canonNaN f, nvIf ((numOf f a).snan || (numOf f b).snan)⟩ := by
  unfold fpDiv
  cases ha : numOf f a with
  | nan s => rfl
  | inf n | fin n m e =>
    cases hb : numOf f b with
    | nan s => rfl
    | inf k | fin k l j => simp [ha, hb, Num.isNaN] at h

theorem fpSqrt_of_isNaN (h : (numOf f a).isNaN = true) :
    fpSqrt f r a = ⟨canonNaN f, nvIf (numOf f a).snan⟩ := by
  unfold fpSqrt
  cases ha : numOf f a with
  | nan s => rfl
  | inf n | fin n m e => simp [ha, Num.isNaN] at h

/-- The product of a fused operation, or its addend, is a NaN; the flags are those of the product, and NV for a
    signalling addend. -/
theorem fpFma_of_isNaN
    (h : (numOf f a).isNaN = true ∨ (numOf f b).isNaN = true ∨ (numOf f c).isNaN = true) :
    fpFma f r a b c = ⟨canonNaN f, (mulNum (numOf f a) (numOf f b)).2 ||| nvIf (numOf f c).snan⟩ := by
  have hsum : (mulNum (numOf f a) (numOf f b)).1.isNaN = true ∨ (numOf f c).isNaN = true := by
    rcases h with ha | hb | hc
    · simp [mulNum_of_isNaN (.inl ha), Num.isNaN]
    · simp [mulNum_of_isNaN (.inr hb), Num.isNaN]
    · exact .inr hc
  simp [fpFma, addNum_of_isNaN r.mode hsum, roundNum]

end

/-- Settles O14: each operation by its lemma, and the flags of the fused one by those of the product. -/
theorem fpNaNsAreCanonical : Obligations.FpNaNsAreCanonical := by
  unfold Obligations.FpNaNsAreCanonical
  intro f r a b c _
  refine ⟨fun h => ⟨fpAdd_of_isNaN h, fpSub_of_isNaN h, fpMul_of_isNaN h, fpDiv_of_isNaN h⟩, fpSqrt_of_isNaN,
    fun h => ?_⟩
  rw [fpFma_of_isNaN h, flags_mulNum, nvIf_or]
  refine ⟨rfl, ?_, nvIf_eq_or _⟩
  simp only [nvIf_eq_flagNV, Bool.or_eq_true, infTimesZero_iff, or_right_comm, or_assoc]
  rw [and_comm (a := ∃ n, numOf f b = .inf n)]
  exact or_congr_right or_left_comm

end Sys2Proof.Machine

namespace Sys2Proof.Machine

/-! The bits of a value: its sign and its magnitude (R117, R118). -/

/-- The sign bit, among the bits of a format. -/
def signOf (f : Fmt) (b : Nat) : Bool := decide (b % 2 ^ (fform f).width / 2 ^ ((fform f).width - 1) = 1)

/-- The bits of a format below the sign: exponent and fraction. -/
def magOf (f : Fmt) (b : Nat) : Nat := b % 2 ^ (fform f).width % 2 ^ ((fform f).width - 1)

/-- The sign bit in its place. -/
def signBits (f : Fmt) (neg : Bool) : Nat := if neg then 2 ^ ((fform f).width - 1) else 0

section
variable {f : Fmt} {r : Rnd} {b : Nat}

theorem width_pos (f : Fmt) : 0 < (fform f).width := by cases f <;> decide

theorem fform_width (h : f.vecFloat = true) : (fform f).width = fmtWidth f := by
  cases f with
  | fp64 | fp32 | fp16 | bf16 => rfl
  | _ => cases h

theorem magOf_lt (f : Fmt) (b : Nat) : magOf f b < 2 ^ ((fform f).width - 1) := Nat.mod_lt _ (Nat.two_pow_pos _)

/-- The sign and the magnitude are all of the bits. -/
theorem signBits_add_magOf (f : Fmt) (b : Nat) : signBits f (signOf f b) + magOf f b = b % 2 ^ (fform f).width := by
  have hlt : b % 2 ^ (fform f).width / 2 ^ ((fform f).width - 1) < 2 := by
    rw [Nat.div_lt_iff_lt_mul (Nat.two_pow_pos _), ← Nat.pow_succ', Nat.succ_eq_add_one, Nat.sub_add_cancel (width_pos f)]
    exact Nat.mod_lt _ (Nat.two_pow_pos _)
  have hsign : signBits f (signOf f b) =
      2 ^ ((fform f).width - 1) * (b % 2 ^ (fform f).width / 2 ^ ((fform f).width - 1)) := by
    rcases Nat.lt_succ_iff_lt_or_eq.mp hlt with h0 | h1
    · simp [signBits, signOf, Nat.lt_one_iff.mp h0]
    · simp [signBits, signOf, h1]
  rw [hsign, magOf, Nat.div_add_mod]

/-- The exponent of the last place of the subnormal values. -/
def minUnit (f : Fmt) : Int := 1 - ((fform f).bias : Int) - (fform f).mbits

/-- The number that bits stand for, by their sign and magnitude (R118, R119). -/
theorem numOf_eq (f : Fmt) (b : Nat) : numOf f b =
    if (fform f).maxBits < magOf f b then
      if (fform f).inf && magOf f b % 2 ^ (fform f).mbits = 0 then .inf (signOf f b)
      else .nan ((fform f).inf && magOf f b % 2 ^ (fform f).mbits / 2 ^ ((fform f).mbits - 1) = 0)
    else if magOf f b / 2 ^ (fform f).mbits = 0 then .fin (signOf f b) (magOf f b % 2 ^ (fform f).mbits) (minUnit f)
    else .fin (signOf f b) (magOf f b % 2 ^ (fform f).mbits + 2 ^ (fform f).mbits)
      ((magOf f b / 2 ^ (fform f).mbits : Nat) - ((fform f).bias : Int) - (fform f).mbits) := rfl

/-- A magnitude with exponent field 0 stands for that many units. -/
theorem numOf_of_subnormal (hmax : magOf f b ≤ (fform f).maxBits) (hsub : magOf f b < 2 ^ (fform f).mbits) :
    numOf f b = .fin (signOf f b) (magOf f b) (minUnit f) := by
  rw [numOf_eq, if_neg (Nat.not_lt.mpr hmax), if_pos (Nat.div_eq_of_lt hsub), Nat.mod_eq_of_lt hsub]

/-- A magnitude with a greater exponent field stands for its fraction with the leading bit. -/
theorem numOf_of_normal (hmax : magOf f b ≤ (fform f).maxBits) (hnorm : 2 ^ (fform f).mbits ≤ magOf f b) :
    numOf f b = .fin (signOf f b) (magOf f b % 2 ^ (fform f).mbits + 2 ^ (fform f).mbits)
      (minUnit f + (magOf f b / 2 ^ (fform f).mbits - 1 : Nat)) := by
  have hex : 0 < magOf f b / 2 ^ (fform f).mbits := Nat.div_pos hnorm (Nat.two_pow_pos _)
  have hexp : minUnit f + (magOf f b / 2 ^ (fform f).mbits - 1 : Nat) =
      (magOf f b / 2 ^ (fform f).mbits : Nat) - ((fform f).bias : Int) - (fform f).mbits := by
    simp only [minUnit]
    omega
  rw [numOf_eq, if_neg (Nat.not_lt.mpr hmax), if_neg (Nat.ne_of_gt hex), hexp]

/-- Above the finite magnitudes of an IEEE format only the next has an empty fraction: that of the infinities (R119). -/
theorem magOf_of_emptyFraction (hf : f.vecFloat = true) (hmax : (fform f).maxBits < magOf f b)
    (hfrac : magOf f b % 2 ^ (fform f).mbits = 0) : magOf f b = (fform f).maxBits + 1 := by
  have hlt := magOf_lt f b
  generalize magOf f b = mag at *
  cases f with
  | fp64 | fp32 | fp16 | bf16 =>
    simp only [fform] at *
    omega
  | _ => cases hf

/-- Above the finite magnitudes, bits that are no NaN are those of an infinity. -/
theorem numOf_of_special (hf : f.vecFloat = true) (hmax : (fform f).maxBits < magOf f b) (hn : (numOf f b).isNaN = false) :
    numOf f b = .inf (signOf f b) ∧ magOf f b = (fform f).maxBits + 1 := by
  rw [numOf_eq, if_pos hmax] at hn ⊢
  split at hn
  case isTrue h =>
    obtain ⟨_, hfrac⟩ : (fform f).inf = true ∧ magOf f b % 2 ^ (fform f).mbits = 0 := by simpa using h
    exact ⟨if_pos h, magOf_of_emptyFraction hf hmax hfrac⟩
  case isFalse => cases hn

/-! Rounding of a number that is a whole number of its units (R123 to R125). -/

theorem unitsOf_self (m : Nat) (e : Int) : unitsOf m e e = (m, 0, 0) := by simp [unitsOf]

/-- With no remainder, no mode and no draw rounds away. -/
theorem roundsUp_exact (r : Rnd) (neg : Bool) (n : Nat) : roundsUp r neg n 0 0 = false := by
  have hdraw : r.rand % 2 ^ 24 < 2 ^ 24 := Nat.mod_lt _ (by decide)
  unfold roundsUp
  cases r.mode with
  | rne | rtz | rdn | rup => simp
  | rs => simpa using hdraw

theorem roundFin_zero (f : Fmt) (r : Rnd) (neg : Bool) (e : Int) : roundFin f r neg 0 e = ⟨signBits f neg, 0⟩ := by
  simp [roundFin, signBits]

/-- A magnitude whose exponent is that of its last place, within the finite values, is kept with no flag. -/
theorem roundFin_of_unit {neg : Bool} {m : Nat} {e : Int} (hm : m ≠ 0)
    (hq : max (e + m.log2 - (fform f).mbits) (minUnit f) = e)
    (hmax : (e - minUnit f).toNat * 2 ^ (fform f).mbits + m ≤ (fform f).maxBits) :
    roundFin f r neg m e = ⟨signBits f neg + ((e - minUnit f).toNat * 2 ^ (fform f).mbits + m), 0⟩ := by
  simp only [minUnit] at hq hmax
  simp [roundFin, signBits, minUnit, hm, hq, Nat.not_lt.mpr hmax, unitsOf_self, roundsUp_exact]

/-- A subnormal magnitude or zero is a number of the smallest units. -/
theorem roundFin_of_subnormal {neg : Bool} {m : Nat} (hmax : m ≤ (fform f).maxBits) (hsub : m < 2 ^ (fform f).mbits) :
    roundFin f r neg m (minUnit f) = ⟨signBits f neg + m, 0⟩ := by
  by_cases hm : m = 0
  · subst hm
    exact roundFin_zero ..
  · have hlog : m.log2 < (fform f).mbits := (Nat.log2_lt hm).mpr hsub
    have hround := roundFin_of_unit (f := f) (r := r) (neg := neg) (e := minUnit f) hm (by omega) (by simpa using hmax)
    simpa using hround

/-- A fraction with the leading bit, `k` exponents above the subnormal values, has its exponent and fraction for bits. -/
theorem roundFin_of_normal {neg : Bool} {man k : Nat} (hman : man < 2 ^ (fform f).mbits)
    (hmax : (k + 1) * 2 ^ (fform f).mbits + man ≤ (fform f).maxBits) :
    roundFin f r neg (man + 2 ^ (fform f).mbits) (minUnit f + k) =
      ⟨signBits f neg + ((k + 1) * 2 ^ (fform f).mbits + man), 0⟩ := by
  have hm : man + 2 ^ (fform f).mbits ≠ 0 := Nat.ne_of_gt (Nat.add_pos_right _ (Nat.two_pow_pos _))
  have hlog : (man + 2 ^ (fform f).mbits).log2 = (fform f).mbits :=
    (Nat.log2_eq_iff hm).mpr ⟨Nat.le_add_left .., by rw [Nat.pow_succ]; omega⟩
  have hunits : ((minUnit f + k) - minUnit f).toNat = k := by omega
  have hbits : k * 2 ^ (fform f).mbits + (man + 2 ^ (fform f).mbits) = (k + 1) * 2 ^ (fform f).mbits + man := by
    rw [Nat.succ_mul, Nat.add_comm man, Nat.add_assoc]
  have hround := roundFin_of_unit (f := f) (r := r) (neg := neg) (e := minUnit f + k) hm (by rw [hlog]; omega)
    (by rwa [hunits, hbits])
  rwa [hunits, hbits] at hround

/-- A finite value that some bits stand for rounds to those bits. -/
theorem roundNum_of_finite (hmax : magOf f b ≤ (fform f).maxBits) :
    roundNum f r (numOf f b) = ⟨b % 2 ^ (fform f).width, 0⟩ := by
  rw [← signBits_add_magOf]
  by_cases hsub : magOf f b < 2 ^ (fform f).mbits
  · rw [numOf_of_subnormal hmax hsub]
    exact roundFin_of_subnormal hmax hsub
  · have hnorm := Nat.not_lt.mp hsub
    have hex : magOf f b / 2 ^ (fform f).mbits - 1 + 1 = magOf f b / 2 ^ (fform f).mbits :=
      Nat.sub_add_cancel (Nat.div_pos hnorm (Nat.two_pow_pos _))
    have hmag : (magOf f b / 2 ^ (fform f).mbits - 1 + 1) * 2 ^ (fform f).mbits + magOf f b % 2 ^ (fform f).mbits = magOf f b := by
      rw [hex, Nat.div_add_mod']
    have hround := roundFin_of_normal (f := f) (r := r) (neg := signOf f b) (Nat.mod_lt _ (Nat.two_pow_pos _)) (Nat.le_trans (Nat.le_of_eq hmag) hmax)
    rw [hmag] at hround
    rw [numOf_of_normal hmax hnorm]
    exact hround

end

/-- Settles O15: the bits of an infinity are its sign and the magnitude above the finite ones. -/
theorem roundingKeepsRepresentable : Obligations.RoundingKeepsRepresentable := by
  unfold Obligations.RoundingKeepsRepresentable
  intro f r b hf hn
  rw [← fform_width hf]
  by_cases hmax : magOf f b ≤ (fform f).maxBits
  · exact roundNum_of_finite hmax
  · obtain ⟨hinf, hmag⟩ := numOf_of_special hf (Nat.not_le.mp hmax) hn
    rw [hinf, ← signBits_add_magOf, hmag]
    rfl

end Sys2Proof.Machine

namespace Sys2Proof.Machine

/-! Words put together from fields. -/

/-- A field above another, as bits. -/
theorem ofNat_field_add {w a b k : Nat} (h : b < 2 ^ k) :
    BitVec.ofNat w (a * 2 ^ k + b) = (BitVec.ofNat w a <<< k) ||| BitVec.ofNat w b := by
  have high : BitVec.ofNat w (2 ^ k * a) = BitVec.ofNat w a <<< k := by
    apply BitVec.eq_of_toNat_eq
    simp [Nat.shiftLeft_eq, Nat.mul_comm]
  rw [Nat.mul_comm, Nat.two_pow_add_eq_or_of_lt h, BitVec.ofNat_or, high]

/-- A flag in its place. -/
theorem ofNat_flag (b : Bool) (k : Nat) : BitVec.ofNat 64 b.toNat <<< k = ((if b = true then 2 ^ k else 0 : Nat) : Word) := by
  apply BitVec.eq_of_toNat_eq
  cases b <;> simp [Nat.shiftLeft_eq]

/-- The flags of the word of QSTAT stand above its counts. -/
theorem qstatWord_fields (p : Port) :
    qstatWord p = BitVec.ofNat 64 (p.desc.toNat * 2 ^ 32 + (p.drop.toNat * 2 ^ 18
      + (((p.inb.head?.map (·.ctl)).getD false).toNat * 2 ^ 17 + (p.win.length * 2 ^ 10 + p.inb.length)))) := by
  have flag : ∀ (b : Bool) (k : Nat), (if b = true then 2 ^ k else 0) = b.toNat * 2 ^ k := fun b k => by cases b <;> simp
  simp only [qstatWord, flag, Nat.add_assoc]

/-- The value of QSTAT, field by field (R269). -/
theorem qstatWord_eq (p : Port) (hw : p.win.length ≤ 32) (hb : p.inb.length ≤ 8) :
    qstatWord p = ((p.desc.setWidth 64 <<< 32) ||| (if p.drop then 0x40000 else 0)
      ||| (if (p.inb.head?.map (·.ctl)) = some true then 0x20000 else 0)
      ||| (BitVec.ofNat 64 p.win.length <<< 10) ||| BitVec.ofNat 64 p.inb.length) := by
  have hctl : (p.inb.head?.map (·.ctl)).getD false = true ↔ p.inb.head?.map (·.ctl) = some true := by
    cases p.inb.head?.map (·.ctl) <;> simp
  have hd := Bool.toNat_lt p.drop
  have hc := Bool.toNat_lt ((p.inb.head?.map (·.ctl)).getD false)
  have hdesc : BitVec.ofNat 64 p.desc.toNat = p.desc.setWidth 64 := BitVec.ofNat_toNat ..
  rw [qstatWord_fields, ofNat_field_add (by omega), ofNat_field_add (by omega), ofNat_field_add (by omega),
    ofNat_field_add (by omega), ofNat_flag, ofNat_flag, hdesc]
  simp only [hctl, BitVec.or_assoc, Nat.reducePow]

/-! What a send leaves of its thread (R190, R266). -/

theorem portOf_setPort_ne (t : Thread) {p q : PReg} (x : Port) (h : p ≠ q) : portOf (setPort t q x) p = portOf t p :=
  Vector.getElem_set_ne (xs := t.ports) q.isLt p.isLt fun e => h (BitVec.eq_of_toNat_eq e.symm)

/-- The release of a send joins the accesses of its thread. -/
theorem pushAccess_send (s : State) (t : Thread) (sc : Scope) :
    ∃ a, (pushAccess s t (sendAccess sc)).2 = { t with pipe := { t.pipe with acc := t.pipe.acc ++ [a] } }
      ∧ a.id = s.nextId ∧ a.kind = .send ∧ a.ord = .rel ∧ a.scope = sc :=
  ⟨_, rfl, rfl, rfl, rfl, rfl⟩

/-- The word that a send puts into the replay window: under the descriptor in force, behind its release. -/
def sentBy (s : State) (l : Loc) (t : Thread) (q : PReg) (ctl : Bool) (v : Word) : SentWord where
  w := ⟨ctl, v, portScope s l (portOf t q).desc⟩
  desc := (portOf t q).desc
  rel := s.nextId
  flying := true
  due := 0
  tries := 1

/-- What a send does to its thread: the release of the port's scope, and the word at the end of the replay window. -/
structure Sends (s : State) (l : Loc) (t : Thread) (q : PReg) (ctl : Bool) (v : Word) (t' : Thread) : Prop where
  window : (portOf t' q).win = (portOf t q).win ++ [sentBy s l t q ctl v]
  buffer : (portOf t' q).inb = (portOf t q).inb
  others : ∀ p, p ≠ q → portOf t' p = portOf t p
  regs : t'.regs = t.regs
  release : ∃ a ∈ t'.pipe.acc, a.id = s.nextId ∧ a.kind = .send ∧ a.ord = .rel ∧ a.scope = portScope s l (portOf t q).desc

theorem sendWord_sends (s : State) (l : Loc) (t : Thread) (q : PReg) (ctl : Bool) (v : Word) :
    Sends s l t q ctl v (sendWord s l t q ctl v).2 := by
  obtain ⟨a, ha, hrel⟩ := pushAccess_send s t (portScope s l (portOf t q).desc)
  simp only [sendWord, ha]
  refine ⟨?_, ?_, fun p hp => portOf_setPort_ne _ _ hp, rfl, a, List.mem_append_right _ (List.mem_singleton_self a), hrel⟩
  · rw [portOf_setPort_same]; rfl
  · rw [portOf_setPort_same]; rfl

theorem sendWord_threads (s : State) (l : Loc) (t : Thread) (q : PReg) (ctl : Bool) (v : Word) :
    (sendWord s l t q ctl v).1.threads = s.threads := by
  simp [sendWord, pushAccess_state]

theorem sendWord_cur (s : State) (l : Loc) (t : Thread) (q : PReg) (ctl : Bool) (v : Word) :
    (sendWord s l t q ctl v).1.cur = s.cur := by
  simp [sendWord, pushAccess_state]

/-- An issue that pops no port leaves every port as it was. -/
theorem portOf_charge {i : Instr} (s : State) (t : Thread) (h : (usesOf i).pops = []) (q : PReg) :
    portOf (charge s t i) q = portOf t q := by
  obtain ⟨p, hp, _⟩ := charge_of_no_pops s t h
  rw [hp]
  rfl

/-! QBIND, QEND and QSTAT (R265, R266, R269, R382). -/

section
variable {s : State} {t : Thread} {d : Dep}

theorem exec_qbind {q : PReg} {ra : XReg} (h : Issues s t (.qbind d q ra)) :
    exec (.qbind d q ra) s = .next (setThread s s.cur (setPort (issuedThread s t (.qbind d q ra)) q
      { portOf t q with desc := (xval t ra).setWidth 32 })) := by
  show execQbind d q ra s = _
  rw [execQbind, issueThread_of_no_pops h rfl, issuedThread_of_no_pops s t rfl, portOf_charge s t rfl]

theorem exec_qend {q : PReg} {ra : XReg} (h : Issues s t (.qend d q ra)) :
    ∃ s' t', exec (.qend d q ra) s = .next s' ∧ s'.threads = (setThread s s.cur t').threads
      ∧ Sends s s.cur (charge s t (.qend d q ra)) q true (xval t ra) t' := by
  let sent := sendWord s s.cur (charge s t (.qend d q ra)) q true (xval t ra)
  have he : execQend d q ra s = .next (setThread sent.1 sent.1.cur sent.2) := issue_of_effect h rfl rfl
  refine ⟨_, sent.2, he, ?_, sendWord_sends ..⟩
  rw [sendWord_cur, setThread, setThread, sendWord_threads]

theorem exec_qstat {rd : XReg} {q : PReg} (h : Issues s t (.qstat d rd q)) :
    exec (.qstat d rd q) s = .next (variableResult s
      (setPort (issuedThread s t (.qstat d rd q)) q { portOf t q with drop := false }) d.sa [wrX rd (qstatWord (portOf t q))] 0) := by
  show execQstat d rd q s = _
  refine issue_of_effect h rfl ?_
  rw [issuedThread_of_no_pops s t rfl, portOf_charge s t rfl]

end

/-- Settles O38: the binding and the status by their equations, the control value as any send. -/
theorem portInstructionsComplete : Obligations.PortInstructionsComplete := by
  unfold Obligations.PortInstructionsComplete
  refine ⟨fun d q ra s t h => exec_qbind h, fun d q ra s t h => ?qend, fun d rd q s t h hw hb => ?qstat⟩
  case qend =>
    obtain ⟨s', t', he, ht, hs⟩ := exec_qend h
    have port := portOf_charge (i := .qend d q ra) s t rfl
    have regs : (charge s t (.qend d q ra)).regs = t.regs := by rw [← issuedThread_of_no_pops s t rfl, issuedThread_regs]
    rw [← port q]
    exact ⟨s', t', _, he, ht, hs.regs.trans regs, hs.window, hs.buffer, rfl, rfl, rfl, rfl, hs.release,
      fun p hp => (hs.others p hp).trans (port p)⟩
  case qstat => rw [exec_qstat h, qstatWord_eq _ hw hb]

end Sys2Proof.Machine

namespace Sys2Proof.Machine

/-! What the operations on memory leave: the cores, the copies under way, and each thread but for its issue state, which
notes the end of a replication (R164). -/

/-- The work of the package is kept: its cores, its copies, and of each thread all but the issue state. -/
structure WorkKept (s s' : State) : Prop where
  cores : s'.cores = s.cores
  copies : s'.flight.copies = s.flight.copies
  threads : ∀ l t, thread? s l = some t → ∃ p, thread? s' l = some { t with pipe := p }

theorem WorkKept.of_eq {s s' : State} (hc : s'.cores = s.cores) (hf : s'.flight.copies = s.flight.copies)
    (ht : s'.threads = s.threads) : WorkKept s s' where
  cores := hc
  copies := hf
  threads _ t h := ⟨t.pipe, by rw [thread?, ht]; exact h⟩

theorem WorkKept.refl (s : State) : WorkKept s s := .of_eq rfl rfl rfl

theorem WorkKept.trans {s s' s'' : State} (h : WorkKept s s') (h' : WorkKept s' s'') : WorkKept s s'' where
  cores := h'.cores.trans h.cores
  copies := h'.copies.trans h.copies
  threads l t ht := by
    obtain ⟨p, hp⟩ := h.threads l t ht
    obtain ⟨p', hp'⟩ := h'.threads l _ hp
    exact ⟨p', hp'⟩

theorem WorkKept.foldl {β : Type} {s s' : State} {f : State → β → State} (hf : ∀ s b, WorkKept s (f s b)) (bs : List β)
    (h : WorkKept s s') : WorkKept s (bs.foldl f s') :=
  foldl_keeps (WorkKept s) f (fun _ _ hs => hs.trans (hf _ _)) bs s' h

/-- A change of the issue state of every thread is none of their work. -/
theorem WorkKept.of_map_pipe {s s' : State} (f : Pipe → Pipe) (hc : s'.cores = s.cores)
    (hf : s'.flight.copies = s.flight.copies)
    (ht : s'.threads = s.threads.map fun e => (e.1, { e.2 with pipe := f e.2.pipe })) : WorkKept s s' where
  cores := hc
  copies := hf
  threads l t h := by
    refine ⟨f t.pipe, ?_⟩
    unfold thread? at h ⊢
    rw [ht]
    generalize s.threads = m at h
    induction m with
    | nil => cases h
    | cons e m ih =>
      rw [List.map_cons, mget_cons]
      rw [mget_cons] at h
      split at h
      next hk => rw [if_pos hk, ← Option.some.inj h]
      next hk => rw [if_neg hk, ih h]

section
variable (s : State)

theorem workKept_drawn : WorkKept s (drawn s) := .of_eq rfl rfl rfl

theorem workKept_drawnBy (n : Nat) : WorkKept s (drawnBy n s) := .of_eq rfl rfl rfl

/-! Counting, and the L2 slices. -/

theorem workKept_tallyDie (d src n : Nat) : WorkKept s (tallyDie s d src n) := by
  unfold tallyDie
  split <;> exact .of_eq rfl rfl rfl

theorem workKept_tally (c src n : Nat) : WorkKept s (tally s c src n) := by
  unfold tally
  split <;> exact .of_eq rfl rfl rfl

theorem workKept_tallyHbm (k l src : Nat) : WorkKept s (tallyHbm s k l src) := by
  unfold tallyHbm
  split
  · exact workKept_tallyDie s _ _ _
  · exact .refl s

theorem workKept_setL2 (k : Nat) (m : SMap Bool) : WorkKept s (setL2 s k m) := .of_eq rfl rfl rfl

theorem workKept_lineGone (k n : Nat) (d : Bool) : WorkKept s (lineGone s k n d) := by
  unfold lineGone
  simp only
  split
  · exact .refl s
  · have good : ∀ (b : Bool) (q : Store), WorkKept s (if b = true then s else { s with store := q }) := fun b q => by
      split
      · exact .refl s
      · exact .of_eq rfl rfl rfl
    split
    · exact (good _ _).trans (workKept_tallyHbm _ _ _ _)
    · exact good _ _

theorem workKept_l2Put (k n : Nat) (d : Bool) : WorkKept s (l2Put s k n d) := by
  have read : WorkKept s (if homeSlice (n % 2 ^ 45 * 128) = k then
      tallyHbm (tallyHbm s k (n % 2 ^ 45) 0x100) k (n % 2 ^ 45) 0x101 else s) := by
    split
    · exact (workKept_tallyHbm s _ _ _).trans (workKept_tallyHbm _ _ _ _)
    · exact .refl s
  unfold l2Put
  simp only
  split
  · split
    · exact .refl s
    · exact workKept_setL2 s _ _
  · split
    · exact read.trans (workKept_setL2 _ _ _)
    · exact (read.trans (workKept_lineGone _ _ _ _)).trans (.of_eq rfl rfl rfl)

theorem workKept_l2Del (k n : Nat) : WorkKept s (l2Del s k n) := by
  unfold l2Del
  split
  · exact (workKept_setL2 s _ _).trans (workKept_lineGone _ _ _ _)
  · exact .refl s

theorem workKept_l2Keep (p : Nat → Nat → Bool) : WorkKept s (l2Keep s p) :=
  .foldl (fun s _ => workKept_lineGone s _ _ _) _ (.of_eq rfl rfl rfl)

theorem workKept_l2Reach (key pa n : Nat) : WorkKept s (l2Reach s key pa n) := by
  unfold l2Reach
  simp only
  split
  · exact .refl s
  · exact .foldl (fun s _ => workKept_l2Put s _ _ _) _ (.refl s)

theorem workKept_l2Write (key line : Nat) : WorkKept s (l2Write s key line) := by
  have near : ∀ ds : List Nat,
      WorkKept s (ds.foldl (fun s d => l2Del s (256 * d + sliceOf (line * 128)) (lineKey key line)) s) :=
    fun ds => .foldl (fun s _ => workKept_l2Del s _ _) ds (.refl s)
  unfold l2Write
  simp only
  split
  · exact (near _).trans (workKept_l2Put _ _ _ _)
  · exact near _

/-! Home memory. -/

theorem workKept_sendSub (k c n : Nat) (b : SubBody) : WorkKept s (sendSub s k c n b) := .of_eq rfl rfl rfl

theorem workKept_pushWord (key w : Nat) : WorkKept s (pushWord s key w) :=
  .foldl (fun s _ => workKept_sendSub s _ _ _ _) _ (.refl s)

theorem workKept_homeWrites (key : Nat) (bs : List (Nat × Byte)) (bad : List Nat) :
    WorkKept s (homeWrites s key bs bad) := by
  unfold homeWrites
  simp only
  split
  · exact .refl s
  · split
    · exact .refl s
    · exact .foldl (fun s w => workKept_pushWord s key w) _
        (.foldl (fun s l => workKept_l2Write s key l) _ (.of_eq rfl rfl rfl))

theorem workKept_freeHalf (key half : Nat) : WorkKept s (freeHalf s key half) := .of_eq rfl rfl rfl

theorem workKept_recallTable (key half : Nat) : WorkKept s (recallTable key s half) := by
  unfold recallTable putHalf
  split
  · exact ((workKept_freeHalf s _ _).trans (workKept_drawnBy _ _)).trans (workKept_homeWrites _ _ _ _)
  · exact (workKept_freeHalf s _ _).trans (workKept_drawn _)

/-! Replicated pages. -/

theorem workKept_endReplicas (pa size pte key : Nat) : WorkKept s (endReplicas s pa size pte key) := by
  unfold endReplicas
  simp only
  refine .trans (.trans ?leaves (workKept_l2Keep _ _)) (.of_eq rfl rfl rfl)
  case leaves =>
    refine .foldl (fun s a => ?_) _ (.refl s)
    exact .trans (.foldl (fun s h => workKept_recallTable s key h) _ (.refl s)) (workKept_homeWrites _ _ _ _)

theorem workKept_collapsePage (pa size pte key id : Nat) : WorkKept s (collapsePage s pa size pte key id) :=
  (workKept_endReplicas s pa size pte key).trans (.of_map_pipe (Pipe.released · pa size id) rfl rfl rfl)

theorem workKept_collapseAt (pa : Nat) : WorkKept s (collapseAt s pa) := by
  unfold collapseAt collapseNow
  split
  · exact (workKept_collapsePage s _ _ _ _ _).trans (workKept_tallyDie _ _ _ _)
  · exact .refl s

theorem workKept_callCollapse (e : TlbEntry) : WorkKept s (callCollapse s e).1 := by
  unfold callCollapse
  split <;> exact .of_eq rfl rfl rfl

theorem workKept_endReplicasAt (pa : Nat) : WorkKept s (endReplicasAt s pa) := by
  unfold endReplicasAt
  split
  · exact (workKept_callCollapse s _).trans (workKept_endReplicas _ _ _ _ _)
  · exact .refl s

theorem workKept_recallNow (key half : Nat) : WorkKept s (recallNow key s half) := by
  unfold recallNow putHalf
  simp only
  split
  · exact (((workKept_freeHalf s _ _).trans (workKept_drawnBy _ _)).trans (workKept_endReplicasAt _ _)).trans
      (workKept_homeWrites _ _ _ _)
  · exact (workKept_freeHalf s _ _).trans (workKept_drawn _)

theorem workKept_recallHalves (key : Nat) (halves : List Nat) : WorkKept s (recallHalves s key halves) :=
  .foldl (fun s h => workKept_recallNow s key h) _ (.refl s)

/-! Write-backs. -/

theorem workKept_viewSet (c key pa : Nat) (v : VByte) : WorkKept s (viewSet s c key pa v) := by
  unfold viewSet
  simp only
  split <;> exact .of_eq rfl rfl rfl

theorem workKept_wbLine (c key line : Nat) : WorkKept s (wbLine s c key line) := by
  unfold wbLine
  split
  · exact .refl s
  · exact .foldl (fun s e => workKept_viewSet s c key _ _) _
      (((workKept_collapseAt s _).trans (workKept_recallHalves _ _ _)).trans (workKept_homeWrites _ _ _ _))

theorem workKept_wbLines (c : Nat) (es : List (Nat × Nat)) :
    WorkKept s (es.foldl (fun s e => wbLine s c e.1 e.2) s) := by
  refine .foldl (fun s e => ?_) es (.refl s)
  exact workKept_wbLine s c e.1 e.2

theorem workKept_wbAll (c key : Nat) : WorkKept s (wbAll s c key) := workKept_wbLines s c _

theorem workKept_copyIssueActs (c : CopyOp) : WorkKept s (copyIssueActs s c) := by
  unfold copyIssueActs
  simp only
  split
  · exact (workKept_wbLines s c.clu _).trans (workKept_wbAll _ _ _)
  · exact workKept_wbLines s c.clu _

/-! Translation. -/

theorem workKept_recallWalk (c : Ctx) (va : Nat) : WorkKept s (recallWalk s c va) :=
  .foldl (fun s _ => .foldl (fun s _ => (workKept_recallHalves s _ _).trans (workKept_l2Reach _ _ _ _)) _ (.refl s)) _ (.refl s)

theorem workKept_tlbFill (c : Ctx) (e : TlbEntry) : WorkKept s (tlbFill s c e) := by
  unfold tlbFill
  simp only
  repeat' split
  all_goals exact .of_eq rfl rfl rfl

theorem workKept_translate (c : Ctx) (va : Nat) : WorkKept s (translate s c va).2 := by
  have counted : WorkKept s (match c.clu with
      | some k => tally s k 0x20 1
      | none => s) := by
    split
    · exact workKept_tally s _ _ _
    · exact .refl s
  unfold translate
  simp only
  split
  · exact .refl s
  · split
    · exact counted.trans (workKept_tlbFill _ _ _)
    · have walked := (counted.trans (workKept_tallyDie _ c.die 0x104 1)).trans (workKept_recallWalk _ c va)
      split
      · exact (walked.trans (workKept_tlbFill _ _ _)).trans (.of_eq rfl rfl rfl)
      · exact walked.trans (.of_eq rfl rfl rfl)

theorem workKept_xlateByte (c : Ctx) (n : Need) (va : Nat) : WorkKept s (xlateByte s c n va).2 := by
  have h := workKept_translate s c va
  unfold xlateByte
  split
  next he => rwa [he] at h
  next he => rwa [he] at h
  next he =>
    rw [he] at h
    split <;> exact h

theorem workKept_pagesFound (c : Ctx) (k va off n : Nat) : WorkKept s (pagesFound c k va off n s).2 := by
  induction k generalizing va off n s with
  | zero => exact .refl s
  | succ k ih =>
    rw [pagesFound]
    split
    · exact .refl s
    · simp only
      split <;> exact (workKept_xlateByte s c _ va).trans (ih _ _ _ _)

theorem workKept_sideFound (c : CopyOp) (a : Word) (remote : Bool) : WorkKept s (sideFound s c a remote).2 := by
  unfold sideFound rangeFound
  split
  · exact .refl s
  · split
    · exact .refl s
    · exact workKept_pagesFound s _ _ _ _ _
    · exact .refl s

end

end Sys2Proof.Machine

namespace Sys2Proof.Machine

/-! COPY, COPY.NB and COPYQ (R256, R258, R260, R261). -/

/-- The completion value of COPY.NB with a full FIFO: status 1 and nothing done (R258). -/
theorem tokenWord_busy (xseq : BitVec 16) (rd : XReg) :
    tokenWord xseq 1 rd 0 = (xseq.setWidth 64 <<< 48) ||| (1 <<< 40) ||| (rd.setWidth 64 <<< 32) := by
  have hrd := rd.isLt
  have hx : BitVec.ofNat 64 xseq.toNat = xseq.setWidth 64 := BitVec.ofNat_toNat ..
  have hr : BitVec.ofNat 64 rd.toNat = rd.setWidth 64 := BitVec.ofNat_toNat ..
  have fields : tokenWord xseq 1 rd 0 =
      BitVec.ofNat 64 (xseq.toNat * 2 ^ 48 + (1 * 2 ^ 40 + (rd.toNat * 2 ^ 32 + 0))) := by
    simp only [tokenWord, Nat.add_assoc]
  rw [fields, ofNat_field_add (by omega), ofNat_field_add (by omega), ofNat_field_add (by omega), hx, hr, BitVec.or_assoc]
  simp

/-- What a thread asks of a copy when it issues one, whatever the engine notes besides (R256, R261). -/
structure Asked (s : State) (t : Thread) (rd ra : XReg) (send : Option (PReg × BitVec 32 × Scope)) (c : CopyOp) : Prop where
  id : c.id = s.nextId
  uid : c.uid = t.uid
  clu : c.clu = s.cur.clu
  core : c.core = s.cur.core
  reg : c.reg = rd
  xseq : c.xseq = (coreOf s s.cur.coreIdx).xseq
  src : c.src = xval t ra
  dst : c.dst = xval t (ra + 1)
  w2 : c.w2 = xval t (ra + 2)
  hnd : c.hnd = xval t (ra + 3)
  key : c.key = t.csr.keyid.toNat
  user : c.user = !supLevel s.cur t
  send : c.send = send
  packet : c.packet = none

section
variable {s : State} {t t1 : Thread} {rd ra : XReg} {send : Option (PReg × BitVec 32 × Scope)}

/-- A request judged at issue is still what the thread asks. -/
theorem Asked.begun {c : CopyOp} (h : Asked s t rd ra send c) : Asked s t rd ra send (begun c) := by
  unfold Machine.begun
  split
  · exact { h with }
  · split
    · exact { h with }
    · split
      · exact { h with }
      · exact { h with }

/-- What the acceptance of a copy leaves: the copy, in the FIFO of its core, the next count, and the token register of its
    thread empty (R260, R261). -/
structure Accepted (s : State) (t1 : Thread) (rd : XReg) (c : CopyOp) (s' : State) : Prop where
  copy : c ∈ s'.flight.copies
  fifo : (coreOf s' s.cur.coreIdx).fifo = (coreOf s s.cur.coreIdx).fifo ++ [s.nextId]
  xseq : (coreOf s' s.cur.coreIdx).xseq = (coreOf s s.cur.coreIdx).xseq + 1
  thread : ∃ p, thread? s' s.cur = some { emptyToken t1 rd with pipe := p }
  others : othersKept s s' s.cur

/-- What happens to memory afterwards takes nothing of it back. -/
theorem Accepted.of_workKept {c : CopyOp} {s' s'' : State} (h : Accepted s t1 rd c s') (hk : WorkKept s' s'') :
    Accepted s t1 rd c s'' where
  copy := by rw [hk.copies]; exact h.copy
  fifo := by rw [coreOf, hk.cores]; exact h.fifo
  xseq := by rw [coreOf, hk.cores]; exact h.xseq
  thread := by
    obtain ⟨p, hp⟩ := h.thread
    obtain ⟨p', hp'⟩ := hk.threads _ _ hp
    exact ⟨p', hp'⟩
  others m hm u hu := by
    obtain ⟨p, hp⟩ := h.others m hm u hu
    obtain ⟨p', hp'⟩ := hk.threads _ _ hp
    exact ⟨p', hp'⟩

/-- The copy itself may go on. -/
theorem Accepted.putCopy {c c' : CopyOp} {s' : State} (h : Accepted s t1 rd c s') (hid : c.id = c'.id) :
    Accepted s t1 rd { c' with ready := c'.ready || (c'.chunks.isEmpty && c'.got.isEmpty) } (putCopy s' c') where
  copy := List.mem_map.mpr ⟨c, h.copy, if_pos hid⟩
  fifo := h.fifo
  xseq := h.xseq
  thread := h.thread
  others := h.others

/-- The state `f`, in which the ranges of a copy have been found, with the copy accepted. -/
def accept (s f : State) (t1 : Thread) (rd : XReg) (c : CopyOp) : State :=
  let k := coreOf s s.cur.coreIdx
  let s2 := setCore (setThread f s.cur (emptyToken t1 rd)) s.cur.coreIdx { k with xseq := k.xseq + 1, fifo := k.fifo ++ [c.id] }
  { s2 with nextId := s2.nextId + 1, flight := { s2.flight with copies := s2.flight.copies ++ [c] } }

theorem accept_accepted {c : CopyOp} {f : State} (hid : c.id = s.nextId) (hf : WorkKept s f) :
    Accepted s t1 rd c (accept s f t1 rd c) where
  copy := List.mem_append_right _ (List.mem_singleton_self c)
  fifo := by rw [← hid]; exact congrArg Core.fifo (core_setCore ..)
  xseq := congrArg Core.xseq (core_setCore ..)
  thread := ⟨t1.pipe, thread_setThread ..⟩
  others m hm u hu := by
    obtain ⟨p, hp⟩ := hf.threads m u hu
    exact ⟨p, (thread_setThread_ne f _ hm).trans hp⟩

/-- The actions of issue, where they are free, leave the copy accepted. -/
theorem accept_acts {c : CopyOp} {f : State} (h : Asked s t rd ra send c) (hf : WorkKept s f) :
    ∃ c', Asked s t rd ra send c' ∧ Accepted s t1 rd c'
      (if wbFree (accept s f t1 rd c) c then
        putCopy (copyIssueActs (accept s f t1 rd c) c) { c with wb := false } else accept s f t1 rd c) := by
  have ha : Accepted s t1 rd c (accept s f t1 rd c) := accept_accepted h.id hf
  split
  · refine ⟨_, ?_, (ha.of_workKept (workKept_copyIssueActs _ c)).putCopy (c' := { c with wb := false }) rfl⟩
    exact { h with }
  · exact ⟨c, h, ha⟩

/-- Every copy that is begun is accepted as it was asked for. -/
theorem startCopy_accepts (s : State) (t t1 : Thread) (rd ra : XReg) (send : Option (PReg × BitVec 32 × Scope)) :
    ∃ c, Asked s t rd ra send c ∧ Accepted s t1 rd c (startCopy s t t1 rd ra send) := by
  have first : reqWord t ra 0 = xval t ra := congrArg (xval t) (BitVec.add_zero ra)
  refine accept_acts (.begun ?asked) ((workKept_sideFound s _ _ _).trans (workKept_sideFound _ _ _ _))
  exact ⟨rfl, rfl, rfl, rfl, rfl, rfl, first, rfl, rfl, rfl, rfl, rfl, rfl, rfl⟩

theorem startCopy_begun (s : State) (t : Thread) (i : Instr) (rd ra : XReg) (send : Option (PReg × BitVec 32 × Scope)) :
    CopyBegun s t i rd ra send (startCopy s t (issuedThread s t i) rd ra send) := by
  obtain ⟨c, asked, h⟩ := startCopy_accepts s t (issuedThread s t i) rd ra send
  obtain ⟨hid, huid, hclu, hcore, hreg, hxseq, hsrc, hdst, hw2, hhnd, hkey, huser, hsend, hpacket⟩ := asked
  exact ⟨⟨c, h.copy, hid, huid, hclu, hcore, hreg, hxseq, hsrc, hdst, hw2, hhnd, hkey, huser, hsend, hpacket⟩, h.fifo, h.xseq,
    h.thread, h.others⟩

/-- An instruction whose effect is to start a copy begins it. -/
theorem issue_begins {i : Instr} {body : Thread → Thread → State → Effect} (h : Issues s t i) (hp : (usesOf i).pops = [])
    (hb : body t (charge s t i) s = .ok (startCopy s t (charge s t i) rd ra send)) :
    ∃ s', issue i s body = .next s' ∧ CopyBegun s t i rd ra send s' := by
  refine ⟨_, issue_of_effect h hp hb, ?_⟩
  rw [← issuedThread_of_no_pops s t hp]
  exact startCopy_begun s t i rd ra send

variable {d : Dep}

theorem exec_copy (h : Issues s t (.copy d rd ra)) :
    ∃ s', exec (.copy d rd ra) s = .next s' ∧ CopyBegun s t (.copy d rd ra) rd ra none s' := by
  show ∃ s', execCopy d rd ra s = .next s' ∧ _
  exact issue_begins h rfl rfl

theorem exec_copyNb_room (h : Issues s t (.copyNb d rd ra)) (hf : (coreOf s s.cur.coreIdx).fifo.length < 16) :
    ∃ s', exec (.copyNb d rd ra) s = .next s' ∧ CopyBegun s t (.copyNb d rd ra) rd ra none s' := by
  show ∃ s', execCopyNb d rd ra s = .next s' ∧ _
  exact issue_begins h rfl (if_pos hf)

theorem exec_copyNb_full (h : Issues s t (.copyNb d rd ra)) (hf : 16 ≤ (coreOf s s.cur.coreIdx).fifo.length) :
    exec (.copyNb d rd ra) s = .next (setThread s s.cur (takeToken (issuedThread s t (.copyNb d rd ra)) rd
      (tokenWord (coreOf s s.cur.coreIdx).xseq 1 rd 0) none)) := by
  show execCopyNb d rd ra s = _
  rw [issuedThread_of_no_pops s t rfl]
  exact issue_of_effect h rfl (if_neg (Nat.not_lt.mpr hf))

section
variable {q : PReg} (h : Issues s t (.copyq d rd ra q))
include h

theorem exec_copyq_bound (hb : bindingOk (portOf t q).desc = true) : ∃ s', exec (.copyq d rd ra q) s = .next s'
    ∧ CopyBegun s t (.copyq d rd ra q) rd ra (some (q, (portOf t q).desc, portScope s s.cur (portOf t q).desc)) s' := by
  show ∃ s', execCopyq d rd ra q s = .next s' ∧ _
  refine issue_begins h rfl ?_
  simp [hb]

theorem exec_copyq_unbound (hb : bindingOk (portOf t q).desc = false) :
    exec (.copyq d rd ra q) s = .next (raiseTrap s s.cur t ⟨.operand, 64 + q.setWidth 64⟩) := by
  have hq : BitVec.ofNat 64 (64 + q.toNat) = 64 + q.setWidth 64 := by rw [BitVec.ofNat_add, BitVec.ofNat_toNat]; rfl
  show execCopyq d rd ra q s = _
  refine issue_of_check h rfl ?_
  simp [hb, hq]

end

end

/-- Settles O39: each instruction by whether it begins a copy; the token of a full FIFO by its fields. -/
theorem copyInstructionsComplete : Obligations.CopyInstructionsComplete := by
  unfold Obligations.CopyInstructionsComplete
  refine ⟨fun d rd ra s t h => exec_copy h, fun d rd ra s t h => ⟨exec_copyNb_room h, fun hf => ?full⟩,
    fun d rd ra q s t h => ⟨exec_copyq_bound h, exec_copyq_unbound h⟩⟩
  case full =>
    refine ⟨_, exec_copyNb_full h hf, ?_, ?_⟩
    · rw [← tokenWord_busy, takeToken, issuedThread_regs]
    · rw [← nextPc_eq_pcAfter, ← issuedThread_pc s t (.copyNb d rd ra)]
      rfl

end Sys2Proof.Machine
